-- ==== Sys2Proof/Word.lean ====
section
/-! DEFINITION. The two word sizes the block moves: a 32-bit register or WORDMEM word (00_scope.md R12, 10_state.md R20) and a byte of BYTEMEM. -/

namespace Sys2Proof

/-- A register, a WORDMEM word or a histogram counter (10_state.md R20, R30, R31). -/
abbrev Word := BitVec 32

/-- A byte of BYTEMEM (10_state.md R29). -/
abbrev Byte := BitVec 8

end Sys2Proof
end

