-- ==== Sys2Proof/Config.lean ====
section
/-! DEFINITION. What one implementation fixes (00_scope.md R10, R11) and the values the spec leaves unspecified (93_implementation_defined.md). -/

namespace Sys2Proof

/-- The open parameters of 00_scope.md R10. They are the contents of the CAP_* registers (10_state.md R26), so State carries them and every statement ranges over them. -/
structure Params where
  /-- BITMEM_BITS, 1 .. 2^32 - 1. -/
  bitmemBits : Word
  /-- BYTEMEM_BYTES, 1 .. 2^32 - 1. -/
  bytememBytes : Word
  /-- WORDMEM_WORDS, 1 .. 2^32 - 1. -/
  wordmemWords : Word
  /-- HIST_CAP, 256 + 2^(L_MAX+1) .. 2^32 - 1. -/
  histCap : Word
  /-- L_MAX, 5 .. 16. -/
  lMax : BitVec 5
  deriving DecidableEq, Repr

/-- The ranges 00_scope.md R10 gives the parameters. -/
def Params.legal (c : Params) : Bool :=
  decide (1 ≤ c.bitmemBits.toNat) && decide (1 ≤ c.bytememBytes.toNat) && decide (1 ≤ c.wordmemWords.toNat)
    && decide (5 ≤ c.lMax.toNat) && decide (c.lMax.toNat ≤ 16)
    && decide (256 + 2 ^ (c.lMax.toNat + 1) ≤ c.histCap.toNat)

/-- The parameters of the machine after `State.reset`. DESIGN CHOICE (notes/assumptions/1.md, unsafe): the spec gives ranges and no values. -/
def Config.params : Params where
  bitmemBits := 1048576
  bytememBytes := 65536
  wordmemWords := 65536
  histCap := 262144
  lMax := 16

/-- K_NEUTRAL of 00_scope.md R11: the seeding coder's k. -/
def Config.kNeutral : Nat := 8

/-- DEPTH_MAX of 00_scope.md R9: the decoder's recursion cap. -/
def Config.depthMax : Nat := 2

/-- U1: the values RES0..RES3 hold after an error, by the number of the occurrence and the register's index (notes/assumptions/5.md). -/
opaque Config.freeResult : Nat → Nat → Word

/-- U6: what a host read other than of STATUS returns while BUSY = 1 (notes/assumptions/12.md). -/
opaque Config.freePort : Nat → Word

/-- U3 and U7: the bits an implementation may have left in an unspecified part of BITMEM, as writes (notes/assumptions/4.md). -/
opaque Config.freeBits : Nat → List (Nat × BitVec 1)

/-- U5 and U7: the bytes left in an unspecified part of BYTEMEM, as writes (notes/assumptions/4.md). -/
opaque Config.freeBytes : Nat → List (Nat × Byte)

/-- U2, U3 and U7: the words left in an unspecified part of WORDMEM, as writes (notes/assumptions/4.md). -/
opaque Config.freeWords : Nat → List (Nat × Word)

/-- U4: the counters left after a failed GLZ_SEED, as writes (notes/assumptions/8.md). -/
opaque Config.freeCounts : Nat → List (Nat × Word)

/-- U4: HIST_FIXLEN and HIST_HWM after a failed GLZ_SEED (notes/assumptions/8.md). -/
opaque Config.freeBounds : Nat → Word × Word

end Sys2Proof
end

