-- ==== Sys2Proof/Machine/Arith.lean ====
section
/-! DEFINITION. The arithmetic primitives of 00_scope.md R13 and the bit strings of R12: most significant bit first. -/

namespace Sys2Proof.Machine

/-- `ceil(a / b)`, used by CMAX, the chunk count and the abort thresholds (00_scope.md R11). -/
def ceilDiv (a b : Nat) : Nat := (a + b - 1) / b

/-- `ceil_log2(b)`: 0 for b ≤ 1, else the least e with 2^e ≥ b (00_scope.md R13). -/
def ceilLog2 (b : Nat) : Nat := if b ≤ 1 then 0 else Nat.log2 (b - 1) + 1

/-- `bitlen(v)`: 0 for v = 0, else floor(log2 v) + 1 (00_scope.md R13). -/
def bitLen (v : Nat) : Nat := if v = 0 then 0 else Nat.log2 v + 1

/-- `zext_w(n)` as a bit string, most significant bit first (00_scope.md R12, 20_memory.md R39). -/
def fieldBits : Nat → Nat → List Bool
  | 0, _ => []
  | w + 1, n => n.testBit w :: fieldBits w n

/-- The value of the w bits at position p: the sum of `Bit(p + i) · 2^(w-1-i)` (40_bits.md R69). -/
def fieldValue (bit : Nat → Bool) : Nat → Nat → Nat
  | _, 0 => 0
  | p, w + 1 => (bit p).toNat * 2 ^ w + fieldValue bit (p + 1) w

/-- A value reported in a 32-bit register with saturation: `min(n, 2^32 - 1)` (10_state.md R27, 60_exceptions.md R136). -/
def saturate (n : Nat) : Word := BitVec.ofNat 32 (min n (2 ^ 32 - 1))

/-- The bits of a byte in stream order: bit 7 first (20_memory.md R41). -/
def byteBits (b : Byte) : List Bool := fieldBits 8 b.toNat

/-- The bits of a byte sequence in stream order (20_memory.md R41). -/
def bytesBits (bs : List Byte) : List Bool := bs.flatMap byteBits

end Sys2Proof.Machine
end

