-- ==== Sys2Proof/Machine/Memory.lean ====
section
/-! DEFINITION. A memory as plain data: a list of (address, value) pairs in one canonical form, with its read, its write and its range operations. BITMEM, BYTEMEM, WORDMEM, the counters and the remap tables are all held so (10_state.md R28 to R32). -/

namespace Sys2Proof.Machine

/-- Cells of w bits by address. `Memory 8` is `List Host.Cell`. -/
abbrev Memory (w : Nat) := List (Nat × BitVec w)

/-- What an address that is not listed reads as. DESIGN CHOICE (notes/assumptions/2.md, unsafe): the spec leaves power-on contents unspecified (93_implementation_defined.md U7). -/
def Memory.unlisted (w : Nat) : BitVec w := 0#w

/-- `MemRead` of one unit (00_scope.md R14). -/
def Memory.read {w : Nat} : Memory w → Nat → BitVec w
  | [], _ => Memory.unlisted w
  | (b, v) :: m, a => if b = a then v else Memory.read m a

/-- Puts an entry before the first entry of a higher address. -/
def Memory.insert {w : Nat} (a : Nat) (v : BitVec w) : Memory w → Memory w
  | [] => [(a, v)]
  | (b, u) :: m => if a < b then (a, v) :: (b, u) :: m else (b, u) :: Memory.insert a v m

/-- `MemWrite` of one unit (00_scope.md R14). Writing the unlisted value removes the entry, so equal contents are equal lists. -/
def Memory.write {w : Nat} (m : Memory w) (a : Nat) (v : BitVec w) : Memory w :=
  if v = Memory.unlisted w then m.filter (fun c => c.1 != a)
  else Memory.insert a v (m.filter (fun c => c.1 != a))

/-- Writes consecutive units from address a, in order. -/
def Memory.writeList {w : Nat} (m : Memory w) (a : Nat) : List (BitVec w) → Memory w
  | [] => m
  | v :: vs => Memory.writeList (m.write a v) (a + 1) vs

/-- The n units from address a. -/
def Memory.readList {w : Nat} (m : Memory w) (a n : Nat) : List (BitVec w) :=
  (List.range n).map fun i => m.read (a + i)

/-- Writes every pair whose address lies in [lo, hi): how an unspecified content is left in a range (notes/assumptions/4.md). -/
def Memory.scramble {w : Nat} (lo hi : Nat) : List (Nat × BitVec w) → Memory w → Memory w
  | [], m => m
  | (a, v) :: js, m => Memory.scramble lo hi js (if lo ≤ a ∧ a < hi then m.write a v else m)

/-- The canonical form below a capacity: addresses strictly rising, no unlisted value listed, every address in the memory. -/
def Memory.wf {w : Nat} (cap : Nat) (m : Memory w) : Bool :=
  decide (m.Pairwise fun c d => c.1 < d.1) && m.all fun c => decide (c.1 < cap) && (c.2 != Memory.unlisted w)

end Sys2Proof.Machine
end

