-- ==== Sys2Proof/Machine/Coder.lean ====
section
/-! DEFINITION. The coder: the bijective remap (41_histogram_remap.md R83, R84), the Golomb-Rice code (30_encoding.md R59, R60), the offset field (R63) and the code of an operation (43_glz_ops.md R98, R99). -/

namespace Sys2Proof.Machine

/-- The remap state of 10_state.md R32: REMAP.EN, TBL_B and the tables D and E. -/
structure Remap where
  /-- REMAP.EN. -/
  en : Bool
  /-- TBL_B. -/
  b : Word
  /-- The decode table D. -/
  d : Memory 32
  /-- The encode table E. -/
  e : Memory 32
  deriving DecidableEq, Repr

/-- The identity remap, REMAP.EN = 0 (10_state.md R32). -/
def Remap.identity : Remap := ⟨false, 0, [], []⟩

/-- The permutation of one block of B values by a table, with the top partial block passed through (41_histogram_remap.md R83, R84). -/
def Remap.throughTable (r : Remap) (table : Memory 32) (n : Nat) : Nat :=
  if r.en then
    if 2 ^ 32 / r.b.toNat * r.b.toNat ≤ n then n
    else n / r.b.toNat * r.b.toNat + (table.read (n % r.b.toNat)).toNat
  else n

/-- `mapenc(n)` (41_histogram_remap.md R83). -/
def Remap.mapEnc (r : Remap) (n : Nat) : Nat := r.throughTable r.e n

/-- `mapdec(n)` (41_histogram_remap.md R84). -/
def Remap.mapDec (r : Remap) (n : Nat) : Nat := r.throughTable r.d n

/-- The abort threshold `Cap(X)` (43_glz_ops.md R100). -/
def Remap.threshold (r : Remap) (x : Nat) : Nat :=
  if r.en then ceilDiv x r.b.toNat * r.b.toNat else x

/-- The configuration in force for a code: K, L, M and the remap. -/
structure Coder where
  k : Nat
  l : Nat
  m : Nat
  remap : Remap
  deriving DecidableEq, Repr

/-- H(L): the size of the head space (00_scope.md R11). -/
def headSpace (l : Nat) : Nat := 256 + 2 ^ (l + 1)

/-- RUN_MAX(L) = SIZE_MAX(L) = 2^L + 1 (00_scope.md R11). -/
def sizeMax (l : Nat) : Nat := 2 ^ l + 1

/-- CMAX(M): the largest number of offset chunks (00_scope.md R11). -/
def chunksMax (m : Nat) : Nat := ceilDiv 32 m

/-- `Rice_k(n)` (30_encoding.md R59). -/
def riceCode (k n : Nat) : List Bool :=
  List.replicate (n / 2 ^ k) true ++ false :: fieldBits k (n % 2 ^ k)

/-- `rice_len_k(n)` (42_rice.md R93). -/
def riceLen (k n : Nat) : Nat := n / 2 ^ k + 1 + k

/-- `Sym(n)`: the coded symbol (30_encoding.md R60). -/
def Coder.sym (c : Coder) (n : Nat) : List Bool := riceCode c.k (c.remap.mapEnc n)

/-- `symlen(n)` (42_rice.md R93). -/
def Coder.symLen (c : Coder) (n : Nat) : Nat := riceLen c.k (c.remap.mapEnc n)

/-- The least chunk count of an offset: `max(1, ceil(bitlen(o) / M))` (30_encoding.md R63). -/
def chunkCount (m o : Nat) : Nat := max 1 (ceilDiv (bitLen o) m)

/-- The last c chunks of the offset o: a flag, 1 while another chunk follows, and M bits each, most significant chunk first (30_encoding.md R63). -/
def offsetChunks (m o : Nat) : Nat → List Bool
  | 0 => []
  | c + 1 => decide (0 < c) :: fieldBits m (o / 2 ^ (m * c) % 2 ^ m) ++ offsetChunks m o c

/-- `OFS_M(o)` (30_encoding.md R63). -/
def offsetCode (m o : Nat) : List Bool := offsetChunks m o (chunkCount m o)

/-- The abstract operations of 43_glz_ops.md R98. -/
inductive Op where
  /-- IMM(c, b): c copies of byte b. -/
  | imm (count : Nat) (byte : Byte)
  /-- REF(s, o): s bytes decoded at the position o bits after the operation. -/
  | ref (size : Nat) (offset : Word)
  deriving DecidableEq, Repr

/-- `code(op)` (43_glz_ops.md R99). -/
def encodeOp (c : Coder) : Op → List Bool
  | .imm n b => if n = 1 then c.sym b.toNat else c.sym (254 + n) ++ c.sym b.toNat
  | .ref s o => c.sym (254 + 2 ^ c.l + s) ++ offsetCode c.m o.toNat

/-- `oplen(op)` (43_glz_ops.md R99). -/
def Coder.opLen (c : Coder) : Op → Nat
  | .imm n b => if n = 1 then c.symLen b.toNat else c.symLen (254 + n) + c.symLen b.toNat
  | .ref s o => c.symLen (254 + 2 ^ c.l + s) + (c.m + 1) * chunkCount c.m o.toNat

/-- The symbols GLZ_SEED counts for an operation (44_glz_encode.md R116). -/
def opSymbols (l : Nat) : Op → List Nat
  | .imm n b => if n = 1 then [b.toNat] else [254 + n, b.toNat]
  | .ref s _ => [254 + 2 ^ l + s]

end Sys2Proof.Machine
end

