-- ==== Sys2Proof/Machine/Errors.lean ====
section
/-! DEFINITION. The error codes of 60_exceptions.md R134 and what `raise E(pos)` carries (00_scope.md R14). -/

namespace Sys2Proof.Machine

/-- The codes of 60_exceptions.md R134. Codes 0x0F..0xFF are never reported (U18), so they have no constructor. -/
inductive ErrCode where
  /-- The last command ended normally, or none has run. -/
  | none
  /-- The stream ends inside a field, a remainder or an offset chunk. -/
  | truncated
  /-- The stream ends inside a unary run. -/
  | unterminated
  /-- A reserved operation encoding (43_glz_ops.md R101). -/
  | invalidOp
  /-- A value to encode does not fit its field. -/
  | overflow
  /-- A fixed-field width above 32. -/
  | widthExceeded
  /-- A decoder push with both frames in use. -/
  | recursionExceeded
  /-- The cycle count passes twice the length. -/
  | runtimeExceeded
  /-- A decoded value does not fit the requested width. -/
  | cast
  /-- A range outside its memory, or a symbol or length beyond HIST_CAP. -/
  | capacity
  /-- An illegal configuration, width or kind. -/
  | config
  /-- TABLE_LOAD words that are not a permutation. -/
  | tableInvalid
  /-- A decrement of a zero count. -/
  | histUnderflow
  /-- An increment of a full count. -/
  | countOverflow
  /-- A reserved opcode or RSVD ≠ 0. -/
  | illegalCmd
  deriving DecidableEq, Repr

/-- ERRCODE[7:0] of each code (60_exceptions.md R134). -/
def ErrCode.number : ErrCode → BitVec 8
  | .none => 0x00
  | .truncated => 0x01
  | .unterminated => 0x02
  | .invalidOp => 0x03
  | .overflow => 0x04
  | .widthExceeded => 0x05
  | .recursionExceeded => 0x06
  | .runtimeExceeded => 0x07
  | .cast => 0x08
  | .capacity => 0x09
  | .config => 0x0A
  | .tableInvalid => 0x0B
  | .histUnderflow => 0x0C
  | .countOverflow => 0x0D
  | .illegalCmd => 0x0E

/-- A raised error: its code and its position, before the position is saturated into ERRPOS (60_exceptions.md R136). -/
structure Raised where
  code : ErrCode
  pos : Nat
  deriving DecidableEq, Repr

end Sys2Proof.Machine
end

