-- ==== Sys2Proof/Syntax.lean ====
section
/-! DEFINITION. The instructions: one constructor for each row of spec/opcode_table.json, in the table's order (30_encoding.md R56, R61). -/

namespace Sys2Proof

/-- The 27 commands of 30_encoding.md R56, whose operands are the argument registers (R55: a command word has no operand field), and the three operation forms of R61 with the operands their codes hold. -/
inductive Instr where
  /-- NOP, 46_host.md R130. -/
  | nop
  /-- RESET, 46_host.md R131. -/
  | reset
  /-- BITS_PUT, 40_bits.md R71. -/
  | bitsPut
  /-- BITS_GET, 40_bits.md R72. -/
  | bitsGet
  /-- BITS_PUT_STREAM, 40_bits.md R73. -/
  | bitsPutStream
  /-- BITS_GET_STREAM, 40_bits.md R74. -/
  | bitsGetStream
  /-- HIST_CLEAR, 41_histogram_remap.md R76. -/
  | histClear
  /-- HIST_INC, 41_histogram_remap.md R77. -/
  | histInc
  /-- HIST_DEC, 41_histogram_remap.md R78. -/
  | histDec
  /-- HIST_GET, 41_histogram_remap.md R79. -/
  | histGet
  /-- HIST_BOUND, 41_histogram_remap.md R80. -/
  | histBound
  /-- HIST_SEED, 41_histogram_remap.md R81. -/
  | histSeed
  /-- HIST_SORT, 41_histogram_remap.md R82. -/
  | histSort
  /-- TABLE_LOAD, 41_histogram_remap.md R88. -/
  | tableLoad
  /-- TABLE_STORE, 41_histogram_remap.md R89. -/
  | tableStore
  /-- TABLE_CLEAR, 41_histogram_remap.md R90. -/
  | tableClear
  /-- MAP_ENC, 41_histogram_remap.md R86. -/
  | mapEnc
  /-- MAP_DEC, 41_histogram_remap.md R87. -/
  | mapDec
  /-- RICE_PUT, 42_rice.md R94. -/
  | ricePut
  /-- RICE_GET, 42_rice.md R95. -/
  | riceGet
  /-- RICE_SEARCH, 42_rice.md R96. -/
  | riceSearch
  /-- GLZ_OP_PUT, 43_glz_ops.md R104. -/
  | glzOpPut
  /-- GLZ_OP_GET, 43_glz_ops.md R105. -/
  | glzOpGet
  /-- GLZ_ENCODE_ALL, 44_glz_encode.md R111. -/
  | glzEncodeAll
  /-- GLZ_DECODE_AT, 45_glz_decode.md R122. -/
  | glzDecodeAt
  /-- GLZ_DECODE_STREAM, 45_glz_decode.md R123. -/
  | glzDecodeStream
  /-- GLZ_SEED, 44_glz_encode.md R116. -/
  | glzSeed
  /-- LIT b: the immediate of count 1 (30_encoding.md R61). -/
  | lit (byte : Byte)
  /-- RUN c, b: an immediate of count 2 .. 2^L + 1 (30_encoding.md R61, R62). -/
  | run (count : Nat) (byte : Byte)
  /-- REF s, o: a reference of size 2 .. 2^L + 1 and offset 0 .. 2^32 - 1 (30_encoding.md R61, R62). -/
  | ref (size : Nat) (offset : Word)
  deriving DecidableEq, Repr

end Sys2Proof
end

