-- ==== Sys2Proof/WellFormed.lean ====
section
/-! DEFINITION. Which instructions have an encoding: the operand ranges of 30_encoding.md R62 and 43_glz_ops.md R98 under a value of L. -/

namespace Sys2Proof

/-- A RUN count lies in 2 .. 2^L + 1 (30_encoding.md R62). -/
def runCountOk (l count : Nat) : Bool := decide (2 ≤ count) && decide (count ≤ Machine.sizeMax l)

/-- A REF size lies in 2 .. 2^L + 1 (30_encoding.md R62). -/
def refSizeOk (l size : Nat) : Bool := decide (2 ≤ size) && decide (size ≤ Machine.sizeMax l)

/-- The operations that 43_glz_ops.md R98 admits. -/
def Machine.Op.wf (l : Nat) : Machine.Op → Bool
  | .imm n _ => decide (1 ≤ n) && decide (n ≤ Machine.sizeMax l)
  | .ref s _ => refSizeOk l s

/-- The well-formed instructions under L. A command has no operand field, so it is always well formed (30_encoding.md R55). -/
def Instr.wf (l : Nat) : Instr → Bool
  | .run c _ => runCountOk l c
  | .ref s _ => refSizeOk l s
  | .lit _ => true
  | .nop | .reset | .bitsPut | .bitsGet | .bitsPutStream | .bitsGetStream => true
  | .histClear | .histInc | .histDec | .histGet | .histBound | .histSeed | .histSort => true
  | .tableLoad | .tableStore | .tableClear | .mapEnc | .mapDec => true
  | .ricePut | .riceGet | .riceSearch => true
  | .glzOpPut | .glzOpGet | .glzEncodeAll | .glzDecodeAt | .glzDecodeStream | .glzSeed => true

end Sys2Proof
end

