-- ==== Sys2Proof/Decode.lean ====
section
/-! DEFINITION. Decoding of both instruction sets and the encoder: command words (30_encoding.md R55, R56, R66), the bounded reads (40_bits.md R69, 42_rice.md R91) and the operation stream (43_glz_ops.md R101). -/

namespace Sys2Proof

open Machine

/-! ### Command words -/

/-- Why a word or a bit string is no instruction. -/
inductive DecodeError where
  /-- A command word with bits [31:8] not 0 (30_encoding.md R55). -/
  | reservedBits
  /-- An opcode outside 30_encoding.md R56 (R66). -/
  | reservedOpcode
  /-- The bits at the position are no operation: the error of 43_glz_ops.md R101. -/
  | operation (why : Raised)
  /-- Bits are left after the one operation asked for. -/
  | trailingBits
  deriving DecidableEq, Repr

/-- The opcode map of 30_encoding.md R56. -/
def opcodeTable : List (BitVec 8 × Instr) :=
  [ (0x00, .nop), (0x01, .reset),
    (0x10, .bitsPut), (0x11, .bitsGet), (0x12, .bitsPutStream), (0x13, .bitsGetStream),
    (0x20, .histClear), (0x21, .histInc), (0x22, .histDec), (0x23, .histGet),
    (0x24, .histBound), (0x25, .histSeed), (0x26, .histSort),
    (0x30, .tableLoad), (0x31, .tableStore), (0x32, .tableClear), (0x33, .mapEnc), (0x34, .mapDec),
    (0x40, .ricePut), (0x41, .riceGet), (0x42, .riceSearch),
    (0x50, .glzOpPut), (0x51, .glzOpGet), (0x52, .glzEncodeAll), (0x53, .glzDecodeAt),
    (0x54, .glzDecodeStream), (0x55, .glzSeed) ]

/-- The instruction of a table row with the opcode asked for. -/
def lookupOpcode (op : BitVec 8) : List (BitVec 8 × Instr) → Option Instr
  | [] => none
  | row :: rows => if row.1 = op then some row.2 else lookupOpcode op rows

/-- Decodes a command word: RSVD must be 0, then OPCODE selects the command (30_encoding.md R55). -/
def decodeCommand (w : Word) : Except DecodeError Instr :=
  if w.extractLsb' 8 24 ≠ 0 then .error .reservedBits
  else
    match lookupOpcode (w.extractLsb' 0 8) opcodeTable with
    | some i => .ok i
    | none => .error .reservedOpcode

/-! ### The operation stream -/

/-- The bits a read sees: a bit by position, and the stream length every read checks against (10_state.md R25). -/
structure BitStream where
  bit : Nat → Bool
  len : Nat

/-- A bit string as a stream from position 0. -/
def BitStream.ofBits (bs : List Bool) : BitStream := ⟨fun p => bs.getD p false, bs.length⟩

/-- `GetBits(p, w)` (40_bits.md R69). -/
def getBits (st : BitStream) (p w : Nat) : Except Raised (Nat × Nat) :=
  if st.len < p + w then .error ⟨.truncated, p⟩ else .ok (fieldValue st.bit p w, p + w)

/-- The unary loop of `GetRice` (42_rice.md R91), with the number of bits left as its fuel: it returns the quotient and the position after the 0. -/
def unaryRun (st : BitStream) (k cap : Nat) (e : Raised) (ep : Nat) : Nat → Nat → Nat → Except Raised (Nat × Nat)
  | 0, _, _ => .error ⟨.unterminated, ep⟩
  | left + 1, i, q =>
    if st.bit i then
      if cap ≤ (q + 1) * 2 ^ k then .error e else unaryRun st k cap e ep left (i + 1) (q + 1)
    else .ok (q, i + 1)

/-- `GetRice(p, C, E, ep)` with parameter k (42_rice.md R91). -/
def getRice (st : BitStream) (k p cap : Nat) (code : ErrCode) (ep : Nat) : Except Raised (Nat × Nat) :=
  match unaryRun st k cap ⟨code, ep⟩ ep (st.len - p) p 0 with
  | .error r => .error r
  | .ok (q, i) =>
    if st.len < i + k then .error ⟨.truncated, ep⟩
    else .ok (q * 2 ^ k + fieldValue st.bit i k, i + k)

/-- The offset loop of `decode_op` (43_glz_ops.md R101), with the number of chunks still allowed as its fuel. -/
def offsetLoop (st : BitStream) (m p : Nat) : Nat → Nat → Nat → Except Raised (Nat × Nat)
  | 0, _, _ => .error ⟨.invalidOp, p⟩
  | allowed + 1, i, o =>
    if st.len < i + 1 + m then .error ⟨.truncated, p⟩
    else
      let o' := o * 2 ^ m + fieldValue st.bit (i + 1) m
      if 2 ^ 32 ≤ o' then .error ⟨.invalidOp, p⟩
      else if st.bit i then offsetLoop st m p allowed (i + 1 + m) o'
      else .ok (o', i + 1 + m)

/-- `decode_op(p)` (43_glz_ops.md R101): the operation at p and the position just after it. -/
def decodeOp (c : Coder) (st : BitStream) (p : Nat) : Except Raised (Op × Nat) :=
  match getRice st c.k p (c.remap.threshold (headSpace c.l)) .invalidOp p with
  | .error r => .error r
  | .ok (n, i) =>
    let h := c.remap.mapDec n
    if headSpace c.l ≤ h then .error ⟨.invalidOp, p⟩
    else if h < 256 then .ok (.imm 1 (BitVec.ofNat 8 h), i)
    else if h < 256 + 2 ^ c.l then
      match getRice st c.k i (c.remap.threshold 256) .invalidOp p with
      | .error r => .error r
      | .ok (n', j) =>
        let b := c.remap.mapDec n'
        if 256 ≤ b then .error ⟨.invalidOp, p⟩ else .ok (.imm (h - 254) (BitVec.ofNat 8 b), j)
    else
      match offsetLoop st c.m p (chunksMax c.m) i 0 with
      | .error r => .error r
      | .ok (o, j) => .ok (.ref (h - 256 - 2 ^ c.l + 2) (BitVec.ofNat 32 o), j)

/-- The instruction form of an operation: an immediate of count 1 is LIT (43_glz_ops.md R98). -/
def Machine.Op.toInstr : Op → Instr
  | .imm n b => if n = 1 then .lit b else .run n b
  | .ref s o => .ref s o

/-! ### One decoder and one encoder for both sets -/

/-- An instruction as the hardware stores it: a command word, or an operation's bits in stream order. -/
inductive Encoded where
  | command (w : Word)
  | operation (bits : List Bool)
  deriving DecidableEq, Repr

/-- Decodes one whole instruction. An operation is decoded under a coder and must take up all the bits. -/
def decode (c : Coder) : Encoded → Except DecodeError Instr
  | .command w => decodeCommand w
  | .operation bits =>
    match decodeOp c (BitStream.ofBits bits) 0 with
    | .error r => .error (.operation r)
    | .ok (op, q) => if q = bits.length then .ok op.toInstr else .error .trailingBits

/-- The word or the bits of an instruction: 30_encoding.md R56 for a command, 43_glz_ops.md R99 for an operation. -/
def encode (c : Coder) : Instr → Encoded
  | .nop => .command 0x00000000
  | .reset => .command 0x00000001
  | .bitsPut => .command 0x00000010
  | .bitsGet => .command 0x00000011
  | .bitsPutStream => .command 0x00000012
  | .bitsGetStream => .command 0x00000013
  | .histClear => .command 0x00000020
  | .histInc => .command 0x00000021
  | .histDec => .command 0x00000022
  | .histGet => .command 0x00000023
  | .histBound => .command 0x00000024
  | .histSeed => .command 0x00000025
  | .histSort => .command 0x00000026
  | .tableLoad => .command 0x00000030
  | .tableStore => .command 0x00000031
  | .tableClear => .command 0x00000032
  | .mapEnc => .command 0x00000033
  | .mapDec => .command 0x00000034
  | .ricePut => .command 0x00000040
  | .riceGet => .command 0x00000041
  | .riceSearch => .command 0x00000042
  | .glzOpPut => .command 0x00000050
  | .glzOpGet => .command 0x00000051
  | .glzEncodeAll => .command 0x00000052
  | .glzDecodeAt => .command 0x00000053
  | .glzDecodeStream => .command 0x00000054
  | .glzSeed => .command 0x00000055
  | .lit b => .operation (encodeOp c (.imm 1 b))
  | .run n b => .operation (encodeOp c (.imm n b))
  | .ref s o => .operation (encodeOp c (.ref s o))

/-- The command word of an instruction that is a command. -/
def commandWord (i : Instr) : Option Word :=
  match encode ⟨0, 0, 0, Remap.identity⟩ i with
  | .command w => some w
  | .operation _ => none

/-! ### The host's numbering of the table's words -/

/-- The coder right after reset: K = 8, L = 5, M = 3, identity remap (10_state.md R38). -/
def resetCoder : Coder := ⟨8, 5, 3, Remap.identity⟩

/-- The longest operation code under the reset coder has 54 bits (a REF of 11 chunks), so 8 bytes hold any. -/
def operationWindow : Nat := 8

/-- The bytes of an instruction numbered as the table numbers them: byte j is bits 8j+7 .. 8j of w. -/
def tableBytes (n w : Nat) : List Byte :=
  (List.range n).map fun j => BitVec.ofNat 8 (w / 2 ^ (8 * j))

/-- The instruction the decoder reads from a table row's bits. The 32-bit rows are command words. A row of another width is an operation, laid out in BITMEM's host bytes from byte 0 (20_memory.md R41) and read under the reset coder (notes/assumptions/17.md). -/
def decodeTableWord (nbits w : Nat) : Option Instr :=
  if nbits = 32 then (decodeCommand (BitVec.ofNat 32 w)).toOption
  else
    match decodeOp resetCoder (BitStream.ofBits (bytesBits (tableBytes operationWindow w))) 0 with
    | .ok (op, _) => some op.toInstr
    | .error _ => none

end Sys2Proof
end

