-- ==== Sys2Proof/Machine/State.lean ====
section
/-! DEFINITION. The state of the block (10_state.md), its value after reset (R38), and the reasons a step can stop. -/

namespace Sys2Proof.Machine

/-- STATUS, ERRCODE and ERRPOS (10_state.md R20, R22). -/
structure Report where
  /-- STATUS[0] BUSY. -/
  busy : Bool
  /-- STATUS[1] DONE. -/
  done : Bool
  /-- STATUS[2] ERR. -/
  err : Bool
  /-- ERRCODE. -/
  code : ErrCode
  /-- ERRPOS. -/
  pos : Word
  deriving DecidableEq, Repr

/-- CFG_K, CFG_L and CFG_M: their fields store any bit pattern (10_state.md R23). -/
structure Settings where
  /-- CFG_K[5:0]. -/
  k : BitVec 6
  /-- CFG_L[4:0]. -/
  l : BitVec 5
  /-- CFG_M[5:0]. -/
  m : BitVec 6
  deriving DecidableEq, Repr

/-- The histogram of 10_state.md R31. -/
structure Hist where
  /-- HIST_FIXLEN. -/
  fixlen : Word
  /-- HIST_HWM. -/
  hwm : Word
  /-- COUNT[0 .. HIST_CAP-1]. -/
  count : Memory 32
  deriving DecidableEq, Repr

/-- ARG0..ARG3 (10_state.md R21). -/
structure Args where
  a0 : Word
  a1 : Word
  a2 : Word
  a3 : Word
  deriving DecidableEq, Repr

/-- RES0..RES3 (10_state.md R21). -/
structure Results where
  r0 : Word
  r1 : Word
  r2 : Word
  r3 : Word
  deriving DecidableEq, Repr

/-- A count of bytes still owed, or no bound: the top level of GLZ_DECODE_STREAM has rem = ∞ (45_glz_decode.md R117, R123). -/
inductive Remaining where
  | bytes (n : Nat)
  | unbounded
  deriving DecidableEq, Repr

/-- One decoder frame (ret, rem) (10_state.md R35). -/
structure Frame where
  ret : Nat
  rem : Remaining
  deriving DecidableEq, Repr

/-- Which decode command the decoder's registers belong to (45_glz_decode.md R122, R123). -/
inductive DecodeCmd where
  | decodeAt
  | decodeStream
  deriving DecidableEq, Repr

/-- The decoder's registers: the program counter p (10_state.md R36), the frame stack (R35) and the working values of 45_glz_decode.md R117 and R123. -/
structure Decoder where
  /-- The model's own: a decode command is in progress (notes/assumptions/10.md). -/
  running : Bool
  /-- The model's own: which command it is (notes/assumptions/10.md). -/
  cmd : DecodeCmd
  /-- The read position p. -/
  p : Nat
  /-- The model's own: the position just after the operation fetched at p, R117's q (notes/assumptions/10.md). -/
  q : Nat
  /-- The bytes still owed in the current frame. -/
  rem : Remaining
  /-- The depth counter d. -/
  d : Nat
  /-- FRAME[0]. -/
  frame0 : Frame
  /-- FRAME[1]. -/
  frame1 : Frame
  /-- Cycles so far (R118). -/
  cycles : Nat
  /-- Frame pushes so far (R118). -/
  pushes : Nat
  /-- Bytes written so far. -/
  k : Nat
  /-- The output's BYTEMEM address. -/
  out : Nat
  /-- The requested length, or the maximum of GLZ_DECODE_STREAM. -/
  limit : Nat
  deriving DecidableEq, Repr

/-- An anchor (a, lim, w) of the dictionary (10_state.md R34, 44_glz_encode.md R107). -/
structure Anchor where
  a : Nat
  lim : Nat
  w : Nat
  deriving DecidableEq, Repr

/-- The encoder's working state (10_state.md R34, R37; 44_glz_encode.md R107, R108). -/
structure Encoder where
  /-- The dictionary, oldest anchor first. -/
  dict : List Anchor
  /-- The emission list EL, in emission order. -/
  el : List Op
  /-- The bit count W. -/
  w : Nat
  /-- The scan position q. -/
  q : Nat
  /-- The limit R. -/
  r : Nat
  /-- The forced-immediate flag F. -/
  f : Bool
  deriving DecidableEq, Repr

/-- The encoder when no encode or seed command runs: dictionary empty (10_state.md R34); the others do not exist then (notes/assumptions/22.md). -/
def Encoder.idle : Encoder := ⟨[], [], 0, 0, 0, false⟩

/-- What the outside world does to the block: one host port access (46_host.md R125) or power-on reset (70_reset_and_hazards.md R143). -/
inductive Input where
  /-- A register-port write (46_host.md R126). -/
  | writeReg (index : BitVec 8) (value : Word)
  /-- A register-port read. -/
  | readReg (index : BitVec 8)
  /-- A memory-port write of one BITMEM byte, packed as 20_memory.md R41. -/
  | writeBitmem (address : Word) (value : Byte)
  /-- A memory-port read of one BITMEM byte. -/
  | readBitmem (address : Word)
  /-- A memory-port write of one BYTEMEM byte. -/
  | writeBytemem (address : Word) (value : Byte)
  /-- A memory-port read of one BYTEMEM byte. -/
  | readBytemem (address : Word)
  /-- A memory-port write of one WORDMEM word. -/
  | writeWordmem (address : Word) (value : Word)
  /-- A memory-port read of one WORDMEM word. -/
  | readWordmem (address : Word)
  /-- Power-on reset (70_reset_and_hazards.md R142). -/
  | powerOn
  deriving DecidableEq, Repr

/-- The state of the block, with the host's pending accesses. -/
structure State where
  /-- The CAP_* registers (10_state.md R26). -/
  cap : Params
  /-- STATUS, ERRCODE, ERRPOS. -/
  report : Report
  /-- CFG_K, CFG_L, CFG_M. -/
  cfg : Settings
  /-- REMAP.EN, TBL_B, D and E. -/
  remap : Remap
  /-- HIST_FIXLEN, HIST_HWM and COUNT. -/
  hist : Hist
  /-- STREAM_LEN. -/
  streamLen : Word
  /-- ARG0..ARG3. -/
  args : Args
  /-- RES0..RES3. -/
  res : Results
  /-- CYCLES. -/
  cycles : Word
  /-- PUSHES. -/
  pushes : Word
  /-- BITMEM, by bit position. -/
  bitmem : Memory 1
  /-- BYTEMEM, by byte address. -/
  bytemem : Memory 8
  /-- WORDMEM, by word address. -/
  wordmem : Memory 32
  /-- The decoder's registers. -/
  dec : Decoder
  /-- The encoder's working state. -/
  enc : Encoder
  /-- The model's own: the pending inputs, next first (notes/assumptions/11.md). -/
  inputs : List Input
  /-- The model's own: what the last host read returned (notes/assumptions/11.md). -/
  portData : Word
  /-- The model's own: numbers the unspecified values (notes/assumptions/4.md). -/
  free : Nat
  deriving DecidableEq, Repr

/-- Why the machine stops. -/
inductive Fault where
  /-- Raised by LIT, RUN and REF when no decode command runs: an operation has an effect only inside one (10_state.md R36: "p exists only inside a decode command"). Safe: no step reaches it (notes/assumptions/13.md). -/
  | noDecodeRunning
  deriving DecidableEq, Repr

/-- Why an instruction has no meaning here. -/
inductive Refusal where
  /-- Raised by an arm of exec whose instruction has no meaning yet. Safe: nothing is claimed of it. -/
  | notModelled (mnemonic : String)
  deriving DecidableEq, Repr

/-- The histogram after reset (10_state.md R38). -/
def Hist.reset : Hist := ⟨0, 0, []⟩

/-- The decoder's registers after reset: d = 0 (10_state.md R38); the others are unspecified or do not exist, and hold values named in notes/assumptions/3.md. -/
def Decoder.reset : Decoder where
  running := false
  cmd := .decodeAt
  p := 0
  q := 0
  rem := .bytes 0
  d := 0
  frame0 := ⟨0, .bytes 0⟩
  frame1 := ⟨0, .bytes 0⟩
  cycles := 0
  pushes := 0
  k := 0
  out := 0
  limit := 0

/-- The state after reset of a block with the given parameters (10_state.md R38). Memories list nothing (notes/assumptions/2.md). -/
def State.resetWith (c : Params) : State where
  cap := c
  report := ⟨false, false, false, .none, 0⟩
  cfg := ⟨8, 5, 3⟩
  remap := ⟨false, 0, [], []⟩
  hist := Hist.reset
  streamLen := 0
  args := ⟨0, 0, 0, 0⟩
  res := ⟨0, 0, 0, 0⟩
  cycles := 0
  pushes := 0
  bitmem := []
  bytemem := []
  wordmem := []
  dec := Decoder.reset
  enc := Encoder.idle
  inputs := []
  portData := 0
  free := 0

/-- The machine right after reset (10_state.md R38), with the parameters of `Config.params`. -/
def State.reset : State := State.resetWith Config.params

end Sys2Proof.Machine
end

