-- ==== Sys2Proof/Machine/Flags.lean ====
section
/-! DEFINITION. STATUS, ERRCODE and ERRPOS: what a command's start, its normal end and an error make of them (10_state.md R22, 46_host.md R127, 60_exceptions.md R136). -/

namespace Sys2Proof.Machine

/-- A command's start: BUSY = 1, DONE = 0, ERR = 0, ERRCODE = 0, ERRPOS = 0 (10_state.md R22). -/
def Report.started : Report := ⟨true, false, false, .none, 0⟩

/-- Normal completion: BUSY = 0, DONE = 1, after a start (10_state.md R22). -/
def Report.finished (r : Report) : Report := { r with busy := false, done := true }

/-- Completion in error: DONE | ERR, the code, and the position saturated (60_exceptions.md R136). -/
def Report.failed (code : ErrCode) (pos : Nat) : Report := ⟨false, true, true, code, saturate pos⟩

/-- The STATUS register: [0] BUSY, [1] DONE, [2] ERR, other bits 0 (10_state.md R20). -/
def Report.statusWord (r : Report) : Word :=
  BitVec.ofNat 32 (r.busy.toNat + 2 * r.done.toNat + 4 * r.err.toNat)

end Sys2Proof.Machine
end

