-- ==== Sys2Proof/Machine/Ops.lean ====
section
/-! DEFINITION. The named operations over the state: a command's start and end, taking an error (60_exceptions.md R136, R137), writes to the memories and results, and the unspecified contents of 93_implementation_defined.md. -/

namespace Sys2Proof.Machine

/-! ### Views -/

/-- The configuration in force: CFG_K, CFG_L, CFG_M and the remap (43_glz_ops.md R99). -/
def State.coder (s : State) : Coder := ⟨s.cfg.k.toNat, s.cfg.l.toNat, s.cfg.m.toNat, s.remap⟩

/-- `Bit(p)` (00_scope.md R14). -/
def State.bit (s : State) (p : Nat) : Bool := s.bitmem.read p == 1#1

/-- BITMEM below STREAM_LEN, as the reads see it (10_state.md R25). -/
def State.stream (s : State) : BitStream := ⟨s.bit, s.streamLen.toNat⟩

/-! ### Start, normal end and error of a command -/

/-- Step 1 of 46_host.md R127. -/
def State.start (s : State) : State := { s with report := Report.started }

/-- The normal end, step 4 of 46_host.md R127. -/
def State.finish (s : State) : State := { s with report := s.report.finished }

/-- RES0..RES3 after an error hold unspecified values: U1 (60_exceptions.md R137). -/
def Results.unspecified (n : Nat) : Results :=
  ⟨Config.freeResult n 0, Config.freeResult n 1, Config.freeResult n 2, Config.freeResult n 3⟩

/-- `raise E(pos)`: the block's one exception (60_exceptions.md R136). STATUS, ERRCODE and ERRPOS record it and RES0..RES3 become unspecified (R137). There is no return from it: the next command's start clears the report (R138). -/
def State.raise (s : State) (code : ErrCode) (pos : Nat) : State :=
  { s with report := Report.failed code pos, res := Results.unspecified s.free, free := s.free + 1 }

/-- How a command's pseudocode stops: at its end, or at its first `raise` (00_scope.md R15). -/
inductive Ending where
  | done (s : State)
  | raised (s : State) (why : Raised)

/-- The state a command leaves: step 4 of 46_host.md R127. -/
def Ending.close : Ending → State
  | .done s => s.finish
  | .raised s why => s.raise why.code why.pos

/-- A whole command (46_host.md R127): start, pseudocode, end. -/
def runCommand (body : State → Ending) (s : State) : Host.Outcome State Fault Refusal :=
  .next (body s.start).close

/-! ### Writes -/

/-- Writes one bit of BITMEM; a position outside the memory is ignored (notes/assumptions/16.md). -/
def State.writeBit (s : State) (p : Nat) (b : Bool) : State :=
  if p < s.cap.bitmemBits.toNat then { s with bitmem := s.bitmem.write p (BitVec.ofBool b) } else s

/-- Writes one byte of BYTEMEM; an address outside the memory is ignored (notes/assumptions/16.md). -/
def State.writeByte (s : State) (a : Nat) (v : Byte) : State :=
  if a < s.cap.bytememBytes.toNat then { s with bytemem := s.bytemem.write a v } else s

/-- Writes one word of WORDMEM; an address outside the memory is ignored (notes/assumptions/16.md). -/
def State.writeWord (s : State) (a : Nat) (v : Word) : State :=
  if a < s.cap.wordmemWords.toNat then { s with wordmem := s.wordmem.write a v } else s

/-- Writes a bit string at position p, in stream order (20_memory.md R39, R40). -/
def State.writeBits (s : State) (p : Nat) : List Bool → State
  | [] => s
  | b :: bs => State.writeBits (s.writeBit p b) (p + 1) bs

/-- `PutBits`: writes at STREAM_LEN and advances it (00_scope.md R14). -/
def State.putBits (s : State) (bs : List Bool) : State :=
  { s.writeBits s.streamLen.toNat bs with streamLen := BitVec.ofNat 32 (s.streamLen.toNat + bs.length) }

/-- Writes words at consecutive addresses. -/
def State.writeWords (s : State) (a : Nat) : List Word → State
  | [] => s
  | w :: ws => State.writeWords (s.writeWord a w) (a + 1) ws

/-- Writes n copies of a byte from an address. -/
def State.fillBytes (s : State) (a : Nat) (v : Byte) : Nat → State
  | 0 => s
  | n + 1 => State.fillBytes (s.writeByte a v) (a + 1) v n

/-- x[RES0] <- v. -/
def State.setRes0 (s : State) (v : Nat) : State := { s with res := { s.res with r0 := BitVec.ofNat 32 v } }

/-- x[RES1] <- v. -/
def State.setRes1 (s : State) (v : Nat) : State := { s with res := { s.res with r1 := BitVec.ofNat 32 v } }

/-- x[RES2] <- v. -/
def State.setRes2 (s : State) (v : Nat) : State := { s with res := { s.res with r2 := BitVec.ofNat 32 v } }

/-- x[RES3] <- v. -/
def State.setRes3 (s : State) (v : Nat) : State := { s with res := { s.res with r3 := BitVec.ofNat 32 v } }

/-! ### Unspecified contents -/

/-- Leaves BITMEM[lo .. hi) unspecified (U3). -/
def State.looseBits (s : State) (lo hi : Nat) : State :=
  { s with bitmem := s.bitmem.scramble lo (min hi s.cap.bitmemBits.toNat) (Config.freeBits s.free) }

/-- Leaves BYTEMEM[lo .. hi) unspecified (U5). -/
def State.looseBytes (s : State) (lo hi : Nat) : State :=
  { s with bytemem := s.bytemem.scramble lo (min hi s.cap.bytememBytes.toNat) (Config.freeBytes s.free) }

/-- Leaves WORDMEM[lo .. hi) unspecified (U2, U3). -/
def State.looseWords (s : State) (lo hi : Nat) : State :=
  { s with wordmem := s.wordmem.scramble lo (min hi s.cap.wordmemWords.toNat) (Config.freeWords s.free) }

/-- Leaves the whole histogram unspecified (U4): HIST_FIXLEN, HIST_HWM and each of the HIST_CAP counters hold any value (notes/assumptions/8.md). -/
def State.looseHist (s : State) : State :=
  { s with hist :=
      { fixlen := (Config.freeBounds s.free).1
        hwm := (Config.freeBounds s.free).2
        count := Memory.scramble 0 s.cap.histCap.toNat (Config.freeCounts s.free) [] } }

end Sys2Proof.Machine
end

