-- ==== Sys2Proof/Machine/Operands.lean ====
section
/-! DEFINITION. The operand forms: the argument registers as numbers (30_encoding.md R57), the start checks (60_exceptions.md R139), the range check (20_memory.md R48), the flag arguments and the slice descriptors (44_glz_encode.md R111). -/

namespace Sys2Proof.Machine

/-- x[ARG0] as an unsigned value. -/
def State.arg0 (s : State) : Nat := s.args.a0.toNat

/-- x[ARG1] as an unsigned value. -/
def State.arg1 (s : State) : Nat := s.args.a1.toNat

/-- x[ARG2] as an unsigned value. -/
def State.arg2 (s : State) : Nat := s.args.a2.toNat

/-- x[ARG3] as an unsigned value. -/
def State.arg3 (s : State) : Nat := s.args.a3.toNat

/-- Start check STREAM_LEN ≤ BITMEM_BITS (60_exceptions.md R139). -/
def State.streamOk (s : State) : Bool := decide (s.streamLen.toNat ≤ s.cap.bitmemBits.toNat)

/-- Start check CFG_K ≤ 32 (60_exceptions.md R139). -/
def State.kOk (s : State) : Bool := decide (s.cfg.k.toNat ≤ 32)

/-- Start check CFG_L ≤ L_MAX and 1 ≤ CFG_M ≤ 32 (60_exceptions.md R139). -/
def State.lmOk (s : State) : Bool :=
  decide (s.cfg.l.toNat ≤ s.cap.lMax.toNat) && decide (1 ≤ s.cfg.m.toNat) && decide (s.cfg.m.toNat ≤ 32)

/-- The start checks of the operation commands: stream, K, then L and M (60_exceptions.md R139). -/
def State.opsOk (s : State) : Bool := s.streamOk && s.kOk && s.lmOk

/-- A range [a, a + n) lies in a memory of cap units; the sum does not wrap (20_memory.md R48). -/
def rangeOk (a n cap : Nat) : Bool := decide (a + n ≤ cap)

/-- Ends in CONFIG(0) unless the start checks hold (60_exceptions.md R139). -/
def guarded (ok : State → Bool) (body : State → Ending) (s : State) : Ending :=
  if ok s then body s else .raised s ⟨.config, 0⟩

/-- Flag bit DERIVE_TABLE of GLZ_SEED (44_glz_encode.md R116). -/
def State.deriveTable (s : State) : Bool := s.args.a2.getLsbD 0

/-- Flag bit DERIVE_K of GLZ_SEED (44_glz_encode.md R116). -/
def State.deriveK (s : State) : Bool := s.args.a2.getLsbD 1

/-- A slice descriptor: its index, byte address and length (44_glz_encode.md R111). -/
structure Slice where
  idx : Nat
  addr : Nat
  len : Nat
  deriving DecidableEq, Repr

/-- The N descriptors at word address A (44_glz_encode.md R111). -/
def State.slices (s : State) (a n : Nat) : List Slice :=
  (List.range n).map fun i =>
    ⟨i, (s.wordmem.read (a + 2 * i)).toNat, (s.wordmem.read (a + 2 * i + 1)).toNat⟩

/-- Every slice lies in BYTEMEM (44_glz_encode.md R111). -/
def State.slicesOk (s : State) (ds : List Slice) : Bool :=
  ds.all fun d => rangeOk d.addr d.len s.cap.bytememBytes.toNat

end Sys2Proof.Machine
end

