-- ==== Sys2Proof/Machine/Bits.lean ====
section
/-! DEFINITION. The bit-symbol codec's commands (40_bits.md R71 to R74). -/

namespace Sys2Proof.Machine

/-- A value that does not fit a w-bit field: `w < 32 and n >= 2^w` (40_bits.md R70). -/
def overflows (w n : Nat) : Bool := decide (w < 32) && decide (2 ^ w ≤ n)

/-- The pseudocode of BITS_PUT (40_bits.md R71). -/
def bitsPut (s : State) : Ending :=
  let w := s.arg0
  let n := s.arg1
  if 32 < w then .raised s ⟨.widthExceeded, 0⟩
  else if overflows w n then .raised s ⟨.overflow, s.streamLen.toNat⟩
  else if s.cap.bitmemBits.toNat < s.streamLen.toNat + w then .raised s ⟨.capacity, s.streamLen.toNat⟩
  else .done ((s.setRes0 s.streamLen.toNat).putBits (fieldBits w n))

/-- BITS_PUT (40_bits.md R71). -/
def execBitsPut (s : State) : Host.Outcome State Fault Refusal :=
  runCommand (guarded State.streamOk bitsPut) s

/-- The pseudocode of BITS_GET (40_bits.md R72). -/
def bitsGet (s : State) : Ending :=
  let w := s.arg0
  let p := s.arg1
  if 32 < w then .raised s ⟨.widthExceeded, p⟩
  else
    match getBits s.stream p w with
    | .error why => .raised s why
    | .ok (v, p2) => .done ((s.setRes0 v).setRes1 p2)

/-- BITS_GET (40_bits.md R72). -/
def execBitsGet (s : State) : Host.Outcome State Fault Refusal :=
  runCommand (guarded State.streamOk bitsGet) s

/-- The index of the first word that does not fit in w bits (40_bits.md R73). -/
def firstOverflow (w : Nat) (ws : List Word) : Option Nat := ws.findIdx? fun v => overflows w v.toNat

/-- The pseudocode of BITS_PUT_STREAM (40_bits.md R73). -/
def bitsPutStream (s : State) : Ending :=
  let w := s.arg0
  let a := s.arg1
  let c := s.arg2
  if 32 < w then .raised s ⟨.widthExceeded, 0⟩
  else if !rangeOk a c s.cap.wordmemWords.toNat then .raised s ⟨.capacity, 0⟩
  else if s.cap.bitmemBits.toNat < s.streamLen.toNat + c * w then .raised s ⟨.capacity, s.streamLen.toNat⟩
  else
    match firstOverflow w (s.wordmem.readList a c) with
    | some i => .raised s ⟨.overflow, s.streamLen.toNat + i * w⟩
    | none =>
      .done ((s.setRes0 s.streamLen.toNat).putBits
        ((s.wordmem.readList a c).flatMap fun v => fieldBits w v.toNat))

/-- BITS_PUT_STREAM (40_bits.md R73). -/
def execBitsPutStream (s : State) : Host.Outcome State Fault Refusal :=
  runCommand (guarded State.streamOk bitsPutStream) s

/-- The cnt fields of w bits from position p (40_bits.md R74). -/
def State.fields (s : State) (w p cnt : Nat) : List Word :=
  (List.range cnt).map fun i => BitVec.ofNat 32 (fieldValue s.bit (p + i * w) w)

/-- The pseudocode of BITS_GET_STREAM (40_bits.md R74). The words written before TRUNCATED are unspecified (U2, notes/assumptions/6.md). -/
def bitsGetStream (s : State) : Ending :=
  let w := s.arg0
  let p := s.arg1
  let a := s.arg2
  let cmax := s.arg3
  if 32 < w then .raised s ⟨.widthExceeded, p⟩
  else if w = 0 then .done (s.setRes0 0)
  else if s.streamLen.toNat < p then .raised s ⟨.truncated, p⟩
  else
    let cnt := (s.streamLen.toNat - p) / w
    let rest := (s.streamLen.toNat - p) % w
    if cmax < cnt then .raised s ⟨.capacity, p⟩
    else if !rangeOk a cnt s.cap.wordmemWords.toNat then .raised s ⟨.capacity, p⟩
    else if rest ≠ 0 then .raised (s.looseWords a (a + cnt)) ⟨.truncated, p + cnt * w⟩
    else .done ((s.writeWords a (s.fields w p cnt)).setRes0 cnt)

/-- BITS_GET_STREAM (40_bits.md R74). -/
def execBitsGetStream (s : State) : Host.Outcome State Fault Refusal :=
  runCommand (guarded State.streamOk bitsGetStream) s

end Sys2Proof.Machine
end

