-- ==== Sys2Proof/Machine/GlzDecode.lean ====
section
/-! DEFINITION. The GLZ decoder: its registers, one cycle, the operations LIT, RUN and REF, and the decode commands (45_glz_decode.md R117 to R123). -/

namespace Sys2Proof.Machine

/-! ### The count of bytes owed -/

/-- `min(c, rem)`. -/
def Remaining.clip (c : Nat) : Remaining → Nat
  | .bytes n => min c n
  | .unbounded => c

/-- `rem − t`, with ∞ − t = ∞ (45_glz_decode.md R123). -/
def Remaining.less (t : Nat) : Remaining → Remaining
  | .bytes n => .bytes (n - t)
  | .unbounded => .unbounded

/-- `s >= rem`. -/
def Remaining.coveredBy (n : Nat) : Remaining → Bool
  | .bytes r => decide (r ≤ n)
  | .unbounded => false

/-- `rem == 0`. -/
def Remaining.isZero : Remaining → Bool
  | .bytes n => decide (n = 0)
  | .unbounded => false

/-! ### The frame stack -/

/-- FRAME[i] of the two frames (10_state.md R35). -/
def Decoder.frame (x : Decoder) (i : Nat) : Frame := if i = 0 then x.frame0 else x.frame1

/-- FRAME[d] <- f; d <- d + 1; pushes <- pushes + 1. -/
def Decoder.push (x : Decoder) (f : Frame) : Decoder :=
  if x.d = 0 then { x with frame0 := f, d := x.d + 1, pushes := x.pushes + 1 }
  else { x with frame1 := f, d := x.d + 1, pushes := x.pushes + 1 }

/-- d <- d − 1; (p, rem) <- FRAME[d]. -/
def Decoder.pop (x : Decoder) : Decoder :=
  { x with d := x.d - 1, p := (x.frame (x.d - 1)).ret, rem := (x.frame (x.d - 1)).rem }

/-- Finished frames return: `while rem == 0 and d > 0` (45_glz_decode.md R117), with d as its fuel. -/
def Decoder.popFinished : Nat → Decoder → Decoder
  | 0, x => x
  | fuel + 1, x => if x.rem.isZero && decide (0 < x.d) then Decoder.popFinished fuel x.pop else x

/-- The exit test: nothing owed at the top level, or for GLZ_DECODE_STREAM the end of the stream (45_glz_decode.md R117, R123). -/
def Decoder.finished (x : Decoder) (streamLen : Nat) : Bool :=
  match x.cmd with
  | .decodeAt => x.rem.isZero
  | .decodeStream => decide (x.d = 0) && decide (streamLen ≤ x.p)

/-! ### Start and end of a decode -/

/-- The decoder's registers when a decode command starts (45_glz_decode.md R117, R123). The frames are not in use yet and keep what they hold (U8, notes/assumptions/23.md). -/
def State.beginDecode (s : State) (cmd : DecodeCmd) (p : Nat) (rem : Remaining) (out limit : Nat) : State :=
  { s with dec := { s.dec with
      running := true, cmd := cmd, p := p, q := p, rem := rem, d := 0
      cycles := 0, pushes := 0, k := 0, out := out, limit := limit } }

/-- CYCLES and PUSHES take the counts, saturated, when a decode command ends, with or without error (10_state.md R27). The decoder's own registers, d and the frames among them, are in use no longer and keep their last values: the spec leaves them open (U8), and that is the model's choice (notes/assumptions/23.md). -/
def State.reportCounts (s : State) : State :=
  { s with cycles := saturate s.dec.cycles, pushes := saturate s.dec.pushes
           dec := { s.dec with running := false } }

/-- The normal end of a decode: RES0 takes the bytes written (45_glz_decode.md R122, R123). -/
def State.endDecode (s : State) : State := (s.reportCounts.setRes0 s.dec.k).finish

/-- A decode that ends in error: the output region is unspecified, U5 (45_glz_decode.md R122, notes/assumptions/9.md). -/
def State.failDecode (s : State) (code : ErrCode) (pos : Nat) : State :=
  (s.looseBytes s.dec.out (s.dec.out + s.dec.limit)).reportCounts.raise code pos

/-! ### The operations -/

/-- IMM(c, b): the bytes are written, clipped to what is owed, and p moves past the operation. GLZ_DECODE_STREAM raises CAPACITY(p) when they would pass its maximum (45_glz_decode.md R117, R123). -/
def runImmediate (c : Nat) (b : Byte) (s : State) : State :=
  let x := s.dec
  let t := x.rem.clip c
  if x.cmd = .decodeStream ∧ x.limit < x.k + t then s.failDecode .capacity x.p
  else
    { s.fillBytes (x.out + x.k) b t with
      dec := { x with k := x.k + t, rem := x.rem.less t, p := x.q } }

/-- REF(s, o): the tail-position shortcut moves p to the target; any other reference saves its return in a frame first, and RECURSION_EXCEEDED(p) when both frames are in use (45_glz_decode.md R117, R119). -/
def runReference (n : Nat) (o : Word) (s : State) : State :=
  let x := s.dec
  let target := x.q + o.toNat
  if x.rem.coveredBy n then { s with dec := { x with p := target } }
  else if Config.depthMax ≤ x.d then s.failDecode .recursionExceeded x.p
  else { s with dec := { x.push ⟨x.q, x.rem.less n⟩ with p := target, rem := .bytes n } }

/-- LIT b in a decode: an immediate of count 1. -/
def litEffect (b : Byte) (s : State) : State := runImmediate 1 b s

/-- RUN c, b in a decode. -/
def runEffect (c : Nat) (b : Byte) (s : State) : State := runImmediate c b s

/-- REF s, o in a decode. -/
def refEffect (n : Nat) (o : Word) (s : State) : State := runReference n o s

/-- An operation has its effect inside a decode command and nowhere else (10_state.md R36, notes/assumptions/13.md). -/
def inDecode (effect : State → State) (s : State) : Host.Outcome State Fault Refusal :=
  if s.dec.running then .next (effect s) else .fault .noDecodeRunning

/-- LIT (43_glz_ops.md R99, 45_glz_decode.md R117). -/
def execLit (b : Byte) (s : State) : Host.Outcome State Fault Refusal := inDecode (litEffect b) s

/-- RUN (43_glz_ops.md R99, 45_glz_decode.md R117). -/
def execRun (c : Nat) (b : Byte) (s : State) : Host.Outcome State Fault Refusal := inDecode (runEffect c b) s

/-- REF (43_glz_ops.md R99, 45_glz_decode.md R117). -/
def execRef (n : Nat) (o : Word) (s : State) : Host.Outcome State Fault Refusal := inDecode (refEffect n o) s

/-! ### One cycle -/

/-- What the decoder's fetch finds: the command has ended, or an operation to run. -/
inductive OpFetch where
  | ended (t : State)
  | op (o : Op) (t : State)

/-- The loop of 45_glz_decode.md R117 up to its `case op of`: finished frames return, the exit test, the cycle count and its cap (R118), and decode_op at p. -/
def fetchOp (s : State) : OpFetch :=
  let x := Decoder.popFinished s.dec.d s.dec
  if x.finished s.streamLen.toNat then .ended (State.endDecode { s with dec := x })
  else
    let y := { x with cycles := x.cycles + 1 }
    if 2 * y.limit < y.cycles then .ended (State.failDecode { s with dec := y } .runtimeExceeded y.p)
    else
      match decodeOp s.coder s.stream y.p with
      | .error why => .ended (State.failDecode { s with dec := y } why.code why.pos)
      | .ok (op, q) => .op op { s with dec := { y with q := q } }

/-- The effect of an operation, by its instruction form. -/
def runOp : Op → State → State
  | .imm n b, s => if n = 1 then litEffect b s else runEffect n b s
  | .ref n o, s => refEffect n o s

/-- One pass of the decode loop. -/
def decodeCycle (s : State) : State :=
  match fetchOp s with
  | .ended t => t
  | .op o t => runOp o t

/-- The decode loop: cycles until the command ends. -/
def decodeLoop : Nat → State → State
  | 0, s => s
  | fuel + 1, s => if s.dec.running then decodeLoop fuel (decodeCycle s) else s

/-! ### The commands -/

/-- A decode command after its registers are set: the start checks, the output range, then the loop. The cycle cap ends the loop within 2·limit + 1 passes (45_glz_decode.md R120). -/
def decodeCommandFrom (s : State) : State :=
  if !s.opsOk then s.failDecode .config 0
  else if !rangeOk s.dec.out s.dec.limit s.cap.bytememBytes.toNat then s.failDecode .capacity 0
  else decodeLoop (2 * s.dec.limit + 1) s

/-- The state in which GLZ_DECODE_AT enters its loop (45_glz_decode.md R122). -/
def State.enterDecodeAt (s : State) : State :=
  s.start.beginDecode .decodeAt s.arg0 (.bytes s.arg1) s.arg2 s.arg1

/-- The state in which GLZ_DECODE_STREAM enters its loop (45_glz_decode.md R123). -/
def State.enterDecodeStream (s : State) : State :=
  s.start.beginDecode .decodeStream s.arg0 .unbounded s.arg1 s.arg2

/-- GLZ_DECODE_AT (45_glz_decode.md R122). -/
def execGlzDecodeAt (s : State) : Host.Outcome State Fault Refusal := .next (decodeCommandFrom s.enterDecodeAt)

/-- GLZ_DECODE_STREAM (45_glz_decode.md R123). -/
def execGlzDecodeStream (s : State) : Host.Outcome State Fault Refusal :=
  .next (decodeCommandFrom s.enterDecodeStream)

end Sys2Proof.Machine
end

