-- ==== Sys2Proof/Machine/Histogram.lean ====
section
/-! DEFINITION. The histogram and its commands (41_histogram_remap.md R75 to R82). -/

namespace Sys2Proof.Machine

/-- `bound = max(HIST_FIXLEN, HIST_HWM)` (41_histogram_remap.md R75). -/
def Hist.bound (h : Hist) : Nat := max h.fixlen.toNat h.hwm.toNat

/-- COUNT[n]. -/
def Hist.countOf (h : Hist) (n : Nat) : Nat := (h.count.read n).toNat

/-- The empty histogram with a fixed length (41_histogram_remap.md R76). -/
def Hist.cleared (f : Nat) : Hist := ⟨BitVec.ofNat 32 f, 0, []⟩

/-- The state effect of one increment (41_histogram_remap.md R77). -/
def Hist.bump (h : Hist) (n : Nat) : Hist :=
  { h with
    count := h.count.write n (BitVec.ofNat 32 (h.countOf n + 1))
    hwm := BitVec.ofNat 32 (max h.hwm.toNat (n + 1)) }

/-- HIST_CLEAR on a histogram of cap counters (41_histogram_remap.md R76). -/
def Hist.clear (cap f : Nat) : Except Raised Hist :=
  if cap < f then .error ⟨.capacity, 0⟩ else .ok (Hist.cleared f)

/-- HIST_INC of symbol n (41_histogram_remap.md R77). -/
def Hist.inc (cap : Nat) (h : Hist) (n : Nat) : Except Raised Hist :=
  if cap ≤ n then .error ⟨.capacity, 0⟩
  else if h.countOf n = 2 ^ 32 - 1 then .error ⟨.countOverflow, 0⟩
  else .ok (h.bump n)

/-- HIST_INC of each symbol in order, up to the first error. -/
def Hist.incAll (cap : Nat) (h : Hist) : List Nat → Except Raised Hist
  | [] => .ok h
  | n :: ns =>
    match h.inc cap n with
    | .error why => .error why
    | .ok h' => Hist.incAll cap h' ns

/-- HIST_DEC of symbol n (41_histogram_remap.md R78). -/
def Hist.dec (cap : Nat) (h : Hist) (n : Nat) : Except Raised Hist :=
  if cap ≤ n then .error ⟨.capacity, 0⟩
  else if h.countOf n = 0 then .error ⟨.histUnderflow, 0⟩
  else .ok { h with count := h.count.write n (BitVec.ofNat 32 (h.countOf n - 1)) }

/-- HIST_SEED of a symbol list: every check before the first increment (41_histogram_remap.md R81). -/
def Hist.seed (cap : Nat) (h : Hist) (ns : List Nat) : Except Raised Hist :=
  if ns.any fun n => decide (cap ≤ n) then .error ⟨.capacity, 0⟩
  else if ns.any fun n => decide (2 ^ 32 - 1 < h.countOf n + ns.count n) then .error ⟨.countOverflow, 0⟩
  else .ok (ns.foldl Hist.bump h)

/-- Stores a histogram operation's result, or ends in its error with the histogram unchanged. -/
def State.withHist (s : State) : Except Raised Hist → Ending
  | .error why => .raised s why
  | .ok h => .done { s with hist := h }

/-- HIST_CLEAR (41_histogram_remap.md R76). -/
def execHistClear (s : State) : Host.Outcome State Fault Refusal :=
  runCommand (fun s => s.withHist (Hist.clear s.cap.histCap.toNat s.arg0)) s

/-- HIST_INC (41_histogram_remap.md R77). -/
def execHistInc (s : State) : Host.Outcome State Fault Refusal :=
  runCommand (fun s => s.withHist (s.hist.inc s.cap.histCap.toNat s.arg0)) s

/-- HIST_DEC (41_histogram_remap.md R78). -/
def execHistDec (s : State) : Host.Outcome State Fault Refusal :=
  runCommand (fun s => s.withHist (s.hist.dec s.cap.histCap.toNat s.arg0)) s

/-- HIST_GET: a symbol at or above HIST_CAP reads 0 (41_histogram_remap.md R79). -/
def execHistGet (s : State) : Host.Outcome State Fault Refusal :=
  runCommand (fun s => .done (s.setRes0 (if s.arg0 < s.cap.histCap.toNat then s.hist.countOf s.arg0 else 0))) s

/-- HIST_BOUND (41_histogram_remap.md R80). -/
def execHistBound (s : State) : Host.Outcome State Fault Refusal :=
  runCommand (fun s => .done (s.setRes0 s.hist.bound)) s

/-- The pseudocode of HIST_SEED (41_histogram_remap.md R81). -/
def histSeed (s : State) : Ending :=
  let a := s.arg0
  let c := s.arg1
  if !rangeOk a c s.cap.wordmemWords.toNat then .raised s ⟨.capacity, 0⟩
  else s.withHist (s.hist.seed s.cap.histCap.toNat ((s.wordmem.readList a c).map BitVec.toNat))

/-- HIST_SEED (41_histogram_remap.md R81). -/
def execHistSeed (s : State) : Host.Outcome State Fault Refusal := runCommand histSeed s

/-! ### The sort -/

/-- The order of the decode table: COUNT descending, ties by symbol ascending (41_histogram_remap.md R82). -/
def Hist.before (h : Hist) (x y : Nat) : Bool :=
  decide (h.countOf y < h.countOf x) || (decide (h.countOf x = h.countOf y) && decide (x ≤ y))

/-- Puts x before the first element it precedes. -/
def sortInsert {α : Type} (le : α → α → Bool) (x : α) : List α → List α
  | [] => [x]
  | y :: ys => if le x y then x :: y :: ys else y :: sortInsert le x ys

/-- Insertion sort by a total order. -/
def sortBy {α : Type} (le : α → α → Bool) : List α → List α
  | [] => []
  | x :: xs => sortInsert le x (sortBy le xs)

/-- The symbols 0..B-1 in table order (41_histogram_remap.md R82). -/
def Hist.sorted (h : Hist) : List Nat := sortBy h.before (List.range h.bound)

/-- E[D[r]] <- r for the table entries from rank r on. -/
def inverseEntries (e : Memory 32) (r : Nat) : List Nat → Memory 32
  | [] => e
  | n :: ns => inverseEntries (e.write n (BitVec.ofNat 32 r)) (r + 1) ns

/-- The remap after a decode table of the symbols ns is installed; an empty one selects the identity (41_histogram_remap.md R82, R88). Entries at or above TBL_B keep their contents (U8, notes/assumptions/3.md). -/
def Remap.install (r : Remap) (ns : List Nat) : Remap :=
  if ns = [] then { r with en := false, b := 0 }
  else
    { en := true
      b := BitVec.ofNat 32 ns.length
      d := r.d.writeList 0 (ns.map (BitVec.ofNat 32))
      e := inverseEntries r.e 0 ns }

/-- The table effect of HIST_SORT (41_histogram_remap.md R82). -/
def State.sortTables (s : State) : State := { s with remap := s.remap.install s.hist.sorted }

/-- HIST_SORT (41_histogram_remap.md R82). -/
def execHistSort (s : State) : Host.Outcome State Fault Refusal :=
  runCommand (fun s => .done (s.sortTables.setRes0 s.hist.bound)) s

end Sys2Proof.Machine
end

