-- ==== Sys2Proof/Machine/Rice.lean ====
section
/-! DEFINITION. The Golomb-Rice commands and the parameter search (42_rice.md R94 to R96). -/

namespace Sys2Proof.Machine

/-- The start checks of RICE_PUT and RICE_GET (60_exceptions.md R139). -/
def State.riceOk (s : State) : Bool := s.streamOk && s.kOk

/-- The pseudocode of RICE_PUT (42_rice.md R94). -/
def ricePut (s : State) : Ending :=
  let n := s.arg0
  let len := s.coder.symLen n
  if s.cap.bitmemBits.toNat < s.streamLen.toNat + len then .raised s ⟨.capacity, s.streamLen.toNat⟩
  else .done (((s.setRes0 s.streamLen.toNat).setRes1 len).putBits (s.coder.sym n))

/-- RICE_PUT (42_rice.md R94). -/
def execRicePut (s : State) : Host.Outcome State Fault Refusal :=
  runCommand (guarded State.riceOk ricePut) s

/-- The pseudocode of RICE_GET (42_rice.md R95). -/
def riceGet (s : State) : Ending :=
  let p := s.arg0
  let w := s.arg1
  if ¬(w = 8 ∨ w = 16 ∨ w = 32) then .raised s ⟨.config, p⟩
  else
    match getRice s.stream s.coder.k p (2 ^ 32) .cast p with
    | .error why => .raised s why
    | .ok (n, i) =>
      let v := s.remap.mapDec n
      if w < 32 ∧ 2 ^ w ≤ v then .raised s ⟨.cast, p⟩
      else .done ((s.setRes0 v).setRes1 i)

/-- RICE_GET (42_rice.md R95). -/
def execRiceGet (s : State) : Host.Outcome State Fault Refusal :=
  runCommand (guarded State.riceOk riceGet) s

/-- `cost(k)`: the histogram's total coded length under k, exactly (42_rice.md R96). -/
def State.cost (s : State) (k : Nat) : Nat :=
  ((List.range s.hist.bound).map fun n => s.hist.countOf n * riceLen k (s.remap.mapEnc n)).sum

/-- The scan of k upwards from the best so far; a tie keeps the smaller k (42_rice.md R96). -/
def searchFrom (cost : Nat → Nat) (best bestCost : Nat) : List Nat → Nat × Nat
  | [] => (best, bestCost)
  | k :: ks =>
    if cost k < bestCost then searchFrom cost k (cost k) ks else searchFrom cost best bestCost ks

/-- The best k of 0 .. ceil_log2(bound) and its cost (42_rice.md R96). -/
def State.searchK (s : State) : Nat × Nat :=
  searchFrom s.cost 0 (s.cost 0) ((List.range (ceilLog2 s.hist.bound)).map (· + 1))

/-- The configuration effect of RICE_SEARCH: CFG_K becomes the best k (42_rice.md R96). -/
def State.setBestK (s : State) : State := { s with cfg := { s.cfg with k := BitVec.ofNat 6 s.searchK.1 } }

/-- The pseudocode of RICE_SEARCH (42_rice.md R96): the cost is reported saturated at 2^64 - 1. -/
def riceSearch (s : State) : Ending :=
  let c := min s.searchK.2 (2 ^ 64 - 1)
  .done (((s.setBestK.setRes0 s.searchK.1).setRes1 (c % 2 ^ 32)).setRes2 (c / 2 ^ 32))

/-- RICE_SEARCH (42_rice.md R96). -/
def execRiceSearch (s : State) : Host.Outcome State Fault Refusal := runCommand riceSearch s

end Sys2Proof.Machine
end

