-- ==== Sys2Proof/Machine/GlzEncode.lean ====
section
/-! DEFINITION. The GLZ encoder, GLZ_ENCODE_ALL and GLZ_SEED (44_glz_encode.md R107 to R111, R116). -/

namespace Sys2Proof.Machine

/-- Where an emitted operation goes: into a stream that starts at S0 in a BITMEM of cap bits (44_glz_encode.md R108), or into a histogram of cap counters (R116). -/
inductive Sink where
  | stream (s0 cap : Nat)
  | hist (cap : Nat)
  deriving DecidableEq, Repr

/-- What one command's encoder reads: the coder its lengths use, BYTEMEM, and the sink. -/
structure EncodeEnv where
  coder : Coder
  mem : Memory 8
  sink : Sink
  deriving DecidableEq, Repr

/-- What one command's encoder changes. -/
structure EncodeRun where
  enc : Encoder
  hist : Hist
  deriving DecidableEq, Repr

/-- `emit(op)`: appends op to EL and adds its length to W (44_glz_encode.md R108). -/
def Encoder.push (x : Encoder) (c : Coder) (op : Op) : Encoder :=
  { x with el := x.el ++ [op], w := x.w + c.opLen op }

/-- `emit(op)` with its sink's check: CAPACITY(S0) when the stream would pass BITMEM_BITS (44_glz_encode.md R108), or the increments of GLZ_SEED (R116). -/
def emit (env : EncodeEnv) (x : EncodeRun) (op : Op) : Except Raised EncodeRun :=
  match env.sink with
  | .stream s0 cap =>
    if cap < s0 + x.enc.w + env.coder.opLen op then .error ⟨.capacity, s0⟩
    else .ok { x with enc := x.enc.push env.coder op }
  | .hist cap =>
    match x.hist.incAll cap (opSymbols env.coder.l op) with
    | .error why => .error why
    | .ok h => .ok ⟨x.enc.push env.coder op, h⟩

/-- The count of trailing bytes equal to b before scan position q, from a count c of them on, at most more further ones (44_glz_encode.md R109). -/
def trailingRun (mem : Memory 8) (base q : Nat) (b : Byte) : Nat → Nat → Nat
  | 0, c => c
  | more + 1, c => if mem.read (base + q - 1 - c) = b then trailingRun mem base q b more (c + 1) else c

/-- BYTEMEM[a .. a+n) = BYTEMEM[b .. b+n). -/
def bytesEqual (mem : Memory 8) (a b n : Nat) : Bool :=
  (List.range n).all fun j => decide (mem.read (a + j) = mem.read (b + j))

/-- An anchor that can serve a reference of size n ending at scan position q (44_glz_encode.md R109). -/
def Anchor.serves (an : Anchor) (mem : Memory 8) (base q w n : Nat) : Bool :=
  decide (n ≤ an.lim - an.a) && decide (w - an.w < 2 ^ 32) && bytesEqual mem an.a (base + q - n) n

/-- The reference search: sizes from the given count plus one down to 2, newest anchor first; the size and the offset W - w (44_glz_encode.md R109). -/
def findRef (mem : Memory 8) (base : Nat) (x : Encoder) : Nat → Option (Nat × Nat)
  | 0 => none
  | n + 1 =>
    match x.dict.reverse.find? fun an => an.serves mem base x.q x.w (n + 2) with
    | some an => some (n + 2, x.w - an.w)
    | none => findRef mem base x n

/-- Appends an anchor, dropping the oldest when more than 2^L are held (44_glz_encode.md R107, R109). -/
def appendAnchor (l : Nat) (dict : List Anchor) (an : Anchor) : List Anchor :=
  if 2 ^ l < (dict ++ [an]).length then (dict ++ [an]).tail else dict ++ [an]

/-- Emits the immediate candidate and records its anchor (44_glz_encode.md R109). -/
def takeImm (env : EncodeEnv) (base : Nat) (x : EncodeRun) (c : Nat) (b : Byte) : Except Raised EncodeRun :=
  match emit env x (.imm c b) with
  | .error why => .error why
  | .ok y =>
    let q := y.enc.q - c
    .ok { y with enc := { y.enc with
      q := q
      f := false
      dict := appendAnchor env.coder.l y.enc.dict ⟨base + q, base + y.enc.r, y.enc.w⟩ } }

/-- Emits the reference candidate and forces the next operation to be an immediate (44_glz_encode.md R109). -/
def takeRef (env : EncodeEnv) (x : EncodeRun) (n o : Nat) : Except Raised EncodeRun :=
  match emit env x (.ref n (BitVec.ofNat 32 o)) with
  | .error why => .error why
  | .ok y => .ok { y with enc := { y.enc with q := y.enc.q - n, r := y.enc.q - n, f := true } }

/-- One pass of the scan loop at q > 0 (44_glz_encode.md R109). -/
def scanStep (env : EncodeEnv) (base : Nat) (x : EncodeRun) : Except Raised EncodeRun :=
  let q := x.enc.q
  let b := env.mem.read (base + q - 1)
  let c := trailingRun env.mem base q b (min (sizeMax env.coder.l) q - 1) 1
  let found := if x.enc.f then none else findRef env.mem base x.enc (min (sizeMax env.coder.l) q - 1)
  match found with
  | some (n, o) =>
    if env.coder.opLen (.ref n (BitVec.ofNat 32 o)) * c < env.coder.opLen (.imm c b) * n then takeRef env x n o
    else takeImm env base x c b
  | none => takeImm env base x c b

/-- The scan loop; every pass lowers q, so the slice length is fuel enough (44_glz_encode.md R109). -/
def encodeScan (env : EncodeEnv) (base : Nat) : Nat → EncodeRun → Except Raised EncodeRun
  | 0, x => .ok x
  | fuel + 1, x =>
    if x.enc.q = 0 then .ok x
    else
      match scanStep env base x with
      | .error why => .error why
      | .ok y => encodeScan env base fuel y

/-- `encode_slice(base, n)` (44_glz_encode.md R109). -/
def encodeSlice (env : EncodeEnv) (d : Slice) (x : EncodeRun) : Except Raised EncodeRun :=
  encodeScan env d.addr d.len { x with enc := { x.enc with q := d.len, r := d.len, f := false } }

/-- The order of encoding: length descending, ties by index (44_glz_encode.md R111). -/
def Slice.before (a b : Slice) : Bool :=
  decide (b.len < a.len) || (decide (a.len = b.len) && decide (a.idx ≤ b.idx))

/-- The loop over the ordered slices: a slice byte-identical to an earlier one takes the first such one's end count, any other is encoded (44_glz_encode.md R111). -/
def encodeSlices (env : EncodeEnv) :
    List Slice → List (Slice × Nat) → EncodeRun → Except Raised (List (Slice × Nat) × EncodeRun)
  | [], ends, x => .ok (ends, x)
  | d :: ds, ends, x =>
    match ends.find? fun e => decide (e.1.len = d.len) && bytesEqual env.mem e.1.addr d.addr d.len with
    | some e => encodeSlices env ds (ends ++ [(d, e.2)]) x
    | none =>
      match encodeSlice env d x with
      | .error why => .error why
      | .ok y => encodeSlices env ds (ends ++ [(d, y.enc.w)]) y

/-- The encode of all slices from an empty dictionary and an empty emission list (44_glz_encode.md R111). -/
def encodeAll (env : EncodeEnv) (ds : List Slice) (h : Hist) : Except Raised (List (Slice × Nat) × EncodeRun) :=
  encodeSlices env (sortBy Slice.before ds) [] ⟨Encoder.idle, h⟩

/-- The emission list reversed, coded (44_glz_encode.md R110). -/
def Encoder.stream (x : Encoder) (c : Coder) : List Bool := x.el.reverse.flatMap (encodeOp c)

/-- Writes the (offset, length) pair of every slice at the result table z, for a stream that ends at bit position stop (44_glz_encode.md R111). -/
def State.writePairs (s : State) (z stop : Nat) : List (Slice × Nat) → State
  | [] => s
  | e :: es =>
    State.writePairs ((s.writeWord (z + 2 * e.1.idx) (BitVec.ofNat 32 (stop - e.2))).writeWord
      (z + 2 * e.1.idx + 1) (BitVec.ofNat 32 e.1.len)) z stop es

/-- The encoder's state is discarded when the command ends (10_state.md R34). -/
def State.discardEncoder (s : State) : State := { s with enc := Encoder.idle }

/-- The environment of GLZ_ENCODE_ALL: the configuration in force, and the stream appended at STREAM_LEN (44_glz_encode.md R108, R109). -/
def State.encodeEnv (s : State) : EncodeEnv :=
  ⟨s.coder, s.bytemem, .stream s.streamLen.toNat s.cap.bitmemBits.toNat⟩

/-- The writes of a GLZ_ENCODE_ALL that succeeds (44_glz_encode.md R111). -/
def State.storeEncoded (s : State) (z : Nat) (ends : List (Slice × Nat)) (x : Encoder) : State :=
  let s0 := s.streamLen.toNat
  let t := { s with enc := x }
  (((t.putBits (t.enc.stream s.coder)).writePairs z (s0 + x.w) ends).setRes0 x.w).setRes1 (s0 + x.w)
    |>.discardEncoder

/-- The pseudocode of GLZ_ENCODE_ALL (44_glz_encode.md R111). -/
def glzEncodeAll (s : State) : Ending :=
  let a := s.arg0
  let n := s.arg1
  let z := s.arg2
  if !(rangeOk a (2 * n) s.cap.wordmemWords.toNat && rangeOk z (2 * n) s.cap.wordmemWords.toNat) then
    .raised s ⟨.capacity, 0⟩
  else if !s.slicesOk (s.slices a n) then .raised s ⟨.capacity, 0⟩
  else
    match encodeAll s.encodeEnv (s.slices a n) s.hist with
    | .error why => .raised s why
    | .ok (ends, y) => .done (s.storeEncoded z ends y.enc)

/-- Applies a change to the state of a command that ends in error. -/
def Ending.onError (f : State → State) : Ending → Ending
  | .done s => .done s
  | .raised s why => .raised (f s) why

/-- U3: after GLZ_ENCODE_ALL ends in error, BITMEM from S0 up and the result table are unspecified (44_glz_encode.md R111, notes/assumptions/7.md). -/
def State.looseEncodeOutput (s : State) : State :=
  (s.looseBits s.streamLen.toNat s.cap.bitmemBits.toNat).looseWords s.arg2 (s.arg2 + 2 * s.arg1)

/-- GLZ_ENCODE_ALL (44_glz_encode.md R111). -/
def execGlzEncodeAll (s : State) : Host.Outcome State Fault Refusal :=
  runCommand (fun s => (guarded State.opsOk glzEncodeAll s).onError State.looseEncodeOutput) s

/-! ### Seeding -/

/-- The environment of GLZ_SEED: the neutral coder, and the histogram as the sink (44_glz_encode.md R116). -/
def State.seedEnv (s : State) : EncodeEnv :=
  ⟨⟨Config.kNeutral, s.coder.l, s.coder.m, Remap.identity⟩, s.bytemem, .hist s.cap.histCap.toNat⟩

/-- The refit after the histogram is trained: the sort, then the search, as the flags ask (44_glz_encode.md R116). -/
def State.refit (s : State) : State :=
  let t := if s.deriveTable then s.sortTables else s
  if s.deriveK then t.setBestK else t

/-- The pseudocode of GLZ_SEED (44_glz_encode.md R116). RES2 is not among its results and keeps its value (notes/assumptions/14.md). -/
def glzSeed (s : State) : Ending :=
  let a := s.arg0
  let n := s.arg1
  if !rangeOk a (2 * n) s.cap.wordmemWords.toNat then .raised s ⟨.capacity, 0⟩
  else if !s.slicesOk (s.slices a n) then .raised s ⟨.capacity, 0⟩
  else
    match Hist.clear s.cap.histCap.toNat (headSpace s.coder.l) with
    | .error why => .raised s why
    | .ok h =>
      match encodeAll s.seedEnv (s.slices a n) h with
      | .error why => .raised s why
      | .ok (_, y) =>
        let t := ({ s with enc := y.enc, hist := y.hist }).refit.discardEncoder
        .done ((t.setRes0 t.cfg.k.toNat).setRes1 t.remap.b.toNat)

/-- GLZ_SEED: it checks L and M, and neither the stream nor K (60_exceptions.md R139); U4 after an error (44_glz_encode.md R116). -/
def execGlzSeed (s : State) : Host.Outcome State Fault Refusal :=
  runCommand (fun s => (guarded State.lmOk glzSeed s).onError State.looseHist) s

end Sys2Proof.Machine
end

