-- ==== Sys2Proof/Machine/GlzOps.lean ====
section
/-! DEFINITION. The commands that put and get one operation (43_glz_ops.md R104, R105). -/

namespace Sys2Proof.Machine

/-- The range check of GLZ_OP_PUT: a count, byte or size outside its range raises OVERFLOW (43_glz_ops.md R104). -/
def opPutOverflows (l kind u v : Nat) : Bool :=
  if kind = 0 then decide (u = 0) || decide (sizeMax l < u) || decide (255 < v)
  else decide (u < 2) || decide (sizeMax l < u)

/-- The operation that GLZ_OP_PUT's arguments name (43_glz_ops.md R104). -/
def opOfArgs (kind u v : Nat) : Op :=
  if kind = 0 then .imm u (BitVec.ofNat 8 v) else .ref u (BitVec.ofNat 32 v)

/-- The pseudocode of GLZ_OP_PUT (43_glz_ops.md R104). -/
def glzOpPut (s : State) : Ending :=
  let kind := s.arg0
  let u := s.arg1
  let v := s.arg2
  if 2 ≤ kind then .raised s ⟨.config, 0⟩
  else if opPutOverflows s.coder.l kind u v then .raised s ⟨.overflow, s.streamLen.toNat⟩
  else
    let op := opOfArgs kind u v
    let len := s.coder.opLen op
    if s.cap.bitmemBits.toNat < s.streamLen.toNat + len then .raised s ⟨.capacity, s.streamLen.toNat⟩
    else .done (((s.setRes0 s.streamLen.toNat).setRes1 len).putBits (encodeOp s.coder op))

/-- GLZ_OP_PUT (43_glz_ops.md R104). -/
def execGlzOpPut (s : State) : Host.Outcome State Fault Refusal :=
  runCommand (guarded State.opsOk glzOpPut) s

/-- The results of GLZ_OP_GET: kind, count or size, byte or offset, next position (43_glz_ops.md R105). -/
def State.setOpResults (s : State) (q : Nat) : Op → State
  | .imm c b => (((s.setRes0 0).setRes1 c).setRes2 b.toNat).setRes3 q
  | .ref n o => (((s.setRes0 1).setRes1 n).setRes2 o.toNat).setRes3 q

/-- The pseudocode of GLZ_OP_GET (43_glz_ops.md R105). -/
def glzOpGet (s : State) : Ending :=
  match decodeOp s.coder s.stream s.arg0 with
  | .error why => .raised s why
  | .ok (op, q) => .done (s.setOpResults q op)

/-- GLZ_OP_GET (43_glz_ops.md R105). -/
def execGlzOpGet (s : State) : Host.Outcome State Fault Refusal :=
  runCommand (guarded State.opsOk glzOpGet) s

end Sys2Proof.Machine
end

