-- ==== Sys2Proof/Machine/Housekeeping.lean ====
section
/-! DEFINITION. NOP and RESET (46_host.md R130, R131). -/

namespace Sys2Proof.Machine

/-- NOP: STATUS only, through the command's start and end (46_host.md R130). -/
def execNop (s : State) : Host.Outcome State Fault Refusal := runCommand .done s

/-- Every register and internal state at its reset value, the memories kept (46_host.md R131). The table entries are unspecified then and are kept (notes/assumptions/3.md). -/
def State.resetKeepingMemory (s : State) : State :=
  { State.resetWith s.cap with
    remap := { s.remap with en := false, b := 0 }
    bitmem := s.bitmem
    bytemem := s.bytemem
    wordmem := s.wordmem
    inputs := s.inputs
    portData := s.portData
    free := s.free }

/-- RESET: ends with STATUS = 0, DONE included (46_host.md R131). -/
def execReset (s : State) : Host.Outcome State Fault Refusal := .next s.start.resetKeepingMemory

end Sys2Proof.Machine
end

