-- ==== Sys2Proof/Machine/Tables.lean ====
section
/-! DEFINITION. The table commands and the remap commands (41_histogram_remap.md R86 to R90). -/

namespace Sys2Proof.Machine

/-- The words are a permutation of 0..B-1, B their number (41_histogram_remap.md R88). -/
def isPermutation (ns : List Nat) : Bool := (ns.all fun n => decide (n < ns.length)) && decide ns.Nodup

/-- The pseudocode of TABLE_LOAD (41_histogram_remap.md R88). -/
def tableLoad (s : State) : Ending :=
  let a := s.arg0
  let b := s.arg1
  if s.cap.histCap.toNat < b then .raised s ⟨.capacity, 0⟩
  else if !rangeOk a b s.cap.wordmemWords.toNat then .raised s ⟨.capacity, 0⟩
  else
    let ns := (s.wordmem.readList a b).map BitVec.toNat
    if isPermutation ns then .done { s with remap := s.remap.install ns }
    else .raised s ⟨.tableInvalid, 0⟩

/-- TABLE_LOAD (41_histogram_remap.md R88). -/
def execTableLoad (s : State) : Host.Outcome State Fault Refusal := runCommand tableLoad s

/-- The pseudocode of TABLE_STORE (41_histogram_remap.md R89). -/
def tableStore (s : State) : Ending :=
  let a := s.arg0
  let b := s.remap.b.toNat
  if !s.remap.en then .done (s.setRes0 0)
  else if !rangeOk a b s.cap.wordmemWords.toNat then .raised s ⟨.capacity, 0⟩
  else .done ((s.writeWords a (s.remap.d.readList 0 b)).setRes0 b)

/-- TABLE_STORE (41_histogram_remap.md R89). -/
def execTableStore (s : State) : Host.Outcome State Fault Refusal := runCommand tableStore s

/-- TABLE_CLEAR: D and E keep their contents (41_histogram_remap.md R90). -/
def execTableClear (s : State) : Host.Outcome State Fault Refusal :=
  runCommand (fun s => .done { s with remap := { s.remap with en := false, b := 0 } }) s

/-- MAP_ENC (41_histogram_remap.md R86). -/
def execMapEnc (s : State) : Host.Outcome State Fault Refusal :=
  runCommand (fun s => .done (s.setRes0 (s.remap.mapEnc s.arg0))) s

/-- MAP_DEC (41_histogram_remap.md R87). -/
def execMapDec (s : State) : Host.Outcome State Fault Refusal :=
  runCommand (fun s => .done (s.setRes0 (s.remap.mapDec s.arg0))) s

end Sys2Proof.Machine
end

