-- ==== Sys2Proof/Machine/Dispatch.lean ====
section
/-! DEFINITION. exec: one arm for each instruction of spec/opcode_table.json, each a direct call of its meaning. -/

namespace Sys2Proof.Machine

def exec (i : Instr) (s : State) : Host.Outcome State Fault Refusal :=
  match i with
  | .nop => Sys2Proof.Machine.execNop s
  | .reset => Sys2Proof.Machine.execReset s
  | .bitsPut => Sys2Proof.Machine.execBitsPut s
  | .bitsGet => Sys2Proof.Machine.execBitsGet s
  | .bitsPutStream => Sys2Proof.Machine.execBitsPutStream s
  | .bitsGetStream => Sys2Proof.Machine.execBitsGetStream s
  | .histClear => Sys2Proof.Machine.execHistClear s
  | .histInc => Sys2Proof.Machine.execHistInc s
  | .histDec => Sys2Proof.Machine.execHistDec s
  | .histGet => Sys2Proof.Machine.execHistGet s
  | .histBound => Sys2Proof.Machine.execHistBound s
  | .histSeed => Sys2Proof.Machine.execHistSeed s
  | .histSort => Sys2Proof.Machine.execHistSort s
  | .tableLoad => Sys2Proof.Machine.execTableLoad s
  | .tableStore => Sys2Proof.Machine.execTableStore s
  | .tableClear => Sys2Proof.Machine.execTableClear s
  | .mapEnc => Sys2Proof.Machine.execMapEnc s
  | .mapDec => Sys2Proof.Machine.execMapDec s
  | .ricePut => Sys2Proof.Machine.execRicePut s
  | .riceGet => Sys2Proof.Machine.execRiceGet s
  | .riceSearch => Sys2Proof.Machine.execRiceSearch s
  | .glzOpPut => Sys2Proof.Machine.execGlzOpPut s
  | .glzOpGet => Sys2Proof.Machine.execGlzOpGet s
  | .glzEncodeAll => Sys2Proof.Machine.execGlzEncodeAll s
  | .glzDecodeAt => Sys2Proof.Machine.execGlzDecodeAt s
  | .glzDecodeStream => Sys2Proof.Machine.execGlzDecodeStream s
  | .glzSeed => Sys2Proof.Machine.execGlzSeed s
  | .lit b => Sys2Proof.Machine.execLit b s
  | .run c b => Sys2Proof.Machine.execRun c b s
  | .ref n o => Sys2Proof.Machine.execRef n o s

end Sys2Proof.Machine
end

