-- ==== Sys2Proof/Machine/HostPort.lean ====
section
/-! DEFINITION. The host's two ports (46_host.md R125, R126): the register map of 10_state.md R20, the memory port with BITMEM packed as 20_memory.md R41, what a busy block does (70_reset_and_hazards.md R145), and power-on reset (R142). -/

namespace Sys2Proof.Machine

/-! ### The register map -/

/-- A register's current value by index; CMD and reserved indices read 0 (10_state.md R20). -/
def State.readRegister (s : State) (index : BitVec 8) : Word :=
  match index.toNat with
  | 0x01 => s.report.statusWord
  | 0x02 => s.report.code.number.setWidth 32
  | 0x03 => s.report.pos
  | 0x04 => s.cfg.k.setWidth 32
  | 0x05 => s.cfg.l.setWidth 32
  | 0x06 => s.cfg.m.setWidth 32
  | 0x07 => BitVec.ofNat 32 s.remap.en.toNat
  | 0x08 => s.remap.b
  | 0x09 => s.hist.fixlen
  | 0x0A => s.hist.hwm
  | 0x0B => s.streamLen
  | 0x0C => s.args.a0
  | 0x0D => s.args.a1
  | 0x0E => s.args.a2
  | 0x0F => s.args.a3
  | 0x10 => s.res.r0
  | 0x11 => s.res.r1
  | 0x12 => s.res.r2
  | 0x13 => s.res.r3
  | 0x14 => s.cycles
  | 0x15 => s.pushes
  | 0x16 => s.cap.bitmemBits
  | 0x17 => s.cap.bytememBytes
  | 0x18 => s.cap.wordmemWords
  | 0x19 => s.cap.histCap
  | 0x1A => s.cap.lMax.setWidth 32
  | _ => 0

/-- A write to a register other than CMD: RW registers store their fields, bits outside them are dropped; RO registers and reserved indices ignore it (46_host.md R126). -/
def State.writeRegister (s : State) (index : BitVec 8) (v : Word) : State :=
  match index.toNat with
  | 0x04 => { s with cfg := { s.cfg with k := v.setWidth 6 } }
  | 0x05 => { s with cfg := { s.cfg with l := v.setWidth 5 } }
  | 0x06 => { s with cfg := { s.cfg with m := v.setWidth 6 } }
  | 0x0B => { s with streamLen := v }
  | 0x0C => { s with args := { s.args with a0 := v } }
  | 0x0D => { s with args := { s.args with a1 := v } }
  | 0x0E => { s with args := { s.args with a2 := v } }
  | 0x0F => { s with args := { s.args with a3 := v } }
  | _ => s

/-! ### The memory port -/

/-- The number of host bytes of BITMEM (20_memory.md R41). -/
def State.bitmemHostBytes (s : State) : Nat := ceilDiv s.cap.bitmemBits.toNat 8

/-- Host byte j of BITMEM: bit 8j is bit 7 of the byte; bits at or above BITMEM_BITS read 0 (20_memory.md R41). -/
def State.hostByte (s : State) (j : Nat) : Byte :=
  BitVec.ofNat 8 (fieldValue (fun p => decide (p < s.cap.bitmemBits.toNat) && s.bit p) (8 * j) 8)

/-- A memory-port read of BITMEM; an address outside reads 0 (46_host.md R125). -/
def State.portReadBitmem (s : State) (j : Nat) : Byte := if j < s.bitmemHostBytes then s.hostByte j else 0

/-- A memory-port write of BITMEM; bits and bytes outside the memory are ignored (20_memory.md R41, 46_host.md R125). -/
def State.portWriteBitmem (s : State) (j : Nat) (v : Byte) : State := s.writeBits (8 * j) (byteBits v)

/-- A memory-port read of BYTEMEM; an address outside reads 0 (46_host.md R125). -/
def State.portReadBytemem (s : State) (a : Nat) : Byte :=
  if a < s.cap.bytememBytes.toNat then s.bytemem.read a else 0

/-- A memory-port write of BYTEMEM; an address outside is ignored (46_host.md R125). -/
def State.portWriteBytemem (s : State) (a : Nat) (v : Byte) : State := s.writeByte a v

/-- A memory-port read of WORDMEM; an address outside reads 0 (46_host.md R125). -/
def State.portReadWordmem (s : State) (a : Nat) : Word :=
  if a < s.cap.wordmemWords.toNat then s.wordmem.read a else 0

/-- A memory-port write of WORDMEM; an address outside is ignored (46_host.md R125). -/
def State.portWriteWordmem (s : State) (a : Nat) (v : Word) : State := s.writeWord a v

/-! ### Accesses -/

/-- A host write: ignored while BUSY = 1 (70_reset_and_hazards.md R145). -/
def State.hostWrite (s : State) (write : State → State) : State := if s.report.busy then s else write s

/-- A host read returns its value on the port and changes nothing else (20_memory.md R46). -/
def State.hostRead (s : State) (v : Word) : State := { s with portData := v }

/-- A host read of anything but STATUS: unspecified while BUSY = 1, U6 (70_reset_and_hazards.md R145). -/
def State.hostReadIdle (s : State) (v : Word) : State :=
  if s.report.busy then { s with portData := Config.freePort s.free, free := s.free + 1 } else s.hostRead v

/-- Power-on reset (70_reset_and_hazards.md R142): the reset state, with unspecified memories (U7). The host's pending accesses are the host's, not the block's. -/
def State.powerOn (s : State) : State :=
  { State.resetWith s.cap with
    bitmem := Memory.scramble 0 s.cap.bitmemBits.toNat (Config.freeBits s.free) []
    bytemem := Memory.scramble 0 s.cap.bytememBytes.toNat (Config.freeBytes s.free) []
    wordmem := Memory.scramble 0 s.cap.wordmemWords.toNat (Config.freeWords s.free) []
    inputs := s.inputs
    portData := s.portData
    free := s.free + 1 }

/-- A power-on reset: none takes effect while a command runs (70_reset_and_hazards.md R143), so one that comes while BUSY = 1 is lost (notes/assumptions/18.md). -/
def State.externalReset (s : State) : State := if s.report.busy then s else s.powerOn

/-- The effect of one input other than a CMD write to an idle block, which runs a command. -/
def State.access (s : State) : Input → State
  | .writeReg index v => s.hostWrite fun t => t.writeRegister index v
  | .readReg index => if index = 0x01 then s.hostRead s.report.statusWord else s.hostReadIdle (s.readRegister index)
  | .writeBitmem a v => s.hostWrite fun t => t.portWriteBitmem a.toNat v
  | .readBitmem a => s.hostReadIdle ((s.portReadBitmem a.toNat).setWidth 32)
  | .writeBytemem a v => s.hostWrite fun t => t.portWriteBytemem a.toNat v
  | .readBytemem a => s.hostReadIdle ((s.portReadBytemem a.toNat).setWidth 32)
  | .writeWordmem a v => s.hostWrite fun t => t.portWriteWordmem a.toNat v
  | .readWordmem a => s.hostReadIdle (s.portReadWordmem a.toNat)
  | .powerOn => s.externalReset

/-- A CMD write of an illegal word: a command that at once ends in ILLEGAL_CMD(0) (30_encoding.md R55, 46_host.md R127). It is an error like every other, so RES0..RES3 become unspecified (60_exceptions.md R136, R137, notes/assumptions/5.md); nothing else changes. -/
def State.illegalCommand (s : State) : State := s.raise .illegalCmd 0

end Sys2Proof.Machine
end

