-- ==== Sys2Proof/Machine/Fetch.lean ====
section
/-! DEFINITION. Fetching: where the next instruction comes from. A CMD write to an idle block is the fetch of a command (46_host.md R127); while a decode command runs, the operation at p is the next instruction (10_state.md R36). -/

namespace Sys2Proof.Machine

/-- What a step finds to do: an instruction to run, or a state reached without one. -/
inductive Fetched where
  | instr (i : Instr) (t : State)
  | settled (t : State)

/-- Consumes the next input: a CMD write to an idle block fetches a command, any other input is an access. -/
def State.fetchInput (s : State) : Input → Fetched
  | .writeReg index v =>
    if index = 0x00 ∧ s.report.busy = false then
      match decodeCommand v with
      | .ok i => .instr i s
      | .error _ => .settled s.illegalCommand
    else .settled (s.access (.writeReg index v))
  | a => .settled (s.access a)

/-- Fetches the operation at p, by the pass of the decode loop that leads to it. -/
def State.fetchOperation (s : State) : Fetched :=
  match fetchOp s with
  | .ended t => .settled t
  | .op o t => .instr o.toInstr t

/-- The next thing a step does: a pending input first, then a decode in progress; an idle block without inputs keeps its state (70_reset_and_hazards.md R154, notes/assumptions/11.md). -/
def State.fetch (s : State) : Fetched :=
  match s.inputs with
  | a :: rest => State.fetchInput { s with inputs := rest } a
  | [] => if s.dec.running then s.fetchOperation else .settled s

/-- Stores a command word where the next step fetches it: the CMD write is the host's next access, to an idle block. -/
def State.placeCommand (s : State) (w : Word) : State :=
  { s with inputs := [.writeReg 0x00 w], report := { s.report with busy := false } }

/-- Stores an operation where the next step fetches it: its bits at position 0 of BITMEM, the stream just long enough for them, and a GLZ_DECODE_AT of one maximal run entered at position 0 (notes/assumptions/17.md). -/
def State.placeOperation (s : State) (bs : List Bool) : State :=
  State.beginDecode
    { s.writeBits 0 bs with inputs := [], streamLen := BitVec.ofNat 32 bs.length, report := Report.started }
    .decodeAt 0 (.bytes (sizeMax 5)) 0 (sizeMax 5)

end Sys2Proof.Machine
end

