-- ==== Sys2Proof/Machine/Step.lean ====
section
/-! DEFINITION. One step: fetch, then exec; and where the step's next instruction is stored. -/

namespace Sys2Proof.Machine

/-- One step of the block. A command is one whole step (46_host.md R128); a decode found in progress advances by one cycle (45_glz_decode.md R118, notes/assumptions/10.md). -/
def step (s : State) : Host.Outcome State Fault Refusal :=
  match s.fetch with
  | .instr i t => exec i t
  | .settled t => .next t

/-- s with an instruction stored where step fetches its next one: a 32-bit row is a command word, any other an operation (notes/assumptions/17.md). -/
def State.withFetchWord (s : State) (nbits w : Nat) : State :=
  if nbits = 32 then s.placeCommand (BitVec.ofNat 32 w)
  else s.placeOperation (bytesBits (tableBytes operationWindow w))

end Sys2Proof.Machine
end

