-- ==== Sys2Proof/Safety.lean ====
section
/-! DEFINITION. What counts as a sound state and as a frame, in the terms the statements use: the invariants of 10_state.md, the parts of the state an instruction may change, and how a command ends. -/

namespace Sys2Proof

/-! ### Codes in a stream -/

/-- The bits of bs lie in the stream from position p, in stream order. -/
def BitStream.holds (st : BitStream) (p : Nat) (bs : List Bool) : Prop :=
  ∀ i (h : i < bs.length), st.bit (p + i) = bs[i]

/-- A code lies in the stream from position p, wholly below the stream length (42_rice.md R92, 43_glz_ops.md R103). -/
def BitStream.holdsCode (st : BitStream) (p : Nat) (bs : List Bool) : Prop :=
  st.holds p bs ∧ p + bs.length ≤ st.len

end Sys2Proof

namespace Sys2Proof.Machine

/-! ### Frames -/

/-- The parts of the state, one for each register, memory or unit a frame speaks of. -/
inductive Part where
  | cap | report | cfgK | cfgL | cfgM | remap | hist | streamLen | args
  | res0 | res1 | res2 | res3 | cycles | pushes | bitmem | bytemem | wordmem
  | dec | enc | inputs | portData | free
  deriving DecidableEq, Repr

/-- The part holds the same in both states. -/
def Part.same (s t : State) : Part → Prop
  | .cap => t.cap = s.cap
  | .report => t.report = s.report
  | .cfgK => t.cfg.k = s.cfg.k
  | .cfgL => t.cfg.l = s.cfg.l
  | .cfgM => t.cfg.m = s.cfg.m
  | .remap => t.remap = s.remap
  | .hist => t.hist = s.hist
  | .streamLen => t.streamLen = s.streamLen
  | .args => t.args = s.args
  | .res0 => t.res.r0 = s.res.r0
  | .res1 => t.res.r1 = s.res.r1
  | .res2 => t.res.r2 = s.res.r2
  | .res3 => t.res.r3 = s.res.r3
  | .cycles => t.cycles = s.cycles
  | .pushes => t.pushes = s.pushes
  | .bitmem => t.bitmem = s.bitmem
  | .bytemem => t.bytemem = s.bytemem
  | .wordmem => t.wordmem = s.wordmem
  | .dec => t.dec = s.dec
  | .enc => t.enc = s.enc
  | .inputs => t.inputs = s.inputs
  | .portData => t.portData = s.portData
  | .free => t.free = s.free

/-- Every part outside the list is unchanged from s to t. -/
def State.changesOnly (s : State) (ps : List Part) (t : State) : Prop := ∀ p, p ∉ ps → p.same s t

/-- BITMEM outside [lo, hi) reads as before. -/
def State.bitsKeptOutside (s : State) (lo hi : Nat) (t : State) : Prop :=
  ∀ p, p < lo ∨ hi ≤ p → t.bitmem.read p = s.bitmem.read p

/-- BYTEMEM outside [lo, hi) reads as before. -/
def State.bytesKeptOutside (s : State) (lo hi : Nat) (t : State) : Prop :=
  ∀ a, a < lo ∨ hi ≤ a → t.bytemem.read a = s.bytemem.read a

/-- WORDMEM outside [lo, hi) reads as before. -/
def State.wordsKeptOutside (s : State) (lo hi : Nat) (t : State) : Prop :=
  ∀ a, a < lo ∨ hi ≤ a → t.wordmem.read a = s.wordmem.read a

/-! ### How a command ends -/

/-- STATUS = DONE, ERRCODE = 0, ERRPOS = 0: a normal end (46_host.md R127). -/
def Report.normalEnd : Report := ⟨false, true, false, .none, 0⟩

/-- i ends normally from s in a state of which post holds, and changes only the listed parts and the report. -/
def endsNormally (i : Instr) (s : State) (ps : List Part) (post : State → Prop) : Prop :=
  ∃ t, exec i s = .next t ∧ t.report = Report.normalEnd ∧ s.changesOnly (.report :: ps) t ∧ post t

/-- i ends from s in the error code with the position (60_exceptions.md R136) and changes only the listed parts, the report and the result registers; `free` is the model's counter of unspecified values. -/
def endsInError (i : Instr) (s : State) (code : ErrCode) (pos : Nat) (ps : List Part) : Prop :=
  ∃ t, exec i s = .next t ∧ t.report = Report.failed code pos ∧
    s.changesOnly (ps ++ [.report, .res0, .res1, .res2, .res3, .free]) t

/-- The opcodes of 30_encoding.md R56, as numbers. -/
def definedOpcodes : List Nat :=
  [0x00, 0x01, 0x10, 0x11, 0x12, 0x13, 0x20, 0x21, 0x22, 0x23, 0x24, 0x25, 0x26, 0x30, 0x31, 0x32, 0x33, 0x34,
    0x40, 0x41, 0x42, 0x50, 0x51, 0x52, 0x53, 0x54, 0x55]

/-- The RW registers of 10_state.md R20 by index, with the bits their fields hold. -/
def writableFields (index : Nat) : Option Word :=
  if index = 0x04 ∨ index = 0x06 then some 0x3F
  else if index = 0x05 then some 0x1F
  else if 0x0B ≤ index ∧ index ≤ 0x0F then some 0xFFFFFFFF
  else none

/-! ### Slices and sequences of immediates -/

/-- The bytes BYTEMEM[a .. a+n). -/
def State.bytes (s : State) (a n : Nat) : List Byte := s.bytemem.readList a n

/-- The code of a sequence of immediates (count, byte), in stream order. -/
def immediatesCode (c : Coder) (ims : List (Nat × Byte)) : List Bool :=
  ims.flatMap fun x => encodeOp c (.imm x.1 x.2)

/-- The bytes a sequence of immediates stands for (43_glz_ops.md R98). -/
def immediatesBytes (ims : List (Nat × Byte)) : List Byte := ims.flatMap fun x => List.replicate x.1 x.2

/-- Every immediate of the sequence is legal under L (43_glz_ops.md R98). -/
def immediatesLegal (l : Nat) (ims : List (Nat × Byte)) : Prop := ∀ x ∈ ims, (Op.imm x.1 x.2).wf l = true

/-- The slice descriptors of an encode or seed command lie in WORDMEM and their slices in BYTEMEM (44_glz_encode.md R111). -/
def State.descriptorsOk (s : State) (a n : Nat) : Prop :=
  a + 2 * n ≤ s.cap.wordmemWords.toNat ∧ ∀ d ∈ s.slices a n, d.addr + d.len ≤ s.cap.bytememBytes.toNat

/-- The total length of the slices (44_glz_encode.md R111). -/
def State.sliceBytes (s : State) (a n : Nat) : Nat := ((s.slices a n).map Slice.len).sum

/-! ### Sound states -/

/-- 10_state.md R32: while REMAP.EN = 1, TBL_B ≥ 1, D permutes 0..TBL_B-1 and E is its inverse; while REMAP.EN = 0 no command leaves TBL_B other than 0. -/
def Remap.Sound (r : Remap) : Prop :=
  (r.en = true → 1 ≤ r.b.toNat ∧
    ∀ n, n < r.b.toNat → (r.d.read n).toNat < r.b.toNat ∧ (r.e.read (r.d.read n).toNat).toNat = n) ∧
  (r.en = false → r.b = 0)

/-- 10_state.md R31 and 41_histogram_remap.md R82: the bound is at most HIST_CAP and every counter at or above it is 0. -/
def Hist.Sound (cap : Nat) (h : Hist) : Prop :=
  h.count.wf cap = true ∧ h.bound ≤ cap ∧ ∀ n, h.bound ≤ n → h.countOf n = 0

/-- 10_state.md R22 and 60_exceptions.md R134: BUSY excludes DONE and ERR, ERR comes with DONE and a code, and no code or position without ERR. -/
def Report.Sound (r : Report) : Prop :=
  (r.busy = true → r.done = false ∧ r.err = false) ∧ (r.err = true → r.done = true) ∧
  (r.err = true ↔ r.code ≠ .none) ∧ (r.err = false → r.pos = 0)

/-- The bytes owed, when there is a bound. -/
def Remaining.count : Remaining → Nat
  | .bytes n => n
  | .unbounded => 0

/-- The frames in use, FRAME[0] first (10_state.md R35). -/
def Decoder.frames (x : Decoder) : List Frame := [x.frame0, x.frame1].take x.d

/-- A decode in progress accounts for every byte: GLZ_DECODE_AT has written k of its limit and owes the rest in its frames; GLZ_DECODE_STREAM has no bound at the top level and one in every frame above it (45_glz_decode.md R117, R123). -/
def Decoder.accounted (x : Decoder) : Prop :=
  match x.cmd with
  | .decodeAt =>
    (∀ f ∈ x.frames, f.rem ≠ .unbounded) ∧ x.rem ≠ .unbounded ∧
      x.k + x.rem.count + (x.frames.map fun f => f.rem.count).sum = x.limit
  | .decodeStream =>
    x.k ≤ x.limit ∧
      ((x.d = 0 ∧ x.rem = .unbounded) ∨
        (0 < x.d ∧ x.rem ≠ .unbounded ∧ x.frame0.rem = .unbounded ∧
          (x.d = 2 → x.frame1.rem ≠ .unbounded)))

/-- The decoder of a state: d ≤ 2 (10_state.md R35), BUSY exactly while a decode is in progress, and then the start checks and the output range hold, positions lie below 2^33 (R36), byte counts below 2^32 (R35) and the cycle count within its cap (45_glz_decode.md R118). -/
def State.DecoderSound (s : State) : Prop :=
  s.dec.d ≤ 2 ∧ s.dec.running = s.report.busy ∧
  (s.dec.running = true →
    s.opsOk = true ∧ s.dec.out + s.dec.limit ≤ s.cap.bytememBytes.toNat ∧
    s.dec.p < 2 ^ 33 ∧ (∀ f ∈ s.dec.frames, f.ret < 2 ^ 33) ∧
    s.dec.rem.count < 2 ^ 32 ∧ (∀ f ∈ s.dec.frames, f.rem.count < 2 ^ 32) ∧
    s.dec.cycles ≤ 2 * s.dec.limit ∧ s.dec.accounted)

/-- The memories, the counters and the tables are in canonical form; the memories and the counters have no entry outside them (10_state.md R28 to R31), the tables none that a 32-bit index cannot name. -/
def State.MemorySound (s : State) : Prop :=
  s.bitmem.wf s.cap.bitmemBits.toNat = true ∧ s.bytemem.wf s.cap.bytememBytes.toNat = true ∧
  s.wordmem.wf s.cap.wordmemWords.toNat = true ∧ s.hist.count.wf s.cap.histCap.toNat = true ∧
  s.remap.d.wf (2 ^ 32) = true ∧ s.remap.e.wf (2 ^ 32) = true

/-- The invariant of the block between steps. -/
structure State.Inv (s : State) : Prop where
  /-- 00_scope.md R10. -/
  params : s.cap.legal = true
  memory : s.MemorySound
  remap : s.remap.Sound
  report : s.report.Sound
  decoder : s.DecoderSound
  /-- The dictionary and the encoder's values exist only inside a command (10_state.md R34, R37). -/
  encoder : s.enc = Encoder.idle

/-- The limits of the histogram and of the tables built from it. They hold but for the time after a failed GLZ_SEED, which leaves any value in the histogram (93_implementation_defined.md U4, notes/assumptions/8.md). -/
structure State.HistInv (s : State) : Prop where
  /-- 10_state.md R31 and 41_histogram_remap.md R82. -/
  hist : s.hist.Sound s.cap.histCap.toNat
  /-- TBL_B is at most HIST_CAP (41_histogram_remap.md R82, R88). -/
  tables : s.remap.b.toNat ≤ s.cap.histCap.toNat
  /-- D and E have HIST_CAP entries (10_state.md R32). -/
  entries : s.remap.d.wf s.cap.histCap.toNat = true ∧ s.remap.e.wf s.cap.histCap.toNat = true

/-- The step from s to t runs a GLZ_SEED that ends in error. -/
def State.failsSeed (s t : State) : Prop :=
  s.inputs.head? = some (.writeReg 0x00 0x00000055) ∧ s.report.busy = false ∧ t.report.err = true

/-- A safe run: the sound states, which every step keeps. -/
def safe (s : State) : Prop := s.Inv

end Sys2Proof.Machine
end

