-- ==== Sys2Proof/Certificates/Slice0/Obligations.lean ====
section
/-! DEFINITION. The statements for the provers. Each docstring names the rule of spec/ it formalises, or says what of the model's own choice it rests on. -/

open Sys2Proof Sys2Proof.Machine

/-! ### Housekeeping -/

/-- 46_host.md R130: NOP does nothing but report DONE. -/
def Obligations.NopOnlyReportsDone : Prop :=
  decodeCommand 0x00000000 = .ok .nop ∧
  ∀ s : State, endsNormally .nop s [] fun _ => True

/-- 46_host.md R131: RESET sets every register and internal state to its reset value, keeps the memories, and ends with STATUS = 0. -/
def Obligations.ResetRestoresAndKeepsMemories : Prop :=
  decodeCommand 0x00000001 = .ok .reset ∧
  ∀ s : State, ∃ t, exec .reset s = .next t ∧
    t.report = ⟨false, false, false, .none, 0⟩ ∧ t.cfg = ⟨8, 5, 3⟩ ∧ t.remap.en = false ∧ t.remap.b = 0 ∧
    t.hist.fixlen = 0 ∧ t.hist.hwm = 0 ∧ (∀ n, t.hist.countOf n = 0) ∧ t.streamLen = 0 ∧
    t.args = ⟨0, 0, 0, 0⟩ ∧ t.res = ⟨0, 0, 0, 0⟩ ∧ t.cycles = 0 ∧ t.pushes = 0 ∧
    t.enc.dict = [] ∧ t.dec.d = 0 ∧
    s.changesOnly [.report, .cfgK, .cfgL, .cfgM, .remap, .hist, .streamLen, .args, .res0, .res1, .res2, .res3,
      .cycles, .pushes, .dec, .enc] t

/-! ### Bit-symbol codec -/

/-- 40_bits.md R71: BITS_PUT, every case in its check order. -/
def Obligations.BitsPutAppendsField : Prop :=
  decodeCommand 0x00000010 = .ok .bitsPut ∧
  ∀ s : State, s.streamOk = true →
    if 32 < s.arg0 then endsInError .bitsPut s .widthExceeded 0 []
    else if s.arg0 < 32 ∧ 2 ^ s.arg0 ≤ s.arg1 then endsInError .bitsPut s .overflow s.streamLen.toNat []
    else if s.cap.bitmemBits.toNat < s.streamLen.toNat + s.arg0 then
      endsInError .bitsPut s .capacity s.streamLen.toNat []
    else endsNormally .bitsPut s [.res0, .streamLen, .bitmem] fun t =>
      t.res.r0 = s.streamLen ∧ t.streamLen.toNat = s.streamLen.toNat + s.arg0 ∧
      (∀ i < s.arg0, t.bit (s.streamLen.toNat + i) = s.arg1.testBit (s.arg0 - 1 - i)) ∧
      s.bitsKeptOutside s.streamLen.toNat (s.streamLen.toNat + s.arg0) t

/-- 40_bits.md R72: BITS_GET, every case. The value is the sum of R69. -/
def Obligations.BitsGetReadsField : Prop :=
  decodeCommand 0x00000011 = .ok .bitsGet ∧
  ∀ s : State, s.streamOk = true →
    if 32 < s.arg0 then endsInError .bitsGet s .widthExceeded s.arg1 []
    else if s.streamLen.toNat < s.arg1 + s.arg0 then endsInError .bitsGet s .truncated s.arg1 []
    else endsNormally .bitsGet s [.res0, .res1] fun t =>
      t.res.r0.toNat = ((List.range s.arg0).map fun i => (s.bit (s.arg1 + i)).toNat * 2 ^ (s.arg0 - 1 - i)).sum ∧
      t.res.r1.toNat = s.arg1 + s.arg0

/-- 40_bits.md R73: BITS_PUT_STREAM, every case. -/
def Obligations.BitsPutStreamAppendsFields : Prop :=
  decodeCommand 0x00000012 = .ok .bitsPutStream ∧
  ∀ s : State, s.streamOk = true →
    let w := s.arg0
    let a := s.arg1
    let c := s.arg2
    let s0 := s.streamLen.toNat
    let word := fun i => (s.wordmem.read (a + i)).toNat
    if 32 < w then endsInError .bitsPutStream s .widthExceeded 0 []
    else if s.cap.wordmemWords.toNat < a + c then endsInError .bitsPutStream s .capacity 0 []
    else if s.cap.bitmemBits.toNat < s0 + c * w then endsInError .bitsPutStream s .capacity s0 []
    else
      (∀ i < c, w < 32 ∧ 2 ^ w ≤ word i → (∀ j < i, ¬(w < 32 ∧ 2 ^ w ≤ word j)) →
        endsInError .bitsPutStream s .overflow (s0 + i * w) []) ∧
      ((∀ i < c, ¬(w < 32 ∧ 2 ^ w ≤ word i)) →
        endsNormally .bitsPutStream s [.res0, .streamLen, .bitmem] fun t =>
          t.res.r0 = s.streamLen ∧ t.streamLen.toNat = s0 + c * w ∧
          (∀ i < c, ∀ j < w, t.bit (s0 + i * w + j) = (word i).testBit (w - 1 - j)) ∧
          s.bitsKeptOutside s0 (s0 + c * w) t)

/-- BITS_GET_STREAM, every case (40_bits.md R74). After TRUNCATED at the end the words of [a, a + cnt) are unspecified and every other word is as before: that U2's "requested range" is this one, which R74 lists as written, is the model's reading (notes/assumptions/6.md). -/
def Obligations.BitsGetStreamReadsFields : Prop :=
  decodeCommand 0x00000013 = .ok .bitsGetStream ∧
  ∀ s : State, s.streamOk = true →
    let w := s.arg0
    let p := s.arg1
    let a := s.arg2
    let cnt := (s.streamLen.toNat - p) / w
    if 32 < w then endsInError .bitsGetStream s .widthExceeded p []
    else if w = 0 then endsNormally .bitsGetStream s [.res0] fun t => t.res.r0 = 0
    else if s.streamLen.toNat < p then endsInError .bitsGetStream s .truncated p []
    else if s.arg3 < cnt then endsInError .bitsGetStream s .capacity p []
    else if s.cap.wordmemWords.toNat < a + cnt then endsInError .bitsGetStream s .capacity p []
    else if (s.streamLen.toNat - p) % w ≠ 0 then
      endsInError .bitsGetStream s .truncated (p + cnt * w) [.wordmem] ∧
      ∀ t, exec .bitsGetStream s = .next t → s.wordsKeptOutside a (a + cnt) t
    else endsNormally .bitsGetStream s [.res0, .wordmem] fun t =>
      t.res.r0.toNat = cnt ∧ s.wordsKeptOutside a (a + cnt) t ∧
      ∀ i < cnt, (t.wordmem.read (a + i)).toNat =
        ((List.range w).map fun j => (s.bit (p + i * w + j)).toNat * 2 ^ (w - 1 - j)).sum

/-! ### Histogram and remap -/

/-- 41_histogram_remap.md R76: HIST_CLEAR, every case. -/
def Obligations.HistClearEmptiesTheHistogram : Prop :=
  decodeCommand 0x00000020 = .ok .histClear ∧
  ∀ s : State,
    if s.cap.histCap.toNat < s.arg0 then endsInError .histClear s .capacity 0 []
    else endsNormally .histClear s [.hist] fun t =>
      t.hist.fixlen = s.args.a0 ∧ t.hist.hwm = 0 ∧ ∀ n, t.hist.countOf n = 0

/-- 41_histogram_remap.md R77: HIST_INC, every case. -/
def Obligations.HistIncCountsOneSymbol : Prop :=
  decodeCommand 0x00000021 = .ok .histInc ∧
  ∀ s : State,
    if s.cap.histCap.toNat ≤ s.arg0 then endsInError .histInc s .capacity 0 []
    else if s.hist.countOf s.arg0 = 2 ^ 32 - 1 then endsInError .histInc s .countOverflow 0 []
    else endsNormally .histInc s [.hist] fun t =>
      t.hist.countOf s.arg0 = s.hist.countOf s.arg0 + 1 ∧
      (∀ n, n ≠ s.arg0 → t.hist.countOf n = s.hist.countOf n) ∧
      t.hist.hwm.toNat = max s.hist.hwm.toNat (s.arg0 + 1) ∧ t.hist.fixlen = s.hist.fixlen

/-- 41_histogram_remap.md R78: HIST_DEC, every case. -/
def Obligations.HistDecRemovesOneSymbol : Prop :=
  decodeCommand 0x00000022 = .ok .histDec ∧
  ∀ s : State,
    if s.cap.histCap.toNat ≤ s.arg0 then endsInError .histDec s .capacity 0 []
    else if s.hist.countOf s.arg0 = 0 then endsInError .histDec s .histUnderflow 0 []
    else endsNormally .histDec s [.hist] fun t =>
      t.hist.countOf s.arg0 + 1 = s.hist.countOf s.arg0 ∧
      (∀ n, n ≠ s.arg0 → t.hist.countOf n = s.hist.countOf n) ∧
      t.hist.hwm = s.hist.hwm ∧ t.hist.fixlen = s.hist.fixlen

/-- 41_histogram_remap.md R79 and R80: HIST_GET and HIST_BOUND read a count and the bound. -/
def Obligations.HistGetAndBoundRead : Prop :=
  decodeCommand 0x00000023 = .ok .histGet ∧ decodeCommand 0x00000024 = .ok .histBound ∧
  ∀ s : State,
    (endsNormally .histGet s [.res0] fun t =>
      t.res.r0 = if s.arg0 < s.cap.histCap.toNat then s.hist.count.read s.arg0 else 0) ∧
    (endsNormally .histBound s [.res0] fun t => t.res.r0.toNat = max s.hist.fixlen.toNat s.hist.hwm.toNat)

/-- 41_histogram_remap.md R81: HIST_SEED, every case; each symbol's count rises by its number of occurrences. -/
def Obligations.HistSeedCountsEverySymbol : Prop :=
  decodeCommand 0x00000025 = .ok .histSeed ∧
  ∀ s : State,
    let words := (s.wordmem.readList s.arg0 s.arg1).map BitVec.toNat
    if s.cap.wordmemWords.toNat < s.arg0 + s.arg1 then endsInError .histSeed s .capacity 0 []
    else
      ((∃ n ∈ words, s.cap.histCap.toNat ≤ n) → endsInError .histSeed s .capacity 0 []) ∧
      ((∀ n ∈ words, n < s.cap.histCap.toNat) → (∃ n, 2 ^ 32 - 1 < s.hist.countOf n + words.count n) →
        endsInError .histSeed s .countOverflow 0 []) ∧
      ((∀ n ∈ words, n < s.cap.histCap.toNat) → (∀ n, s.hist.countOf n + words.count n ≤ 2 ^ 32 - 1) →
        endsNormally .histSeed s [.hist] fun t =>
          (∀ n, t.hist.countOf n = s.hist.countOf n + words.count n) ∧
          t.hist.hwm.toNat = words.foldl (fun m n => max m (n + 1)) s.hist.hwm.toNat ∧
          t.hist.fixlen = s.hist.fixlen)

/-- 41_histogram_remap.md R82: HIST_SORT orders the symbols by count descending, ties by symbol, and E becomes the inverse of D. -/
def Obligations.HistSortBuildsRankedTables : Prop :=
  decodeCommand 0x00000026 = .ok .histSort ∧
  ∀ s : State,
    let b := max s.hist.fixlen.toNat s.hist.hwm.toNat
    if b = 0 then
      endsNormally .histSort s [.remap, .res0] fun t => t.remap.en = false ∧ t.remap.b = 0 ∧ t.res.r0 = 0
    else
      endsNormally .histSort s [.remap, .res0] fun t =>
        t.remap.en = true ∧ t.remap.b.toNat = b ∧ t.res.r0.toNat = b ∧
        (∀ r < b, (t.remap.d.read r).toNat < b ∧ (t.remap.e.read (t.remap.d.read r).toNat).toNat = r) ∧
        (∀ r q, r < q → q < b →
          let x := (t.remap.d.read r).toNat
          let y := (t.remap.d.read q).toNat
          s.hist.countOf y < s.hist.countOf x ∨ (s.hist.countOf x = s.hist.countOf y ∧ x < y))

/-- 41_histogram_remap.md R88: TABLE_LOAD installs a permutation and refuses anything else. -/
def Obligations.TableLoadInstallsPermutation : Prop :=
  decodeCommand 0x00000030 = .ok .tableLoad ∧
  ∀ s : State,
    let a := s.arg0
    let b := s.arg1
    let word := fun r => (s.wordmem.read (a + r)).toNat
    if s.cap.histCap.toNat < b then endsInError .tableLoad s .capacity 0 []
    else if s.cap.wordmemWords.toNat < a + b then endsInError .tableLoad s .capacity 0 []
    else if b = 0 then endsNormally .tableLoad s [.remap] fun t => t.remap.en = false ∧ t.remap.b = 0
    else
      (((∃ r < b, b ≤ word r) ∨ ∃ r < b, ∃ q < b, r ≠ q ∧ word r = word q) →
        endsInError .tableLoad s .tableInvalid 0 []) ∧
      ((∀ r < b, word r < b) → (∀ r < b, ∀ q < b, word r = word q → r = q) →
        endsNormally .tableLoad s [.remap] fun t =>
          t.remap.en = true ∧ t.remap.b.toNat = b ∧
          ∀ r < b, (t.remap.d.read r).toNat = word r ∧ (t.remap.e.read (word r)).toNat = r)

/-- 41_histogram_remap.md R89: TABLE_STORE copies D to WORDMEM. -/
def Obligations.TableStoreCopiesDecodeTable : Prop :=
  decodeCommand 0x00000031 = .ok .tableStore ∧
  ∀ s : State,
    let a := s.arg0
    let b := s.remap.b.toNat
    if s.remap.en = false then endsNormally .tableStore s [.res0] fun t => t.res.r0 = 0
    else if s.cap.wordmemWords.toNat < a + b then endsInError .tableStore s .capacity 0 []
    else endsNormally .tableStore s [.res0, .wordmem] fun t =>
      t.res.r0 = s.remap.b ∧ (∀ r < b, t.wordmem.read (a + r) = s.remap.d.read r) ∧ s.wordsKeptOutside a (a + b) t

/-- 41_histogram_remap.md R90: TABLE_CLEAR selects the identity and keeps D and E; afterwards both remaps are the identity. -/
def Obligations.TableClearSelectsIdentity : Prop :=
  decodeCommand 0x00000032 = .ok .tableClear ∧
  ∀ s : State, endsNormally .tableClear s [.remap] fun t =>
    t.remap.en = false ∧ t.remap.b = 0 ∧ t.remap.d = s.remap.d ∧ t.remap.e = s.remap.e ∧
    ∀ n, t.remap.mapEnc n = n ∧ t.remap.mapDec n = n

/-- 41_histogram_remap.md R86 and R87: MAP_ENC and MAP_DEC apply the remaps of R83 and R84, on a sound remap state (10_state.md R32). -/
def Obligations.MapCommandsApplyRemap : Prop :=
  decodeCommand 0x00000033 = .ok .mapEnc ∧ decodeCommand 0x00000034 = .ok .mapDec ∧
  ∀ s : State, s.remap.Sound →
    let n := s.arg0
    let b := s.remap.b.toNat
    let through := fun (t : Memory 32) =>
      if s.remap.en = false then n
      else if 2 ^ 32 / b * b ≤ n then n
      else n / b * b + (t.read (n % b)).toNat
    (endsNormally .mapEnc s [.res0] fun t => t.res.r0.toNat = through s.remap.e) ∧
    (endsNormally .mapDec s [.res0] fun t => t.res.r0.toNat = through s.remap.d)

/-- 41_histogram_remap.md R85: the remaps invert each other on 32-bit values, and a value stays in its block or stays fixed in the top partial block. -/
def Obligations.RemapIsABijection : Prop :=
  ∀ (r : Remap) (n : Nat), r.Sound → r.en = true → n < 2 ^ 32 →
    r.mapDec (r.mapEnc n) = n ∧ r.mapEnc (r.mapDec n) = n ∧ r.mapEnc n < 2 ^ 32 ∧ r.mapDec n < 2 ^ 32 ∧
    (if 2 ^ 32 / r.b.toNat * r.b.toNat ≤ n then r.mapEnc n = n ∧ r.mapDec n = n
     else r.mapEnc n / r.b.toNat = n / r.b.toNat ∧ r.mapDec n / r.b.toNat = n / r.b.toNat)

/-! ### Golomb-Rice coder -/

/-- 42_rice.md R94: RICE_PUT, every case. -/
def Obligations.RicePutAppendsCodedSymbol : Prop :=
  decodeCommand 0x00000040 = .ok .ricePut ∧
  ∀ s : State, s.riceOk = true →
    let k := s.cfg.k.toNat
    let v := s.remap.mapEnc s.arg0
    let s0 := s.streamLen.toNat
    let len := v / 2 ^ k + 1 + k
    if s.cap.bitmemBits.toNat < s0 + len then endsInError .ricePut s .capacity s0 []
    else endsNormally .ricePut s [.res0, .res1, .streamLen, .bitmem] fun t =>
      t.res.r0 = s.streamLen ∧ t.res.r1.toNat = len ∧ t.streamLen.toNat = s0 + len ∧
      (∀ i < v / 2 ^ k, t.bit (s0 + i) = true) ∧ t.bit (s0 + v / 2 ^ k) = false ∧
      (∀ i < k, t.bit (s0 + v / 2 ^ k + 1 + i) = (v % 2 ^ k).testBit (k - 1 - i)) ∧
      s.bitsKeptOutside s0 (s0 + len) t

/-- 42_rice.md R95: RICE_GET, every case: the width, a code that lies in the stream, a run of ones that reaches 2^32, one that the stream cuts off, and a remainder cut off. -/
def Obligations.RiceGetReadsCodedSymbol : Prop :=
  decodeCommand 0x00000041 = .ok .riceGet ∧
  ∀ s : State, s.riceOk = true →
    let p := s.arg0
    let w := s.arg1
    let k := s.cfg.k.toNat
    let len := s.streamLen.toNat
    (¬(w = 8 ∨ w = 16 ∨ w = 32) → endsInError .riceGet s .config p []) ∧
    ((w = 8 ∨ w = 16 ∨ w = 32) →
      (∀ n < 2 ^ 32, s.stream.holdsCode p (riceCode k n) →
        if w < 32 ∧ 2 ^ w ≤ s.remap.mapDec n then endsInError .riceGet s .cast p []
        else endsNormally .riceGet s [.res0, .res1] fun t =>
          t.res.r0 = BitVec.ofNat 32 (s.remap.mapDec n) ∧ t.res.r1.toNat = p + (n / 2 ^ k + 1 + k)) ∧
      (∀ q, 2 ^ 32 ≤ q * 2 ^ k → p + q ≤ len → (∀ i < q, s.bit (p + i) = true) →
        endsInError .riceGet s .cast p []) ∧
      ((∀ i, p ≤ i → i < len → s.bit i = true) → (len - p) * 2 ^ k < 2 ^ 32 →
        endsInError .riceGet s .unterminated p []) ∧
      (∀ q, q * 2 ^ k < 2 ^ 32 → (∀ i < q, s.bit (p + i) = true) → s.bit (p + q) = false → p + q < len →
        len < p + q + 1 + k → endsInError .riceGet s .truncated p []))

/-- 42_rice.md R97: what RICE_PUT appends, RICE_GET returns, for every K, every sound remap state and every width. -/
def Obligations.RiceGetReturnsWhatRicePutAppended : Prop :=
  ∀ (s t : State) (w : Word), s.remap.Sound → (w = 8 ∨ w = 16 ∨ w = 32) → s.arg0 < 2 ^ w.toNat →
    exec .ricePut s = .next t → t.report = Report.normalEnd →
    ∀ a2 a3 : Word, endsNormally .riceGet { t with args := ⟨t.res.r0, w, a2, a3⟩ } [.res0, .res1] fun u =>
      u.res.r0 = s.args.a0 ∧ u.res.r1 = t.streamLen

/-- 42_rice.md R96: RICE_SEARCH takes the least k of 0 .. ceil_log2(bound) with the least cost, stores it in CFG_K and reports the cost saturated. -/
def Obligations.RiceSearchFindsLeastCost : Prop :=
  decodeCommand 0x00000042 = .ok .riceSearch ∧
  ∀ s : State,
    let cost := fun k =>
      ((List.range (max s.hist.fixlen.toNat s.hist.hwm.toNat)).map fun n =>
        s.hist.countOf n * (s.remap.mapEnc n / 2 ^ k + 1 + k)).sum
    let kmax := ceilLog2 (max s.hist.fixlen.toNat s.hist.hwm.toNat)
    endsNormally .riceSearch s [.cfgK, .res0, .res1, .res2] fun t =>
      let best := t.cfg.k.toNat
      t.res.r0.toNat = best ∧ best ≤ kmax ∧ kmax ≤ 32 ∧
      (∀ k ≤ kmax, cost best ≤ cost k) ∧ (∀ k < best, cost best < cost k) ∧
      t.res.r1.toNat + 2 ^ 32 * t.res.r2.toNat = min (cost best) (2 ^ 64 - 1)

/-! ### Operations of the stream -/

/-- 43_glz_ops.md R103: the code of a legal operation decodes to it, wherever it lies below STREAM_LEN. -/
def Obligations.OperationCodeDecodesBack : Prop :=
  ∀ (c : Coder) (st : BitStream) (p : Nat) (op : Op), c.remap.Sound → 1 ≤ c.m → op.wf c.l = true →
    st.holdsCode p (encodeOp c op) → decodeOp c st p = .ok (op, p + c.opLen op)

/-- Decoding and encoding agree for every well-formed instruction of both sets (30_encoding.md R55, R56; 43_glz_ops.md R103). -/
def Obligations.DecodeOfEncodeIsIdentity : Prop :=
  ∀ (c : Coder) (i : Instr), c.remap.Sound → 1 ≤ c.m → i.wf c.l = true → decode c (encode c i) = .ok i

/-- What decode_op answers is a legal operation, and its end lies past its start and at most at STREAM_LEN (43_glz_ops.md R101, R98). -/
def Obligations.DecodedOperationIsLegal : Prop :=
  ∀ (c : Coder) (st : BitStream) (p q : Nat) (op : Op), decodeOp c st p = .ok (op, q) →
    op.wf c.l = true ∧ p < q ∧ q ≤ st.len

/-- 30_encoding.md R66 for operations: a reserved head, a RUN byte of 256 or more, a chunk that follows CMAX(M) others, and an offset of 2^32 or more each raise INVALID_OP at the operation's start. -/
def Obligations.ReservedOperationsAreInvalid : Prop :=
  ∀ (c : Coder) (st : BitStream) (p : Nat), c.remap.Sound → 1 ≤ c.m →
    (∀ h < 2 ^ 32, headSpace c.l ≤ h → st.holdsCode p (c.sym h) → decodeOp c st p = .error ⟨.invalidOp, p⟩) ∧
    (∀ n b, 2 ≤ n → n ≤ sizeMax c.l → b < 2 ^ 32 → 256 ≤ b → st.holdsCode p (c.sym (254 + n) ++ c.sym b) →
      decodeOp c st p = .error ⟨.invalidOp, p⟩) ∧
    (∀ n (chunks : List Nat), 2 ≤ n → n ≤ sizeMax c.l → (∀ g ∈ chunks, g < 2 ^ c.m) → chunks.length = chunksMax c.m →
      st.holdsCode p (c.sym (254 + 2 ^ c.l + n) ++ chunks.flatMap fun g => true :: fieldBits c.m g) →
      decodeOp c st p = .error ⟨.invalidOp, p⟩) ∧
    (∀ n (chunks : List Nat) (more : Bool) (last : Nat), 2 ≤ n → n ≤ sizeMax c.l →
      (∀ g ∈ chunks, g < 2 ^ c.m) → last < 2 ^ c.m → chunks.length < chunksMax c.m →
      2 ^ 32 ≤ (chunks ++ [last]).foldl (fun o g => o * 2 ^ c.m + g) 0 →
      st.holdsCode p (c.sym (254 + 2 ^ c.l + n) ++ (chunks.flatMap fun g => true :: fieldBits c.m g) ++
        more :: fieldBits c.m last) →
      decodeOp c st p = .error ⟨.invalidOp, p⟩)

/-- 43_glz_ops.md R100: the threshold Cap(X); a coded value at or past the threshold Cap(X) decodes to at least X, and both thresholds in use lie below 2^32. -/
def Obligations.ThresholdsRejectNoLegalCode : Prop :=
  (∀ (r : Remap) (x : Nat), r.Sound →
    r.threshold x = (if r.en then (x + r.b.toNat - 1) / r.b.toNat * r.b.toNat else x) ∧
    ∀ n, r.threshold x ≤ n → n < 2 ^ 32 → x ≤ r.mapDec n) ∧
  (∀ s : State, s.cap.legal = true → s.remap.Sound → s.coder.l ≤ s.cap.lMax.toNat →
    s.remap.threshold (headSpace s.coder.l) < 2 ^ 32 ∧ s.remap.threshold 256 < 2 ^ 32)

/-- 43_glz_ops.md R102: decode_op's answer depends on no bit beyond a bound that the configuration alone fixes. -/
def Obligations.DecodeOpReadsBoundedBits : Prop :=
  ∀ (c : Coder) (st st' : BitStream) (p : Nat), c.remap.Sound → st.len = st'.len →
    (∀ i < ceilDiv (c.remap.threshold (headSpace c.l)) (2 ^ c.k) + ceilDiv (c.remap.threshold 256) (2 ^ c.k) +
      2 * c.k + chunksMax c.m * (c.m + 1), st.bit (p + i) = st'.bit (p + i)) →
    decodeOp c st p = decodeOp c st' p

/-- 43_glz_ops.md R104: GLZ_OP_PUT, every case. -/
def Obligations.GlzOpPutAppendsOperation : Prop :=
  decodeCommand 0x00000050 = .ok .glzOpPut ∧
  ∀ s : State, s.opsOk = true →
    let kind := s.arg0
    let u := s.arg1
    let v := s.arg2
    let s0 := s.streamLen.toNat
    let top := 2 ^ s.cfg.l.toNat + 1
    let op := if kind = 0 then Op.imm u (BitVec.ofNat 8 v) else Op.ref u (BitVec.ofNat 32 v)
    if 2 ≤ kind then endsInError .glzOpPut s .config 0 []
    else if kind = 0 ∧ (u = 0 ∨ top < u ∨ 255 < v) then endsInError .glzOpPut s .overflow s0 []
    else if kind = 1 ∧ (u < 2 ∨ top < u) then endsInError .glzOpPut s .overflow s0 []
    else if s.cap.bitmemBits.toNat < s0 + (encodeOp s.coder op).length then endsInError .glzOpPut s .capacity s0 []
    else endsNormally .glzOpPut s [.res0, .res1, .streamLen, .bitmem] fun t =>
      t.res.r0 = s.streamLen ∧ t.res.r1.toNat = (encodeOp s.coder op).length ∧
      t.streamLen.toNat = s0 + (encodeOp s.coder op).length ∧
      t.stream.holdsCode s0 (encodeOp s.coder op) ∧
      s.bitsKeptOutside s0 (s0 + (encodeOp s.coder op).length) t

/-- 43_glz_ops.md R105: GLZ_OP_GET, every case: the kind, the count or size, the byte or offset and the next position of the operation that decode_op finds, or decode_op's error at the position. Then, on a sound remap state (10_state.md R32), what a stream cut inside the operation makes of it, at the head, at a RUN's byte and at an offset chunk (R101): a run of ones that reaches its threshold raises INVALID_OP, one that the stream ends UNTERMINATED, and a remainder or chunk that does not fit TRUNCATED. -/
def Obligations.GlzOpGetReturnsOperation : Prop :=
  decodeCommand 0x00000051 = .ok .glzOpGet ∧
  (∀ s : State, s.opsOk = true →
    match decodeOp s.coder s.stream s.arg0 with
    | .error why => why.pos = s.arg0 ∧ endsInError .glzOpGet s why.code s.arg0 []
    | .ok (.imm n b, q) => endsNormally .glzOpGet s [.res0, .res1, .res2, .res3] fun t =>
        t.res.r0 = 0 ∧ t.res.r1.toNat = n ∧ t.res.r2.toNat = b.toNat ∧ t.res.r3.toNat = q
    | .ok (.ref n o, q) => endsNormally .glzOpGet s [.res0, .res1, .res2, .res3] fun t =>
        t.res.r0 = 1 ∧ t.res.r1.toNat = n ∧ t.res.r2 = o ∧ t.res.r3.toNat = q) ∧
  ∀ s : State, s.opsOk = true → s.remap.Sound →
    let p := s.arg0
    let c := s.coder
    let len := s.streamLen.toNat
    let raises := fun code => endsInError .glzOpGet s code p []
    let cutCode := fun (j cap : Nat) =>
      (∀ q, cap ≤ q * 2 ^ c.k → j + q ≤ len → (∀ i < q, s.bit (j + i) = true) → raises .invalidOp) ∧
      ((∀ i, j ≤ i → i < len → s.bit i = true) → (len - j) * 2 ^ c.k < cap → raises .unterminated) ∧
      (∀ q, q * 2 ^ c.k < cap → (∀ i < q, s.bit (j + i) = true) → s.bit (j + q) = false → j + q < len →
        len < j + q + 1 + c.k → raises .truncated)
    cutCode p (c.remap.threshold (headSpace c.l)) ∧
    (∀ n, 2 ≤ n → n ≤ sizeMax c.l → s.stream.holdsCode p (c.sym (254 + n)) →
      cutCode (p + (c.sym (254 + n)).length) (c.remap.threshold 256)) ∧
    (∀ n (chunks : List Nat), 2 ≤ n → n ≤ sizeMax c.l → (∀ g ∈ chunks, g < 2 ^ c.m) →
      chunks.length < chunksMax c.m → chunks.foldl (fun o g => o * 2 ^ c.m + g) 0 < 2 ^ 32 →
      let code := c.sym (254 + 2 ^ c.l + n) ++ chunks.flatMap fun g => true :: fieldBits c.m g
      s.stream.holdsCode p code → len < p + code.length + 1 + c.m → raises .truncated)

/-- LIT and RUN in a decode (45_glz_decode.md R117): the bytes land at the output position, clipped to what is owed, and p moves past the operation; GLZ_DECODE_STREAM raises CAPACITY(p) past its maximum (R123). That one such operation is a step of its own is the model's (notes/assumptions/10.md). -/
def Obligations.ImmediatesWriteTheirBytes : Prop :=
  ∀ (s : State) (n : Nat) (b : Byte) (i : Instr), (i = .lit b ∧ n = 1) ∨ i = .run n b → s.dec.running = true →
    let x := s.dec
    let t := x.rem.clip n
    if x.cmd = .decodeStream ∧ x.limit < x.k + t then
      endsInError i s .capacity x.p [.bytemem, .cycles, .pushes, .dec]
    else x.out + x.k + t ≤ s.cap.bytememBytes.toNat →
      ∃ u, exec i s = .next u ∧ s.changesOnly [.bytemem, .dec] u ∧
        (∀ j < t, u.bytemem.read (x.out + x.k + j) = b) ∧
        s.bytesKeptOutside (x.out + x.k) (x.out + x.k + t) u ∧
        u.dec = { x with k := x.k + t, rem := x.rem.less t, p := x.q }

/-- REF in a decode (45_glz_decode.md R117, R119): the tail-position shortcut, the push, and RECURSION_EXCEEDED(p) with both frames in use. That one such operation is a step of its own is the model's (notes/assumptions/10.md). -/
def Obligations.ReferencesJumpOrPush : Prop :=
  ∀ (s : State) (n : Nat) (o : Word), s.dec.running = true →
    let x := s.dec
    if x.rem.coveredBy n then
      exec (.ref n o) s = .next { s with dec := { x with p := x.q + o.toNat } }
    else if 2 ≤ x.d then endsInError (.ref n o) s .recursionExceeded x.p [.bytemem, .cycles, .pushes, .dec]
    else ∃ u, exec (.ref n o) s = .next u ∧ s.changesOnly [.dec] u ∧
      u.dec.frame x.d = ⟨x.q, x.rem.less n⟩ ∧ (∀ j < x.d, u.dec.frame j = x.frame j) ∧
      u.dec = { x with
        p := x.q + o.toNat, rem := .bytes n, d := x.d + 1, pushes := x.pushes + 1
        frame0 := u.dec.frame0, frame1 := u.dec.frame1 }

/-- The model's fault (notes/assumptions/13.md): an operation stops when no decode command runs, since p exists only inside one (10_state.md R36). -/
def Obligations.OperationsStopOutsideADecode : Prop :=
  ∀ (s : State) (i : Instr), commandWord i = none → s.dec.running = false → exec i s = .fault .noDecodeRunning

/-! ### Decoder -/

/-- GLZ_DECODE_AT of a stream of immediates that hold at least the requested bytes writes exactly those (45_glz_decode.md R117, R122). -/
def Obligations.DecodeAtWritesImmediates : Prop :=
  ∀ (s : State) (ims : List (Nat × Byte)), s.opsOk = true → s.remap.Sound →
    s.arg2 + s.arg1 ≤ s.cap.bytememBytes.toNat → immediatesLegal s.coder.l ims →
    s.stream.holdsCode s.arg0 (immediatesCode s.coder ims) → s.arg1 ≤ (immediatesBytes ims).length →
    endsNormally .glzDecodeAt s [.bytemem, .res0, .cycles, .pushes, .dec] fun t =>
      t.bytes s.arg2 s.arg1 = (immediatesBytes ims).take s.arg1 ∧
      s.bytesKeptOutside s.arg2 (s.arg2 + s.arg1) t ∧
      t.res.r0 = s.args.a1 ∧ t.pushes = 0 ∧ t.cycles.toNat ≤ s.arg1

/-- GLZ_DECODE_STREAM of a stream of immediates that ends at STREAM_LEN writes all their bytes, one cycle for each operation (45_glz_decode.md R123). -/
def Obligations.DecodeStreamWritesImmediates : Prop :=
  ∀ (s : State) (ims : List (Nat × Byte)), s.opsOk = true → s.remap.Sound →
    s.arg1 + s.arg2 ≤ s.cap.bytememBytes.toNat → immediatesLegal s.coder.l ims →
    s.stream.holds s.arg0 (immediatesCode s.coder ims) →
    s.arg0 + (immediatesCode s.coder ims).length = s.streamLen.toNat →
    (immediatesBytes ims).length ≤ s.arg2 →
    endsNormally .glzDecodeStream s [.bytemem, .res0, .cycles, .pushes, .dec] fun t =>
      t.bytes s.arg1 (immediatesBytes ims).length = immediatesBytes ims ∧
      s.bytesKeptOutside s.arg1 (s.arg1 + (immediatesBytes ims).length) t ∧
      t.res.r0.toNat = (immediatesBytes ims).length ∧ t.pushes = 0 ∧ t.cycles.toNat = ims.length

/-- 45_glz_decode.md R121: a decode command writes only its output region, its results, CYCLES and PUSHES, with or without error (the decoder's registers are internal, RES1 to RES3 and the counter of unspecified values change only in error). -/
def Obligations.DecodeCommandsWriteOnlyTheirOutput : Prop :=
  ∀ (s t : State) (i : Instr) (out len : Nat),
    (i = .glzDecodeAt ∧ out = s.arg2 ∧ len = s.arg1) ∨ (i = .glzDecodeStream ∧ out = s.arg1 ∧ len = s.arg2) →
    exec i s = .next t →
    s.changesOnly [.report, .bytemem, .res0, .res1, .res2, .res3, .cycles, .pushes, .dec, .free] t ∧
    s.bytesKeptOutside out (out + len) t ∧
    (t.report.err = false → s.changesOnly [.report, .bytemem, .res0, .cycles, .pushes, .dec] t)

/-- Every decode command ends, within 2·len + 1 cycles, on any stream (45_glz_decode.md R118, R120), and at once in CAPACITY(0) when its output range leaves BYTEMEM (R122, R123). That CYCLES and PUSHES lie within the cap when a start check or the range check fails is the model's reading of 10_state.md R27: they are 0 then (notes/assumptions/15.md). -/
def Obligations.DecodeCommandsEndWithinTheCycleCap : Prop :=
  ∀ s : State,
    (∃ t, exec .glzDecodeAt s = .next t ∧ t.report.busy = false ∧ t.dec.running = false ∧
      t.cycles.toNat ≤ 2 * s.arg1 + 1 ∧ t.pushes.toNat ≤ t.cycles.toNat) ∧
    (∃ t, exec .glzDecodeStream s = .next t ∧ t.report.busy = false ∧ t.dec.running = false ∧
      t.cycles.toNat ≤ 2 * s.arg2 + 1 ∧ t.pushes.toNat ≤ t.cycles.toNat) ∧
    (s.opsOk = true → s.cap.bytememBytes.toNat < s.arg2 + s.arg1 →
      endsInError .glzDecodeAt s .capacity 0 [.bytemem, .cycles, .pushes, .dec]) ∧
    (s.opsOk = true → s.cap.bytememBytes.toNat < s.arg1 + s.arg2 →
      endsInError .glzDecodeStream s .capacity 0 [.bytemem, .cycles, .pushes, .dec])

/-- A decode command as one atomic step is the same as its decoder stepped cycle by cycle from its entry (46_host.md R128; 45_glz_decode.md R117, R118). The cycles as steps are the model's (notes/assumptions/10.md). -/
def Obligations.DecodeCommandIsItsCyclesRun : Prop :=
  ∀ s : State, s.opsOk = true → s.inputs = [] →
    (s.arg2 + s.arg1 ≤ s.cap.bytememBytes.toNat →
      Host.Core.run core (2 * s.arg1 + 1) s.enterDecodeAt = exec .glzDecodeAt s) ∧
    (s.arg1 + s.arg2 ≤ s.cap.bytememBytes.toNat →
      Host.Core.run core (2 * s.arg2 + 1) s.enterDecodeStream = exec .glzDecodeStream s)

/-! ### Encoder -/

/-- GLZ_ENCODE_ALL completes whenever BITMEM has m bits left for each byte of the slices, m bounding every head symbol's code, and writes nothing but the appended stream and the result table (44_glz_encode.md R111). -/
def Obligations.EncodeAllCompletes : Prop :=
  ∀ (s : State) (m : Nat), s.opsOk = true → s.descriptorsOk s.arg0 s.arg1 →
    s.arg2 + 2 * s.arg1 ≤ s.cap.wordmemWords.toNat →
    (∀ h < headSpace s.coder.l, s.coder.symLen h ≤ m) →
    s.streamLen.toNat + m * s.sliceBytes s.arg0 s.arg1 ≤ s.cap.bitmemBits.toNat →
    endsNormally .glzEncodeAll s [.res0, .res1, .streamLen, .bitmem, .wordmem, .enc] fun t =>
      t.res.r0.toNat ≤ m * s.sliceBytes s.arg0 s.arg1 ∧
      t.res.r1.toNat = s.streamLen.toNat + t.res.r0.toNat ∧ t.streamLen = t.res.r1 ∧ t.enc.dict = [] ∧
      s.bitsKeptOutside s.streamLen.toNat t.streamLen.toNat t ∧
      s.wordsKeptOutside s.arg2 (s.arg2 + 2 * s.arg1) t ∧
      ∀ i < s.arg1,
        t.wordmem.read (s.arg2 + 2 * i + 1) = s.wordmem.read (s.arg0 + 2 * i + 1) ∧
        s.streamLen.toNat ≤ (t.wordmem.read (s.arg2 + 2 * i)).toNat ∧
        (t.wordmem.read (s.arg2 + 2 * i)).toNat ≤ t.streamLen.toNat

/-- GLZ_ENCODE_ALL's errors (44_glz_encode.md R108, R111): CAPACITY(0) on a range outside its memory; CAPACITY(S0) when the stream that the encoder makes with more room would pass BITMEM_BITS; and after every error, that of a start check included, nothing but the report, RES0 to RES3, BITMEM from STREAM_LEN up and the result table has changed. That BITMEM and the table are open after a start or range check too is the model's reading (notes/assumptions/7.md). -/
def Obligations.EncodeAllChecksItsRanges : Prop :=
  ∀ s : State,
    (s.opsOk = true →
      (s.cap.wordmemWords.toNat < s.arg0 + 2 * s.arg1 ∨ s.cap.wordmemWords.toNat < s.arg2 + 2 * s.arg1 ∨
        ∃ i < s.arg1, s.cap.bytememBytes.toNat <
          (s.wordmem.read (s.arg0 + 2 * i)).toNat + (s.wordmem.read (s.arg0 + 2 * i + 1)).toNat) →
      endsInError .glzEncodeAll s .capacity 0 [.bitmem, .wordmem]) ∧
    (s.opsOk = true → s.descriptorsOk s.arg0 s.arg1 → s.arg2 + 2 * s.arg1 ≤ s.cap.wordmemWords.toNat →
      ∀ (room : Nat) (ends : List (Slice × Nat)) (y : EncodeRun),
        encodeAll { s.encodeEnv with sink := .stream s.streamLen.toNat room } (s.slices s.arg0 s.arg1) s.hist =
          .ok (ends, y) →
        s.cap.bitmemBits.toNat < s.streamLen.toNat + y.enc.w →
        endsInError .glzEncodeAll s .capacity s.streamLen.toNat [.bitmem, .wordmem]) ∧
    ∀ t, exec .glzEncodeAll s = .next t → t.report.err = true →
      s.changesOnly [.report, .bitmem, .wordmem, .res0, .res1, .res2, .res3, .free] t ∧
      s.bitsKeptOutside s.streamLen.toNat s.cap.bitmemBits.toNat t ∧
      s.wordsKeptOutside s.arg2 (s.arg2 + 2 * s.arg1) t

/-- 44_glz_encode.md R114: after GLZ_ENCODE_ALL succeeds, decoding any returned pair writes exactly the bytes of its slice. -/
def Obligations.DecodeAtRecoversEverySlice : Prop :=
  ∀ (s t : State) (i : Nat) (out : Word), s.remap.Sound → exec .glzEncodeAll s = .next t →
    t.report = Report.normalEnd → i < s.arg1 →
    let len := s.wordmem.read (s.arg0 + 2 * i + 1)
    out.toNat + len.toNat ≤ s.cap.bytememBytes.toNat →
    let u := { t with args := ⟨t.wordmem.read (s.arg2 + 2 * i), t.wordmem.read (s.arg2 + 2 * i + 1), out, s.args.a3⟩ }
    endsNormally .glzDecodeAt u [.bytemem, .res0, .cycles, .pushes, .dec] fun x =>
      x.bytes out.toNat len.toNat = s.bytes (s.wordmem.read (s.arg0 + 2 * i)).toNat len.toNat ∧
      u.bytesKeptOutside out.toNat (out.toNat + len.toNat) x

/-- 44_glz_encode.md R114: slices with equal bytes get equal pairs. -/
def Obligations.EqualSlicesGetEqualPairs : Prop :=
  ∀ (s t : State) (i j : Nat), exec .glzEncodeAll s = .next t → t.report = Report.normalEnd →
    i < s.arg1 → j < s.arg1 →
    s.bytes (s.wordmem.read (s.arg0 + 2 * i)).toNat (s.wordmem.read (s.arg0 + 2 * i + 1)).toNat =
      s.bytes (s.wordmem.read (s.arg0 + 2 * j)).toNat (s.wordmem.read (s.arg0 + 2 * j + 1)).toNat →
    t.wordmem.read (s.arg2 + 2 * i) = t.wordmem.read (s.arg2 + 2 * j) ∧
    t.wordmem.read (s.arg2 + 2 * i + 1) = t.wordmem.read (s.arg2 + 2 * j + 1)

/-- GLZ_SEED, every case after its start check (44_glz_encode.md R116). A descriptor or a slice outside its memory ends in CAPACITY(0). Otherwise it completes whenever the slices hold fewer than 2^32 bytes, and whenever no counter overflows: COUNT holds the occurrences of every symbol in the operations the encoder emits under the neutral coder, HIST_FIXLEN is H(L), HIST_HWM follows the symbols; DERIVE_TABLE makes D the ranking of those counts and E its inverse; DERIVE_K makes CFG_K the least best k. A counter that would pass 2^32 - 1 ends in COUNT_OVERFLOW. After an error nothing but the histogram, the report and RES0 to RES3 has changed, whatever the flags. That RES2 keeps its value when DERIVE_K runs the search is the model's reading (notes/assumptions/14.md). -/
def Obligations.SeedTrainsTheHistogram : Prop :=
  decodeCommand 0x00000055 = .ok .glzSeed ∧
  ∀ s : State, s.lmOk = true → s.cap.legal = true →
    let ds := s.slices s.arg0 s.arg1
    let heads := 256 + 2 ^ (s.cfg.l.toNat + 1)
    let emitted := encodeAll s.seedEnv ds (Hist.cleared heads)
    let completes := fun (y : EncodeRun) =>
      let symbols := y.enc.el.flatMap (opSymbols s.cfg.l.toNat)
      endsNormally .glzSeed s [.cfgK, .remap, .hist, .res0, .res1, .enc] fun t =>
        t.hist.fixlen.toNat = heads ∧ (∀ n, t.hist.countOf n = symbols.count n) ∧
        t.hist.hwm.toNat = symbols.foldl (fun m n => max m (n + 1)) 0 ∧ t.hist.hwm.toNat ≤ heads ∧
        t.res.r0 = t.cfg.k.setWidth 32 ∧ t.res.r1 = t.remap.b ∧ t.enc.dict = [] ∧
        (if s.deriveTable then
          t.remap.en = true ∧ t.remap.b.toNat = heads ∧
          (∀ r < heads, (t.remap.d.read r).toNat < heads ∧ (t.remap.e.read (t.remap.d.read r).toNat).toNat = r) ∧
          (∀ r q, r < q → q < heads →
            let x := (t.remap.d.read r).toNat
            let y := (t.remap.d.read q).toNat
            symbols.count y < symbols.count x ∨ (symbols.count x = symbols.count y ∧ x < y))
         else t.remap = s.remap) ∧
        (if s.deriveK then
          t.cfg.k.toNat ≤ ceilLog2 heads ∧ (∀ k ≤ ceilLog2 heads, t.cost t.cfg.k.toNat ≤ t.cost k) ∧
          (∀ k < t.cfg.k.toNat, t.cost t.cfg.k.toNat < t.cost k)
         else t.cfg.k = s.cfg.k)
    if s.cap.wordmemWords.toNat < s.arg0 + 2 * s.arg1 then endsInError .glzSeed s .capacity 0 [.hist]
    else if ∃ d ∈ ds, s.cap.bytememBytes.toNat < d.addr + d.len then endsInError .glzSeed s .capacity 0 [.hist]
    else
      (s.sliceBytes s.arg0 s.arg1 < 2 ^ 32 → ∃ ends y, emitted = .ok (ends, y) ∧ completes y) ∧
      (∀ ends y, emitted = .ok (ends, y) → completes y) ∧
      (∀ why, emitted = .error why → endsInError .glzSeed s .countOverflow 0 [.hist])

/-! ### Errors and the host's ports -/

/-- 60_exceptions.md R139: each command's start checks fail with CONFIG(0), before any check of its own. -/
def Obligations.StartChecksFailWithConfig : Prop :=
  ∀ s : State,
    (s.cap.bitmemBits.toNat < s.streamLen.toNat →
      (∀ i ∈ [Instr.bitsPut, .bitsGet, .bitsPutStream, .bitsGetStream, .ricePut, .riceGet, .glzOpPut, .glzOpGet],
        endsInError i s .config 0 []) ∧
      endsInError .glzEncodeAll s .config 0 [.bitmem, .wordmem] ∧
      ∀ i ∈ [Instr.glzDecodeAt, .glzDecodeStream], endsInError i s .config 0 [.bytemem, .cycles, .pushes, .dec]) ∧
    (32 < s.cfg.k.toNat →
      (∀ i ∈ [Instr.ricePut, .riceGet, .glzOpPut, .glzOpGet], endsInError i s .config 0 []) ∧
      endsInError .glzEncodeAll s .config 0 [.bitmem, .wordmem] ∧
      ∀ i ∈ [Instr.glzDecodeAt, .glzDecodeStream], endsInError i s .config 0 [.bytemem, .cycles, .pushes, .dec]) ∧
    (s.cap.lMax.toNat < s.cfg.l.toNat ∨ s.cfg.m.toNat = 0 ∨ 32 < s.cfg.m.toNat →
      (∀ i ∈ [Instr.glzOpPut, .glzOpGet], endsInError i s .config 0 []) ∧
      endsInError .glzEncodeAll s .config 0 [.bitmem, .wordmem] ∧
      (∀ i ∈ [Instr.glzDecodeAt, .glzDecodeStream], endsInError i s .config 0 [.bytemem, .cycles, .pushes, .dec]) ∧
      endsInError .glzSeed s .config 0 [.hist])

/-- A CMD write of an illegal word to an idle block ends in ILLEGAL_CMD(0) (30_encoding.md R55, R66, 46_host.md R127) and changes nothing else but RES0 to RES3, which 60_exceptions.md R137 leaves unspecified after every error. That R137 covers this error too is the model's reading (notes/assumptions/5.md); `free` is its counter of unspecified values. -/
def Obligations.IllegalCommandWordsChangeNothingElse : Prop :=
  ∀ (s : State) (w : Word) (rest : List Input), s.inputs = .writeReg 0x00 w :: rest → s.report.busy = false →
    w.toNat / 2 ^ 8 ≠ 0 ∨ w.toNat % 2 ^ 8 ∉ definedOpcodes →
    ∃ t, step s = .next t ∧ t.inputs = rest ∧ t.report = ⟨false, true, true, .illegalCmd, 0⟩ ∧
      s.changesOnly [.inputs, .report, .res0, .res1, .res2, .res3, .free] t

/-- 46_host.md R128: every command ends, with BUSY = 0. -/
def Obligations.EveryCommandEnds : Prop :=
  ∀ (s : State) (i : Instr), commandWord i ≠ none → ∃ t, exec i s = .next t ∧ t.report.busy = false

/-- A CMD write of a command's word to an idle block runs that command (46_host.md R127). -/
def Obligations.StepRunsTheCommandWritten : Prop :=
  ∀ (s : State) (w : Word) (i : Instr) (rest : List Input), s.inputs = .writeReg 0x00 w :: rest →
    s.report.busy = false → decodeCommand w = .ok i → step s = exec i { s with inputs := rest }

/-- While a decode is in progress and no host access is pending, a step runs the operation at p, after the finished frames return and the cycle is counted (45_glz_decode.md R117, R118). That a decode in progress steps by one cycle is the model's (notes/assumptions/10.md). -/
def Obligations.StepRunsTheOperationAtP : Prop :=
  ∀ (s : State) (op : Op) (q : Nat), s.inputs = [] → s.dec.running = true →
    let x := Decoder.popFinished s.dec.d s.dec
    x.finished s.streamLen.toNat = false → x.cycles + 1 ≤ 2 * x.limit →
    decodeOp s.coder s.stream x.p = .ok (op, q) →
    step s = exec op.toInstr { s with dec := { x with cycles := x.cycles + 1, q := q } }

/-- The other ways a decode's step goes (45_glz_decode.md R117, R118): nothing owed ends the command with RES0, CYCLES and PUSHES; a cycle past the cap raises RUNTIME_EXCEEDED(p); an operation that does not decode raises its own error at p. That a decode in progress steps by one cycle is the model's (notes/assumptions/10.md). -/
def Obligations.DecodeStepsThatEndTheCommand : Prop :=
  ∀ s : State, s.inputs = [] → s.dec.running = true → s.report = Report.started →
    let x := Decoder.popFinished s.dec.d s.dec
    let ends := fun (t : State) (cycles : Nat) =>
      t.dec.running = false ∧ t.cycles = saturate cycles ∧ t.pushes = saturate x.pushes
    (x.finished s.streamLen.toNat = true → ∃ t, step s = .next t ∧ t.report = Report.normalEnd ∧ ends t x.cycles ∧
      t.res.r0 = BitVec.ofNat 32 x.k ∧ s.changesOnly [.report, .res0, .cycles, .pushes, .dec] t) ∧
    (x.finished s.streamLen.toNat = false → 2 * x.limit < x.cycles + 1 →
      ∃ t, step s = .next t ∧ t.report = Report.failed .runtimeExceeded x.p ∧ ends t (x.cycles + 1) ∧
        s.changesOnly [.report, .bytemem, .res0, .res1, .res2, .res3, .cycles, .pushes, .dec, .free] t ∧
        s.bytesKeptOutside x.out (x.out + x.limit) t) ∧
    (∀ why, x.finished s.streamLen.toNat = false → x.cycles + 1 ≤ 2 * x.limit →
      decodeOp s.coder s.stream x.p = .error why →
      ∃ t, step s = .next t ∧ t.report = Report.failed why.code x.p ∧ ends t (x.cycles + 1) ∧
        s.changesOnly [.report, .bytemem, .res0, .res1, .res2, .res3, .cycles, .pushes, .dec, .free] t ∧
        s.bytesKeptOutside x.out (x.out + x.limit) t)

/-- 70_reset_and_hazards.md R145: while BUSY = 1 host writes are ignored and a read of STATUS returns it. -/
def Obligations.BusyBlockIgnoresHostWrites : Prop :=
  ∀ (s : State) (a : Input) (rest : List Input), s.inputs = a :: rest → s.report.busy = true →
    ((∃ r v, a = .writeReg r v) ∨ (∃ j v, a = .writeBitmem j v) ∨ (∃ j v, a = .writeBytemem j v) ∨
      (∃ j v, a = .writeWordmem j v) → step s = .next { s with inputs := rest }) ∧
    (a = .readReg 0x01 → step s = .next { s with inputs := rest, portData := s.report.statusWord })

/-- 46_host.md R126 and 10_state.md R20: a register write to an idle block stores the fields of an RW register and drops the other bits, leaves every other register alone, and does nothing at an RO register or a reserved index. -/
def Obligations.RegisterWritesStoreTheirFields : Prop :=
  ∀ (s : State) (r : BitVec 8) (v : Word) (rest : List Input), s.inputs = .writeReg r v :: rest →
    s.report.busy = false → r ≠ 0x00 →
    ∃ t, step s = .next t ∧
      s.changesOnly [.cfgK, .cfgL, .cfgM, .streamLen, .args, .inputs] t ∧ t.inputs = rest ∧
      (∀ j, j ≠ r → t.readRegister j = s.readRegister j) ∧
      match writableFields r.toNat with
      | some mask => t.readRegister r = v &&& mask
      | none => t = { s with inputs := rest }

/-- 46_host.md R125, R126 and 20_memory.md R46: a read on an idle block returns the register or the memory unit, 0 outside a memory, and changes nothing but the port. The registers stand at the indices of 10_state.md R20, CMD and the reserved indices read 0, and ERRCODE reads the codes of 60_exceptions.md R134. -/
def Obligations.PortReadsHaveNoSideEffect : Prop :=
  [ErrCode.none, .truncated, .unterminated, .invalidOp, .overflow, .widthExceeded, .recursionExceeded, .runtimeExceeded,
    .cast, .capacity, .config, .tableInvalid, .histUnderflow, .countOverflow, .illegalCmd].map ErrCode.number =
    (List.range 15).map (BitVec.ofNat 8) ∧
  (∀ s : State,
    (s.readRegister 0x01).toNat = s.report.busy.toNat + 2 * s.report.done.toNat + 4 * s.report.err.toNat ∧
    (s.readRegister 0x02).toNat = s.report.code.number.toNat ∧ s.readRegister 0x03 = s.report.pos ∧
    (s.readRegister 0x04).toNat = s.cfg.k.toNat ∧ (s.readRegister 0x05).toNat = s.cfg.l.toNat ∧
    (s.readRegister 0x06).toNat = s.cfg.m.toNat ∧ (s.readRegister 0x07).toNat = s.remap.en.toNat ∧
    s.readRegister 0x08 = s.remap.b ∧ s.readRegister 0x09 = s.hist.fixlen ∧ s.readRegister 0x0A = s.hist.hwm ∧
    s.readRegister 0x0B = s.streamLen ∧ s.readRegister 0x0C = s.args.a0 ∧ s.readRegister 0x0D = s.args.a1 ∧
    s.readRegister 0x0E = s.args.a2 ∧ s.readRegister 0x0F = s.args.a3 ∧ s.readRegister 0x10 = s.res.r0 ∧
    s.readRegister 0x11 = s.res.r1 ∧ s.readRegister 0x12 = s.res.r2 ∧ s.readRegister 0x13 = s.res.r3 ∧
    s.readRegister 0x14 = s.cycles ∧ s.readRegister 0x15 = s.pushes ∧
    s.readRegister 0x16 = s.cap.bitmemBits ∧ s.readRegister 0x17 = s.cap.bytememBytes ∧
    s.readRegister 0x18 = s.cap.wordmemWords ∧ s.readRegister 0x19 = s.cap.histCap ∧
    (s.readRegister 0x1A).toNat = s.cap.lMax.toNat ∧
    ∀ r : BitVec 8, r = 0x00 ∨ 0x1A < r.toNat → s.readRegister r = 0) ∧
  ∀ (s : State) (a : Input) (rest : List Input), s.inputs = a :: rest → s.report.busy = false →
    (∀ r, a = .readReg r → step s = .next { s with inputs := rest, portData := s.readRegister r }) ∧
    (∀ j, a = .readBytemem j → ∃ t, step s = .next t ∧ s.changesOnly [.inputs, .portData] t ∧ t.inputs = rest ∧
      t.portData.toNat = if j.toNat < s.cap.bytememBytes.toNat then (s.bytemem.read j.toNat).toNat else 0) ∧
    (∀ j, a = .readWordmem j → ∃ t, step s = .next t ∧ s.changesOnly [.inputs, .portData] t ∧ t.inputs = rest ∧
      t.portData = if j.toNat < s.cap.wordmemWords.toNat then s.wordmem.read j.toNat else 0) ∧
    (∀ j, a = .readBitmem j → ∃ t, step s = .next t ∧ s.changesOnly [.inputs, .portData] t ∧ t.inputs = rest ∧
      t.portData.toNat < 256 ∧
      ∀ i < 8, t.portData.getLsbD (7 - i) =
        (decide (8 * j.toNat + i < s.cap.bitmemBits.toNat) && s.bit (8 * j.toNat + i)))

/-- 46_host.md R125 and 20_memory.md R41: a memory-port write to an idle block writes one unit, BITMEM packed with bit 8j as the byte's bit 7, and is ignored outside its memory. -/
def Obligations.PortWritesOneUnit : Prop :=
  ∀ (s : State) (a : Input) (rest : List Input), s.inputs = a :: rest → s.report.busy = false →
    (∀ j v, a = .writeBytemem j v → ∃ t, step s = .next t ∧ s.changesOnly [.inputs, .bytemem] t ∧ t.inputs = rest ∧
      s.bytesKeptOutside j.toNat (j.toNat + 1) t ∧
      if j.toNat < s.cap.bytememBytes.toNat then t.bytemem.read j.toNat = v else t.bytemem = s.bytemem) ∧
    (∀ j v, a = .writeWordmem j v → ∃ t, step s = .next t ∧ s.changesOnly [.inputs, .wordmem] t ∧ t.inputs = rest ∧
      s.wordsKeptOutside j.toNat (j.toNat + 1) t ∧
      if j.toNat < s.cap.wordmemWords.toNat then t.wordmem.read j.toNat = v else t.wordmem = s.wordmem) ∧
    (∀ j v, a = .writeBitmem j v → ∃ t, step s = .next t ∧ s.changesOnly [.inputs, .bitmem] t ∧ t.inputs = rest ∧
      s.bitsKeptOutside (8 * j.toNat) (8 * j.toNat + 8) t ∧
      ∀ i < 8, if 8 * j.toNat + i < s.cap.bitmemBits.toNat then t.bit (8 * j.toNat + i) = v.getLsbD (7 - i)
        else t.bitmem.read (8 * j.toNat + i) = s.bitmem.read (8 * j.toNat + i))

/-! ### Reset and invariants -/

/-- 10_state.md R38: the values the spec gives for reset, for any parameters of the block. -/
def Obligations.ResetStateHoldsTheResetValues : Prop :=
  State.reset = State.resetWith Config.params ∧
  ∀ c : Params, let s := State.resetWith c
    (∀ r ∈ [0x01, 0x02, 0x03, 0x07, 0x08, 0x09, 0x0A, 0x0B, 0x0C, 0x0D, 0x0E, 0x0F, 0x10, 0x11, 0x12, 0x13, 0x14, 0x15],
      s.readRegister (BitVec.ofNat 8 r) = 0) ∧
    s.readRegister 0x04 = 8 ∧ s.readRegister 0x05 = 5 ∧ s.readRegister 0x06 = 3 ∧
    s.readRegister 0x16 = c.bitmemBits ∧ s.readRegister 0x17 = c.bytememBytes ∧
    s.readRegister 0x18 = c.wordmemWords ∧ s.readRegister 0x19 = c.histCap ∧
    (s.readRegister 0x1A).toNat = c.lMax.toNat ∧
    (∀ n, s.hist.countOf n = 0) ∧ s.enc.dict = [] ∧ s.dec.d = 0

/-- Power-on reset of an idle block puts every register and internal state at its reset value, and the memories are then unspecified (70_reset_and_hazards.md R142); none takes effect while a command runs (R143). That it is an input, that one which comes while BUSY = 1 is lost, and that the host's further accesses wait, is the model's choice (notes/assumptions/18.md). -/
def Obligations.PowerOnResetsEveryRegister : Prop :=
  ∀ (s : State) (rest : List Input), s.inputs = .powerOn :: rest →
    (s.report.busy = false → ∃ t, step s = .next t ∧
      t.cap = s.cap ∧ t.report = ⟨false, false, false, .none, 0⟩ ∧ t.cfg = ⟨8, 5, 3⟩ ∧
      t.remap.en = false ∧ t.remap.b = 0 ∧ t.hist.fixlen = 0 ∧ t.hist.hwm = 0 ∧ (∀ n, t.hist.countOf n = 0) ∧
      t.streamLen = 0 ∧ t.args = ⟨0, 0, 0, 0⟩ ∧ t.res = ⟨0, 0, 0, 0⟩ ∧ t.cycles = 0 ∧ t.pushes = 0 ∧
      t.enc.dict = [] ∧ t.dec.d = 0 ∧ t.inputs = rest) ∧
    (s.report.busy = true → step s = .next { s with inputs := rest })

/-- The reset state is sound, and its histogram and tables keep their limits. The parameters it holds are the model's choice (notes/assumptions/1.md), and so are the encoder's values outside a command (notes/assumptions/22.md). -/
def Obligations.ResetStateIsSound : Prop := State.reset.Inv ∧ State.reset.HistInv

/-- Every step keeps the block sound: canonical memories, inverse tables, a legal report, and a decoder within its caps (10_state.md R22, R32, R35, R36). Every step but a GLZ_SEED that ends in error also keeps the limits of the histogram and of the tables (R31, R32). That such a GLZ_SEED lifts them, since 93_implementation_defined.md U4 leaves any value in the histogram, is the model's reading (notes/assumptions/8.md), and the encoder's values between commands are its choice (notes/assumptions/22.md). -/
def Obligations.EveryStepKeepsTheBlockSound : Prop :=
  ∀ s t : State, s.Inv → step s = .next t → t.Inv ∧ (s.HistInv → ¬s.failsSeed t → t.HistInv)

/-- 10_state.md R32: every step keeps D a permutation and E its inverse, from any state of the tables in which they are. -/
def Obligations.EveryStepKeepsTheTablesInverse : Prop :=
  ∀ s t : State, s.remap.Sound → step s = .next t → t.remap.Sound

/-- 10_state.md R33: only HIST_SORT, TABLE_LOAD, TABLE_CLEAR, GLZ_SEED with its derive-table flag, and RESET write D, E, TBL_B and REMAP.EN. -/
def Obligations.OnlyTableCommandsWriteTheTables : Prop :=
  ∀ (s t : State) (i : Instr), exec i s = .next t → i ∉ [Instr.histSort, .tableLoad, .tableClear, .reset] →
    (i = .glzSeed → s.deriveTable = false) → t.remap = s.remap

/-- 10_state.md R26: the capability registers read the parameters, and no step changes them. -/
def Obligations.CapabilityRegistersAreConstant : Prop :=
  (∀ s t : State, step s = .next t → t.cap = s.cap) ∧
  ∀ s : State, s.readRegister 0x16 = s.cap.bitmemBits ∧ s.readRegister 0x17 = s.cap.bytememBytes ∧
    s.readRegister 0x18 = s.cap.wordmemWords ∧ s.readRegister 0x19 = s.cap.histCap ∧
    (s.readRegister 0x1A).toNat = s.cap.lMax.toNat

/-- Words and bit strings written out from 30_encoding.md R56 and 43_glz_ops.md R106 decode to the instructions they stand for. -/
def Obligations.WrittenEncodingsDecode : Prop :=
  decodeCommand 0x00000010 = .ok .bitsPut ∧ decodeCommand 0x00000026 = .ok .histSort ∧
  decodeCommand 0x00000034 = .ok .mapDec ∧ decodeCommand 0x00000042 = .ok .riceSearch ∧
  decodeCommand 0x00000055 = .ok .glzSeed ∧
  decode resetCoder (.operation [false, false, true, true, false, false, false, false, true]) = .ok (.lit 0x61) ∧
  decode resetCoder (.operation [true, false, false, false, false, false, false, false, true, true,
    false, false, true, true, false, true, false, false, false]) = .ok (.run 5 0x68) ∧
  decode resetCoder (.operation [true, false, false, false, true, false, false, true, false, false,
    false, false, false, false]) = .ok (.ref 6 0)
end

