-- ==== Sys2Proof/Laws/Arith.lean ====
section
/-! SUPPORT. Laws of the arithmetic primitives and of fixed-width fields. -/

namespace Sys2Proof.Machine

@[simp] theorem length_fieldBits (w n : Nat) : (fieldBits w n).length = w := by
  induction w with
  | zero => rfl
  | succ w ih => simp [fieldBits, ih]

/-- Bit i of a w-bit field is bit w-1-i of its value (20_memory.md R39). -/
theorem getElem_fieldBits (w n i : Nat) (h : i < (fieldBits w n).length) :
    (fieldBits w n)[i] = n.testBit (w - 1 - i) := by
  induction w generalizing i with
  | zero => simp [fieldBits] at h
  | succ w ih =>
    cases i with
    | zero => simp [fieldBits]
    | succ i =>
      simp only [fieldBits, List.getElem_cons_succ]
      rw [ih]
      congr 1; omega

theorem fieldValue_lt (bit : Nat → Bool) (p w : Nat) : fieldValue bit p w < 2 ^ w := by
  induction w generalizing p with
  | zero => simp [fieldValue]
  | succ w ih =>
    have h1 := ih (p + 1)
    have h2 : (bit p).toNat ≤ 1 := Bool.toNat_le _
    have h3 : (bit p).toNat * 2 ^ w ≤ 1 * 2 ^ w := Nat.mul_le_mul_right _ h2
    rw [fieldValue, Nat.pow_succ]
    omega

theorem fieldValue_congr {f g : Nat → Bool} {p w : Nat} (h : ∀ i < w, f (p + i) = g (p + i)) :
    fieldValue f p w = fieldValue g p w := by
  induction w generalizing p with
  | zero => rfl
  | succ w ih =>
    have h0 : f p = g p := h 0 (by omega)
    rw [fieldValue, fieldValue, h0, ih fun i hi => by
      simpa [Nat.add_assoc, Nat.add_comm 1 i] using h (i + 1) (by omega)]

/-- A field that holds the bits of n reads as n (40_bits.md R69, R70). -/
theorem fieldValue_of_bits {bit : Nat → Bool} {p w n : Nat}
    (h : ∀ i (hi : i < (fieldBits w n).length), bit (p + i) = (fieldBits w n)[i]) :
    fieldValue bit p w = n % 2 ^ w := by
  induction w generalizing p with
  | zero => simp [fieldValue, Nat.mod_one]
  | succ w ih =>
    have h0 : bit p = n.testBit w := by simpa [fieldBits] using h 0 (by simp [fieldBits])
    have ht : fieldValue bit (p + 1) w = n % 2 ^ w := ih fun i hi => by
      have := h (i + 1) (by simpa [fieldBits] using hi)
      simpa [fieldBits, Nat.add_assoc, Nat.add_comm 1 i] using this
    rw [fieldValue, ht, h0, Nat.pow_succ, Nat.mod_mul, Nat.testBit_eq_decide_div_mod_eq]
    rcases Nat.mod_two_eq_zero_or_one (n / 2 ^ w) with h2 | h2 <;> simp [h2, Nat.add_comm]

theorem ceilDiv_mul_le {a b : Nat} (hb : 0 < b) : a ≤ ceilDiv a b * b := by
  have h := Nat.div_add_mod (a + b - 1) b
  have hm := Nat.mod_lt (a + b - 1) hb
  unfold ceilDiv
  rw [Nat.mul_comm]
  omega

theorem lt_ceilDiv_iff {a b n : Nat} (hb : 0 < b) : n < ceilDiv a b ↔ n * b < a := by
  unfold ceilDiv
  rw [Nat.lt_iff_add_one_le, Nat.le_div_iff_mul_le hb, Nat.add_mul]
  omega

theorem le_two_pow_ceilLog2 (b : Nat) : b ≤ 2 ^ ceilLog2 b := by
  unfold ceilLog2
  split
  · rename_i h; simpa using h
  · have := Nat.lt_log2_self (n := b - 1)
    omega

/-- `ceil_log2(b)` is the least e with 2^e ≥ b (00_scope.md R13). -/
theorem ceilLog2_le {b e : Nat} (h : b ≤ 2 ^ e) : ceilLog2 b ≤ e := by
  unfold ceilLog2
  split
  · omega
  · rename_i hb
    have h1 : 2 ^ Nat.log2 (b - 1) ≤ b - 1 := Nat.log2_self_le (by omega)
    have h2 : 2 ^ Nat.log2 (b - 1) < 2 ^ e := by omega
    exact (Nat.pow_lt_pow_iff_right (by omega)).1 h2

theorem lt_two_pow_bitLen (v : Nat) : v < 2 ^ bitLen v := by
  unfold bitLen
  split
  · rename_i h; simp [h]
  · exact Nat.lt_log2_self

theorem bitLen_le {v e : Nat} (h : v < 2 ^ e) : bitLen v ≤ e := by
  unfold bitLen
  split
  · omega
  · rename_i hv
    exact (Nat.log2_lt hv).2 h

@[simp] theorem toNat_saturate (n : Nat) : (saturate n).toNat = min n (2 ^ 32 - 1) := by
  rw [saturate, BitVec.toNat_ofNat, Nat.mod_eq_of_lt (by omega)]

/-- The least chunk count holds the offset (30_encoding.md R63). -/
theorem lt_two_pow_chunks {m : Nat} (hm : 0 < m) (o : Nat) : o < 2 ^ (m * chunkCount m o) := by
  refine lt_of_lt_of_le (lt_two_pow_bitLen o) (Nat.pow_le_pow_right (by omega) ?_)
  have h := ceilDiv_mul_le (a := bitLen o) hm
  calc bitLen o ≤ ceilDiv (bitLen o) m * m := h
    _ ≤ chunkCount m o * m := Nat.mul_le_mul_right _ (le_max_right _ _)
    _ = m * chunkCount m o := Nat.mul_comm _ _

/-- An offset below 2^32 takes at most CMAX(M) chunks (90_conflicts.md C5). -/
theorem chunkCount_le_max {m o : Nat} (hm : 0 < m) (ho : o < 2 ^ 32) : chunkCount m o ≤ chunksMax m := by
  have hb : bitLen o ≤ 32 := bitLen_le ho
  unfold chunkCount chunksMax
  refine max_le ?_ ?_
  · exact (lt_ceilDiv_iff hm).2 (by omega)
  · unfold ceilDiv
    exact Nat.div_le_div_right (by omega)

theorem chunkCount_pos (m o : Nat) : 0 < chunkCount m o := lt_of_lt_of_le Nat.one_pos (le_max_left _ _)

end Sys2Proof.Machine
end

