-- ==== Sys2Proof/Laws/Coder.lean ====
section
/-! SUPPORT. Laws of the codes: their lengths, and the blocks of the remap. -/

namespace Sys2Proof.Machine

/-- The length of a Rice code word (42_rice.md R93). -/
@[simp] theorem length_riceCode (k n : Nat) : (riceCode k n).length = riceLen k n := by
  simp [riceCode, riceLen]; omega

@[simp] theorem Coder.length_sym (c : Coder) (n : Nat) : (c.sym n).length = c.symLen n := by
  simp [Coder.sym, Coder.symLen]

@[simp] theorem length_offsetChunks (m o c : Nat) : (offsetChunks m o c).length = c * (m + 1) := by
  induction c with
  | zero => simp [offsetChunks]
  | succ c ih => simp [offsetChunks, ih]; ring

@[simp] theorem length_offsetCode (m o : Nat) : (offsetCode m o).length = (m + 1) * chunkCount m o := by
  rw [offsetCode, length_offsetChunks, Nat.mul_comm]

/-- `oplen(op) = |code(op)|` (43_glz_ops.md R99). -/
@[simp] theorem length_encodeOp (c : Coder) (op : Op) : (encodeOp c op).length = c.opLen op := by
  cases op with
  | imm n b => simp only [encodeOp, Coder.opLen]; split <;> simp
  | ref s o => simp [encodeOp, Coder.opLen]

theorem Coder.symLen_pos (c : Coder) (n : Nat) : 0 < c.symLen n := by
  unfold Coder.symLen riceLen
  positivity

theorem Coder.opLen_pos (c : Coder) (op : Op) : 0 < c.opLen op := by
  cases op with
  | imm n b =>
    simp only [Coder.opLen]
    have := c.symLen_pos b.toNat
    split <;> omega
  | ref s o =>
    simp only [Coder.opLen]
    have := c.symLen_pos (254 + 2 ^ c.l + s)
    omega

/-! ### The remap -/

@[simp] theorem Remap.identity_throughTable (t : Memory 32) (n : Nat) : Remap.identity.throughTable t n = n := rfl

@[simp] theorem Remap.identity_mapEnc (n : Nat) : Remap.identity.mapEnc n = n := rfl

@[simp] theorem Remap.identity_mapDec (n : Nat) : Remap.identity.mapDec n = n := rfl

@[simp] theorem Remap.identity_threshold (n : Nat) : Remap.identity.threshold n = n := rfl

theorem Remap.throughTable_off {r : Remap} (h : r.en = false) (t : Memory 32) (n : Nat) : r.throughTable t n = n := by
  simp [Remap.throughTable, h]

/-- A permutation of the ranks below b, as a self-map with a left inverse, has it as a right inverse too. -/
theorem rightInverse_of_leftInverse {b : Nat} {d e : Nat → Nat}
    (h : ∀ n < b, d n < b ∧ e (d n) = n) : ∀ n < b, e n < b ∧ d (e n) = n := by
  let f : Fin b → Fin b := fun i => ⟨d i, (h i i.2).1⟩
  have hf : Function.Injective f := fun i j hij => by
    have : d i = d j := congrArg Fin.val hij
    exact Fin.ext (by rw [← (h i i.2).2, ← (h j j.2).2, this])
  have hs := Finite.injective_iff_surjective.1 hf
  intro n hn
  obtain ⟨i, hi⟩ := hs ⟨n, hn⟩
  have hdi : d i = n := congrArg Fin.val hi
  have hei : e n = i := by rw [← hdi]; exact (h i i.2).2
  exact ⟨hei ▸ i.2, hei ▸ hdi⟩

/-- In a sound remap D inverts E below TBL_B as well (10_state.md R32). -/
theorem Remap.Sound.enc_spec {r : Remap} (hr : r.Sound) (hen : r.en = true) {n : Nat} (hn : n < r.b.toNat) :
    (r.e.read n).toNat < r.b.toNat ∧ (r.d.read (r.e.read n).toNat).toNat = n :=
  rightInverse_of_leftInverse (d := fun n => (r.d.read n).toNat) (e := fun n => (r.e.read n).toNat)
    (hr.1 hen).2 n hn

/-- Recombining a block number with a remapped rank stays in the block (41_histogram_remap.md R85). -/
theorem Remap.throughTable_inBlock {r : Remap} (hen : r.en = true) {t : Memory 32}
    (ht : ∀ n, n < r.b.toNat → (t.read n).toNat < r.b.toNat) {n : Nat} (hb : 0 < r.b.toNat)
    (hn : n < 2 ^ 32 / r.b.toNat * r.b.toNat) :
    r.throughTable t n / r.b.toNat = n / r.b.toNat ∧
    r.throughTable t n % r.b.toNat = (t.read (n % r.b.toNat)).toNat ∧
    r.throughTable t n < 2 ^ 32 / r.b.toNat * r.b.toNat := by
  have hlt := ht (n % r.b.toNat) (Nat.mod_lt _ hb)
  have e : r.throughTable t n = (t.read (n % r.b.toNat)).toNat + r.b.toNat * (n / r.b.toNat) := by
    rw [Remap.throughTable, if_pos hen, if_neg (by omega), Nat.mul_comm, Nat.add_comm]
  have hdiv : r.throughTable t n / r.b.toNat = n / r.b.toNat := by
    rw [e, Nat.add_mul_div_left _ _ hb, Nat.div_eq_of_lt hlt, Nat.zero_add]
  refine ⟨hdiv, by rw [e, Nat.add_mul_mod_self_left, Nat.mod_eq_of_lt hlt], ?_⟩
  rw [← Nat.div_lt_iff_lt_mul hb, hdiv]
  rwa [Nat.div_lt_iff_lt_mul hb]

/-- The top partial block passes through (41_histogram_remap.md R83, R84). -/
theorem Remap.throughTable_top {r : Remap} (t : Memory 32) {n : Nat} (hn : 2 ^ 32 / r.b.toNat * r.b.toNat ≤ n) :
    r.throughTable t n = n := by
  by_cases he : r.en = true
  · rw [Remap.throughTable, if_pos he, if_pos hn]
  · rw [Remap.throughTable, if_neg he]

/-- In a sound remap every entry of D below TBL_B lies below TBL_B (10_state.md R32). -/
theorem Remap.Sound.dec_lt {r : Remap} (hr : r.Sound) (hen : r.en = true) {n : Nat} (hn : n < r.b.toNat) :
    (r.d.read n).toNat < r.b.toNat := ((hr.1 hen).2 n hn).1

end Sys2Proof.Machine
end

