-- ==== Sys2Proof/Laws/Decode.lean ====
section
/-! SUPPORT. Laws of the bounded reads: what each returns on a code that lies in the stream, and the bounds on what it returns. -/

namespace Sys2Proof

open Machine

/-! ### Strings in a stream -/

theorem BitStream.holds_append {st : BitStream} {p : Nat} {a b : List Bool} :
    st.holds p (a ++ b) ↔ st.holds p a ∧ st.holds (p + a.length) b := by
  constructor
  · intro h
    refine ⟨fun i hi => ?_, fun i hi => ?_⟩
    · have := h i (by simp; omega)
      rwa [List.getElem_append_left hi] at this
    · have := h (a.length + i) (by simp; omega)
      rw [List.getElem_append_right (by omega)] at this
      simpa [Nat.add_assoc] using this
  · rintro ⟨ha, hb⟩ i hi
    by_cases h : i < a.length
    · rw [List.getElem_append_left h]; exact ha i h
    · rw [List.getElem_append_right (by omega)]
      have := hb (i - a.length) (by simp at hi; omega)
      rwa [show p + a.length + (i - a.length) = p + i by omega] at this

theorem BitStream.holds_cons {st : BitStream} {p : Nat} {b : Bool} {bs : List Bool} :
    st.holds p (b :: bs) ↔ st.bit p = b ∧ st.holds (p + 1) bs := by
  rw [← List.singleton_append, BitStream.holds_append]
  simp [BitStream.holds]

theorem BitStream.ofBits_holds (bs : List Bool) : (BitStream.ofBits bs).holds 0 bs := fun i hi => by
  simp [BitStream.ofBits, List.getD_eq_getElem?_getD, hi]

/-- Everything `GetBits` can answer (40_bits.md R69). -/
theorem getBits_ok {st : BitStream} {p w v i : Nat} :
    getBits st p w = .ok (v, i) ↔ p + w ≤ st.len ∧ v = fieldValue st.bit p w ∧ i = p + w := by
  unfold getBits
  split
  · simp; omega
  · simp [eq_comm]; omega

/-! ### The Rice read -/

theorem unaryRun_of_ones {st : BitStream} {k cap ep : Nat} {e : Raised} {q : Nat} :
    ∀ {left i q0 : Nat}, (∀ j < q, st.bit (i + j) = true) → st.bit (i + q) = false → q < left →
      (q0 + q) * 2 ^ k < cap → unaryRun st k cap e ep left i q0 = .ok (q0 + q, i + q + 1) := by
  induction q with
  | zero =>
    intro left i q0 _ h0 hl _
    obtain ⟨left, rfl⟩ : ∃ m, left = m + 1 := ⟨left - 1, by omega⟩
    simp [unaryRun, show st.bit i = false by simpa using h0]
  | succ q ih =>
    intro left i q0 h1 h0 hl hc
    obtain ⟨left, rfl⟩ : ∃ m, left = m + 1 := ⟨left - 1, by omega⟩
    have hb : st.bit i = true := by simpa using h1 0 (by omega)
    have hle : (q0 + 1) * 2 ^ k ≤ (q0 + (q + 1)) * 2 ^ k := Nat.mul_le_mul_right _ (by omega)
    rw [unaryRun, if_pos hb, if_neg (by omega), ih (i := i + 1) (q0 := q0 + 1)]
    · rw [show q0 + 1 + q = q0 + (q + 1) by omega, show i + 1 + q + 1 = i + (q + 1) + 1 by omega]
    · intro j hj
      simpa [Nat.add_assoc, Nat.add_comm 1 j] using h1 (j + 1) (by omega)
    · simpa [Nat.add_assoc, Nat.add_comm 1 q] using h0
    · omega
    · rwa [show q0 + 1 + q = q0 + (q + 1) by omega]

/-- A code word below the threshold that lies wholly in the stream is read back exactly (42_rice.md R92). -/
theorem getRice_of_holds {st : BitStream} {k p n cap : Nat} {code : ErrCode} {ep : Nat}
    (h : st.holdsCode p (riceCode k n)) (hn : n < cap) :
    getRice st k p cap code ep = .ok (n, p + riceLen k n) := by
  obtain ⟨hh, hl⟩ := h
  rw [length_riceCode] at hl
  rw [riceCode, BitStream.holds_append, BitStream.holds_cons] at hh
  obtain ⟨hones, hzero, hfield⟩ := hh
  simp only [List.length_replicate] at hzero hfield
  have hq : n / 2 ^ k * 2 ^ k ≤ n := Nat.div_mul_le_self n (2 ^ k)
  unfold riceLen at hl ⊢
  have hu : unaryRun st k cap ⟨code, ep⟩ ep (st.len - p) p 0 = .ok (0 + n / 2 ^ k, p + n / 2 ^ k + 1) := by
    refine unaryRun_of_ones (fun j hj => ?_) hzero (by omega) (by rw [Nat.zero_add]; omega)
    rw [hones j (by simpa using hj), List.getElem_replicate]
  have hv : fieldValue st.bit (p + n / 2 ^ k + 1) k = n % 2 ^ k := by
    rw [fieldValue_of_bits hfield, Nat.mod_mod]
  unfold getRice
  rw [hu]
  simp only [Nat.zero_add]
  rw [if_neg (by omega), hv, Nat.mul_comm, Nat.div_add_mod]
  congr 2; omega

theorem unaryRun_bounds {st : BitStream} {k cap ep : Nat} {e : Raised} :
    ∀ {left i q0 q j : Nat}, unaryRun st k cap e ep left i q0 = .ok (q, j) →
      i < j ∧ j ≤ i + left ∧ (q = q0 ∨ q * 2 ^ k < cap) := by
  intro left
  induction left with
  | zero => intro i q0 q j h; simp [unaryRun] at h
  | succ left ih =>
    intro i q0 q j h
    rw [unaryRun] at h
    split at h
    · split at h
      · simp at h
      · obtain ⟨h1, h2, h3⟩ := ih h
        refine ⟨by omega, by omega, ?_⟩
        rcases h3 with rfl | h3
        · exact .inr (by omega)
        · exact .inr h3
    · simp only [Except.ok.injEq, Prod.mk.injEq] at h
      exact ⟨by omega, by omega, .inl h.1.symm⟩

/-- Everything `GetRice` can answer: the position it returns, and the bound on the value (42_rice.md R92). -/
theorem getRice_bounds {st : BitStream} {k p cap : Nat} {code : ErrCode} {ep n i : Nat} (hc : 0 < cap)
    (h : getRice st k p cap code ep = .ok (n, i)) :
    p < i ∧ i ≤ st.len ∧ n < ceilDiv cap (2 ^ k) * 2 ^ k := by
  unfold getRice at h
  split at h
  · simp at h
  · rename_i q j hu
    obtain ⟨h1, h2, h3⟩ := unaryRun_bounds hu
    split at h
    · simp at h
    · simp only [Except.ok.injEq, Prod.mk.injEq] at h
      obtain ⟨rfl, rfl⟩ := h
      refine ⟨by omega, by omega, ?_⟩
      have hq : q < ceilDiv cap (2 ^ k) := by
        rw [lt_ceilDiv_iff (by positivity)]
        rcases h3 with rfl | h3
        · simpa using hc
        · exact h3
      have hf := fieldValue_lt st.bit j k
      have hm : (q + 1) * 2 ^ k ≤ ceilDiv cap (2 ^ k) * 2 ^ k := Nat.mul_le_mul_right _ hq
      rw [Nat.add_mul] at hm
      omega

/-! ### The offset field -/

theorem offsetLoop_of_holds {st : BitStream} {m p o : Nat} (ho : o < 2 ^ 32) :
    ∀ {c allowed i acc : Nat}, st.holdsCode i (offsetChunks m o (c + 1)) → c < allowed →
      acc = o / 2 ^ (m * (c + 1)) →
      offsetLoop st m p allowed i acc = .ok (o, i + (c + 1) * (m + 1)) := by
  intro c
  induction c with
  | zero =>
    rintro allowed i acc ⟨hh, hl⟩ ha rfl
    obtain ⟨allowed, rfl⟩ : ∃ x, allowed = x + 1 := ⟨allowed - 1, by omega⟩
    rw [length_offsetChunks] at hl
    rw [offsetChunks, List.cons_append, BitStream.holds_cons, BitStream.holds_append] at hh
    obtain ⟨hf, hg, _⟩ := hh
    have hv : fieldValue st.bit (i + 1) m = o % 2 ^ m := by
      rw [fieldValue_of_bits hg]; simp
    have hsum : o / 2 ^ (m * (0 + 1)) * 2 ^ m + o % 2 ^ m = o := by
      rw [Nat.zero_add, Nat.mul_one, Nat.mul_comm, Nat.div_add_mod]
    have hb : st.bit i = false := by simpa using hf
    rw [offsetLoop, if_neg (by omega)]
    simp only [hv, hsum, hb]
    rw [if_neg (by omega)]
    simp; omega
  | succ c ih =>
    rintro allowed i acc ⟨hh, hl⟩ ha rfl
    obtain ⟨allowed, rfl⟩ : ∃ x, allowed = x + 1 := ⟨allowed - 1, by omega⟩
    rw [length_offsetChunks] at hl
    have e1 : (c + 1 + 1) * (m + 1) = (c + 1) * (m + 1) + (m + 1) := by ring
    rw [offsetChunks, List.cons_append, BitStream.holds_cons, BitStream.holds_append] at hh
    obtain ⟨hf, hg, hrest⟩ := hh
    have hv : fieldValue st.bit (i + 1) m = o / 2 ^ (m * (c + 1)) % 2 ^ m := by
      rw [fieldValue_of_bits hg]; simp
    have hsum : o / 2 ^ (m * (c + 1 + 1)) * 2 ^ m + o / 2 ^ (m * (c + 1)) % 2 ^ m = o / 2 ^ (m * (c + 1)) := by
      rw [show m * (c + 1 + 1) = m * (c + 1) + m by ring, Nat.pow_add, ← Nat.div_div_eq_div_mul, Nat.mul_comm,
        Nat.div_add_mod]
    have hle : o / 2 ^ (m * (c + 1)) ≤ o := Nat.div_le_self _ _
    have hb : st.bit i = true := by simpa using hf
    rw [offsetLoop, if_neg (by omega)]
    simp only [hv, hsum, hb]
    rw [if_neg (by omega), if_pos trivial, ih (i := i + 1 + m) ⟨?_, ?_⟩ (by omega) rfl]
    · simp; omega
    · simpa using hrest
    · rw [length_offsetChunks]; omega

/-- The code of an offset is read back exactly (30_encoding.md R63). -/
theorem offsetLoop_of_code {st : BitStream} {m p i o : Nat} (hm : 0 < m) (ho : o < 2 ^ 32)
    (h : st.holdsCode i (offsetCode m o)) :
    offsetLoop st m p (chunksMax m) i 0 = .ok (o, i + (m + 1) * chunkCount m o) := by
  obtain ⟨c, hc⟩ : ∃ c, chunkCount m o = c + 1 := ⟨chunkCount m o - 1, by have := chunkCount_pos m o; omega⟩
  have hlt := lt_two_pow_chunks hm o
  have hmax := chunkCount_le_max hm ho
  rw [offsetCode] at h
  rw [hc] at h hlt hmax ⊢
  rw [offsetLoop_of_holds ho h (by omega) (by rw [Nat.div_eq_of_lt hlt]), Nat.mul_comm]

theorem offsetLoop_bounds {st : BitStream} {m p : Nat} :
    ∀ {allowed i acc o j : Nat}, offsetLoop st m p allowed i acc = .ok (o, j) → i < j ∧ j ≤ st.len ∧ o < 2 ^ 32 := by
  intro allowed
  induction allowed with
  | zero => intro i acc o j h; simp [offsetLoop] at h
  | succ allowed ih =>
    intro i acc o j h
    rw [offsetLoop] at h
    split at h
    · simp at h
    · simp only at h
      split at h
      · simp at h
      · split at h
        · obtain ⟨h1, h2, h3⟩ := ih h
          exact ⟨by omega, h2, h3⟩
        · simp only [Except.ok.injEq, Prod.mk.injEq] at h
          omega

/-! ### The whole operation -/

theorem threshold_pos (r : Remap) (hb : r.en = true → 1 ≤ r.b.toNat) {x : Nat} (hx : 0 < x) : 0 < r.threshold x := by
  unfold Remap.threshold
  split
  · rename_i he
    exact lt_of_lt_of_le hx (ceilDiv_mul_le (hb he))
  · exact hx

theorem unaryRun_code {st : BitStream} {k cap ep : Nat} {e why : Raised} :
    ∀ {left i q0 : Nat}, unaryRun st k cap e ep left i q0 = .error why → why = e ∨ why = ⟨.unterminated, ep⟩ := by
  intro left
  induction left with
  | zero => intro i q0 h; simp [unaryRun] at h; exact .inr h.symm
  | succ left ih =>
    intro i q0 h
    rw [unaryRun] at h
    split at h
    · split at h
      · simp at h; exact .inl h.symm
      · exact ih h
    · simp at h

/-- Every error `GetRice` can raise (42_rice.md R91). -/
theorem getRice_error {st : BitStream} {k p cap : Nat} {code : ErrCode} {ep : Nat} {why : Raised}
    (h : getRice st k p cap code ep = .error why) :
    why = ⟨code, ep⟩ ∨ why = ⟨.unterminated, ep⟩ ∨ why = ⟨.truncated, ep⟩ := by
  unfold getRice at h
  split at h
  · rename_i hu
    simp only [Except.error.injEq] at h
    subst h
    rcases unaryRun_code hu with h | h
    · exact .inl h
    · exact .inr (.inl h)
  · split at h
    · simp at h; exact .inr (.inr h.symm)
    · simp at h

theorem offsetLoop_error {st : BitStream} {m p : Nat} {why : Raised} :
    ∀ {allowed i acc : Nat}, offsetLoop st m p allowed i acc = .error why →
      why = ⟨.invalidOp, p⟩ ∨ why = ⟨.truncated, p⟩ := by
  intro allowed
  induction allowed with
  | zero => intro i acc h; simp [offsetLoop] at h; exact .inl h.symm
  | succ allowed ih =>
    intro i acc h
    rw [offsetLoop] at h
    split at h
    · simp at h; exact .inr h.symm
    · simp only at h
      split at h
      · simp at h; exact .inl h.symm
      · split at h
        · exact ih h
        · simp at h

/-- Every error of `decode_op` names the operation's start, with one of three codes (43_glz_ops.md R101). -/
theorem decodeOp_error {c : Coder} {st : BitStream} {p : Nat} {why : Raised} (h : decodeOp c st p = .error why) :
    why.pos = p ∧ (why.code = .invalidOp ∨ why.code = .unterminated ∨ why.code = .truncated) := by
  unfold decodeOp at h
  split at h
  · rename_i hr
    simp only [Except.error.injEq] at h
    subst h
    rcases getRice_error hr with h | h | h <;> simp [h]
  · simp only at h
    split at h
    · simp at h; simp [← h]
    · split at h
      · simp at h
      · split at h
        · split at h
          · rename_i hr
            simp only [Except.error.injEq] at h
            subst h
            rcases getRice_error hr with h | h | h <;> simp [h]
          · split at h
            · simp at h; simp [← h]
            · simp at h
        · split at h
          · rename_i hr
            simp only [Except.error.injEq] at h
            subst h
            rcases offsetLoop_error hr with h | h <;> simp [h]
          · simp at h

/-- Everything `decode_op` can answer: the position lies past the operation's start and in the stream (43_glz_ops.md R101). -/
theorem decodeOp_bounds {c : Coder} {st : BitStream} {p q : Nat} {op : Op}
    (hb : c.remap.en = true → 1 ≤ c.remap.b.toNat) (h : decodeOp c st p = .ok (op, q)) : p < q ∧ q ≤ st.len := by
  have hc : ∀ x, 0 < x → 0 < c.remap.threshold x := fun x hx => threshold_pos c.remap hb hx
  unfold decodeOp at h
  split at h
  · simp at h
  · rename_i n i hr
    obtain ⟨h1, h2, -⟩ := getRice_bounds (hc _ (by unfold headSpace; positivity)) hr
    simp only at h
    split at h
    · simp at h
    · split at h
      · simp at h; omega
      · split at h
        · split at h
          · simp at h
          · rename_i n' j hr'
            obtain ⟨h3, h4, -⟩ := getRice_bounds (hc _ (by omega)) hr'
            split at h
            · simp at h
            · simp at h; omega
        · split at h
          · simp at h
          · rename_i o j hr'
            obtain ⟨h3, h4, -⟩ := offsetLoop_bounds hr'
            simp at h; omega

/-! ### Command words -/

/-- A row of the opcode map that lookup finds. -/
theorem lookupOpcode_mem {op : BitVec 8} {i : Instr} :
    ∀ {rows : List (BitVec 8 × Instr)}, lookupOpcode op rows = some i → (op, i) ∈ rows := by
  intro rows
  induction rows with
  | nil => intro h; simp [lookupOpcode] at h
  | cons row rows ih =>
    intro h
    rw [lookupOpcode] at h
    split at h
    · rename_i hr
      simp at h
      simp [← hr, ← h]
    · exact List.mem_cons_of_mem _ (ih h)

/-- Everything `decodeCommand` can answer: a row of the opcode map under a word whose RSVD is 0 (30_encoding.md R55). -/
theorem decodeCommand_ok {w : Word} {i : Instr} (h : decodeCommand w = .ok i) :
    w.extractLsb' 8 24 = 0 ∧ (w.extractLsb' 0 8, i) ∈ opcodeTable := by
  unfold decodeCommand at h
  split at h
  · simp at h
  · rename_i hr
    refine ⟨by simpa using hr, ?_⟩
    split at h
    · rename_i j hj
      simp at h
      subst h
      exact lookupOpcode_mem hj
    · simp at h

end Sys2Proof
end

