-- ==== Sys2Proof/Laws/Memory.lean ====
section
/-! SUPPORT. Laws of the memories: read after write, what a range operation leaves alone, and that every operation keeps the canonical form. -/

namespace Sys2Proof.Machine

variable {w : Nat}

@[simp] theorem Memory.read_nil (a : Nat) : Memory.read ([] : Memory w) a = 0#w := rfl

theorem Memory.read_filter_same (m : Memory w) (a : Nat) :
    Memory.read (m.filter fun c => c.1 != a) a = 0#w := by
  induction m with
  | nil => rfl
  | cons c m ih =>
    obtain ⟨b, v⟩ := c
    by_cases h : b = a
    · simpa [List.filter_cons, h] using ih
    · simpa [List.filter_cons, h, Memory.read] using ih

theorem Memory.read_filter_other (m : Memory w) {a b : Nat} (h : b ≠ a) :
    Memory.read (m.filter fun c => c.1 != a) b = m.read b := by
  induction m with
  | nil => rfl
  | cons c m ih =>
    obtain ⟨x, v⟩ := c
    by_cases hx : x = a
    · subst hx
      have hxb : x ≠ b := fun e => h e.symm
      simpa [List.filter_cons, Memory.read, hxb] using ih
    · by_cases hb : x = b
      · simp [Memory.read, hb, h]
      · simpa [List.filter_cons, hx, Memory.read, hb] using ih

theorem Memory.read_insert_other (a : Nat) (v : BitVec w) (m : Memory w) {b : Nat} (h : b ≠ a) :
    (Memory.insert a v m).read b = m.read b := by
  induction m with
  | nil => simp [Memory.insert, Memory.read, Ne.symm h]
  | cons c m ih =>
    obtain ⟨x, u⟩ := c
    unfold Memory.insert
    split
    · simp [Memory.read, Ne.symm h]
    · by_cases hx : x = b
      · simp [Memory.read, hx]
      · simpa [Memory.read, hx] using ih

theorem Memory.read_insert_same (a : Nat) (v : BitVec w) (m : Memory w) (h : ∀ c ∈ m, c.1 ≠ a) :
    (Memory.insert a v m).read a = v := by
  induction m with
  | nil => simp [Memory.insert, Memory.read]
  | cons c m ih =>
    obtain ⟨x, u⟩ := c
    have hx : x ≠ a := h (x, u) (by simp)
    unfold Memory.insert
    split
    · simp [Memory.read]
    · simpa [Memory.read, hx] using ih fun c hc => h c (by simp [hc])

/-- Read after write at the same address. -/
@[simp] theorem Memory.read_write_same (m : Memory w) (a : Nat) (v : BitVec w) : (m.write a v).read a = v := by
  unfold Memory.write
  split
  · rename_i h
    rw [Memory.read_filter_same, h]; rfl
  · exact Memory.read_insert_same a v _ fun c hc => by simpa using (List.mem_filter.1 hc).2

/-- A write leaves every other address alone. -/
theorem Memory.read_write_other (m : Memory w) (v : BitVec w) {a b : Nat} (h : b ≠ a) :
    (m.write a v).read b = m.read b := by
  unfold Memory.write
  split
  · exact Memory.read_filter_other m h
  · rw [Memory.read_insert_other a v _ h, Memory.read_filter_other m h]

theorem Memory.read_write (m : Memory w) (a b : Nat) (v : BitVec w) :
    (m.write a v).read b = if b = a then v else m.read b := by
  split
  · subst b; simp
  · exact Memory.read_write_other m v ‹_›

/-- What a list of words written from a on reads as. -/
theorem Memory.read_writeList (m : Memory w) (a : Nat) (vs : List (BitVec w)) (b : Nat) :
    (m.writeList a vs).read b = if h : a ≤ b ∧ b - a < vs.length then vs[b - a]'h.2 else m.read b := by
  induction vs generalizing m a with
  | nil => simp [Memory.writeList]
  | cons v vs ih =>
    rw [Memory.writeList, ih, Memory.read_write]
    by_cases h1 : b = a
    · subst h1
      rw [dif_neg (by omega), if_pos rfl, dif_pos ⟨le_refl _, by simp⟩]
      simp
    · by_cases h2 : a + 1 ≤ b ∧ b - (a + 1) < vs.length
      · have h3 : a ≤ b ∧ b - a < (v :: vs).length := ⟨by omega, by simp only [List.length_cons]; omega⟩
        rw [dif_pos h2, dif_pos h3]
        obtain ⟨k, rfl⟩ : ∃ k, b = a + 1 + k := ⟨b - (a + 1), by omega⟩
        simp [show a + 1 + k - a = k + 1 by omega]
      · rw [dif_neg h2, if_neg h1, dif_neg (by simp only [List.length_cons]; omega)]

/-- A scrambled range leaves every address outside it alone. -/
theorem Memory.read_scramble_outside (lo hi : Nat) (js : List (Nat × BitVec w)) (m : Memory w) {b : Nat}
    (h : b < lo ∨ hi ≤ b) : (Memory.scramble lo hi js m).read b = m.read b := by
  induction js generalizing m with
  | nil => rfl
  | cons j js ih =>
    obtain ⟨a, v⟩ := j
    rw [Memory.scramble, ih]
    split
    · exact Memory.read_write_other m v (by omega)
    · rfl

/-! ### The canonical form -/

theorem Memory.wf_iff (cap : Nat) (m : Memory w) :
    m.wf cap = true ↔ m.Pairwise (fun c d => c.1 < d.1) ∧ ∀ c ∈ m, c.1 < cap ∧ c.2 ≠ 0#w := by
  simp [Memory.wf, Memory.unlisted]

theorem Memory.wf_nil (cap : Nat) : Memory.wf cap ([] : Memory w) = true := by simp [Memory.wf]

theorem Memory.mem_insert (a : Nat) (v : BitVec w) (m : Memory w) (c : Nat × BitVec w) :
    c ∈ Memory.insert a v m ↔ c = (a, v) ∨ c ∈ m := by
  induction m with
  | nil => simp [Memory.insert]
  | cons d m ih =>
    unfold Memory.insert
    split
    · simp
    · simp only [List.mem_cons, ih]; tauto

theorem Memory.pairwise_insert (a : Nat) (v : BitVec w) (m : Memory w)
    (hm : m.Pairwise fun c d => c.1 < d.1) (h : ∀ c ∈ m, c.1 ≠ a) :
    (Memory.insert a v m).Pairwise fun c d => c.1 < d.1 := by
  induction m with
  | nil => simp [Memory.insert]
  | cons d m ih =>
    obtain ⟨x, u⟩ := d
    rw [List.pairwise_cons] at hm
    unfold Memory.insert
    split
    · rename_i hax
      refine List.pairwise_cons.2 ⟨fun c hc => ?_, List.pairwise_cons.2 hm⟩
      rcases List.mem_cons.1 hc with rfl | hc
      · exact hax
      · exact lt_trans hax (hm.1 c hc)
    · rename_i hax
      have hx : x ≠ a := h (x, u) (by simp)
      refine List.pairwise_cons.2 ⟨fun c hc => ?_, ih hm.2 fun c hc => h c (by simp [hc])⟩
      rcases (Memory.mem_insert a v m c).1 hc with rfl | hc
      · simp only at hax ⊢; omega
      · exact hm.1 c hc

/-- A write inside the memory keeps the canonical form. -/
theorem Memory.wf_write {cap : Nat} {m : Memory w} (hm : m.wf cap = true) {a : Nat} (ha : a < cap) (v : BitVec w) :
    (m.write a v).wf cap = true := by
  rw [Memory.wf_iff] at hm ⊢
  have hf : (m.filter fun c => c.1 != a).Pairwise fun c d => c.1 < d.1 := hm.1.filter _
  unfold Memory.write
  split
  · exact ⟨hf, fun c hc => hm.2 c (List.mem_filter.1 hc).1⟩
  · rename_i hv
    refine ⟨Memory.pairwise_insert a v _ hf fun c hc => by simpa using (List.mem_filter.1 hc).2, fun c hc => ?_⟩
    rcases (Memory.mem_insert a v _ c).1 hc with rfl | hc
    · exact ⟨ha, hv⟩
    · exact hm.2 c (List.mem_filter.1 hc).1

theorem Memory.wf_writeList {cap : Nat} {m : Memory w} (hm : m.wf cap = true) (a : Nat) (vs : List (BitVec w))
    (h : a + vs.length ≤ cap) : (m.writeList a vs).wf cap = true := by
  induction vs generalizing m a with
  | nil => exact hm
  | cons v vs ih =>
    simp only [List.length_cons] at h
    exact ih (Memory.wf_write hm (by omega) v) (a + 1) (by omega)

theorem Memory.wf_scramble {cap : Nat} {m : Memory w} (hm : m.wf cap = true) (lo hi : Nat) (h : hi ≤ cap)
    (js : List (Nat × BitVec w)) : (Memory.scramble lo hi js m).wf cap = true := by
  induction js generalizing m with
  | nil => exact hm
  | cons j js ih =>
    obtain ⟨a, v⟩ := j
    refine ih ?_
    split
    · exact Memory.wf_write hm (by omega) v
    · exact hm

/-- A canonical memory reads 0 outside its capacity. -/
theorem Memory.read_outside {cap : Nat} {m : Memory w} (hm : m.wf cap = true) {a : Nat} (ha : cap ≤ a) :
    m.read a = 0#w := by
  rw [Memory.wf_iff] at hm
  induction m with
  | nil => rfl
  | cons c m ih =>
    obtain ⟨b, v⟩ := c
    have hb : b < cap := (hm.2 (b, v) (by simp)).1
    rw [Memory.read, if_neg (by omega)]
    exact ih ⟨(List.pairwise_cons.1 hm.1).2, fun c hc => hm.2 c (by simp [hc])⟩

theorem Memory.read_of_lt_head {m : Memory w} {a : Nat} (h : ∀ c ∈ m, a < c.1) : m.read a = 0#w := by
  induction m with
  | nil => rfl
  | cons c m ih =>
    obtain ⟨b, v⟩ := c
    have hb : a < b := h (b, v) (by simp)
    rw [Memory.read, if_neg (by omega)]
    exact ih fun c hc => h c (by simp [hc])

/-- Canonical memories with equal contents are equal data. -/
theorem Memory.ext_of_read {cap : Nat} {m n : Memory w} (hm : m.wf cap = true) (hn : n.wf cap = true)
    (h : ∀ a, m.read a = n.read a) : m = n := by
  rw [Memory.wf_iff] at hm hn
  induction m generalizing n with
  | nil =>
    cases n with
    | nil => rfl
    | cons c n =>
      obtain ⟨b, v⟩ := c
      exact absurd ((h b).symm.trans rfl) (by simpa [Memory.read, Memory.unlisted] using (hn.2 (b, v) (by simp)).2)
  | cons c m ih =>
    obtain ⟨b, v⟩ := c
    cases n with
    | nil => exact absurd (h b) (by simpa [Memory.read, Memory.unlisted] using (hm.2 (b, v) (by simp)).2)
    | cons d n =>
      obtain ⟨x, u⟩ := d
      obtain ⟨hm1, hm2⟩ := List.pairwise_cons.1 hm.1
      obtain ⟨hn1, hn2⟩ := List.pairwise_cons.1 hn.1
      have hv := (hm.2 (b, v) (by simp)).2
      have hu := (hn.2 (x, u) (by simp)).2
      have hbx : b = x := by
        rcases lt_trichotomy b x with hlt | heq | hgt
        · have : Memory.read ((x, u) :: n) b = 0#w := Memory.read_of_lt_head fun c hc => by
            rcases List.mem_cons.1 hc with rfl | hc
            · exact hlt
            · exact lt_trans hlt (hn1 c hc)
          exact absurd ((h b).trans this) (by simpa [Memory.read] using hv)
        · exact heq
        · have : Memory.read ((b, v) :: m) x = 0#w := Memory.read_of_lt_head fun c hc => by
            rcases List.mem_cons.1 hc with rfl | hc
            · exact hgt
            · exact lt_trans hgt (hm1 c hc)
          exact absurd ((h x).symm.trans this) (by simpa [Memory.read] using hu)
      subst hbx
      have hvu : v = u := by simpa [Memory.read] using h b
      subst hvu
      rw [ih ⟨hm2, fun c hc => hm.2 c (by simp [hc])⟩ ⟨hn2, fun c hc => hn.2 c (by simp [hc])⟩ fun a => ?_]
      by_cases ha : b = a
      · subst ha
        rw [Memory.read_of_lt_head hm1, Memory.read_of_lt_head hn1]
      · simpa [Memory.read, ha] using h a

@[simp] theorem Memory.length_readList (m : Memory w) (a n : Nat) : (m.readList a n).length = n := by
  simp [Memory.readList]

theorem Memory.getElem_readList (m : Memory w) (a n i : Nat) (h : i < (m.readList a n).length) :
    (m.readList a n)[i] = m.read (a + i) := by simp [Memory.readList]

end Sys2Proof.Machine
end

