-- ==== Sys2Proof/Laws/State.lean ====
section
/-! SUPPORT. Laws of the state: for each update and each field, what the field holds afterwards. -/

namespace Sys2Proof.Machine

/-! ### start -/

@[simp] theorem State.start_cap (s : State) : (s.start).cap = s.cap := rfl
@[simp] theorem State.start_report (s : State) : (s.start).report = Report.started := rfl
@[simp] theorem State.start_cfg (s : State) : (s.start).cfg = s.cfg := rfl
@[simp] theorem State.start_remap (s : State) : (s.start).remap = s.remap := rfl
@[simp] theorem State.start_hist (s : State) : (s.start).hist = s.hist := rfl
@[simp] theorem State.start_streamLen (s : State) : (s.start).streamLen = s.streamLen := rfl
@[simp] theorem State.start_args (s : State) : (s.start).args = s.args := rfl
@[simp] theorem State.start_res (s : State) : (s.start).res = s.res := rfl
@[simp] theorem State.start_cycles (s : State) : (s.start).cycles = s.cycles := rfl
@[simp] theorem State.start_pushes (s : State) : (s.start).pushes = s.pushes := rfl
@[simp] theorem State.start_bitmem (s : State) : (s.start).bitmem = s.bitmem := rfl
@[simp] theorem State.start_bytemem (s : State) : (s.start).bytemem = s.bytemem := rfl
@[simp] theorem State.start_wordmem (s : State) : (s.start).wordmem = s.wordmem := rfl
@[simp] theorem State.start_dec (s : State) : (s.start).dec = s.dec := rfl
@[simp] theorem State.start_enc (s : State) : (s.start).enc = s.enc := rfl
@[simp] theorem State.start_inputs (s : State) : (s.start).inputs = s.inputs := rfl
@[simp] theorem State.start_portData (s : State) : (s.start).portData = s.portData := rfl
@[simp] theorem State.start_free (s : State) : (s.start).free = s.free := rfl

/-! ### finish -/

@[simp] theorem State.finish_cap (s : State) : (s.finish).cap = s.cap := rfl
@[simp] theorem State.finish_report (s : State) : (s.finish).report = s.report.finished := rfl
@[simp] theorem State.finish_cfg (s : State) : (s.finish).cfg = s.cfg := rfl
@[simp] theorem State.finish_remap (s : State) : (s.finish).remap = s.remap := rfl
@[simp] theorem State.finish_hist (s : State) : (s.finish).hist = s.hist := rfl
@[simp] theorem State.finish_streamLen (s : State) : (s.finish).streamLen = s.streamLen := rfl
@[simp] theorem State.finish_args (s : State) : (s.finish).args = s.args := rfl
@[simp] theorem State.finish_res (s : State) : (s.finish).res = s.res := rfl
@[simp] theorem State.finish_cycles (s : State) : (s.finish).cycles = s.cycles := rfl
@[simp] theorem State.finish_pushes (s : State) : (s.finish).pushes = s.pushes := rfl
@[simp] theorem State.finish_bitmem (s : State) : (s.finish).bitmem = s.bitmem := rfl
@[simp] theorem State.finish_bytemem (s : State) : (s.finish).bytemem = s.bytemem := rfl
@[simp] theorem State.finish_wordmem (s : State) : (s.finish).wordmem = s.wordmem := rfl
@[simp] theorem State.finish_dec (s : State) : (s.finish).dec = s.dec := rfl
@[simp] theorem State.finish_enc (s : State) : (s.finish).enc = s.enc := rfl
@[simp] theorem State.finish_inputs (s : State) : (s.finish).inputs = s.inputs := rfl
@[simp] theorem State.finish_portData (s : State) : (s.finish).portData = s.portData := rfl
@[simp] theorem State.finish_free (s : State) : (s.finish).free = s.free := rfl

/-! ### raise -/

@[simp] theorem State.raise_cap (s : State) (code : ErrCode) (pos : Nat) : (s.raise code pos).cap = s.cap := rfl
@[simp] theorem State.raise_report (s : State) (code : ErrCode) (pos : Nat) : (s.raise code pos).report = Report.failed code pos := rfl
@[simp] theorem State.raise_cfg (s : State) (code : ErrCode) (pos : Nat) : (s.raise code pos).cfg = s.cfg := rfl
@[simp] theorem State.raise_remap (s : State) (code : ErrCode) (pos : Nat) : (s.raise code pos).remap = s.remap := rfl
@[simp] theorem State.raise_hist (s : State) (code : ErrCode) (pos : Nat) : (s.raise code pos).hist = s.hist := rfl
@[simp] theorem State.raise_streamLen (s : State) (code : ErrCode) (pos : Nat) : (s.raise code pos).streamLen = s.streamLen := rfl
@[simp] theorem State.raise_args (s : State) (code : ErrCode) (pos : Nat) : (s.raise code pos).args = s.args := rfl
@[simp] theorem State.raise_res (s : State) (code : ErrCode) (pos : Nat) : (s.raise code pos).res = Results.unspecified s.free := rfl
@[simp] theorem State.raise_cycles (s : State) (code : ErrCode) (pos : Nat) : (s.raise code pos).cycles = s.cycles := rfl
@[simp] theorem State.raise_pushes (s : State) (code : ErrCode) (pos : Nat) : (s.raise code pos).pushes = s.pushes := rfl
@[simp] theorem State.raise_bitmem (s : State) (code : ErrCode) (pos : Nat) : (s.raise code pos).bitmem = s.bitmem := rfl
@[simp] theorem State.raise_bytemem (s : State) (code : ErrCode) (pos : Nat) : (s.raise code pos).bytemem = s.bytemem := rfl
@[simp] theorem State.raise_wordmem (s : State) (code : ErrCode) (pos : Nat) : (s.raise code pos).wordmem = s.wordmem := rfl
@[simp] theorem State.raise_dec (s : State) (code : ErrCode) (pos : Nat) : (s.raise code pos).dec = s.dec := rfl
@[simp] theorem State.raise_enc (s : State) (code : ErrCode) (pos : Nat) : (s.raise code pos).enc = s.enc := rfl
@[simp] theorem State.raise_inputs (s : State) (code : ErrCode) (pos : Nat) : (s.raise code pos).inputs = s.inputs := rfl
@[simp] theorem State.raise_portData (s : State) (code : ErrCode) (pos : Nat) : (s.raise code pos).portData = s.portData := rfl
@[simp] theorem State.raise_free (s : State) (code : ErrCode) (pos : Nat) : (s.raise code pos).free = s.free + 1 := rfl

/-! ### setRes0 -/

@[simp] theorem State.setRes0_cap (s : State) (v : Nat) : (s.setRes0 v).cap = s.cap := rfl
@[simp] theorem State.setRes0_report (s : State) (v : Nat) : (s.setRes0 v).report = s.report := rfl
@[simp] theorem State.setRes0_cfg (s : State) (v : Nat) : (s.setRes0 v).cfg = s.cfg := rfl
@[simp] theorem State.setRes0_remap (s : State) (v : Nat) : (s.setRes0 v).remap = s.remap := rfl
@[simp] theorem State.setRes0_hist (s : State) (v : Nat) : (s.setRes0 v).hist = s.hist := rfl
@[simp] theorem State.setRes0_streamLen (s : State) (v : Nat) : (s.setRes0 v).streamLen = s.streamLen := rfl
@[simp] theorem State.setRes0_args (s : State) (v : Nat) : (s.setRes0 v).args = s.args := rfl
@[simp] theorem State.setRes0_res (s : State) (v : Nat) : (s.setRes0 v).res = { s.res with r0 := BitVec.ofNat 32 v } := rfl
@[simp] theorem State.setRes0_cycles (s : State) (v : Nat) : (s.setRes0 v).cycles = s.cycles := rfl
@[simp] theorem State.setRes0_pushes (s : State) (v : Nat) : (s.setRes0 v).pushes = s.pushes := rfl
@[simp] theorem State.setRes0_bitmem (s : State) (v : Nat) : (s.setRes0 v).bitmem = s.bitmem := rfl
@[simp] theorem State.setRes0_bytemem (s : State) (v : Nat) : (s.setRes0 v).bytemem = s.bytemem := rfl
@[simp] theorem State.setRes0_wordmem (s : State) (v : Nat) : (s.setRes0 v).wordmem = s.wordmem := rfl
@[simp] theorem State.setRes0_dec (s : State) (v : Nat) : (s.setRes0 v).dec = s.dec := rfl
@[simp] theorem State.setRes0_enc (s : State) (v : Nat) : (s.setRes0 v).enc = s.enc := rfl
@[simp] theorem State.setRes0_inputs (s : State) (v : Nat) : (s.setRes0 v).inputs = s.inputs := rfl
@[simp] theorem State.setRes0_portData (s : State) (v : Nat) : (s.setRes0 v).portData = s.portData := rfl
@[simp] theorem State.setRes0_free (s : State) (v : Nat) : (s.setRes0 v).free = s.free := rfl

/-! ### setRes1 -/

@[simp] theorem State.setRes1_cap (s : State) (v : Nat) : (s.setRes1 v).cap = s.cap := rfl
@[simp] theorem State.setRes1_report (s : State) (v : Nat) : (s.setRes1 v).report = s.report := rfl
@[simp] theorem State.setRes1_cfg (s : State) (v : Nat) : (s.setRes1 v).cfg = s.cfg := rfl
@[simp] theorem State.setRes1_remap (s : State) (v : Nat) : (s.setRes1 v).remap = s.remap := rfl
@[simp] theorem State.setRes1_hist (s : State) (v : Nat) : (s.setRes1 v).hist = s.hist := rfl
@[simp] theorem State.setRes1_streamLen (s : State) (v : Nat) : (s.setRes1 v).streamLen = s.streamLen := rfl
@[simp] theorem State.setRes1_args (s : State) (v : Nat) : (s.setRes1 v).args = s.args := rfl
@[simp] theorem State.setRes1_res (s : State) (v : Nat) : (s.setRes1 v).res = { s.res with r1 := BitVec.ofNat 32 v } := rfl
@[simp] theorem State.setRes1_cycles (s : State) (v : Nat) : (s.setRes1 v).cycles = s.cycles := rfl
@[simp] theorem State.setRes1_pushes (s : State) (v : Nat) : (s.setRes1 v).pushes = s.pushes := rfl
@[simp] theorem State.setRes1_bitmem (s : State) (v : Nat) : (s.setRes1 v).bitmem = s.bitmem := rfl
@[simp] theorem State.setRes1_bytemem (s : State) (v : Nat) : (s.setRes1 v).bytemem = s.bytemem := rfl
@[simp] theorem State.setRes1_wordmem (s : State) (v : Nat) : (s.setRes1 v).wordmem = s.wordmem := rfl
@[simp] theorem State.setRes1_dec (s : State) (v : Nat) : (s.setRes1 v).dec = s.dec := rfl
@[simp] theorem State.setRes1_enc (s : State) (v : Nat) : (s.setRes1 v).enc = s.enc := rfl
@[simp] theorem State.setRes1_inputs (s : State) (v : Nat) : (s.setRes1 v).inputs = s.inputs := rfl
@[simp] theorem State.setRes1_portData (s : State) (v : Nat) : (s.setRes1 v).portData = s.portData := rfl
@[simp] theorem State.setRes1_free (s : State) (v : Nat) : (s.setRes1 v).free = s.free := rfl

/-! ### setRes2 -/

@[simp] theorem State.setRes2_cap (s : State) (v : Nat) : (s.setRes2 v).cap = s.cap := rfl
@[simp] theorem State.setRes2_report (s : State) (v : Nat) : (s.setRes2 v).report = s.report := rfl
@[simp] theorem State.setRes2_cfg (s : State) (v : Nat) : (s.setRes2 v).cfg = s.cfg := rfl
@[simp] theorem State.setRes2_remap (s : State) (v : Nat) : (s.setRes2 v).remap = s.remap := rfl
@[simp] theorem State.setRes2_hist (s : State) (v : Nat) : (s.setRes2 v).hist = s.hist := rfl
@[simp] theorem State.setRes2_streamLen (s : State) (v : Nat) : (s.setRes2 v).streamLen = s.streamLen := rfl
@[simp] theorem State.setRes2_args (s : State) (v : Nat) : (s.setRes2 v).args = s.args := rfl
@[simp] theorem State.setRes2_res (s : State) (v : Nat) : (s.setRes2 v).res = { s.res with r2 := BitVec.ofNat 32 v } := rfl
@[simp] theorem State.setRes2_cycles (s : State) (v : Nat) : (s.setRes2 v).cycles = s.cycles := rfl
@[simp] theorem State.setRes2_pushes (s : State) (v : Nat) : (s.setRes2 v).pushes = s.pushes := rfl
@[simp] theorem State.setRes2_bitmem (s : State) (v : Nat) : (s.setRes2 v).bitmem = s.bitmem := rfl
@[simp] theorem State.setRes2_bytemem (s : State) (v : Nat) : (s.setRes2 v).bytemem = s.bytemem := rfl
@[simp] theorem State.setRes2_wordmem (s : State) (v : Nat) : (s.setRes2 v).wordmem = s.wordmem := rfl
@[simp] theorem State.setRes2_dec (s : State) (v : Nat) : (s.setRes2 v).dec = s.dec := rfl
@[simp] theorem State.setRes2_enc (s : State) (v : Nat) : (s.setRes2 v).enc = s.enc := rfl
@[simp] theorem State.setRes2_inputs (s : State) (v : Nat) : (s.setRes2 v).inputs = s.inputs := rfl
@[simp] theorem State.setRes2_portData (s : State) (v : Nat) : (s.setRes2 v).portData = s.portData := rfl
@[simp] theorem State.setRes2_free (s : State) (v : Nat) : (s.setRes2 v).free = s.free := rfl

/-! ### setRes3 -/

@[simp] theorem State.setRes3_cap (s : State) (v : Nat) : (s.setRes3 v).cap = s.cap := rfl
@[simp] theorem State.setRes3_report (s : State) (v : Nat) : (s.setRes3 v).report = s.report := rfl
@[simp] theorem State.setRes3_cfg (s : State) (v : Nat) : (s.setRes3 v).cfg = s.cfg := rfl
@[simp] theorem State.setRes3_remap (s : State) (v : Nat) : (s.setRes3 v).remap = s.remap := rfl
@[simp] theorem State.setRes3_hist (s : State) (v : Nat) : (s.setRes3 v).hist = s.hist := rfl
@[simp] theorem State.setRes3_streamLen (s : State) (v : Nat) : (s.setRes3 v).streamLen = s.streamLen := rfl
@[simp] theorem State.setRes3_args (s : State) (v : Nat) : (s.setRes3 v).args = s.args := rfl
@[simp] theorem State.setRes3_res (s : State) (v : Nat) : (s.setRes3 v).res = { s.res with r3 := BitVec.ofNat 32 v } := rfl
@[simp] theorem State.setRes3_cycles (s : State) (v : Nat) : (s.setRes3 v).cycles = s.cycles := rfl
@[simp] theorem State.setRes3_pushes (s : State) (v : Nat) : (s.setRes3 v).pushes = s.pushes := rfl
@[simp] theorem State.setRes3_bitmem (s : State) (v : Nat) : (s.setRes3 v).bitmem = s.bitmem := rfl
@[simp] theorem State.setRes3_bytemem (s : State) (v : Nat) : (s.setRes3 v).bytemem = s.bytemem := rfl
@[simp] theorem State.setRes3_wordmem (s : State) (v : Nat) : (s.setRes3 v).wordmem = s.wordmem := rfl
@[simp] theorem State.setRes3_dec (s : State) (v : Nat) : (s.setRes3 v).dec = s.dec := rfl
@[simp] theorem State.setRes3_enc (s : State) (v : Nat) : (s.setRes3 v).enc = s.enc := rfl
@[simp] theorem State.setRes3_inputs (s : State) (v : Nat) : (s.setRes3 v).inputs = s.inputs := rfl
@[simp] theorem State.setRes3_portData (s : State) (v : Nat) : (s.setRes3 v).portData = s.portData := rfl
@[simp] theorem State.setRes3_free (s : State) (v : Nat) : (s.setRes3 v).free = s.free := rfl

/-! ### looseBits -/

@[simp] theorem State.looseBits_cap (s : State) (lo hi : Nat) : (s.looseBits lo hi).cap = s.cap := rfl
@[simp] theorem State.looseBits_report (s : State) (lo hi : Nat) : (s.looseBits lo hi).report = s.report := rfl
@[simp] theorem State.looseBits_cfg (s : State) (lo hi : Nat) : (s.looseBits lo hi).cfg = s.cfg := rfl
@[simp] theorem State.looseBits_remap (s : State) (lo hi : Nat) : (s.looseBits lo hi).remap = s.remap := rfl
@[simp] theorem State.looseBits_hist (s : State) (lo hi : Nat) : (s.looseBits lo hi).hist = s.hist := rfl
@[simp] theorem State.looseBits_streamLen (s : State) (lo hi : Nat) : (s.looseBits lo hi).streamLen = s.streamLen := rfl
@[simp] theorem State.looseBits_args (s : State) (lo hi : Nat) : (s.looseBits lo hi).args = s.args := rfl
@[simp] theorem State.looseBits_res (s : State) (lo hi : Nat) : (s.looseBits lo hi).res = s.res := rfl
@[simp] theorem State.looseBits_cycles (s : State) (lo hi : Nat) : (s.looseBits lo hi).cycles = s.cycles := rfl
@[simp] theorem State.looseBits_pushes (s : State) (lo hi : Nat) : (s.looseBits lo hi).pushes = s.pushes := rfl
@[simp] theorem State.looseBits_bitmem (s : State) (lo hi : Nat) : (s.looseBits lo hi).bitmem = s.bitmem.scramble lo (min hi s.cap.bitmemBits.toNat) (Config.freeBits s.free) := rfl
@[simp] theorem State.looseBits_bytemem (s : State) (lo hi : Nat) : (s.looseBits lo hi).bytemem = s.bytemem := rfl
@[simp] theorem State.looseBits_wordmem (s : State) (lo hi : Nat) : (s.looseBits lo hi).wordmem = s.wordmem := rfl
@[simp] theorem State.looseBits_dec (s : State) (lo hi : Nat) : (s.looseBits lo hi).dec = s.dec := rfl
@[simp] theorem State.looseBits_enc (s : State) (lo hi : Nat) : (s.looseBits lo hi).enc = s.enc := rfl
@[simp] theorem State.looseBits_inputs (s : State) (lo hi : Nat) : (s.looseBits lo hi).inputs = s.inputs := rfl
@[simp] theorem State.looseBits_portData (s : State) (lo hi : Nat) : (s.looseBits lo hi).portData = s.portData := rfl
@[simp] theorem State.looseBits_free (s : State) (lo hi : Nat) : (s.looseBits lo hi).free = s.free := rfl

/-! ### looseBytes -/

@[simp] theorem State.looseBytes_cap (s : State) (lo hi : Nat) : (s.looseBytes lo hi).cap = s.cap := rfl
@[simp] theorem State.looseBytes_report (s : State) (lo hi : Nat) : (s.looseBytes lo hi).report = s.report := rfl
@[simp] theorem State.looseBytes_cfg (s : State) (lo hi : Nat) : (s.looseBytes lo hi).cfg = s.cfg := rfl
@[simp] theorem State.looseBytes_remap (s : State) (lo hi : Nat) : (s.looseBytes lo hi).remap = s.remap := rfl
@[simp] theorem State.looseBytes_hist (s : State) (lo hi : Nat) : (s.looseBytes lo hi).hist = s.hist := rfl
@[simp] theorem State.looseBytes_streamLen (s : State) (lo hi : Nat) : (s.looseBytes lo hi).streamLen = s.streamLen := rfl
@[simp] theorem State.looseBytes_args (s : State) (lo hi : Nat) : (s.looseBytes lo hi).args = s.args := rfl
@[simp] theorem State.looseBytes_res (s : State) (lo hi : Nat) : (s.looseBytes lo hi).res = s.res := rfl
@[simp] theorem State.looseBytes_cycles (s : State) (lo hi : Nat) : (s.looseBytes lo hi).cycles = s.cycles := rfl
@[simp] theorem State.looseBytes_pushes (s : State) (lo hi : Nat) : (s.looseBytes lo hi).pushes = s.pushes := rfl
@[simp] theorem State.looseBytes_bitmem (s : State) (lo hi : Nat) : (s.looseBytes lo hi).bitmem = s.bitmem := rfl
@[simp] theorem State.looseBytes_bytemem (s : State) (lo hi : Nat) : (s.looseBytes lo hi).bytemem = s.bytemem.scramble lo (min hi s.cap.bytememBytes.toNat) (Config.freeBytes s.free) := rfl
@[simp] theorem State.looseBytes_wordmem (s : State) (lo hi : Nat) : (s.looseBytes lo hi).wordmem = s.wordmem := rfl
@[simp] theorem State.looseBytes_dec (s : State) (lo hi : Nat) : (s.looseBytes lo hi).dec = s.dec := rfl
@[simp] theorem State.looseBytes_enc (s : State) (lo hi : Nat) : (s.looseBytes lo hi).enc = s.enc := rfl
@[simp] theorem State.looseBytes_inputs (s : State) (lo hi : Nat) : (s.looseBytes lo hi).inputs = s.inputs := rfl
@[simp] theorem State.looseBytes_portData (s : State) (lo hi : Nat) : (s.looseBytes lo hi).portData = s.portData := rfl
@[simp] theorem State.looseBytes_free (s : State) (lo hi : Nat) : (s.looseBytes lo hi).free = s.free := rfl

/-! ### looseWords -/

@[simp] theorem State.looseWords_cap (s : State) (lo hi : Nat) : (s.looseWords lo hi).cap = s.cap := rfl
@[simp] theorem State.looseWords_report (s : State) (lo hi : Nat) : (s.looseWords lo hi).report = s.report := rfl
@[simp] theorem State.looseWords_cfg (s : State) (lo hi : Nat) : (s.looseWords lo hi).cfg = s.cfg := rfl
@[simp] theorem State.looseWords_remap (s : State) (lo hi : Nat) : (s.looseWords lo hi).remap = s.remap := rfl
@[simp] theorem State.looseWords_hist (s : State) (lo hi : Nat) : (s.looseWords lo hi).hist = s.hist := rfl
@[simp] theorem State.looseWords_streamLen (s : State) (lo hi : Nat) : (s.looseWords lo hi).streamLen = s.streamLen := rfl
@[simp] theorem State.looseWords_args (s : State) (lo hi : Nat) : (s.looseWords lo hi).args = s.args := rfl
@[simp] theorem State.looseWords_res (s : State) (lo hi : Nat) : (s.looseWords lo hi).res = s.res := rfl
@[simp] theorem State.looseWords_cycles (s : State) (lo hi : Nat) : (s.looseWords lo hi).cycles = s.cycles := rfl
@[simp] theorem State.looseWords_pushes (s : State) (lo hi : Nat) : (s.looseWords lo hi).pushes = s.pushes := rfl
@[simp] theorem State.looseWords_bitmem (s : State) (lo hi : Nat) : (s.looseWords lo hi).bitmem = s.bitmem := rfl
@[simp] theorem State.looseWords_bytemem (s : State) (lo hi : Nat) : (s.looseWords lo hi).bytemem = s.bytemem := rfl
@[simp] theorem State.looseWords_wordmem (s : State) (lo hi : Nat) : (s.looseWords lo hi).wordmem = s.wordmem.scramble lo (min hi s.cap.wordmemWords.toNat) (Config.freeWords s.free) := rfl
@[simp] theorem State.looseWords_dec (s : State) (lo hi : Nat) : (s.looseWords lo hi).dec = s.dec := rfl
@[simp] theorem State.looseWords_enc (s : State) (lo hi : Nat) : (s.looseWords lo hi).enc = s.enc := rfl
@[simp] theorem State.looseWords_inputs (s : State) (lo hi : Nat) : (s.looseWords lo hi).inputs = s.inputs := rfl
@[simp] theorem State.looseWords_portData (s : State) (lo hi : Nat) : (s.looseWords lo hi).portData = s.portData := rfl
@[simp] theorem State.looseWords_free (s : State) (lo hi : Nat) : (s.looseWords lo hi).free = s.free := rfl

/-! ### looseHist -/

@[simp] theorem State.looseHist_cap (s : State) : (s.looseHist).cap = s.cap := rfl
@[simp] theorem State.looseHist_report (s : State) : (s.looseHist).report = s.report := rfl
@[simp] theorem State.looseHist_cfg (s : State) : (s.looseHist).cfg = s.cfg := rfl
@[simp] theorem State.looseHist_remap (s : State) : (s.looseHist).remap = s.remap := rfl
@[simp] theorem State.looseHist_streamLen (s : State) : (s.looseHist).streamLen = s.streamLen := rfl
@[simp] theorem State.looseHist_args (s : State) : (s.looseHist).args = s.args := rfl
@[simp] theorem State.looseHist_res (s : State) : (s.looseHist).res = s.res := rfl
@[simp] theorem State.looseHist_cycles (s : State) : (s.looseHist).cycles = s.cycles := rfl
@[simp] theorem State.looseHist_pushes (s : State) : (s.looseHist).pushes = s.pushes := rfl
@[simp] theorem State.looseHist_bitmem (s : State) : (s.looseHist).bitmem = s.bitmem := rfl
@[simp] theorem State.looseHist_bytemem (s : State) : (s.looseHist).bytemem = s.bytemem := rfl
@[simp] theorem State.looseHist_wordmem (s : State) : (s.looseHist).wordmem = s.wordmem := rfl
@[simp] theorem State.looseHist_dec (s : State) : (s.looseHist).dec = s.dec := rfl
@[simp] theorem State.looseHist_enc (s : State) : (s.looseHist).enc = s.enc := rfl
@[simp] theorem State.looseHist_inputs (s : State) : (s.looseHist).inputs = s.inputs := rfl
@[simp] theorem State.looseHist_portData (s : State) : (s.looseHist).portData = s.portData := rfl
@[simp] theorem State.looseHist_free (s : State) : (s.looseHist).free = s.free := rfl

/-! ### beginDecode -/

@[simp] theorem State.beginDecode_cap (s : State) (cmd : DecodeCmd) (p : Nat) (rem : Remaining) (out limit : Nat) : (s.beginDecode cmd p rem out limit).cap = s.cap := rfl
@[simp] theorem State.beginDecode_report (s : State) (cmd : DecodeCmd) (p : Nat) (rem : Remaining) (out limit : Nat) : (s.beginDecode cmd p rem out limit).report = s.report := rfl
@[simp] theorem State.beginDecode_cfg (s : State) (cmd : DecodeCmd) (p : Nat) (rem : Remaining) (out limit : Nat) : (s.beginDecode cmd p rem out limit).cfg = s.cfg := rfl
@[simp] theorem State.beginDecode_remap (s : State) (cmd : DecodeCmd) (p : Nat) (rem : Remaining) (out limit : Nat) : (s.beginDecode cmd p rem out limit).remap = s.remap := rfl
@[simp] theorem State.beginDecode_hist (s : State) (cmd : DecodeCmd) (p : Nat) (rem : Remaining) (out limit : Nat) : (s.beginDecode cmd p rem out limit).hist = s.hist := rfl
@[simp] theorem State.beginDecode_streamLen (s : State) (cmd : DecodeCmd) (p : Nat) (rem : Remaining) (out limit : Nat) : (s.beginDecode cmd p rem out limit).streamLen = s.streamLen := rfl
@[simp] theorem State.beginDecode_args (s : State) (cmd : DecodeCmd) (p : Nat) (rem : Remaining) (out limit : Nat) : (s.beginDecode cmd p rem out limit).args = s.args := rfl
@[simp] theorem State.beginDecode_res (s : State) (cmd : DecodeCmd) (p : Nat) (rem : Remaining) (out limit : Nat) : (s.beginDecode cmd p rem out limit).res = s.res := rfl
@[simp] theorem State.beginDecode_cycles (s : State) (cmd : DecodeCmd) (p : Nat) (rem : Remaining) (out limit : Nat) : (s.beginDecode cmd p rem out limit).cycles = s.cycles := rfl
@[simp] theorem State.beginDecode_pushes (s : State) (cmd : DecodeCmd) (p : Nat) (rem : Remaining) (out limit : Nat) : (s.beginDecode cmd p rem out limit).pushes = s.pushes := rfl
@[simp] theorem State.beginDecode_bitmem (s : State) (cmd : DecodeCmd) (p : Nat) (rem : Remaining) (out limit : Nat) : (s.beginDecode cmd p rem out limit).bitmem = s.bitmem := rfl
@[simp] theorem State.beginDecode_bytemem (s : State) (cmd : DecodeCmd) (p : Nat) (rem : Remaining) (out limit : Nat) : (s.beginDecode cmd p rem out limit).bytemem = s.bytemem := rfl
@[simp] theorem State.beginDecode_wordmem (s : State) (cmd : DecodeCmd) (p : Nat) (rem : Remaining) (out limit : Nat) : (s.beginDecode cmd p rem out limit).wordmem = s.wordmem := rfl
@[simp] theorem State.beginDecode_dec (s : State) (cmd : DecodeCmd) (p : Nat) (rem : Remaining) (out limit : Nat) : (s.beginDecode cmd p rem out limit).dec = { s.dec with running := true, cmd := cmd, p := p, q := p, rem := rem, d := 0, cycles := 0, pushes := 0, k := 0, out := out, limit := limit } := rfl
@[simp] theorem State.beginDecode_enc (s : State) (cmd : DecodeCmd) (p : Nat) (rem : Remaining) (out limit : Nat) : (s.beginDecode cmd p rem out limit).enc = s.enc := rfl
@[simp] theorem State.beginDecode_inputs (s : State) (cmd : DecodeCmd) (p : Nat) (rem : Remaining) (out limit : Nat) : (s.beginDecode cmd p rem out limit).inputs = s.inputs := rfl
@[simp] theorem State.beginDecode_portData (s : State) (cmd : DecodeCmd) (p : Nat) (rem : Remaining) (out limit : Nat) : (s.beginDecode cmd p rem out limit).portData = s.portData := rfl
@[simp] theorem State.beginDecode_free (s : State) (cmd : DecodeCmd) (p : Nat) (rem : Remaining) (out limit : Nat) : (s.beginDecode cmd p rem out limit).free = s.free := rfl

/-! ### reportCounts -/

@[simp] theorem State.reportCounts_cap (s : State) : (s.reportCounts).cap = s.cap := rfl
@[simp] theorem State.reportCounts_report (s : State) : (s.reportCounts).report = s.report := rfl
@[simp] theorem State.reportCounts_cfg (s : State) : (s.reportCounts).cfg = s.cfg := rfl
@[simp] theorem State.reportCounts_remap (s : State) : (s.reportCounts).remap = s.remap := rfl
@[simp] theorem State.reportCounts_hist (s : State) : (s.reportCounts).hist = s.hist := rfl
@[simp] theorem State.reportCounts_streamLen (s : State) : (s.reportCounts).streamLen = s.streamLen := rfl
@[simp] theorem State.reportCounts_args (s : State) : (s.reportCounts).args = s.args := rfl
@[simp] theorem State.reportCounts_res (s : State) : (s.reportCounts).res = s.res := rfl
@[simp] theorem State.reportCounts_cycles (s : State) : (s.reportCounts).cycles = saturate s.dec.cycles := rfl
@[simp] theorem State.reportCounts_pushes (s : State) : (s.reportCounts).pushes = saturate s.dec.pushes := rfl
@[simp] theorem State.reportCounts_bitmem (s : State) : (s.reportCounts).bitmem = s.bitmem := rfl
@[simp] theorem State.reportCounts_bytemem (s : State) : (s.reportCounts).bytemem = s.bytemem := rfl
@[simp] theorem State.reportCounts_wordmem (s : State) : (s.reportCounts).wordmem = s.wordmem := rfl
@[simp] theorem State.reportCounts_dec (s : State) : (s.reportCounts).dec = { s.dec with running := false } := rfl
@[simp] theorem State.reportCounts_enc (s : State) : (s.reportCounts).enc = s.enc := rfl
@[simp] theorem State.reportCounts_inputs (s : State) : (s.reportCounts).inputs = s.inputs := rfl
@[simp] theorem State.reportCounts_portData (s : State) : (s.reportCounts).portData = s.portData := rfl
@[simp] theorem State.reportCounts_free (s : State) : (s.reportCounts).free = s.free := rfl

/-! ### sortTables -/

@[simp] theorem State.sortTables_cap (s : State) : (s.sortTables).cap = s.cap := rfl
@[simp] theorem State.sortTables_report (s : State) : (s.sortTables).report = s.report := rfl
@[simp] theorem State.sortTables_cfg (s : State) : (s.sortTables).cfg = s.cfg := rfl
@[simp] theorem State.sortTables_remap (s : State) : (s.sortTables).remap = s.remap.install s.hist.sorted := rfl
@[simp] theorem State.sortTables_hist (s : State) : (s.sortTables).hist = s.hist := rfl
@[simp] theorem State.sortTables_streamLen (s : State) : (s.sortTables).streamLen = s.streamLen := rfl
@[simp] theorem State.sortTables_args (s : State) : (s.sortTables).args = s.args := rfl
@[simp] theorem State.sortTables_res (s : State) : (s.sortTables).res = s.res := rfl
@[simp] theorem State.sortTables_cycles (s : State) : (s.sortTables).cycles = s.cycles := rfl
@[simp] theorem State.sortTables_pushes (s : State) : (s.sortTables).pushes = s.pushes := rfl
@[simp] theorem State.sortTables_bitmem (s : State) : (s.sortTables).bitmem = s.bitmem := rfl
@[simp] theorem State.sortTables_bytemem (s : State) : (s.sortTables).bytemem = s.bytemem := rfl
@[simp] theorem State.sortTables_wordmem (s : State) : (s.sortTables).wordmem = s.wordmem := rfl
@[simp] theorem State.sortTables_dec (s : State) : (s.sortTables).dec = s.dec := rfl
@[simp] theorem State.sortTables_enc (s : State) : (s.sortTables).enc = s.enc := rfl
@[simp] theorem State.sortTables_inputs (s : State) : (s.sortTables).inputs = s.inputs := rfl
@[simp] theorem State.sortTables_portData (s : State) : (s.sortTables).portData = s.portData := rfl
@[simp] theorem State.sortTables_free (s : State) : (s.sortTables).free = s.free := rfl

/-! ### setBestK -/

@[simp] theorem State.setBestK_cap (s : State) : (s.setBestK).cap = s.cap := rfl
@[simp] theorem State.setBestK_report (s : State) : (s.setBestK).report = s.report := rfl
@[simp] theorem State.setBestK_cfg (s : State) : (s.setBestK).cfg = { s.cfg with k := BitVec.ofNat 6 s.searchK.1 } := rfl
@[simp] theorem State.setBestK_remap (s : State) : (s.setBestK).remap = s.remap := rfl
@[simp] theorem State.setBestK_hist (s : State) : (s.setBestK).hist = s.hist := rfl
@[simp] theorem State.setBestK_streamLen (s : State) : (s.setBestK).streamLen = s.streamLen := rfl
@[simp] theorem State.setBestK_args (s : State) : (s.setBestK).args = s.args := rfl
@[simp] theorem State.setBestK_res (s : State) : (s.setBestK).res = s.res := rfl
@[simp] theorem State.setBestK_cycles (s : State) : (s.setBestK).cycles = s.cycles := rfl
@[simp] theorem State.setBestK_pushes (s : State) : (s.setBestK).pushes = s.pushes := rfl
@[simp] theorem State.setBestK_bitmem (s : State) : (s.setBestK).bitmem = s.bitmem := rfl
@[simp] theorem State.setBestK_bytemem (s : State) : (s.setBestK).bytemem = s.bytemem := rfl
@[simp] theorem State.setBestK_wordmem (s : State) : (s.setBestK).wordmem = s.wordmem := rfl
@[simp] theorem State.setBestK_dec (s : State) : (s.setBestK).dec = s.dec := rfl
@[simp] theorem State.setBestK_enc (s : State) : (s.setBestK).enc = s.enc := rfl
@[simp] theorem State.setBestK_inputs (s : State) : (s.setBestK).inputs = s.inputs := rfl
@[simp] theorem State.setBestK_portData (s : State) : (s.setBestK).portData = s.portData := rfl
@[simp] theorem State.setBestK_free (s : State) : (s.setBestK).free = s.free := rfl

/-! ### discardEncoder -/

@[simp] theorem State.discardEncoder_cap (s : State) : (s.discardEncoder).cap = s.cap := rfl
@[simp] theorem State.discardEncoder_report (s : State) : (s.discardEncoder).report = s.report := rfl
@[simp] theorem State.discardEncoder_cfg (s : State) : (s.discardEncoder).cfg = s.cfg := rfl
@[simp] theorem State.discardEncoder_remap (s : State) : (s.discardEncoder).remap = s.remap := rfl
@[simp] theorem State.discardEncoder_hist (s : State) : (s.discardEncoder).hist = s.hist := rfl
@[simp] theorem State.discardEncoder_streamLen (s : State) : (s.discardEncoder).streamLen = s.streamLen := rfl
@[simp] theorem State.discardEncoder_args (s : State) : (s.discardEncoder).args = s.args := rfl
@[simp] theorem State.discardEncoder_res (s : State) : (s.discardEncoder).res = s.res := rfl
@[simp] theorem State.discardEncoder_cycles (s : State) : (s.discardEncoder).cycles = s.cycles := rfl
@[simp] theorem State.discardEncoder_pushes (s : State) : (s.discardEncoder).pushes = s.pushes := rfl
@[simp] theorem State.discardEncoder_bitmem (s : State) : (s.discardEncoder).bitmem = s.bitmem := rfl
@[simp] theorem State.discardEncoder_bytemem (s : State) : (s.discardEncoder).bytemem = s.bytemem := rfl
@[simp] theorem State.discardEncoder_wordmem (s : State) : (s.discardEncoder).wordmem = s.wordmem := rfl
@[simp] theorem State.discardEncoder_dec (s : State) : (s.discardEncoder).dec = s.dec := rfl
@[simp] theorem State.discardEncoder_enc (s : State) : (s.discardEncoder).enc = Encoder.idle := rfl
@[simp] theorem State.discardEncoder_inputs (s : State) : (s.discardEncoder).inputs = s.inputs := rfl
@[simp] theorem State.discardEncoder_portData (s : State) : (s.discardEncoder).portData = s.portData := rfl
@[simp] theorem State.discardEncoder_free (s : State) : (s.discardEncoder).free = s.free := rfl

/-! ### writeBit -/

@[simp] theorem State.writeBit_cap (s : State) (p : Nat) (b : Bool) : (s.writeBit p b).cap = s.cap := by
  unfold State.writeBit; split <;> rfl
@[simp] theorem State.writeBit_report (s : State) (p : Nat) (b : Bool) : (s.writeBit p b).report = s.report := by
  unfold State.writeBit; split <;> rfl
@[simp] theorem State.writeBit_cfg (s : State) (p : Nat) (b : Bool) : (s.writeBit p b).cfg = s.cfg := by
  unfold State.writeBit; split <;> rfl
@[simp] theorem State.writeBit_remap (s : State) (p : Nat) (b : Bool) : (s.writeBit p b).remap = s.remap := by
  unfold State.writeBit; split <;> rfl
@[simp] theorem State.writeBit_hist (s : State) (p : Nat) (b : Bool) : (s.writeBit p b).hist = s.hist := by
  unfold State.writeBit; split <;> rfl
@[simp] theorem State.writeBit_streamLen (s : State) (p : Nat) (b : Bool) : (s.writeBit p b).streamLen = s.streamLen := by
  unfold State.writeBit; split <;> rfl
@[simp] theorem State.writeBit_args (s : State) (p : Nat) (b : Bool) : (s.writeBit p b).args = s.args := by
  unfold State.writeBit; split <;> rfl
@[simp] theorem State.writeBit_res (s : State) (p : Nat) (b : Bool) : (s.writeBit p b).res = s.res := by
  unfold State.writeBit; split <;> rfl
@[simp] theorem State.writeBit_cycles (s : State) (p : Nat) (b : Bool) : (s.writeBit p b).cycles = s.cycles := by
  unfold State.writeBit; split <;> rfl
@[simp] theorem State.writeBit_pushes (s : State) (p : Nat) (b : Bool) : (s.writeBit p b).pushes = s.pushes := by
  unfold State.writeBit; split <;> rfl
@[simp] theorem State.writeBit_bytemem (s : State) (p : Nat) (b : Bool) : (s.writeBit p b).bytemem = s.bytemem := by
  unfold State.writeBit; split <;> rfl
@[simp] theorem State.writeBit_wordmem (s : State) (p : Nat) (b : Bool) : (s.writeBit p b).wordmem = s.wordmem := by
  unfold State.writeBit; split <;> rfl
@[simp] theorem State.writeBit_dec (s : State) (p : Nat) (b : Bool) : (s.writeBit p b).dec = s.dec := by
  unfold State.writeBit; split <;> rfl
@[simp] theorem State.writeBit_enc (s : State) (p : Nat) (b : Bool) : (s.writeBit p b).enc = s.enc := by
  unfold State.writeBit; split <;> rfl
@[simp] theorem State.writeBit_inputs (s : State) (p : Nat) (b : Bool) : (s.writeBit p b).inputs = s.inputs := by
  unfold State.writeBit; split <;> rfl
@[simp] theorem State.writeBit_portData (s : State) (p : Nat) (b : Bool) : (s.writeBit p b).portData = s.portData := by
  unfold State.writeBit; split <;> rfl
@[simp] theorem State.writeBit_free (s : State) (p : Nat) (b : Bool) : (s.writeBit p b).free = s.free := by
  unfold State.writeBit; split <;> rfl

/-! ### writeByte -/

@[simp] theorem State.writeByte_cap (s : State) (a : Nat) (v : Byte) : (s.writeByte a v).cap = s.cap := by
  unfold State.writeByte; split <;> rfl
@[simp] theorem State.writeByte_report (s : State) (a : Nat) (v : Byte) : (s.writeByte a v).report = s.report := by
  unfold State.writeByte; split <;> rfl
@[simp] theorem State.writeByte_cfg (s : State) (a : Nat) (v : Byte) : (s.writeByte a v).cfg = s.cfg := by
  unfold State.writeByte; split <;> rfl
@[simp] theorem State.writeByte_remap (s : State) (a : Nat) (v : Byte) : (s.writeByte a v).remap = s.remap := by
  unfold State.writeByte; split <;> rfl
@[simp] theorem State.writeByte_hist (s : State) (a : Nat) (v : Byte) : (s.writeByte a v).hist = s.hist := by
  unfold State.writeByte; split <;> rfl
@[simp] theorem State.writeByte_streamLen (s : State) (a : Nat) (v : Byte) : (s.writeByte a v).streamLen = s.streamLen := by
  unfold State.writeByte; split <;> rfl
@[simp] theorem State.writeByte_args (s : State) (a : Nat) (v : Byte) : (s.writeByte a v).args = s.args := by
  unfold State.writeByte; split <;> rfl
@[simp] theorem State.writeByte_res (s : State) (a : Nat) (v : Byte) : (s.writeByte a v).res = s.res := by
  unfold State.writeByte; split <;> rfl
@[simp] theorem State.writeByte_cycles (s : State) (a : Nat) (v : Byte) : (s.writeByte a v).cycles = s.cycles := by
  unfold State.writeByte; split <;> rfl
@[simp] theorem State.writeByte_pushes (s : State) (a : Nat) (v : Byte) : (s.writeByte a v).pushes = s.pushes := by
  unfold State.writeByte; split <;> rfl
@[simp] theorem State.writeByte_bitmem (s : State) (a : Nat) (v : Byte) : (s.writeByte a v).bitmem = s.bitmem := by
  unfold State.writeByte; split <;> rfl
@[simp] theorem State.writeByte_wordmem (s : State) (a : Nat) (v : Byte) : (s.writeByte a v).wordmem = s.wordmem := by
  unfold State.writeByte; split <;> rfl
@[simp] theorem State.writeByte_dec (s : State) (a : Nat) (v : Byte) : (s.writeByte a v).dec = s.dec := by
  unfold State.writeByte; split <;> rfl
@[simp] theorem State.writeByte_enc (s : State) (a : Nat) (v : Byte) : (s.writeByte a v).enc = s.enc := by
  unfold State.writeByte; split <;> rfl
@[simp] theorem State.writeByte_inputs (s : State) (a : Nat) (v : Byte) : (s.writeByte a v).inputs = s.inputs := by
  unfold State.writeByte; split <;> rfl
@[simp] theorem State.writeByte_portData (s : State) (a : Nat) (v : Byte) : (s.writeByte a v).portData = s.portData := by
  unfold State.writeByte; split <;> rfl
@[simp] theorem State.writeByte_free (s : State) (a : Nat) (v : Byte) : (s.writeByte a v).free = s.free := by
  unfold State.writeByte; split <;> rfl

/-! ### writeWord -/

@[simp] theorem State.writeWord_cap (s : State) (a : Nat) (v : Word) : (s.writeWord a v).cap = s.cap := by
  unfold State.writeWord; split <;> rfl
@[simp] theorem State.writeWord_report (s : State) (a : Nat) (v : Word) : (s.writeWord a v).report = s.report := by
  unfold State.writeWord; split <;> rfl
@[simp] theorem State.writeWord_cfg (s : State) (a : Nat) (v : Word) : (s.writeWord a v).cfg = s.cfg := by
  unfold State.writeWord; split <;> rfl
@[simp] theorem State.writeWord_remap (s : State) (a : Nat) (v : Word) : (s.writeWord a v).remap = s.remap := by
  unfold State.writeWord; split <;> rfl
@[simp] theorem State.writeWord_hist (s : State) (a : Nat) (v : Word) : (s.writeWord a v).hist = s.hist := by
  unfold State.writeWord; split <;> rfl
@[simp] theorem State.writeWord_streamLen (s : State) (a : Nat) (v : Word) : (s.writeWord a v).streamLen = s.streamLen := by
  unfold State.writeWord; split <;> rfl
@[simp] theorem State.writeWord_args (s : State) (a : Nat) (v : Word) : (s.writeWord a v).args = s.args := by
  unfold State.writeWord; split <;> rfl
@[simp] theorem State.writeWord_res (s : State) (a : Nat) (v : Word) : (s.writeWord a v).res = s.res := by
  unfold State.writeWord; split <;> rfl
@[simp] theorem State.writeWord_cycles (s : State) (a : Nat) (v : Word) : (s.writeWord a v).cycles = s.cycles := by
  unfold State.writeWord; split <;> rfl
@[simp] theorem State.writeWord_pushes (s : State) (a : Nat) (v : Word) : (s.writeWord a v).pushes = s.pushes := by
  unfold State.writeWord; split <;> rfl
@[simp] theorem State.writeWord_bitmem (s : State) (a : Nat) (v : Word) : (s.writeWord a v).bitmem = s.bitmem := by
  unfold State.writeWord; split <;> rfl
@[simp] theorem State.writeWord_bytemem (s : State) (a : Nat) (v : Word) : (s.writeWord a v).bytemem = s.bytemem := by
  unfold State.writeWord; split <;> rfl
@[simp] theorem State.writeWord_dec (s : State) (a : Nat) (v : Word) : (s.writeWord a v).dec = s.dec := by
  unfold State.writeWord; split <;> rfl
@[simp] theorem State.writeWord_enc (s : State) (a : Nat) (v : Word) : (s.writeWord a v).enc = s.enc := by
  unfold State.writeWord; split <;> rfl
@[simp] theorem State.writeWord_inputs (s : State) (a : Nat) (v : Word) : (s.writeWord a v).inputs = s.inputs := by
  unfold State.writeWord; split <;> rfl
@[simp] theorem State.writeWord_portData (s : State) (a : Nat) (v : Word) : (s.writeWord a v).portData = s.portData := by
  unfold State.writeWord; split <;> rfl
@[simp] theorem State.writeWord_free (s : State) (a : Nat) (v : Word) : (s.writeWord a v).free = s.free := by
  unfold State.writeWord; split <;> rfl

/-! ### writeBits -/

@[simp] theorem State.writeBits_cap (s : State) (p : Nat) (bs : List Bool) : (s.writeBits p bs).cap = s.cap := by
  induction bs generalizing s p with
  | nil => rfl
  | cons _ _ ih => rw [State.writeBits, ih, State.writeBit_cap]
@[simp] theorem State.writeBits_report (s : State) (p : Nat) (bs : List Bool) : (s.writeBits p bs).report = s.report := by
  induction bs generalizing s p with
  | nil => rfl
  | cons _ _ ih => rw [State.writeBits, ih, State.writeBit_report]
@[simp] theorem State.writeBits_cfg (s : State) (p : Nat) (bs : List Bool) : (s.writeBits p bs).cfg = s.cfg := by
  induction bs generalizing s p with
  | nil => rfl
  | cons _ _ ih => rw [State.writeBits, ih, State.writeBit_cfg]
@[simp] theorem State.writeBits_remap (s : State) (p : Nat) (bs : List Bool) : (s.writeBits p bs).remap = s.remap := by
  induction bs generalizing s p with
  | nil => rfl
  | cons _ _ ih => rw [State.writeBits, ih, State.writeBit_remap]
@[simp] theorem State.writeBits_hist (s : State) (p : Nat) (bs : List Bool) : (s.writeBits p bs).hist = s.hist := by
  induction bs generalizing s p with
  | nil => rfl
  | cons _ _ ih => rw [State.writeBits, ih, State.writeBit_hist]
@[simp] theorem State.writeBits_streamLen (s : State) (p : Nat) (bs : List Bool) : (s.writeBits p bs).streamLen = s.streamLen := by
  induction bs generalizing s p with
  | nil => rfl
  | cons _ _ ih => rw [State.writeBits, ih, State.writeBit_streamLen]
@[simp] theorem State.writeBits_args (s : State) (p : Nat) (bs : List Bool) : (s.writeBits p bs).args = s.args := by
  induction bs generalizing s p with
  | nil => rfl
  | cons _ _ ih => rw [State.writeBits, ih, State.writeBit_args]
@[simp] theorem State.writeBits_res (s : State) (p : Nat) (bs : List Bool) : (s.writeBits p bs).res = s.res := by
  induction bs generalizing s p with
  | nil => rfl
  | cons _ _ ih => rw [State.writeBits, ih, State.writeBit_res]
@[simp] theorem State.writeBits_cycles (s : State) (p : Nat) (bs : List Bool) : (s.writeBits p bs).cycles = s.cycles := by
  induction bs generalizing s p with
  | nil => rfl
  | cons _ _ ih => rw [State.writeBits, ih, State.writeBit_cycles]
@[simp] theorem State.writeBits_pushes (s : State) (p : Nat) (bs : List Bool) : (s.writeBits p bs).pushes = s.pushes := by
  induction bs generalizing s p with
  | nil => rfl
  | cons _ _ ih => rw [State.writeBits, ih, State.writeBit_pushes]
@[simp] theorem State.writeBits_bytemem (s : State) (p : Nat) (bs : List Bool) : (s.writeBits p bs).bytemem = s.bytemem := by
  induction bs generalizing s p with
  | nil => rfl
  | cons _ _ ih => rw [State.writeBits, ih, State.writeBit_bytemem]
@[simp] theorem State.writeBits_wordmem (s : State) (p : Nat) (bs : List Bool) : (s.writeBits p bs).wordmem = s.wordmem := by
  induction bs generalizing s p with
  | nil => rfl
  | cons _ _ ih => rw [State.writeBits, ih, State.writeBit_wordmem]
@[simp] theorem State.writeBits_dec (s : State) (p : Nat) (bs : List Bool) : (s.writeBits p bs).dec = s.dec := by
  induction bs generalizing s p with
  | nil => rfl
  | cons _ _ ih => rw [State.writeBits, ih, State.writeBit_dec]
@[simp] theorem State.writeBits_enc (s : State) (p : Nat) (bs : List Bool) : (s.writeBits p bs).enc = s.enc := by
  induction bs generalizing s p with
  | nil => rfl
  | cons _ _ ih => rw [State.writeBits, ih, State.writeBit_enc]
@[simp] theorem State.writeBits_inputs (s : State) (p : Nat) (bs : List Bool) : (s.writeBits p bs).inputs = s.inputs := by
  induction bs generalizing s p with
  | nil => rfl
  | cons _ _ ih => rw [State.writeBits, ih, State.writeBit_inputs]
@[simp] theorem State.writeBits_portData (s : State) (p : Nat) (bs : List Bool) : (s.writeBits p bs).portData = s.portData := by
  induction bs generalizing s p with
  | nil => rfl
  | cons _ _ ih => rw [State.writeBits, ih, State.writeBit_portData]
@[simp] theorem State.writeBits_free (s : State) (p : Nat) (bs : List Bool) : (s.writeBits p bs).free = s.free := by
  induction bs generalizing s p with
  | nil => rfl
  | cons _ _ ih => rw [State.writeBits, ih, State.writeBit_free]

/-! ### writeWords -/

@[simp] theorem State.writeWords_cap (s : State) (a : Nat) (ws : List Word) : (s.writeWords a ws).cap = s.cap := by
  induction ws generalizing s a with
  | nil => rfl
  | cons _ _ ih => rw [State.writeWords, ih, State.writeWord_cap]
@[simp] theorem State.writeWords_report (s : State) (a : Nat) (ws : List Word) : (s.writeWords a ws).report = s.report := by
  induction ws generalizing s a with
  | nil => rfl
  | cons _ _ ih => rw [State.writeWords, ih, State.writeWord_report]
@[simp] theorem State.writeWords_cfg (s : State) (a : Nat) (ws : List Word) : (s.writeWords a ws).cfg = s.cfg := by
  induction ws generalizing s a with
  | nil => rfl
  | cons _ _ ih => rw [State.writeWords, ih, State.writeWord_cfg]
@[simp] theorem State.writeWords_remap (s : State) (a : Nat) (ws : List Word) : (s.writeWords a ws).remap = s.remap := by
  induction ws generalizing s a with
  | nil => rfl
  | cons _ _ ih => rw [State.writeWords, ih, State.writeWord_remap]
@[simp] theorem State.writeWords_hist (s : State) (a : Nat) (ws : List Word) : (s.writeWords a ws).hist = s.hist := by
  induction ws generalizing s a with
  | nil => rfl
  | cons _ _ ih => rw [State.writeWords, ih, State.writeWord_hist]
@[simp] theorem State.writeWords_streamLen (s : State) (a : Nat) (ws : List Word) : (s.writeWords a ws).streamLen = s.streamLen := by
  induction ws generalizing s a with
  | nil => rfl
  | cons _ _ ih => rw [State.writeWords, ih, State.writeWord_streamLen]
@[simp] theorem State.writeWords_args (s : State) (a : Nat) (ws : List Word) : (s.writeWords a ws).args = s.args := by
  induction ws generalizing s a with
  | nil => rfl
  | cons _ _ ih => rw [State.writeWords, ih, State.writeWord_args]
@[simp] theorem State.writeWords_res (s : State) (a : Nat) (ws : List Word) : (s.writeWords a ws).res = s.res := by
  induction ws generalizing s a with
  | nil => rfl
  | cons _ _ ih => rw [State.writeWords, ih, State.writeWord_res]
@[simp] theorem State.writeWords_cycles (s : State) (a : Nat) (ws : List Word) : (s.writeWords a ws).cycles = s.cycles := by
  induction ws generalizing s a with
  | nil => rfl
  | cons _ _ ih => rw [State.writeWords, ih, State.writeWord_cycles]
@[simp] theorem State.writeWords_pushes (s : State) (a : Nat) (ws : List Word) : (s.writeWords a ws).pushes = s.pushes := by
  induction ws generalizing s a with
  | nil => rfl
  | cons _ _ ih => rw [State.writeWords, ih, State.writeWord_pushes]
@[simp] theorem State.writeWords_bitmem (s : State) (a : Nat) (ws : List Word) : (s.writeWords a ws).bitmem = s.bitmem := by
  induction ws generalizing s a with
  | nil => rfl
  | cons _ _ ih => rw [State.writeWords, ih, State.writeWord_bitmem]
@[simp] theorem State.writeWords_bytemem (s : State) (a : Nat) (ws : List Word) : (s.writeWords a ws).bytemem = s.bytemem := by
  induction ws generalizing s a with
  | nil => rfl
  | cons _ _ ih => rw [State.writeWords, ih, State.writeWord_bytemem]
@[simp] theorem State.writeWords_dec (s : State) (a : Nat) (ws : List Word) : (s.writeWords a ws).dec = s.dec := by
  induction ws generalizing s a with
  | nil => rfl
  | cons _ _ ih => rw [State.writeWords, ih, State.writeWord_dec]
@[simp] theorem State.writeWords_enc (s : State) (a : Nat) (ws : List Word) : (s.writeWords a ws).enc = s.enc := by
  induction ws generalizing s a with
  | nil => rfl
  | cons _ _ ih => rw [State.writeWords, ih, State.writeWord_enc]
@[simp] theorem State.writeWords_inputs (s : State) (a : Nat) (ws : List Word) : (s.writeWords a ws).inputs = s.inputs := by
  induction ws generalizing s a with
  | nil => rfl
  | cons _ _ ih => rw [State.writeWords, ih, State.writeWord_inputs]
@[simp] theorem State.writeWords_portData (s : State) (a : Nat) (ws : List Word) : (s.writeWords a ws).portData = s.portData := by
  induction ws generalizing s a with
  | nil => rfl
  | cons _ _ ih => rw [State.writeWords, ih, State.writeWord_portData]
@[simp] theorem State.writeWords_free (s : State) (a : Nat) (ws : List Word) : (s.writeWords a ws).free = s.free := by
  induction ws generalizing s a with
  | nil => rfl
  | cons _ _ ih => rw [State.writeWords, ih, State.writeWord_free]

/-! ### fillBytes -/

@[simp] theorem State.fillBytes_cap (s : State) (a : Nat) (v : Byte) (n : Nat) : (s.fillBytes a v n).cap = s.cap := by
  induction n generalizing s a with
  | zero => rfl
  | succ _ ih => rw [State.fillBytes, ih, State.writeByte_cap]
@[simp] theorem State.fillBytes_report (s : State) (a : Nat) (v : Byte) (n : Nat) : (s.fillBytes a v n).report = s.report := by
  induction n generalizing s a with
  | zero => rfl
  | succ _ ih => rw [State.fillBytes, ih, State.writeByte_report]
@[simp] theorem State.fillBytes_cfg (s : State) (a : Nat) (v : Byte) (n : Nat) : (s.fillBytes a v n).cfg = s.cfg := by
  induction n generalizing s a with
  | zero => rfl
  | succ _ ih => rw [State.fillBytes, ih, State.writeByte_cfg]
@[simp] theorem State.fillBytes_remap (s : State) (a : Nat) (v : Byte) (n : Nat) : (s.fillBytes a v n).remap = s.remap := by
  induction n generalizing s a with
  | zero => rfl
  | succ _ ih => rw [State.fillBytes, ih, State.writeByte_remap]
@[simp] theorem State.fillBytes_hist (s : State) (a : Nat) (v : Byte) (n : Nat) : (s.fillBytes a v n).hist = s.hist := by
  induction n generalizing s a with
  | zero => rfl
  | succ _ ih => rw [State.fillBytes, ih, State.writeByte_hist]
@[simp] theorem State.fillBytes_streamLen (s : State) (a : Nat) (v : Byte) (n : Nat) : (s.fillBytes a v n).streamLen = s.streamLen := by
  induction n generalizing s a with
  | zero => rfl
  | succ _ ih => rw [State.fillBytes, ih, State.writeByte_streamLen]
@[simp] theorem State.fillBytes_args (s : State) (a : Nat) (v : Byte) (n : Nat) : (s.fillBytes a v n).args = s.args := by
  induction n generalizing s a with
  | zero => rfl
  | succ _ ih => rw [State.fillBytes, ih, State.writeByte_args]
@[simp] theorem State.fillBytes_res (s : State) (a : Nat) (v : Byte) (n : Nat) : (s.fillBytes a v n).res = s.res := by
  induction n generalizing s a with
  | zero => rfl
  | succ _ ih => rw [State.fillBytes, ih, State.writeByte_res]
@[simp] theorem State.fillBytes_cycles (s : State) (a : Nat) (v : Byte) (n : Nat) : (s.fillBytes a v n).cycles = s.cycles := by
  induction n generalizing s a with
  | zero => rfl
  | succ _ ih => rw [State.fillBytes, ih, State.writeByte_cycles]
@[simp] theorem State.fillBytes_pushes (s : State) (a : Nat) (v : Byte) (n : Nat) : (s.fillBytes a v n).pushes = s.pushes := by
  induction n generalizing s a with
  | zero => rfl
  | succ _ ih => rw [State.fillBytes, ih, State.writeByte_pushes]
@[simp] theorem State.fillBytes_bitmem (s : State) (a : Nat) (v : Byte) (n : Nat) : (s.fillBytes a v n).bitmem = s.bitmem := by
  induction n generalizing s a with
  | zero => rfl
  | succ _ ih => rw [State.fillBytes, ih, State.writeByte_bitmem]
@[simp] theorem State.fillBytes_wordmem (s : State) (a : Nat) (v : Byte) (n : Nat) : (s.fillBytes a v n).wordmem = s.wordmem := by
  induction n generalizing s a with
  | zero => rfl
  | succ _ ih => rw [State.fillBytes, ih, State.writeByte_wordmem]
@[simp] theorem State.fillBytes_dec (s : State) (a : Nat) (v : Byte) (n : Nat) : (s.fillBytes a v n).dec = s.dec := by
  induction n generalizing s a with
  | zero => rfl
  | succ _ ih => rw [State.fillBytes, ih, State.writeByte_dec]
@[simp] theorem State.fillBytes_enc (s : State) (a : Nat) (v : Byte) (n : Nat) : (s.fillBytes a v n).enc = s.enc := by
  induction n generalizing s a with
  | zero => rfl
  | succ _ ih => rw [State.fillBytes, ih, State.writeByte_enc]
@[simp] theorem State.fillBytes_inputs (s : State) (a : Nat) (v : Byte) (n : Nat) : (s.fillBytes a v n).inputs = s.inputs := by
  induction n generalizing s a with
  | zero => rfl
  | succ _ ih => rw [State.fillBytes, ih, State.writeByte_inputs]
@[simp] theorem State.fillBytes_portData (s : State) (a : Nat) (v : Byte) (n : Nat) : (s.fillBytes a v n).portData = s.portData := by
  induction n generalizing s a with
  | zero => rfl
  | succ _ ih => rw [State.fillBytes, ih, State.writeByte_portData]
@[simp] theorem State.fillBytes_free (s : State) (a : Nat) (v : Byte) (n : Nat) : (s.fillBytes a v n).free = s.free := by
  induction n generalizing s a with
  | zero => rfl
  | succ _ ih => rw [State.fillBytes, ih, State.writeByte_free]

/-! ### writePairs -/

@[simp] theorem State.writePairs_cap (s : State) (z stop : Nat) (es : List (Slice × Nat)) : (s.writePairs z stop es).cap = s.cap := by
  induction es generalizing s with
  | nil => rfl
  | cons _ _ ih => rw [State.writePairs, ih, State.writeWord_cap, State.writeWord_cap]
@[simp] theorem State.writePairs_report (s : State) (z stop : Nat) (es : List (Slice × Nat)) : (s.writePairs z stop es).report = s.report := by
  induction es generalizing s with
  | nil => rfl
  | cons _ _ ih => rw [State.writePairs, ih, State.writeWord_report, State.writeWord_report]
@[simp] theorem State.writePairs_cfg (s : State) (z stop : Nat) (es : List (Slice × Nat)) : (s.writePairs z stop es).cfg = s.cfg := by
  induction es generalizing s with
  | nil => rfl
  | cons _ _ ih => rw [State.writePairs, ih, State.writeWord_cfg, State.writeWord_cfg]
@[simp] theorem State.writePairs_remap (s : State) (z stop : Nat) (es : List (Slice × Nat)) : (s.writePairs z stop es).remap = s.remap := by
  induction es generalizing s with
  | nil => rfl
  | cons _ _ ih => rw [State.writePairs, ih, State.writeWord_remap, State.writeWord_remap]
@[simp] theorem State.writePairs_hist (s : State) (z stop : Nat) (es : List (Slice × Nat)) : (s.writePairs z stop es).hist = s.hist := by
  induction es generalizing s with
  | nil => rfl
  | cons _ _ ih => rw [State.writePairs, ih, State.writeWord_hist, State.writeWord_hist]
@[simp] theorem State.writePairs_streamLen (s : State) (z stop : Nat) (es : List (Slice × Nat)) : (s.writePairs z stop es).streamLen = s.streamLen := by
  induction es generalizing s with
  | nil => rfl
  | cons _ _ ih => rw [State.writePairs, ih, State.writeWord_streamLen, State.writeWord_streamLen]
@[simp] theorem State.writePairs_args (s : State) (z stop : Nat) (es : List (Slice × Nat)) : (s.writePairs z stop es).args = s.args := by
  induction es generalizing s with
  | nil => rfl
  | cons _ _ ih => rw [State.writePairs, ih, State.writeWord_args, State.writeWord_args]
@[simp] theorem State.writePairs_res (s : State) (z stop : Nat) (es : List (Slice × Nat)) : (s.writePairs z stop es).res = s.res := by
  induction es generalizing s with
  | nil => rfl
  | cons _ _ ih => rw [State.writePairs, ih, State.writeWord_res, State.writeWord_res]
@[simp] theorem State.writePairs_cycles (s : State) (z stop : Nat) (es : List (Slice × Nat)) : (s.writePairs z stop es).cycles = s.cycles := by
  induction es generalizing s with
  | nil => rfl
  | cons _ _ ih => rw [State.writePairs, ih, State.writeWord_cycles, State.writeWord_cycles]
@[simp] theorem State.writePairs_pushes (s : State) (z stop : Nat) (es : List (Slice × Nat)) : (s.writePairs z stop es).pushes = s.pushes := by
  induction es generalizing s with
  | nil => rfl
  | cons _ _ ih => rw [State.writePairs, ih, State.writeWord_pushes, State.writeWord_pushes]
@[simp] theorem State.writePairs_bitmem (s : State) (z stop : Nat) (es : List (Slice × Nat)) : (s.writePairs z stop es).bitmem = s.bitmem := by
  induction es generalizing s with
  | nil => rfl
  | cons _ _ ih => rw [State.writePairs, ih, State.writeWord_bitmem, State.writeWord_bitmem]
@[simp] theorem State.writePairs_bytemem (s : State) (z stop : Nat) (es : List (Slice × Nat)) : (s.writePairs z stop es).bytemem = s.bytemem := by
  induction es generalizing s with
  | nil => rfl
  | cons _ _ ih => rw [State.writePairs, ih, State.writeWord_bytemem, State.writeWord_bytemem]
@[simp] theorem State.writePairs_dec (s : State) (z stop : Nat) (es : List (Slice × Nat)) : (s.writePairs z stop es).dec = s.dec := by
  induction es generalizing s with
  | nil => rfl
  | cons _ _ ih => rw [State.writePairs, ih, State.writeWord_dec, State.writeWord_dec]
@[simp] theorem State.writePairs_enc (s : State) (z stop : Nat) (es : List (Slice × Nat)) : (s.writePairs z stop es).enc = s.enc := by
  induction es generalizing s with
  | nil => rfl
  | cons _ _ ih => rw [State.writePairs, ih, State.writeWord_enc, State.writeWord_enc]
@[simp] theorem State.writePairs_inputs (s : State) (z stop : Nat) (es : List (Slice × Nat)) : (s.writePairs z stop es).inputs = s.inputs := by
  induction es generalizing s with
  | nil => rfl
  | cons _ _ ih => rw [State.writePairs, ih, State.writeWord_inputs, State.writeWord_inputs]
@[simp] theorem State.writePairs_portData (s : State) (z stop : Nat) (es : List (Slice × Nat)) : (s.writePairs z stop es).portData = s.portData := by
  induction es generalizing s with
  | nil => rfl
  | cons _ _ ih => rw [State.writePairs, ih, State.writeWord_portData, State.writeWord_portData]
@[simp] theorem State.writePairs_free (s : State) (z stop : Nat) (es : List (Slice × Nat)) : (s.writePairs z stop es).free = s.free := by
  induction es generalizing s with
  | nil => rfl
  | cons _ _ ih => rw [State.writePairs, ih, State.writeWord_free, State.writeWord_free]

/-! ### putBits -/

@[simp] theorem State.putBits_cap (s : State) (bs : List Bool) : (s.putBits bs).cap = s.cap := State.writeBits_cap s s.streamLen.toNat bs
@[simp] theorem State.putBits_report (s : State) (bs : List Bool) : (s.putBits bs).report = s.report := State.writeBits_report s s.streamLen.toNat bs
@[simp] theorem State.putBits_cfg (s : State) (bs : List Bool) : (s.putBits bs).cfg = s.cfg := State.writeBits_cfg s s.streamLen.toNat bs
@[simp] theorem State.putBits_remap (s : State) (bs : List Bool) : (s.putBits bs).remap = s.remap := State.writeBits_remap s s.streamLen.toNat bs
@[simp] theorem State.putBits_hist (s : State) (bs : List Bool) : (s.putBits bs).hist = s.hist := State.writeBits_hist s s.streamLen.toNat bs
@[simp] theorem State.putBits_streamLen (s : State) (bs : List Bool) : (s.putBits bs).streamLen = BitVec.ofNat 32 (s.streamLen.toNat + bs.length) := rfl
@[simp] theorem State.putBits_args (s : State) (bs : List Bool) : (s.putBits bs).args = s.args := State.writeBits_args s s.streamLen.toNat bs
@[simp] theorem State.putBits_res (s : State) (bs : List Bool) : (s.putBits bs).res = s.res := State.writeBits_res s s.streamLen.toNat bs
@[simp] theorem State.putBits_cycles (s : State) (bs : List Bool) : (s.putBits bs).cycles = s.cycles := State.writeBits_cycles s s.streamLen.toNat bs
@[simp] theorem State.putBits_pushes (s : State) (bs : List Bool) : (s.putBits bs).pushes = s.pushes := State.writeBits_pushes s s.streamLen.toNat bs
@[simp] theorem State.putBits_bitmem (s : State) (bs : List Bool) : (s.putBits bs).bitmem = (s.writeBits s.streamLen.toNat bs).bitmem := rfl
@[simp] theorem State.putBits_bytemem (s : State) (bs : List Bool) : (s.putBits bs).bytemem = s.bytemem := State.writeBits_bytemem s s.streamLen.toNat bs
@[simp] theorem State.putBits_wordmem (s : State) (bs : List Bool) : (s.putBits bs).wordmem = s.wordmem := State.writeBits_wordmem s s.streamLen.toNat bs
@[simp] theorem State.putBits_dec (s : State) (bs : List Bool) : (s.putBits bs).dec = s.dec := State.writeBits_dec s s.streamLen.toNat bs
@[simp] theorem State.putBits_enc (s : State) (bs : List Bool) : (s.putBits bs).enc = s.enc := State.writeBits_enc s s.streamLen.toNat bs
@[simp] theorem State.putBits_inputs (s : State) (bs : List Bool) : (s.putBits bs).inputs = s.inputs := State.writeBits_inputs s s.streamLen.toNat bs
@[simp] theorem State.putBits_portData (s : State) (bs : List Bool) : (s.putBits bs).portData = s.portData := State.writeBits_portData s s.streamLen.toNat bs
@[simp] theorem State.putBits_free (s : State) (bs : List Bool) : (s.putBits bs).free = s.free := State.writeBits_free s s.streamLen.toNat bs

end Sys2Proof.Machine
end

