-- ==== Sys2Proof/Laws/Ops.lean ====
section
/-! SUPPORT. Laws of the shared operations: for each, once, everything it does. -/

namespace Sys2Proof.Machine

/-! ### Commands -/

/-- Everything a whole command can do: it ends, in the state its pseudocode's ending closes to (46_host.md R127, R128). -/
theorem runCommand_spec {body : State → Ending} {s t : State} :
    runCommand body s = .next t ↔ t = (body s.start).close := by
  simp [runCommand, eq_comm]

/-- A normal end reports DONE alone (46_host.md R127). -/
theorem finish_report_of_started {s : State} (h : s.report = Report.started) :
    s.finish.report = Report.normalEnd := by
  simp [h, Report.started, Report.finished, Report.normalEnd]

/-- Everything taking an error does: the report, the results, the counter of unspecified values, and nothing else (60_exceptions.md R136, R137). -/
theorem raise_spec (s : State) (code : ErrCode) (pos : Nat) :
    (s.raise code pos).report = Report.failed code pos ∧
    s.changesOnly [.report, .res0, .res1, .res2, .res3, .free] (s.raise code pos) := by
  refine ⟨rfl, fun p hp => ?_⟩
  cases p <;> first | rfl | exact absurd hp (by decide)

theorem guarded_of_ok {ok : State → Bool} {body : State → Ending} {s : State} (h : ok s = true) :
    guarded ok body s = body s := if_pos h

theorem guarded_of_not {ok : State → Bool} {body : State → Ending} {s : State} (h : ok s = false) :
    guarded ok body s = .raised s ⟨.config, 0⟩ := by simp [guarded, h]

/-! ### Writes -/

theorem writeBit_read (s : State) (p : Nat) (b : Bool) (q : Nat) :
    (s.writeBit p b).bitmem.read q =
      if q = p ∧ p < s.cap.bitmemBits.toNat then BitVec.ofBool b else s.bitmem.read q := by
  unfold State.writeBit
  split
  · rename_i h; simp [Memory.read_write, h]
  · rename_i h; simp [h]

theorem writeByte_read (s : State) (a : Nat) (v : Byte) (b : Nat) :
    (s.writeByte a v).bytemem.read b =
      if b = a ∧ a < s.cap.bytememBytes.toNat then v else s.bytemem.read b := by
  unfold State.writeByte
  split
  · rename_i h; simp [Memory.read_write, h]
  · rename_i h; simp [h]

theorem writeWord_read (s : State) (a : Nat) (v : Word) (b : Nat) :
    (s.writeWord a v).wordmem.read b =
      if b = a ∧ a < s.cap.wordmemWords.toNat then v else s.wordmem.read b := by
  unfold State.writeWord
  split
  · rename_i h; simp [Memory.read_write, h]
  · rename_i h; simp [h]

/-- Everything a bit-string write does to BITMEM. -/
theorem writeBits_read (s : State) (p : Nat) (bs : List Bool) (q : Nat) :
    (s.writeBits p bs).bitmem.read q =
      if h : p ≤ q ∧ q - p < bs.length ∧ q < s.cap.bitmemBits.toNat then BitVec.ofBool (bs[q - p]'h.2.1)
      else s.bitmem.read q := by
  induction bs generalizing s p with
  | nil => simp [State.writeBits]
  | cons b bs ih =>
    rw [State.writeBits, ih, writeBit_read, State.writeBit_cap]
    by_cases h1 : q = p
    · subst h1
      rw [dif_neg (by omega)]
      by_cases h2 : q < s.cap.bitmemBits.toNat
      · rw [if_pos ⟨rfl, h2⟩, dif_pos ⟨le_refl _, by simp, h2⟩]; simp
      · rw [if_neg (by tauto), dif_neg (by tauto)]
    · rw [if_neg (by tauto)]
      by_cases h2 : p + 1 ≤ q ∧ q - (p + 1) < bs.length ∧ q < s.cap.bitmemBits.toNat
      · rw [dif_pos h2, dif_pos ⟨by omega, by simp only [List.length_cons]; omega, h2.2.2⟩]
        obtain ⟨k, rfl⟩ : ∃ k, q = p + 1 + k := ⟨q - (p + 1), by omega⟩
        simp [show p + 1 + k - p = k + 1 by omega]
      · rw [dif_neg h2, dif_neg (by simp only [List.length_cons]; omega)]

theorem bit_ofBool (b : Bool) : (BitVec.ofBool b == 1#1) = b := by cases b <;> rfl

/-- `PutBits` inside BITMEM puts the string at the old STREAM_LEN (00_scope.md R14). -/
theorem putBits_holds {s : State} {bs : List Bool} (h : s.streamLen.toNat + bs.length ≤ s.cap.bitmemBits.toNat)
    (i : Nat) (hi : i < bs.length) : (s.putBits bs).bit (s.streamLen.toNat + i) = bs[i] := by
  rw [State.bit, State.putBits_bitmem, writeBits_read, dif_pos ⟨by omega, by omega, by omega⟩, bit_ofBool]
  simp

/-- `PutBits` leaves every bit outside the appended range alone. -/
theorem putBits_read_outside (s : State) (bs : List Bool) {q : Nat}
    (h : q < s.streamLen.toNat ∨ s.streamLen.toNat + bs.length ≤ q) :
    (s.putBits bs).bitmem.read q = s.bitmem.read q := by
  rw [State.putBits_bitmem, writeBits_read, dif_neg (by omega)]

/-- `PutBits` inside BITMEM advances STREAM_LEN by the string's length. -/
theorem putBits_streamLen_toNat {s : State} {bs : List Bool}
    (h : s.streamLen.toNat + bs.length ≤ s.cap.bitmemBits.toNat) :
    (s.putBits bs).streamLen.toNat = s.streamLen.toNat + bs.length := by
  have := s.cap.bitmemBits.isLt
  rw [State.putBits_streamLen, BitVec.toNat_ofNat, Nat.mod_eq_of_lt (by omega)]

/-- Everything a word-list write does to WORDMEM. -/
theorem writeWords_read (s : State) (a : Nat) (ws : List Word) (b : Nat) :
    (s.writeWords a ws).wordmem.read b =
      if h : a ≤ b ∧ b - a < ws.length ∧ b < s.cap.wordmemWords.toNat then ws[b - a]'h.2.1
      else s.wordmem.read b := by
  induction ws generalizing s a with
  | nil => simp [State.writeWords]
  | cons w ws ih =>
    rw [State.writeWords, ih, writeWord_read, State.writeWord_cap]
    by_cases h1 : b = a
    · subst h1
      rw [dif_neg (by omega)]
      by_cases h2 : b < s.cap.wordmemWords.toNat
      · rw [if_pos ⟨rfl, h2⟩, dif_pos ⟨le_refl _, by simp, h2⟩]; simp
      · rw [if_neg (by tauto), dif_neg (by tauto)]
    · rw [if_neg (by tauto)]
      by_cases h2 : a + 1 ≤ b ∧ b - (a + 1) < ws.length ∧ b < s.cap.wordmemWords.toNat
      · rw [dif_pos h2, dif_pos ⟨by omega, by simp only [List.length_cons]; omega, h2.2.2⟩]
        obtain ⟨k, rfl⟩ : ∃ k, b = a + 1 + k := ⟨b - (a + 1), by omega⟩
        simp [show a + 1 + k - a = k + 1 by omega]
      · rw [dif_neg h2, dif_neg (by simp only [List.length_cons]; omega)]

/-- Everything a byte fill does to BYTEMEM. -/
theorem fillBytes_read (s : State) (a : Nat) (v : Byte) (n b : Nat) :
    (s.fillBytes a v n).bytemem.read b =
      if a ≤ b ∧ b < a + n ∧ b < s.cap.bytememBytes.toNat then v else s.bytemem.read b := by
  induction n generalizing s a with
  | zero => rw [if_neg (by omega)]; rfl
  | succ n ih =>
    rw [State.fillBytes, ih, writeByte_read, State.writeByte_cap]
    split <;> split <;> first | rfl | (split <;> first | rfl | omega) | omega

/-- Everything leaving bits unspecified does outside the range (93_implementation_defined.md U3). -/
theorem looseBits_read_outside (s : State) (lo hi : Nat) {p : Nat} (h : p < lo ∨ hi ≤ p) :
    (s.looseBits lo hi).bitmem.read p = s.bitmem.read p := by
  rw [State.looseBits_bitmem, Memory.read_scramble_outside]; omega

theorem looseBytes_read_outside (s : State) (lo hi : Nat) {a : Nat} (h : a < lo ∨ hi ≤ a) :
    (s.looseBytes lo hi).bytemem.read a = s.bytemem.read a := by
  rw [State.looseBytes_bytemem, Memory.read_scramble_outside]; omega

theorem looseWords_read_outside (s : State) (lo hi : Nat) {a : Nat} (h : a < lo ∨ hi ≤ a) :
    (s.looseWords lo hi).wordmem.read a = s.wordmem.read a := by
  rw [State.looseWords_wordmem, Memory.read_scramble_outside]; omega

/-! ### The canonical form -/

theorem wf_writeBit {s : State} (h : s.bitmem.wf s.cap.bitmemBits.toNat = true) (p : Nat) (b : Bool) :
    (s.writeBit p b).bitmem.wf s.cap.bitmemBits.toNat = true := by
  unfold State.writeBit
  split
  · exact Memory.wf_write h ‹_› _
  · exact h

theorem wf_writeBits {s : State} (h : s.bitmem.wf s.cap.bitmemBits.toNat = true) (p : Nat) (bs : List Bool) :
    (s.writeBits p bs).bitmem.wf s.cap.bitmemBits.toNat = true := by
  induction bs generalizing s p with
  | nil => exact h
  | cons b bs ih =>
    have := ih (s := s.writeBit p b) (by rw [State.writeBit_cap]; exact wf_writeBit h p b) (p + 1)
    rwa [State.writeBit_cap] at this

theorem wf_putBits {s : State} (h : s.bitmem.wf s.cap.bitmemBits.toNat = true) (bs : List Bool) :
    (s.putBits bs).bitmem.wf s.cap.bitmemBits.toNat = true := wf_writeBits h _ bs

theorem wf_writeByte {s : State} (h : s.bytemem.wf s.cap.bytememBytes.toNat = true) (a : Nat) (v : Byte) :
    (s.writeByte a v).bytemem.wf s.cap.bytememBytes.toNat = true := by
  unfold State.writeByte
  split
  · exact Memory.wf_write h ‹_› _
  · exact h

theorem wf_fillBytes {s : State} (h : s.bytemem.wf s.cap.bytememBytes.toNat = true) (a : Nat) (v : Byte) (n : Nat) :
    (s.fillBytes a v n).bytemem.wf s.cap.bytememBytes.toNat = true := by
  induction n generalizing s a with
  | zero => exact h
  | succ n ih =>
    have := ih (s := s.writeByte a v) (by rw [State.writeByte_cap]; exact wf_writeByte h a v) (a + 1)
    rwa [State.writeByte_cap] at this

theorem wf_writeWord {s : State} (h : s.wordmem.wf s.cap.wordmemWords.toNat = true) (a : Nat) (v : Word) :
    (s.writeWord a v).wordmem.wf s.cap.wordmemWords.toNat = true := by
  unfold State.writeWord
  split
  · exact Memory.wf_write h ‹_› _
  · exact h

theorem wf_writeWords {s : State} (h : s.wordmem.wf s.cap.wordmemWords.toNat = true) (a : Nat) (ws : List Word) :
    (s.writeWords a ws).wordmem.wf s.cap.wordmemWords.toNat = true := by
  induction ws generalizing s a with
  | nil => exact h
  | cons w ws ih =>
    have := ih (s := s.writeWord a w) (by rw [State.writeWord_cap]; exact wf_writeWord h a w) (a + 1)
    rwa [State.writeWord_cap] at this

theorem wf_writePairs {s : State} (h : s.wordmem.wf s.cap.wordmemWords.toNat = true) (z stop : Nat)
    (es : List (Slice × Nat)) : (s.writePairs z stop es).wordmem.wf s.cap.wordmemWords.toNat = true := by
  induction es generalizing s with
  | nil => exact h
  | cons e es ih =>
    have h1 := wf_writeWord h (z + 2 * e.1.idx) (BitVec.ofNat 32 (stop - e.2))
    rw [← State.writeWord_cap s (z + 2 * e.1.idx) (BitVec.ofNat 32 (stop - e.2))] at h1
    have h2 := wf_writeWord h1 (z + 2 * e.1.idx + 1) (BitVec.ofNat 32 e.1.len)
    rw [← State.writeWord_cap (s.writeWord (z + 2 * e.1.idx) (BitVec.ofNat 32 (stop - e.2)))
      (z + 2 * e.1.idx + 1) (BitVec.ofNat 32 e.1.len)] at h2
    have := ih h2
    simpa [State.writePairs] using this

theorem wf_looseBits {s : State} (h : s.bitmem.wf s.cap.bitmemBits.toNat = true) (lo hi : Nat) :
    (s.looseBits lo hi).bitmem.wf s.cap.bitmemBits.toNat = true :=
  Memory.wf_scramble h _ _ (min_le_right _ _) _

theorem wf_looseBytes {s : State} (h : s.bytemem.wf s.cap.bytememBytes.toNat = true) (lo hi : Nat) :
    (s.looseBytes lo hi).bytemem.wf s.cap.bytememBytes.toNat = true :=
  Memory.wf_scramble h _ _ (min_le_right _ _) _

theorem wf_looseWords {s : State} (h : s.wordmem.wf s.cap.wordmemWords.toNat = true) (lo hi : Nat) :
    (s.looseWords lo hi).wordmem.wf s.cap.wordmemWords.toNat = true :=
  Memory.wf_scramble h _ _ (min_le_right _ _) _

/-- The memories of the reset state are in canonical form. -/
theorem reset_memories_wf :
    State.reset.bitmem.wf State.reset.cap.bitmemBits.toNat = true ∧
    State.reset.bytemem.wf State.reset.cap.bytememBytes.toNat = true ∧
    State.reset.wordmem.wf State.reset.cap.wordmemWords.toNat = true :=
  ⟨Memory.wf_nil _, Memory.wf_nil _, Memory.wf_nil _⟩

end Sys2Proof.Machine
end

