-- ==== Sys2Proof/Laws/Decoder.lean ====
section
/-! SUPPORT. What one pass of the decoder can do (45_glz_decode.md R117, R118): the frame returns, the fetch, each operation's effect, and how a cycle makes progress. -/

namespace Sys2Proof.Machine

/-! ### Frame returns -/

/-- What frame returns leave alone: everything but p, rem and d. -/
theorem Decoder.popFinished_keeps (fuel : Nat) (x : Decoder) :
    let y := Decoder.popFinished fuel x
    y.running = x.running ∧ y.cmd = x.cmd ∧ y.q = x.q ∧ y.frame0 = x.frame0 ∧ y.frame1 = x.frame1 ∧
      y.cycles = x.cycles ∧ y.pushes = x.pushes ∧ y.k = x.k ∧ y.out = x.out ∧ y.limit = x.limit ∧ y.d ≤ x.d := by
  induction fuel generalizing x with
  | zero => simp [Decoder.popFinished]
  | succ fuel ih =>
    simp only [Decoder.popFinished]
    split
    · obtain ⟨h1, h2, h3, h4, h5, h6, h7, h8, h9, h10, h11⟩ := ih x.pop
      exact ⟨h1, h2, h3, h4, h5, h6, h7, h8, h9, h10, le_trans h11 (Nat.sub_le _ _)⟩
    · simp

@[simp] theorem Decoder.popFinished_running (fuel : Nat) (x : Decoder) :
    (Decoder.popFinished fuel x).running = x.running := (x.popFinished_keeps fuel).1

@[simp] theorem Decoder.popFinished_cmd (fuel : Nat) (x : Decoder) :
    (Decoder.popFinished fuel x).cmd = x.cmd := (x.popFinished_keeps fuel).2.1

@[simp] theorem Decoder.popFinished_cycles (fuel : Nat) (x : Decoder) :
    (Decoder.popFinished fuel x).cycles = x.cycles := (x.popFinished_keeps fuel).2.2.2.2.2.1

@[simp] theorem Decoder.popFinished_pushes (fuel : Nat) (x : Decoder) :
    (Decoder.popFinished fuel x).pushes = x.pushes := (x.popFinished_keeps fuel).2.2.2.2.2.2.1

@[simp] theorem Decoder.popFinished_k (fuel : Nat) (x : Decoder) :
    (Decoder.popFinished fuel x).k = x.k := (x.popFinished_keeps fuel).2.2.2.2.2.2.2.1

@[simp] theorem Decoder.popFinished_out (fuel : Nat) (x : Decoder) :
    (Decoder.popFinished fuel x).out = x.out := (x.popFinished_keeps fuel).2.2.2.2.2.2.2.2.1

@[simp] theorem Decoder.popFinished_limit (fuel : Nat) (x : Decoder) :
    (Decoder.popFinished fuel x).limit = x.limit := (x.popFinished_keeps fuel).2.2.2.2.2.2.2.2.2.1

/-- With the depth as its fuel, the frame returns run until bytes are owed or no frame is in use. -/
theorem Decoder.popFinished_stops (x : Decoder) :
    let y := Decoder.popFinished x.d x
    y.rem.isZero = false ∨ y.d = 0 := by
  suffices h : ∀ fuel (x : Decoder), x.d ≤ fuel →
      (Decoder.popFinished fuel x).rem.isZero = false ∨ (Decoder.popFinished fuel x).d = 0 from h _ _ le_rfl
  intro fuel
  induction fuel with
  | zero => intro x hx; exact .inr (Nat.le_zero.1 hx)
  | succ fuel ih =>
    intro x hx
    simp only [Decoder.popFinished]
    split
    · exact ih _ (by simp only [Decoder.pop]; omega)
    · rename_i h
      simp only [Bool.and_eq_true, decide_eq_true_eq, not_and] at h
      by_cases hz : x.rem.isZero = true
      · exact .inr (by have := h hz; omega)
      · exact .inl (by simpa using hz)

/-- Nothing returns while bytes are owed. -/
theorem Decoder.popFinished_of_owed {x : Decoder} (h : x.rem.isZero = false) (fuel : Nat) :
    Decoder.popFinished fuel x = x := by
  cases fuel <;> simp [Decoder.popFinished, h]

/-! ### The fetch -/

/-- Everything the decoder's fetch can find (45_glz_decode.md R117, R118). -/
theorem fetchOp_cases (s : State) :
    let x := Decoder.popFinished s.dec.d s.dec
    let y := { x with cycles := x.cycles + 1 }
    (x.finished s.streamLen.toNat = true ∧ fetchOp s = .ended (State.endDecode { s with dec := x })) ∨
    (x.finished s.streamLen.toNat = false ∧ 2 * x.limit < x.cycles + 1 ∧
      fetchOp s = .ended (State.failDecode { s with dec := y } .runtimeExceeded x.p)) ∨
    (x.finished s.streamLen.toNat = false ∧ x.cycles + 1 ≤ 2 * x.limit ∧ ∃ why,
      decodeOp s.coder s.stream x.p = .error why ∧
      fetchOp s = .ended (State.failDecode { s with dec := y } why.code why.pos)) ∨
    (x.finished s.streamLen.toNat = false ∧ x.cycles + 1 ≤ 2 * x.limit ∧ ∃ op q,
      decodeOp s.coder s.stream x.p = .ok (op, q) ∧ fetchOp s = .op op { s with dec := { y with q := q } }) := by
  intro x y
  by_cases hf : x.finished s.streamLen.toNat = true
  · exact .inl ⟨hf, by simp only [fetchOp]; rw [if_pos hf]⟩
  · refine .inr ?_
    have hf' : x.finished s.streamLen.toNat = false := by simpa using hf
    by_cases hc : 2 * x.limit < x.cycles + 1
    · exact .inl ⟨hf', hc, by simp only [fetchOp]; rw [if_neg hf, if_pos hc]⟩
    · refine .inr ?_
      have hfo : fetchOp s = match decodeOp s.coder s.stream x.p with
          | .error why => .ended (State.failDecode { s with dec := y } why.code why.pos)
          | .ok (op, q) => .op op { s with dec := { y with q := q } } := by
        simp only [fetchOp]; rw [if_neg hf, if_neg hc] <;> rfl
      rcases hd : decodeOp s.coder s.stream x.p with why | ⟨op, q⟩
      · exact .inl ⟨hf', by omega, why, rfl, by rw [hfo, hd]⟩
      · exact .inr ⟨hf', by omega, op, q, rfl, by rw [hfo, hd]⟩

/-! ### The operations -/

/-- The instruction form of an operation has the operation's effect, in a decode. -/
theorem exec_toInstr {s : State} (h : s.dec.running = true) (op : Op) : exec op.toInstr s = .next (runOp op s) := by
  cases op with
  | imm n b =>
    simp only [Op.toInstr, runOp]
    split
    · simp [exec, execLit, inDecode, h]
    · simp [exec, execRun, inDecode, h]
  | ref n o => simp [Op.toInstr, runOp, exec, execRef, inDecode, h]

/-- An operation's effect by its kind: an immediate of count 1 is LIT. -/
theorem runOp_imm (n : Nat) (b : Byte) (s : State) : runOp (.imm n b) s = runImmediate n b s := by
  simp only [runOp, litEffect, runEffect]
  split <;> simp_all

theorem runOp_ref (n : Nat) (o : Word) (s : State) : runOp (.ref n o) s = runReference n o s := rfl

/-- Everything an immediate can do (45_glz_decode.md R117, R123). -/
theorem runImmediate_cases (n : Nat) (b : Byte) (s : State) :
    let x := s.dec
    let t := x.rem.clip n
    ((x.cmd = .decodeStream ∧ x.limit < x.k + t) ∧ runImmediate n b s = s.failDecode .capacity x.p) ∨
    (¬(x.cmd = .decodeStream ∧ x.limit < x.k + t) ∧
      (runImmediate n b s).dec = { x with k := x.k + t, rem := x.rem.less t, p := x.q } ∧
      s.changesOnly [.bytemem, .dec] (runImmediate n b s) ∧
      ∀ a, (runImmediate n b s).bytemem.read a =
        if x.out + x.k ≤ a ∧ a < x.out + x.k + t ∧ a < s.cap.bytememBytes.toNat then b else s.bytemem.read a) := by
  intro x t
  by_cases h : x.cmd = .decodeStream ∧ x.limit < x.k + t
  · exact .inl ⟨h, if_pos h⟩
  · have he : runImmediate n b s =
        { s.fillBytes (x.out + x.k) b t with dec := { x with k := x.k + t, rem := x.rem.less t, p := x.q } } := if_neg h
    refine .inr ⟨h, by rw [he], fun p hp => ?_, fun a => ?_⟩
    · rw [he]
      cases p <;> first | exact absurd (by decide) hp | simp [Part.same]
    · rw [he]; exact fillBytes_read _ _ _ _ _

/-- Everything a reference can do (45_glz_decode.md R117, R119). -/
theorem runReference_cases (n : Nat) (o : Word) (s : State) :
    let x := s.dec
    (x.rem.coveredBy n = true ∧ runReference n o s = { s with dec := { x with p := x.q + o.toNat } }) ∨
    (x.rem.coveredBy n = false ∧ 2 ≤ x.d ∧ runReference n o s = s.failDecode .recursionExceeded x.p) ∨
    (x.rem.coveredBy n = false ∧ x.d < 2 ∧ runReference n o s =
      { s with dec := { x.push ⟨x.q, x.rem.less n⟩ with p := x.q + o.toNat, rem := .bytes n } }) := by
  intro x
  unfold runReference
  by_cases hc : x.rem.coveredBy n = true
  · exact .inl ⟨hc, by rw [if_pos hc]⟩
  · have hc' : x.rem.coveredBy n = false := by simpa using hc
    by_cases hd : Config.depthMax ≤ x.d
    · exact .inr (.inl ⟨hc', hd, by rw [if_neg hc, if_pos hd]⟩)
    · exact .inr (.inr ⟨hc', by simpa [Config.depthMax] using hd, by rw [if_neg hc, if_neg hd]⟩)

/-! ### Ends and progress -/

/-- What a normal end of a decode does. -/
theorem endDecode_spec (s : State) :
    s.endDecode.dec.running = false ∧ s.endDecode.report = s.report.finished ∧
    s.endDecode.cycles = saturate s.dec.cycles ∧ s.endDecode.pushes = saturate s.dec.pushes ∧
    s.endDecode.res.r0 = BitVec.ofNat 32 s.dec.k ∧
    s.changesOnly [.report, .res0, .cycles, .pushes, .dec] s.endDecode := by
  refine ⟨rfl, rfl, rfl, rfl, rfl, fun p hp => ?_⟩
  cases p <;> first | rfl | exact absurd (by decide) hp

/-- What a decode that ends in error does (60_exceptions.md R137): the output region alone is loose. -/
theorem failDecode_spec (s : State) (code : ErrCode) (pos : Nat) :
    (s.failDecode code pos).dec = { s.dec with running := false } ∧
    (s.failDecode code pos).report = Report.failed code pos ∧
    (s.failDecode code pos).cycles = saturate s.dec.cycles ∧ (s.failDecode code pos).pushes = saturate s.dec.pushes ∧
    s.changesOnly [.report, .bytemem, .res0, .res1, .res2, .res3, .cycles, .pushes, .dec, .free] (s.failDecode code pos) ∧
    s.bytesKeptOutside s.dec.out (s.dec.out + s.dec.limit) (s.failDecode code pos) := by
  refine ⟨rfl, rfl, rfl, rfl, fun p hp => ?_, fun a ha => looseBytes_read_outside s _ _ ha⟩
  cases p <;> first | rfl | exact absurd (by decide) hp

/-- An operation ends the decode, or leaves its command, output, limit and cycle count as they were. -/
theorem runOp_progress (op : Op) (s : State) :
    (runOp op s).dec.running = false ∨
    ((runOp op s).dec.running = s.dec.running ∧ (runOp op s).dec.cmd = s.dec.cmd ∧ (runOp op s).dec.out = s.dec.out ∧
      (runOp op s).dec.limit = s.dec.limit ∧ (runOp op s).dec.cycles = s.dec.cycles) := by
  cases op with
  | imm n b =>
    rw [runOp_imm]
    rcases runImmediate_cases n b s with ⟨-, h⟩ | ⟨-, h, -, -⟩
    · exact .inl (by rw [h]; rfl)
    · exact .inr (by rw [h]; simp)
  | ref n o =>
    rw [runOp_ref]
    rcases runReference_cases n o s with ⟨-, h⟩ | ⟨-, -, h⟩ | ⟨-, -, h⟩
    · exact .inr (by rw [h]; simp)
    · exact .inl (by rw [h]; rfl)
    · refine .inr ?_
      rw [h]
      simp only [Decoder.push]
      split <;> simp

/-- One cycle ends the decode or counts one more cycle, still within the cap (45_glz_decode.md R118). -/
theorem decodeCycle_progress (s : State) :
    (decodeCycle s).dec.running = false ∨
    ((decodeCycle s).dec.cycles = s.dec.cycles + 1 ∧ (decodeCycle s).dec.cycles ≤ 2 * (decodeCycle s).dec.limit ∧
      (decodeCycle s).dec.cmd = s.dec.cmd ∧ (decodeCycle s).dec.out = s.dec.out ∧
      (decodeCycle s).dec.limit = s.dec.limit) := by
  rcases fetchOp_cases s with ⟨-, h⟩ | ⟨-, -, h⟩ | ⟨-, -, why, -, h⟩ | ⟨-, hc, op, q, -, h⟩
  · exact .inl (by rw [decodeCycle, h]; rfl)
  · exact .inl (by rw [decodeCycle, h]; rfl)
  · exact .inl (by rw [decodeCycle, h]; rfl)
  · simp only [decodeCycle, h]
    refine (runOp_progress op _).imp_right fun ⟨_, h2, h3, h4, h5⟩ => ?_
    rw [h2, h3, h4, h5]
    simp only [Decoder.popFinished_cycles, Decoder.popFinished_limit, Decoder.popFinished_cmd,
      Decoder.popFinished_out] at hc ⊢
    exact ⟨trivial, hc, trivial, trivial, trivial⟩

end Sys2Proof.Machine
end

