-- ==== Sys2Proof/Laws/Histogram.lean ====
section
/-! SUPPORT. What the histogram's operations can do (41_histogram_remap.md R76 to R81): one lemma says everything each of them answers, and one that it keeps the bound of 10_state.md R31. -/

namespace Sys2Proof.Machine

/-! ### One increment -/

theorem Hist.countOf_lt (h : Hist) (n : Nat) : h.countOf n < 2 ^ 32 := (h.count.read n).isLt

theorem Hist.bump_countOf (h : Hist) (n m : Nat) :
    (h.bump n).countOf m = if m = n then (h.countOf n + 1) % 2 ^ 32 else h.countOf m := by
  simp only [Hist.bump, Hist.countOf, Memory.read_write]
  split <;> simp

@[simp] theorem Hist.bump_fixlen (h : Hist) (n : Nat) : (h.bump n).fixlen = h.fixlen := rfl

theorem Hist.bump_hwm_toNat (h : Hist) {n : Nat} (hn : n + 1 < 2 ^ 32) :
    (h.bump n).hwm.toNat = max h.hwm.toNat (n + 1) := by
  have := h.hwm.isLt
  simp only [Hist.bump, BitVec.toNat_ofNat]
  exact Nat.mod_eq_of_lt (by omega)

/-- Everything HIST_INC can answer with a histogram (41_histogram_remap.md R77). -/
theorem Hist.inc_ok {cap n : Nat} {h h' : Hist} :
    h.inc cap n = .ok h' ↔ n < cap ∧ h.countOf n ≠ 2 ^ 32 - 1 ∧ h' = h.bump n := by
  unfold Hist.inc
  split
  · simp; omega
  · split
    · simp_all
    · simp_all [eq_comm]

/-- Every error of HIST_INC (41_histogram_remap.md R77). -/
theorem Hist.inc_error {cap n : Nat} {h : Hist} {why : Raised} (he : h.inc cap n = .error why) :
    why = ⟨.capacity, 0⟩ ∨ why = ⟨.countOverflow, 0⟩ := by
  unfold Hist.inc at he
  split at he
  · exact .inl (Except.error.inj he).symm
  · split at he
    · exact .inr (Except.error.inj he).symm
    · simp at he

/-- Everything HIST_DEC can answer with a histogram (41_histogram_remap.md R78). -/
theorem Hist.dec_ok {cap n : Nat} {h h' : Hist} :
    h.dec cap n = .ok h' ↔ n < cap ∧ h.countOf n ≠ 0 ∧
      h' = { h with count := h.count.write n (BitVec.ofNat 32 (h.countOf n - 1)) } := by
  unfold Hist.dec
  split
  · simp; omega
  · split
    · simp_all
    · simp_all [eq_comm]

/-- Every error of HIST_DEC (41_histogram_remap.md R78). -/
theorem Hist.dec_error {cap n : Nat} {h : Hist} {why : Raised} (he : h.dec cap n = .error why) :
    why = ⟨.capacity, 0⟩ ∨ why = ⟨.histUnderflow, 0⟩ := by
  unfold Hist.dec at he
  split at he
  · exact .inl (Except.error.inj he).symm
  · split at he
    · exact .inr (Except.error.inj he).symm
    · simp at he

/-- Everything HIST_CLEAR can answer (41_histogram_remap.md R76). -/
theorem Hist.clear_ok {cap f : Nat} {h : Hist} : Hist.clear cap f = .ok h ↔ f ≤ cap ∧ h = Hist.cleared f := by
  unfold Hist.clear
  split
  · simp; omega
  · simp_all [eq_comm]

@[simp] theorem Hist.cleared_countOf (f n : Nat) : (Hist.cleared f).countOf n = 0 := rfl

/-! ### A sequence of increments -/

/-- The counts after a sequence of increments that no counter overflows. -/
theorem Hist.foldl_bump_countOf (h : Hist) (ns : List Nat) (m : Nat) (hm : h.countOf m + ns.count m < 2 ^ 32) :
    (ns.foldl Hist.bump h).countOf m = h.countOf m + ns.count m := by
  induction ns generalizing h with
  | nil => rfl
  | cons n ns ih =>
    rw [List.count_cons] at hm
    have hstep : (h.bump n).countOf m + ns.count m = h.countOf m + (n :: ns).count m := by
      rw [Hist.bump_countOf, List.count_cons]
      by_cases hmn : m = n
      · subst hmn
        simp only [BEq.rfl, if_true] at hm ⊢
        rw [Nat.mod_eq_of_lt (by omega)]
        omega
      · simp [hmn, Ne.symm hmn]
    rw [List.foldl_cons, ih _ (by rw [hstep, List.count_cons]; exact hm), hstep]

@[simp] theorem Hist.foldl_bump_fixlen (h : Hist) (ns : List Nat) : (ns.foldl Hist.bump h).fixlen = h.fixlen := by
  induction ns generalizing h with
  | nil => rfl
  | cons n ns ih => rw [List.foldl_cons, ih, Hist.bump_fixlen]

/-- The high-water mark after a sequence of increments below a capacity. -/
theorem Hist.foldl_bump_hwm (h : Hist) {ns : List Nat} (hn : ∀ n ∈ ns, n + 1 < 2 ^ 32) :
    (ns.foldl Hist.bump h).hwm.toNat = ns.foldl (fun m n => max m (n + 1)) h.hwm.toNat := by
  induction ns generalizing h with
  | nil => rfl
  | cons n ns ih =>
    rw [List.foldl_cons, ih _ fun m hm => hn m (List.mem_cons_of_mem _ hm),
      Hist.bump_hwm_toNat h (hn n (by simp)), List.foldl_cons]

/-- What a sequence of HIST_INC answers with a histogram: every symbol was in range, and the result is the sequence's. -/
theorem Hist.incAll_ok {cap : Nat} {ns : List Nat} {h h' : Hist} (hk : h.incAll cap ns = .ok h') :
    (∀ n ∈ ns, n < cap) ∧ h' = ns.foldl Hist.bump h := by
  induction ns generalizing h with
  | nil => simp_all [Hist.incAll]
  | cons n ns ih =>
    simp only [Hist.incAll] at hk
    split at hk
    · simp at hk
    · rename_i g hg
      obtain ⟨hn, -, rfl⟩ := Hist.inc_ok.1 hg
      obtain ⟨ha, rfl⟩ := ih hk
      exact ⟨by simpa using ⟨hn, ha⟩, rfl⟩

/-- A sequence of HIST_INC that answers with a histogram has counted every occurrence exactly: no counter wrapped. -/
theorem Hist.incAll_countOf {cap : Nat} {ns : List Nat} {h h' : Hist} (hk : h.incAll cap ns = .ok h') (m : Nat) :
    h'.countOf m = h.countOf m + ns.count m := by
  induction ns generalizing h with
  | nil => simp_all [Hist.incAll]
  | cons n ns ih =>
    simp only [Hist.incAll] at hk
    split at hk
    · simp at hk
    · rename_i g hg
      obtain ⟨-, hfull, rfl⟩ := Hist.inc_ok.1 hg
      have := h.countOf_lt n
      rw [ih hk, Hist.bump_countOf, List.count_cons]
      by_cases hm : m = n
      · subst hm
        rw [if_pos rfl, if_pos BEq.rfl, Nat.mod_eq_of_lt (by omega)]
        omega
      · simp [hm, Ne.symm hm]

/-- A sequence of HIST_INC answers with a histogram when every symbol is in range and no counter would pass its end. -/
theorem Hist.incAll_of_room {cap : Nat} {ns : List Nat} {h : Hist} (hn : ∀ n ∈ ns, n < cap)
    (hc : ∀ n, h.countOf n + ns.count n < 2 ^ 32) : h.incAll cap ns = .ok (ns.foldl Hist.bump h) := by
  induction ns generalizing h with
  | nil => rfl
  | cons n ns ih =>
    have h0 := hc n
    simp only [List.count_cons_self] at h0
    have h1 : h.inc cap n = .ok (h.bump n) := Hist.inc_ok.2 ⟨hn n (by simp), by omega, rfl⟩
    simp only [Hist.incAll, h1, List.foldl_cons]
    refine ih (fun m hm => hn m (List.mem_cons_of_mem _ hm)) fun m => ?_
    have hm := hc m
    rw [List.count_cons] at hm
    rw [Hist.bump_countOf]
    by_cases hmn : m = n
    · subst hmn
      simp only [BEq.rfl, if_true] at hm ⊢
      rw [Nat.mod_eq_of_lt (by omega)]
      omega
    · simpa [hmn, Ne.symm hmn] using hm

/-- Every error of a sequence of HIST_INC. -/
theorem Hist.incAll_error {cap : Nat} {ns : List Nat} {h : Hist} {why : Raised} (he : h.incAll cap ns = .error why) :
    why = ⟨.capacity, 0⟩ ∨ why = ⟨.countOverflow, 0⟩ := by
  induction ns generalizing h with
  | nil => simp [Hist.incAll] at he
  | cons n ns ih =>
    simp only [Hist.incAll] at he
    split at he
    · rename_i hr
      exact Hist.inc_error (hr.trans he)
    · exact ih he

/-- Everything HIST_SEED can answer with a histogram: every check held, and every symbol is counted (41_histogram_remap.md R81). -/
theorem Hist.seed_ok {cap : Nat} {ns : List Nat} {h h' : Hist} (hk : h.seed cap ns = .ok h') :
    (∀ n ∈ ns, n < cap) ∧ (∀ n ∈ ns, h.countOf n + ns.count n ≤ 2 ^ 32 - 1) ∧ h' = ns.foldl Hist.bump h := by
  unfold Hist.seed at hk
  split at hk
  · simp at hk
  · split at hk
    · simp at hk
    · simp_all

/-- Every error of HIST_SEED (41_histogram_remap.md R81). -/
theorem Hist.seed_error {cap : Nat} {ns : List Nat} {h : Hist} {why : Raised} (he : h.seed cap ns = .error why) :
    why = ⟨.capacity, 0⟩ ∨ why = ⟨.countOverflow, 0⟩ := by
  unfold Hist.seed at he
  split at he
  · exact .inl (Except.error.inj he).symm
  · split at he
    · exact .inr (Except.error.inj he).symm
    · simp at he

/-! ### The bound -/

theorem Hist.cleared_sound {cap f : Nat} (h : f ≤ cap) : (Hist.cleared f).Sound cap := by
  refine ⟨Memory.wf_nil _, ?_, fun n _ => rfl⟩
  simp only [Hist.bound, Hist.cleared, BitVec.toNat_ofNat]
  exact max_le (le_trans (Nat.mod_le _ _) h) (by simp)

/-- An increment below the capacity keeps the histogram sound (10_state.md R31). -/
theorem Hist.bump_sound {cap n : Nat} {h : Hist} (hs : h.Sound cap) (hn : n < cap) (hc : cap < 2 ^ 32) :
    (h.bump n).Sound cap := by
  obtain ⟨hw, hb, h0⟩ := hs
  have hh := Hist.bump_hwm_toNat h (n := n) (by omega)
  unfold Hist.bound at hb h0
  have hbnd : (h.bump n).bound = max h.fixlen.toNat (max h.hwm.toNat (n + 1)) := by
    simp only [Hist.bound, Hist.bump_fixlen, hh]
  refine ⟨Memory.wf_write hw hn _, by omega, fun m hm => ?_⟩
  rw [hbnd] at hm
  rw [Hist.bump_countOf, if_neg (by omega)]
  exact h0 m (by omega)

theorem Hist.foldl_bump_sound {cap : Nat} {ns : List Nat} {h : Hist} (hs : h.Sound cap) (hn : ∀ n ∈ ns, n < cap)
    (hc : cap < 2 ^ 32) : (ns.foldl Hist.bump h).Sound cap := by
  induction ns generalizing h with
  | nil => exact hs
  | cons n ns ih =>
    exact ih (Hist.bump_sound hs (hn n (by simp)) hc) fun m hm => hn m (List.mem_cons_of_mem _ hm)

/-- A decrement keeps the histogram sound (10_state.md R31). -/
theorem Hist.dec_sound {cap n : Nat} {h h' : Hist} (hs : h.Sound cap) (hk : h.dec cap n = .ok h') : h'.Sound cap := by
  obtain ⟨hn, h1, rfl⟩ := Hist.dec_ok.1 hk
  obtain ⟨hw, hb, h0⟩ := hs
  refine ⟨Memory.wf_write hw hn _, hb, fun m hm => ?_⟩
  have hm' : h.bound ≤ m := hm
  have hne : m ≠ n := fun he => h1 (he ▸ h0 m hm')
  simpa only [Hist.countOf, Memory.read_write_other _ _ hne] using h0 m hm'

/-! ### The sort -/

theorem sortInsert_perm {α : Type} (le : α → α → Bool) (x : α) (l : List α) : (sortInsert le x l).Perm (x :: l) := by
  induction l with
  | nil => exact .refl _
  | cons y ys ih =>
    unfold sortInsert
    split
    · exact .refl _
    · exact (ih.cons y).trans (.swap x y ys)

/-- The sort reorders and nothing else. -/
theorem sortBy_perm {α : Type} (le : α → α → Bool) (l : List α) : (sortBy le l).Perm l := by
  induction l with
  | nil => exact .refl _
  | cons x xs ih => exact (sortInsert_perm le x _).trans (ih.cons x)

theorem sortInsert_pairwise {α : Type} {le : α → α → Bool} (ht : ∀ a b, le a b = true ∨ le b a = true)
    (hr : ∀ a b c, le a b = true → le b c = true → le a c = true) (x : α) {l : List α}
    (hl : l.Pairwise fun a b => le a b = true) : (sortInsert le x l).Pairwise fun a b => le a b = true := by
  induction l with
  | nil => simp [sortInsert]
  | cons y ys ih =>
    rw [List.pairwise_cons] at hl
    unfold sortInsert
    split
    · rename_i hxy
      refine List.pairwise_cons.2 ⟨fun z hz => ?_, List.pairwise_cons.2 hl⟩
      rcases List.mem_cons.1 hz with rfl | hz
      · exact hxy
      · exact hr _ _ _ hxy (hl.1 z hz)
    · rename_i hxy
      refine List.pairwise_cons.2 ⟨fun z hz => ?_, ih hl.2⟩
      rcases List.mem_cons.1 ((sortInsert_perm le x ys).mem_iff.1 hz) with rfl | hz
      · exact (ht _ _).resolve_left hxy
      · exact hl.1 z hz

/-- The sort by a total order puts every element before those it precedes. -/
theorem sortBy_pairwise {α : Type} {le : α → α → Bool} (ht : ∀ a b, le a b = true ∨ le b a = true)
    (hr : ∀ a b c, le a b = true → le b c = true → le a c = true) (l : List α) :
    (sortBy le l).Pairwise fun a b => le a b = true := by
  induction l with
  | nil => exact .nil
  | cons x xs ih => exact sortInsert_pairwise ht hr x ih

theorem Hist.before_total (h : Hist) (x y : Nat) : h.before x y = true ∨ h.before y x = true := by
  simp only [Hist.before, Bool.or_eq_true, Bool.and_eq_true, decide_eq_true_eq]
  omega

theorem Hist.before_trans (h : Hist) (x y z : Nat) (hxy : h.before x y = true) (hyz : h.before y z = true) :
    h.before x z = true := by
  simp only [Hist.before, Bool.or_eq_true, Bool.and_eq_true, decide_eq_true_eq] at *
  omega

theorem Hist.sorted_perm (h : Hist) : h.sorted.Perm (List.range h.bound) := sortBy_perm _ _

@[simp] theorem Hist.length_sorted (h : Hist) : h.sorted.length = h.bound := by
  rw [h.sorted_perm.length_eq, List.length_range]

theorem Hist.sorted_pairwise (h : Hist) : h.sorted.Pairwise fun a b => h.before a b = true :=
  sortBy_pairwise h.before_total h.before_trans _

/-! ### Installing a table -/

theorem inverseEntries_read_other (e : Memory 32) (r : Nat) (ns : List Nat) {m : Nat} (h : m ∉ ns) :
    (inverseEntries e r ns).read m = e.read m := by
  induction ns generalizing e r with
  | nil => rfl
  | cons n ns ih =>
    rw [List.mem_cons, not_or] at h
    rw [inverseEntries, ih _ _ h.2, Memory.read_write_other _ _ h.1]

theorem inverseEntries_read (e : Memory 32) (r : Nat) {ns : List Nat} (hn : ns.Nodup) (i : Nat) (hi : i < ns.length) :
    (inverseEntries e r ns).read ns[i] = BitVec.ofNat 32 (r + i) := by
  induction ns generalizing e r i with
  | nil => simp at hi
  | cons n ns ih =>
    rw [List.nodup_cons] at hn
    rw [inverseEntries]
    cases i with
    | zero => simp [inverseEntries_read_other _ _ _ hn.1]
    | succ i =>
      rw [List.getElem_cons_succ, ih _ _ hn.2 i (by simpa using hi)]
      congr 1; omega

theorem wf_inverseEntries {cap : Nat} {e : Memory 32} (he : e.wf cap = true) (r : Nat) {ns : List Nat}
    (h : ∀ n ∈ ns, n < cap) : (inverseEntries e r ns).wf cap = true := by
  induction ns generalizing e r with
  | nil => exact he
  | cons n ns ih =>
    exact ih (Memory.wf_write he (h n (by simp)) _) _ fun m hm => h m (List.mem_cons_of_mem _ hm)

theorem Remap.install_nil (r : Remap) : r.install [] = { r with en := false, b := 0 } := if_pos rfl

theorem Remap.install_cons (r : Remap) {ns : List Nat} (h : ns ≠ []) : r.install ns =
    { en := true, b := BitVec.ofNat 32 ns.length, d := r.d.writeList 0 (ns.map (BitVec.ofNat 32))
      e := inverseEntries r.e 0 ns } := if_neg h

/-- The decode table after an install lists the symbols. -/
theorem Remap.install_d (r : Remap) {ns : List Nat} (i : Nat) (hi : i < ns.length) :
    (r.install ns).d.read i = BitVec.ofNat 32 ns[i] := by
  rw [r.install_cons (List.ne_nil_of_length_pos (by omega)), Memory.read_writeList, dif_pos ⟨by omega, by simpa using hi⟩]
  simp

/-- The encode table after an install of distinct symbols gives each its rank. -/
theorem Remap.install_e (r : Remap) {ns : List Nat} (hn : ns.Nodup) (i : Nat) (hi : i < ns.length) :
    (r.install ns).e.read ns[i] = BitVec.ofNat 32 i := by
  rw [r.install_cons (List.ne_nil_of_length_pos (by omega)), inverseEntries_read _ _ hn i hi, Nat.zero_add]

/-- An install of distinct symbols below their number leaves the tables sound (10_state.md R32). -/
theorem Remap.install_sound (r : Remap) {ns : List Nat} (hn : ns.Nodup) (hb : ∀ n ∈ ns, n < ns.length)
    (hl : ns.length < 2 ^ 32) : (r.install ns).Sound := by
  by_cases h : ns = []
  · subst h
    exact ⟨fun he => by simp [Remap.install_nil] at he, fun _ => rfl⟩
  · have hbn : (r.install ns).b.toNat = ns.length := by
      rw [r.install_cons h]; simpa using Nat.mod_eq_of_lt hl
    refine ⟨fun _ => ⟨by rw [hbn]; exact List.length_pos_of_ne_nil h, fun n hlt => ?_⟩, fun he => ?_⟩
    · rw [hbn] at hlt ⊢
      have hlt' := hb _ (List.getElem_mem hlt)
      have hd : ((r.install ns).d.read n).toNat = ns[n] := by
        rw [r.install_d n hlt, BitVec.toNat_ofNat, Nat.mod_eq_of_lt (by omega)]
      rw [hd, r.install_e hn n hlt, BitVec.toNat_ofNat, Nat.mod_eq_of_lt (by omega)]
      exact ⟨hlt', rfl⟩
    · rw [r.install_cons h] at he
      simp at he

/-! ### After a failed GLZ_SEED -/

/-- Whatever values U4 leaves, the counters are in canonical form and none lies at or above HIST_CAP. -/
theorem State.wf_looseHist_count (s : State) : s.looseHist.hist.count.wf s.cap.histCap.toNat = true :=
  Memory.wf_scramble (Memory.wf_nil _) 0 _ le_rfl _

end Sys2Proof.Machine
end

