-- ==== Sys2Proof/Laws/Encode.lean ====
section
/-! SUPPORT. What the encoder's operations can do (44_glz_encode.md R107 to R111): emission, the two candidates, the dictionary, and one pass of the scan. -/

namespace Sys2Proof.Machine

/-! ### Emission -/

/-- Emission into a stream: the operation fits and is appended (44_glz_encode.md R108). -/
theorem emit_stream_ok {env : EncodeEnv} {s0 cap : Nat} (hs : env.sink = .stream s0 cap) {x y : EncodeRun} {op : Op} :
    emit env x op = .ok y ↔ s0 + x.enc.w + env.coder.opLen op ≤ cap ∧ y = { x with enc := x.enc.push env.coder op } := by
  unfold emit
  rw [hs]
  dsimp only
  split
  · simp; omega
  · simp_all [eq_comm]

/-- The one error of emission into a stream: CAPACITY(S0) (44_glz_encode.md R108). -/
theorem emit_stream_error {env : EncodeEnv} {s0 cap : Nat} (hs : env.sink = .stream s0 cap) {x : EncodeRun} {op : Op}
    {why : Raised} : emit env x op = .error why ↔ cap < s0 + x.enc.w + env.coder.opLen op ∧ why = ⟨.capacity, s0⟩ := by
  unfold emit
  rw [hs]
  dsimp only
  split
  · simp_all [eq_comm]
  · simp_all

/-- Emission into a histogram: each symbol of the operation is counted (44_glz_encode.md R116). -/
theorem emit_hist_ok {env : EncodeEnv} {cap : Nat} (hs : env.sink = .hist cap) {x y : EncodeRun} {op : Op}
    (h : emit env x op = .ok y) :
    (∀ n ∈ opSymbols env.coder.l op, n < cap) ∧ y.enc = x.enc.push env.coder op ∧
      y.hist = (opSymbols env.coder.l op).foldl Hist.bump x.hist := by
  unfold emit at h
  rw [hs] at h
  dsimp only at h
  split at h
  · simp at h
  · rename_i g hg
    obtain ⟨hn, rfl⟩ := Hist.incAll_ok hg
    obtain rfl := Except.ok.inj h
    exact ⟨hn, rfl, rfl⟩

/-- Emission into a histogram counts each symbol of the operation exactly (44_glz_encode.md R116). -/
theorem emit_hist_countOf {env : EncodeEnv} {cap : Nat} (hs : env.sink = .hist cap) {x y : EncodeRun} {op : Op}
    (h : emit env x op = .ok y) (n : Nat) :
    y.hist.countOf n = x.hist.countOf n + (opSymbols env.coder.l op).count n := by
  unfold emit at h
  rw [hs] at h
  dsimp only at h
  split at h
  · simp at h
  · rename_i g hg
    obtain rfl := Except.ok.inj h
    exact Hist.incAll_countOf hg n

/-- Every error of emission into a histogram (44_glz_encode.md R116). -/
theorem emit_hist_error {env : EncodeEnv} {cap : Nat} (hs : env.sink = .hist cap) {x : EncodeRun} {op : Op}
    {why : Raised} (h : emit env x op = .error why) : why = ⟨.capacity, 0⟩ ∨ why = ⟨.countOverflow, 0⟩ := by
  unfold emit at h
  rw [hs] at h
  dsimp only at h
  split at h
  · rename_i hr
    obtain rfl := Except.error.inj h
    exact Hist.incAll_error hr
  · simp at h

/-- Emission appends the operation to EL and its length to W, whatever the sink (44_glz_encode.md R108). -/
theorem emit_enc {env : EncodeEnv} {x y : EncodeRun} {op : Op} (h : emit env x op = .ok y) :
    y.enc = x.enc.push env.coder op := by
  rcases hs : env.sink with ⟨s0, cap⟩ | cap
  · rw [((emit_stream_ok hs).1 h).2]
  · exact (emit_hist_ok hs h).2.1

@[simp] theorem Encoder.push_el (x : Encoder) (c : Coder) (op : Op) : (x.push c op).el = x.el ++ [op] := rfl
@[simp] theorem Encoder.push_w (x : Encoder) (c : Coder) (op : Op) : (x.push c op).w = x.w + c.opLen op := rfl
@[simp] theorem Encoder.push_dict (x : Encoder) (c : Coder) (op : Op) : (x.push c op).dict = x.dict := rfl
@[simp] theorem Encoder.push_q (x : Encoder) (c : Coder) (op : Op) : (x.push c op).q = x.q := rfl
@[simp] theorem Encoder.push_r (x : Encoder) (c : Coder) (op : Op) : (x.push c op).r = x.r := rfl
@[simp] theorem Encoder.push_f (x : Encoder) (c : Coder) (op : Op) : (x.push c op).f = x.f := rfl

/-- The stream's length is the sum of its operations' lengths (44_glz_encode.md R110). -/
theorem Encoder.length_stream (x : Encoder) (c : Coder) : (x.stream c).length = (x.el.map c.opLen).sum := by
  simp only [Encoder.stream, List.length_flatMap, length_encodeOp]
  exact ((List.reverse_perm x.el).map c.opLen).sum_eq

/-- An operation emitted later stands earlier in the stream (44_glz_encode.md R110). -/
theorem Encoder.stream_push (x : Encoder) (c d : Coder) (op : Op) :
    (x.push c op).stream d = encodeOp d op ++ x.stream d := by
  simp [Encoder.stream]

/-! ### The candidates -/

/-- The trailing run holds equal bytes and stays within its cap (44_glz_encode.md R109). -/
theorem trailingRun_spec (mem : Memory 8) (base q : Nat) (b : Byte) (more c : Nat) :
    let r := trailingRun mem base q b more c
    c ≤ r ∧ r ≤ c + more ∧ ∀ j, c ≤ j → j < r → mem.read (base + q - 1 - j) = b := by
  induction more generalizing c with
  | zero => simp [trailingRun]; omega
  | succ more ih =>
    simp only [trailingRun]
    split
    · rename_i hb
      obtain ⟨h1, h2, h3⟩ := ih (c + 1)
      refine ⟨by omega, by omega, fun j hj hlt => ?_⟩
      rcases Nat.eq_or_lt_of_le hj with rfl | hj
      · exact hb
      · exact h3 j hj hlt
    · exact ⟨le_rfl, by omega, fun j h1 h2 => by omega⟩

theorem bytesEqual_iff (mem : Memory 8) (a b n : Nat) :
    bytesEqual mem a b n = true ↔ ∀ j < n, mem.read (a + j) = mem.read (b + j) := by
  simp [bytesEqual]

theorem Anchor.serves_iff (an : Anchor) (mem : Memory 8) (base q w n : Nat) :
    an.serves mem base q w n = true ↔
      n ≤ an.lim - an.a ∧ w - an.w < 2 ^ 32 ∧ ∀ j < n, mem.read (an.a + j) = mem.read (base + q - n + j) := by
  simp [Anchor.serves, bytesEqual_iff, and_assoc]

/-- What the reference search finds: a size in its range, and an anchor of the dictionary that serves it (44_glz_encode.md R109). -/
theorem findRef_spec {mem : Memory 8} {base : Nat} {x : Encoder} {top n o : Nat}
    (h : findRef mem base x top = some (n, o)) :
    2 ≤ n ∧ n ≤ top + 1 ∧ ∃ an ∈ x.dict, an.serves mem base x.q x.w n = true ∧ o = x.w - an.w := by
  induction top with
  | zero => simp [findRef] at h
  | succ top ih =>
    simp only [findRef] at h
    split at h
    · rename_i an ha
      obtain ⟨rfl, rfl⟩ := Prod.mk.inj (Option.some.inj h)
      exact ⟨by omega, by omega, an, by simpa using List.mem_of_find?_eq_some ha, by simpa using List.find?_some ha, rfl⟩
    · obtain ⟨h1, h2, h3⟩ := ih h
      exact ⟨h1, by omega, h3⟩

/-! ### The dictionary -/

theorem mem_appendAnchor {l : Nat} {dict : List Anchor} {an x : Anchor} (h : x ∈ appendAnchor l dict an) :
    x ∈ dict ∨ x = an := by
  have : x ∈ dict ++ [an] := by
    unfold appendAnchor at h
    split at h
    · exact List.mem_of_mem_tail h
    · exact h
  simpa using this

/-- The dictionary never holds more than 2^L anchors (10_state.md R34, 44_glz_encode.md R107). -/
theorem length_appendAnchor {l : Nat} {dict : List Anchor} (an : Anchor) (h : dict.length ≤ 2 ^ l) :
    (appendAnchor l dict an).length ≤ 2 ^ l := by
  unfold appendAnchor
  split
  · simpa using h
  · omega

/-! ### One pass of the scan -/

/-- The immediate candidate, when it is emitted. -/
theorem takeImm_ok {env : EncodeEnv} {base c : Nat} {x y : EncodeRun} {b : Byte}
    (h : takeImm env base x c b = .ok y) : ∃ z, emit env x (.imm c b) = .ok z ∧ y.hist = z.hist ∧
      y.enc = { z.enc with
        q := z.enc.q - c, f := false
        dict := appendAnchor env.coder.l z.enc.dict ⟨base + (z.enc.q - c), base + z.enc.r, z.enc.w⟩ } := by
  unfold takeImm at h
  split at h
  · simp at h
  · rename_i z hz
    obtain rfl := Except.ok.inj h
    exact ⟨z, hz, rfl, rfl⟩

/-- The reference candidate, when it is emitted. -/
theorem takeRef_ok {env : EncodeEnv} {n o : Nat} {x y : EncodeRun}
    (h : takeRef env x n o = .ok y) : ∃ z, emit env x (.ref n (BitVec.ofNat 32 o)) = .ok z ∧ y.hist = z.hist ∧
      y.enc = { z.enc with q := z.enc.q - n, r := z.enc.q - n, f := true } := by
  unfold takeRef at h
  split at h
  · simp at h
  · rename_i z hz
    obtain rfl := Except.ok.inj h
    exact ⟨z, hz, rfl, rfl⟩

/-- Everything one pass of the scan can do: a reference that serves and costs less for each byte, or the immediate (44_glz_encode.md R109). -/
theorem scanStep_cases (env : EncodeEnv) (base : Nat) (x : EncodeRun) :
    let q := x.enc.q
    let b := env.mem.read (base + q - 1)
    let c := trailingRun env.mem base q b (min (sizeMax env.coder.l) q - 1) 1
    (∃ n o, x.enc.f = false ∧ findRef env.mem base x.enc (min (sizeMax env.coder.l) q - 1) = some (n, o) ∧
      env.coder.opLen (.ref n (BitVec.ofNat 32 o)) * c < env.coder.opLen (.imm c b) * n ∧
      scanStep env base x = takeRef env x n o) ∨
    scanStep env base x = takeImm env base x c b := by
  intro q b c
  unfold scanStep
  cases hf : x.enc.f with
  | true => exact .inr (by simp [q, b, c])
  | false =>
    rcases hr : findRef env.mem base x.enc (min (sizeMax env.coder.l) q - 1) with _ | ⟨n, o⟩
    · exact .inr (by simp only [q] at hr; simp [hr, q, b, c])
    · by_cases hlt : env.coder.opLen (.ref n (BitVec.ofNat 32 o)) * c < env.coder.opLen (.imm c b) * n
      · exact .inl ⟨n, o, rfl, rfl, hlt, by simp only [q] at hr; simp only [hr]; exact if_pos hlt⟩
      · exact .inr (by simp only [q] at hr; simp only [hr]; exact if_neg hlt)

/-- A pass of the scan with bytes left lowers the scan position. -/
theorem scanStep_lowers {env : EncodeEnv} {base : Nat} {x y : EncodeRun} (hq : 0 < x.enc.q)
    (h : scanStep env base x = .ok y) : y.enc.q < x.enc.q := by
  rcases scanStep_cases env base x with ⟨n, o, -, hr, -, he⟩ | he
  · obtain ⟨z, hz, -, hy⟩ := takeRef_ok (he.symm.trans h)
    have := (findRef_spec hr).1
    rw [hy, emit_enc hz]
    simp only [Encoder.push_q]
    omega
  · obtain ⟨z, hz, -, hy⟩ := takeImm_ok (he.symm.trans h)
    have := (trailingRun_spec env.mem base x.enc.q (env.mem.read (base + x.enc.q - 1))
      (min (sizeMax env.coder.l) x.enc.q - 1) 1).1
    rw [hy, emit_enc hz]
    simp only [Encoder.push_q]
    omega

/-- With the bytes left as its fuel, the scan runs to position 0 (44_glz_encode.md R109). -/
theorem encodeScan_q {env : EncodeEnv} {base fuel : Nat} {x y : EncodeRun} (hq : x.enc.q ≤ fuel)
    (h : encodeScan env base fuel x = .ok y) : y.enc.q = 0 := by
  induction fuel generalizing x with
  | zero =>
    obtain rfl := Except.ok.inj h
    exact Nat.le_zero.1 hq
  | succ fuel ih =>
    simp only [encodeScan] at h
    by_cases hz : x.enc.q = 0
    · rw [if_pos hz] at h
      obtain rfl := Except.ok.inj h
      exact hz
    · rw [if_neg hz] at h
      split at h
      · simp at h
      · rename_i z hstep
        exact ih (by have := scanStep_lowers (Nat.pos_of_ne_zero hz) hstep; omega) h

/-! ### The slices -/

/-- A slice of a new length is no duplicate, so it is encoded. -/
theorem encodeSlices_fresh {env : EncodeEnv} {d : Slice} {ds : List Slice} {ends : List (Slice × Nat)} {x : EncodeRun}
    {r : List (Slice × Nat) × EncodeRun} (hn : ∀ e ∈ ends, e.1.len ≠ d.len)
    (h : encodeSlices env (d :: ds) ends x = .ok r) :
    ∃ y, encodeSlice env d x = .ok y ∧ encodeSlices env ds (ends ++ [(d, y.enc.w)]) y = .ok r := by
  have hf : ends.find? (fun e => decide (e.1.len = d.len) && bytesEqual env.mem e.1.addr d.addr d.len) = none := by
    simp only [List.find?_eq_none, Bool.and_eq_true, decide_eq_true_eq, not_and]
    exact fun e he hl => absurd hl (hn e he)
  simp only [encodeSlices, hf] at h
  split at h
  · simp at h
  · rename_i y hy
    exact ⟨y, hy, h⟩


theorem Slice.before_total (a b : Slice) : a.before b = true ∨ b.before a = true := by
  simp only [Slice.before, Bool.or_eq_true, Bool.and_eq_true, decide_eq_true_eq]
  omega

theorem Slice.before_trans (a b c : Slice) (hab : a.before b = true) (hbc : b.before c = true) :
    a.before c = true := by
  simp only [Slice.before, Bool.or_eq_true, Bool.and_eq_true, decide_eq_true_eq] at *
  omega

end Sys2Proof.Machine
end

