-- ==== Sys2Proof/Laws/PerInstr.lean ====
section
/-! SUPPORT. A statement for every instruction, one lemma for each constructor: an instruction that has a command word is decoded from it, and the word's RSVD field is 0 (30_encoding.md R55, R56). -/

namespace Sys2Proof.Laws

/-- The command word of an instruction decodes back to it and has RSVD = 0 (30_encoding.md R55). -/
def CommandWord.Statement (i : Instr) : Prop :=
  ∀ w, commandWord i = some w → w.extractLsb' 8 24 = 0 ∧ decodeCommand w = .ok i

/-- A word in the opcode map with RSVD = 0 gives its statement. -/
theorem commandWord_of_word {i : Instr} {v : Word} (hw : commandWord i = some v) (hr : v.extractLsb' 8 24 = 0)
    (hd : decodeCommand v = .ok i) : CommandWord.Statement i := fun w h => by
  obtain rfl : v = w := Option.some.inj (hw.symm.trans h)
  exact ⟨hr, hd⟩

theorem CommandWord.nop : CommandWord.Statement .nop :=
  commandWord_of_word (v := 0x00000000) rfl (by decide) rfl

theorem CommandWord.reset : CommandWord.Statement .reset :=
  commandWord_of_word (v := 0x00000001) rfl (by decide) rfl

theorem CommandWord.bitsPut : CommandWord.Statement .bitsPut :=
  commandWord_of_word (v := 0x00000010) rfl (by decide) rfl

theorem CommandWord.bitsGet : CommandWord.Statement .bitsGet :=
  commandWord_of_word (v := 0x00000011) rfl (by decide) rfl

theorem CommandWord.bitsPutStream : CommandWord.Statement .bitsPutStream :=
  commandWord_of_word (v := 0x00000012) rfl (by decide) rfl

theorem CommandWord.bitsGetStream : CommandWord.Statement .bitsGetStream :=
  commandWord_of_word (v := 0x00000013) rfl (by decide) rfl

theorem CommandWord.histClear : CommandWord.Statement .histClear :=
  commandWord_of_word (v := 0x00000020) rfl (by decide) rfl

theorem CommandWord.histInc : CommandWord.Statement .histInc :=
  commandWord_of_word (v := 0x00000021) rfl (by decide) rfl

theorem CommandWord.histDec : CommandWord.Statement .histDec :=
  commandWord_of_word (v := 0x00000022) rfl (by decide) rfl

theorem CommandWord.histGet : CommandWord.Statement .histGet :=
  commandWord_of_word (v := 0x00000023) rfl (by decide) rfl

theorem CommandWord.histBound : CommandWord.Statement .histBound :=
  commandWord_of_word (v := 0x00000024) rfl (by decide) rfl

theorem CommandWord.histSeed : CommandWord.Statement .histSeed :=
  commandWord_of_word (v := 0x00000025) rfl (by decide) rfl

theorem CommandWord.histSort : CommandWord.Statement .histSort :=
  commandWord_of_word (v := 0x00000026) rfl (by decide) rfl

theorem CommandWord.tableLoad : CommandWord.Statement .tableLoad :=
  commandWord_of_word (v := 0x00000030) rfl (by decide) rfl

theorem CommandWord.tableStore : CommandWord.Statement .tableStore :=
  commandWord_of_word (v := 0x00000031) rfl (by decide) rfl

theorem CommandWord.tableClear : CommandWord.Statement .tableClear :=
  commandWord_of_word (v := 0x00000032) rfl (by decide) rfl

theorem CommandWord.mapEnc : CommandWord.Statement .mapEnc :=
  commandWord_of_word (v := 0x00000033) rfl (by decide) rfl

theorem CommandWord.mapDec : CommandWord.Statement .mapDec :=
  commandWord_of_word (v := 0x00000034) rfl (by decide) rfl

theorem CommandWord.ricePut : CommandWord.Statement .ricePut :=
  commandWord_of_word (v := 0x00000040) rfl (by decide) rfl

theorem CommandWord.riceGet : CommandWord.Statement .riceGet :=
  commandWord_of_word (v := 0x00000041) rfl (by decide) rfl

theorem CommandWord.riceSearch : CommandWord.Statement .riceSearch :=
  commandWord_of_word (v := 0x00000042) rfl (by decide) rfl

theorem CommandWord.glzOpPut : CommandWord.Statement .glzOpPut :=
  commandWord_of_word (v := 0x00000050) rfl (by decide) rfl

theorem CommandWord.glzOpGet : CommandWord.Statement .glzOpGet :=
  commandWord_of_word (v := 0x00000051) rfl (by decide) rfl

theorem CommandWord.glzEncodeAll : CommandWord.Statement .glzEncodeAll :=
  commandWord_of_word (v := 0x00000052) rfl (by decide) rfl

theorem CommandWord.glzDecodeAt : CommandWord.Statement .glzDecodeAt :=
  commandWord_of_word (v := 0x00000053) rfl (by decide) rfl

theorem CommandWord.glzDecodeStream : CommandWord.Statement .glzDecodeStream :=
  commandWord_of_word (v := 0x00000054) rfl (by decide) rfl

theorem CommandWord.glzSeed : CommandWord.Statement .glzSeed :=
  commandWord_of_word (v := 0x00000055) rfl (by decide) rfl

theorem CommandWord.lit (b : Byte) : CommandWord.Statement (.lit b) := fun _ h => nomatch h

theorem CommandWord.run (n : Nat) (b : Byte) : CommandWord.Statement (.run n b) := fun _ h => nomatch h

theorem CommandWord.ref (n : Nat) (o : Word) : CommandWord.Statement (.ref n o) := fun _ h => nomatch h

end Sys2Proof.Laws
end

