-- ==== Sys2Proof/Laws/Rice.lean ====
section
/-! SUPPORT. What the parameter search of 42_rice.md R96 answers: a least cost of those it scanned, at the first k that has it. -/

namespace Sys2Proof.Machine

/-- The scan answers the start or a scanned k, with its cost, and no cost below it was passed over. -/
theorem searchFrom_spec (cost : Nat → Nat) (best : Nat) (ks : List Nat) :
    let r := searchFrom cost best (cost best) ks
    (r.1 = best ∨ r.1 ∈ ks) ∧ r.2 = cost r.1 ∧ r.2 ≤ cost best ∧ ∀ k ∈ ks, r.2 ≤ cost k := by
  induction ks generalizing best with
  | nil => simp [searchFrom]
  | cons k ks ih =>
    simp only [searchFrom]
    split
    · rename_i hlt
      obtain ⟨h1, h2, h3, h4⟩ := ih k
      exact ⟨.inr (by simpa using h1), h2, by omega, by simpa using ⟨h3, h4⟩⟩
    · rename_i hge
      obtain ⟨h1, h2, h3, h4⟩ := ih best
      exact ⟨h1.imp_right (List.mem_cons_of_mem _), h2, h3, by simpa using ⟨by omega, h4⟩⟩

/-- On a rising list of k after the start, a tie goes to the smaller k: every k before the answer costs more. -/
theorem searchFrom_first (cost : Nat → Nat) (best : Nat) {ks : List Nat} (hs : (best :: ks).Pairwise (· < ·)) :
    let r := searchFrom cost best (cost best) ks
    ∀ k ∈ best :: ks, k < r.1 → cost r.1 < cost k := by
  induction ks generalizing best with
  | nil => simp [searchFrom]
  | cons j ks ih =>
    rw [List.pairwise_cons, List.pairwise_cons] at hs
    obtain ⟨hb, hj, hks⟩ := hs
    simp only [searchFrom]
    split
    · rename_i hlt
      have h := ih j (List.pairwise_cons.2 ⟨hj, hks⟩)
      have hle := (searchFrom_spec cost j ks).2
      intro k hk hkr
      rcases List.mem_cons.1 hk with rfl | hk
      · rw [← hle.1]; exact lt_of_le_of_lt hle.2.1 hlt
      · exact h k hk hkr
    · rename_i hge
      have h := ih best (List.pairwise_cons.2 ⟨fun k hk => hb k (List.mem_cons_of_mem _ hk), hks⟩)
      intro k hk hkr
      rcases List.mem_cons.1 hk with rfl | hk
      · exact h _ (by simp) hkr
      · rcases List.mem_cons.1 hk with rfl | hk
        · exact lt_of_lt_of_le (h best (by simp) (lt_trans (hb _ (by simp)) hkr)) (by omega)
        · exact h k (List.mem_cons_of_mem _ hk) hkr

end Sys2Proof.Machine
end

