-- ==== Sys2Proof/Laws/Step.lean ====
section
/-! SUPPORT. What a step can do (46_host.md R125 to R128, 45_glz_decode.md R118) and what a host access can change. -/

namespace Sys2Proof.Machine

/-! ### Host accesses -/

theorem hostWrite_busy {s : State} (h : s.report.busy = true) (f : State → State) : s.hostWrite f = s := if_pos h

theorem hostWrite_idle {s : State} (h : s.report.busy = false) (f : State → State) : s.hostWrite f = f s := by
  simp [State.hostWrite, h]

theorem hostReadIdle_idle {s : State} (h : s.report.busy = false) (v : Word) : s.hostReadIdle v = s.hostRead v := by
  simp [State.hostReadIdle, h]

theorem externalReset_busy {s : State} (h : s.report.busy = true) : s.externalReset = s := if_pos h

theorem externalReset_idle {s : State} (h : s.report.busy = false) : s.externalReset = s.powerOn := by
  simp [State.externalReset, h]

/-- A host read changes the port alone, and while BUSY = 1 the counter of unspecified values. -/
theorem hostReadIdle_frame (s : State) (v : Word) : s.changesOnly [.portData, .free] (s.hostReadIdle v) := by
  intro p hp
  unfold State.hostReadIdle
  split <;> cases p <;> first | rfl | exact absurd (by decide) hp

/-- A register write changes an RW register and nothing else (46_host.md R126). -/
theorem writeRegister_frame (s : State) (index : BitVec 8) (v : Word) :
    s.changesOnly [.cfgK, .cfgL, .cfgM, .streamLen, .args] (s.writeRegister index v) := by
  intro p hp
  unfold State.writeRegister
  split <;> cases p <;> first | rfl | exact absurd (by decide) hp

/-- A BITMEM write changes BITMEM alone (46_host.md R125). -/
theorem portWriteBitmem_frame (s : State) (j : Nat) (v : Byte) : s.changesOnly [.bitmem] (s.portWriteBitmem j v) := by
  intro p hp
  cases p <;> first | exact absurd (by decide) hp | simp [Part.same, State.portWriteBitmem]

/-- A BYTEMEM write changes BYTEMEM alone (46_host.md R125). -/
theorem portWriteBytemem_frame (s : State) (a : Nat) (v : Byte) : s.changesOnly [.bytemem] (s.portWriteBytemem a v) := by
  intro p hp
  cases p <;> first | exact absurd (by decide) hp | simp [Part.same, State.portWriteBytemem]

/-- A WORDMEM write changes WORDMEM alone (46_host.md R125). -/
theorem portWriteWordmem_frame (s : State) (a : Nat) (v : Word) : s.changesOnly [.wordmem] (s.portWriteWordmem a v) := by
  intro p hp
  cases p <;> first | exact absurd (by decide) hp | simp [Part.same, State.portWriteWordmem]

/-- A CMD write of an illegal word leaves everything but the report and the result registers. -/
theorem State.changesOnly_illegalCommand (s : State) :
    s.changesOnly [.report, .res0, .res1, .res2, .res3, .free] s.illegalCommand := by
  intro p hp
  cases p <;> first | exact absurd (by decide) hp | rfl

/-! ### The step -/

/-- Everything a step can do: take an input, run the command of a CMD write, advance a decode, or keep an idle block as it is. -/
theorem step_cases (s : State) :
    (∃ a rest, s.inputs = a :: rest ∧ step s = .next (State.access { s with inputs := rest } a)) ∨
    (∃ w rest, s.inputs = .writeReg 0x00 w :: rest ∧ s.report.busy = false ∧
      ((∃ i, decodeCommand w = .ok i ∧ step s = exec i { s with inputs := rest }) ∨
        ∃ e, decodeCommand w = .error e ∧ step s = .next (State.illegalCommand { s with inputs := rest }))) ∨
    (s.inputs = [] ∧ s.dec.running = true ∧ ((∃ t, fetchOp s = .ended t ∧ step s = .next t) ∨
      ∃ op t, fetchOp s = .op op t ∧ step s = exec op.toInstr t)) ∨
    (s.inputs = [] ∧ s.dec.running = false ∧ step s = .next s) := by
  rcases hi : s.inputs with _ | ⟨a, rest⟩
  · cases hr : s.dec.running with
    | false => exact .inr (.inr (.inr ⟨rfl, rfl, by simp [step, State.fetch, hi, hr]⟩))
    | true =>
      refine .inr (.inr (.inl ⟨rfl, rfl, ?_⟩))
      rcases hf : fetchOp s with t | ⟨op, t⟩
      · exact .inl ⟨t, rfl, by simp [step, State.fetch, State.fetchOperation, hi, hr, hf]⟩
      · exact .inr ⟨op, t, rfl, by simp [step, State.fetch, State.fetchOperation, hi, hr, hf]⟩
  · have hstep : step s = match State.fetchInput { s with inputs := rest } a with
        | .instr i t => exec i t
        | .settled t => .next t := by simp only [step, State.fetch, hi] <;> rfl
    cases a with
    | writeReg index v =>
      by_cases hc : index = 0x00 ∧ s.report.busy = false
      · obtain ⟨rfl, hb⟩ := hc
        refine .inr (.inl ⟨v, rest, rfl, hb, ?_⟩)
        rcases hd : decodeCommand v with e | i
        · exact .inr ⟨e, rfl, by rw [hstep]; simp [State.fetchInput, hb, hd]⟩
        · exact .inl ⟨i, rfl, by rw [hstep]; simp [State.fetchInput, hb, hd]⟩
      · exact .inl ⟨_, rest, rfl, by rw [hstep, State.fetchInput, if_neg hc]⟩
    | _ => exact .inl ⟨_, rest, rfl, by rw [hstep]; rfl⟩

end Sys2Proof.Machine
end

