-- ==== Sys2Proof/Tests/Slice0.lean ====
section
/-! SUPPORT. Tests of one step or one function each, with results from the vectors of 95_test_vectors.md or worked out from the rule named, and a witness for the hypotheses of each statement. -/

namespace Sys2Proof.Tests

open Sys2Proof.Machine

/-! ### Helpers -/

/-- A small block after reset: 64 bits, 16 bytes, 16 words, 320 counters, L_MAX = 5. -/
def small : State := State.resetWith ⟨64, 16, 16, 320, 5⟩

/-- The state with its four arguments. -/
def withArgs (s : State) (a b c d : Word) : State := { s with args := ⟨a, b, c, d⟩ }

/-- The state with its stream: the bits at position 0 and STREAM_LEN after them. -/
def withStream (s : State) (bs : List Bool) : State :=
  { s with bitmem := s.bitmem.writeList 0 (bs.map BitVec.ofBool), streamLen := BitVec.ofNat 32 bs.length }

/-- The state with words at word address 0. -/
def withWords (s : State) (ws : List Word) : State := { s with wordmem := s.wordmem.writeList 0 ws }

/-- The state with bytes at byte address 0. -/
def withBytes (s : State) (bs : List Byte) : State := { s with bytemem := s.bytemem.writeList 0 bs }

/-- What a view shows after an instruction, when it answers a next state. -/
def after {α : Type} (i : Instr) (s : State) (view : State → α) : Option α :=
  match exec i s with
  | .next t => some (view t)
  | _ => none

/-- The report's error code and position after an instruction. -/
def errorOf (i : Instr) (s : State) : Option (Bool × ErrCode × Word) :=
  after i s fun t => (t.report.err, t.report.code, t.report.pos)

/-- Bits from digits. -/
def bits (ns : List Nat) : List Bool := ns.map fun n => n = 1

/-! ### WellFormed: an ill-formed term for each check, refused -/

theorem test_wf_run_count_low : (Instr.run 1 0x61).wf 5 = false := by decide

theorem test_wf_run_count_high : (Instr.run 34 0x61).wf 5 = false := by decide

theorem test_wf_ref_size_low : (Instr.ref 1 0).wf 5 = false := by decide

theorem test_wf_ref_size_high : (Instr.ref 34 0).wf 5 = false := by decide

theorem test_wf_imm_count_zero : (Op.imm 0 0x61).wf 5 = false := by decide

theorem test_wf_imm_count_high : (Op.imm 34 0x61).wf 5 = false := by decide

theorem test_wf_ends_of_the_ranges :
    (Instr.run 2 0).wf 5 = true ∧ (Instr.run 33 0).wf 5 = true ∧ (Instr.ref 2 0).wf 5 = true ∧
    (Instr.ref 33 0).wf 5 = true ∧ (Op.imm 1 0).wf 5 = true := by decide

/-! ### Decode: the word or the bits of every constructor, from 30_encoding.md R56 and 43_glz_ops.md R106 -/

theorem test_decode_nop : decodeCommand 0x00000000 = .ok .nop := by decide
theorem test_decode_reset : decodeCommand 0x00000001 = .ok .reset := by decide
theorem test_decode_bitsPut : decodeCommand 0x00000010 = .ok .bitsPut := by decide
theorem test_decode_bitsGet : decodeCommand 0x00000011 = .ok .bitsGet := by decide
theorem test_decode_bitsPutStream : decodeCommand 0x00000012 = .ok .bitsPutStream := by decide
theorem test_decode_bitsGetStream : decodeCommand 0x00000013 = .ok .bitsGetStream := by decide
theorem test_decode_histClear : decodeCommand 0x00000020 = .ok .histClear := by decide
theorem test_decode_histInc : decodeCommand 0x00000021 = .ok .histInc := by decide
theorem test_decode_histDec : decodeCommand 0x00000022 = .ok .histDec := by decide
theorem test_decode_histGet : decodeCommand 0x00000023 = .ok .histGet := by decide
theorem test_decode_histBound : decodeCommand 0x00000024 = .ok .histBound := by decide
theorem test_decode_histSeed : decodeCommand 0x00000025 = .ok .histSeed := by decide
theorem test_decode_histSort : decodeCommand 0x00000026 = .ok .histSort := by decide
theorem test_decode_tableLoad : decodeCommand 0x00000030 = .ok .tableLoad := by decide
theorem test_decode_tableStore : decodeCommand 0x00000031 = .ok .tableStore := by decide
theorem test_decode_tableClear : decodeCommand 0x00000032 = .ok .tableClear := by decide
theorem test_decode_mapEnc : decodeCommand 0x00000033 = .ok .mapEnc := by decide
theorem test_decode_mapDec : decodeCommand 0x00000034 = .ok .mapDec := by decide
theorem test_decode_ricePut : decodeCommand 0x00000040 = .ok .ricePut := by decide
theorem test_decode_riceGet : decodeCommand 0x00000041 = .ok .riceGet := by decide
theorem test_decode_riceSearch : decodeCommand 0x00000042 = .ok .riceSearch := by decide
theorem test_decode_glzOpPut : decodeCommand 0x00000050 = .ok .glzOpPut := by decide
theorem test_decode_glzOpGet : decodeCommand 0x00000051 = .ok .glzOpGet := by decide
theorem test_decode_glzEncodeAll : decodeCommand 0x00000052 = .ok .glzEncodeAll := by decide
theorem test_decode_glzDecodeAt : decodeCommand 0x00000053 = .ok .glzDecodeAt := by decide
theorem test_decode_glzDecodeStream : decodeCommand 0x00000054 = .ok .glzDecodeStream := by decide
theorem test_decode_glzSeed : decodeCommand 0x00000055 = .ok .glzSeed := by decide

/-- V1: LIT 'a' is `0 01100001`. -/
theorem test_decode_lit :
    decode resetCoder (.operation (bits [0, 0, 1, 1, 0, 0, 0, 0, 1])) = .ok (.lit 0x61) := by decide

/-- V65: RUN 5, 'h' is `10 00000011` `0 01101000`. -/
theorem test_decode_run : decode resetCoder
    (.operation (bits [1, 0, 0, 0, 0, 0, 0, 0, 1, 1, 0, 0, 1, 1, 0, 1, 0, 0, 0])) = .ok (.run 5 0x68) := by decide +kernel

/-- V64: REF 6, 0 is `10 00100100` `0000`. -/
theorem test_decode_ref : decode resetCoder
    (.operation (bits [1, 0, 0, 0, 1, 0, 0, 1, 0, 0, 0, 0, 0, 0])) = .ok (.ref 6 0) := by decide

/-- V68: the offset 41 is `1101 0001`. -/
theorem test_decode_ref_offset : decode resetCoder
    (.operation (bits [1, 0, 0, 0, 1, 0, 0, 1, 0, 0, 1, 1, 0, 1, 0, 0, 0, 1])) = .ok (.ref 6 41) := by decide

theorem test_decode_reserved_opcode : decodeCommand 0x00000002 = .error .reservedOpcode := by decide

theorem test_decode_reserved_bits : decodeCommand 0x00000110 = .error .reservedBits := by decide

/-- V73: the head 320 is reserved. -/
theorem test_decode_reserved_head : decode resetCoder (.operation (bits [1, 0, 0, 1, 0, 0, 0, 0, 0, 0])) =
    .error (.operation ⟨.invalidOp, 0⟩) := by decide

/-- 20_memory.md R41: the first bit of LIT 'a' is bit 7 of the first byte, so its host bytes are 0x30 and 0x80. -/
theorem test_decodeTableWord : decodeTableWord 16 0x8030 = some (.lit 0x61) ∧
    decodeTableWord 32 0x26 = some .histSort ∧ decodeTableWord 32 0x14 = none := by decide

theorem test_withFetchWord_command :
    (match step (small.withFetchWord 32 0x20) with | .next t => some t.report.done | _ => none) = some true := by
  decide

theorem test_withFetchWord_operation :
    (match step (small.withFetchWord 16 0x8030) with | .next t => some (t.bytemem.read 0, t.dec.p) | _ => none) =
      some (0x61, 9) := by decide +kernel

/-! ### One step of each command -/

/-- R130: NOP clears an earlier error. -/
theorem test_nop : after .nop (small.raise .capacity 7) (·.report.statusWord) = some 2 := by decide

/-- R131: RESET ends with STATUS = 0 and CFG_K = 8. -/
theorem test_reset : after .reset { small with cfg := ⟨0, 1, 2⟩, streamLen := 36 }
    (fun t => (t.report.statusWord, t.cfg, t.streamLen)) = some (0, ⟨8, 5, 3⟩, 0) := by decide

/-- V10. -/
theorem test_bitsPut : after .bitsPut (withArgs small 3 5 0 0)
    (fun t => (t.streamLen, t.res.r0, t.bit 0, t.bit 1, t.bit 2)) = some (3, 0, true, false, true) := by decide

/-- V14. -/
theorem test_bitsPut_overflow : errorOf .bitsPut (withArgs (withStream small (bits [1, 0, 1])) 3 8 0 0) =
    some (true, .overflow, 3) := by decide

/-- V11. -/
theorem test_bitsGet : after .bitsGet (withArgs (withStream small (bits [1, 0, 1])) 3 0 0 0)
    (fun t => (t.res.r0, t.res.r1)) = some (5, 3) := by decide

/-- V12. -/
theorem test_bitsGet_truncated : errorOf .bitsGet (withArgs (withStream small (bits [1, 0, 1])) 4 0 0 0) =
    some (true, .truncated, 0) := by decide

/-- V18. -/
theorem test_bitsPutStream : after .bitsPutStream (withArgs (withWords small [1, 2, 3]) 2 0 3 0)
    (fun t => (t.streamLen, (List.range 6).map t.bit)) = some (6, bits [0, 1, 1, 0, 1, 1]) := by decide

/-- V19. -/
theorem test_bitsPutStream_overflow : errorOf .bitsPutStream
    (withArgs (withWords (withStream small (bits [0, 1, 1, 0, 1, 1])) [1, 4]) 2 0 2 0) =
      some (true, .overflow, 8) := by decide

/-- V20. -/
theorem test_bitsGetStream : after .bitsGetStream
    (withArgs (withStream small (bits [0, 1, 1, 0, 1, 1])) 2 0 10 8)
    (fun t => (t.res.r0, t.wordmem.readList 10 3)) = some (3, [1, 2, 3]) := by decide

/-- V22. -/
theorem test_bitsGetStream_capacity : errorOf .bitsGetStream
    (withArgs (withStream small (bits [0, 1, 1, 0, 1, 1])) 2 0 10 2) = some (true, .capacity, 0) := by decide

/-- V30. -/
theorem test_histClear : after .histClear (withArgs small 320 0 0 0) (·.hist.bound) = some 320 := by decide

/-- V31. -/
theorem test_histInc : after .histInc (withArgs small 7 0 0 0) (fun t => (t.hist.countOf 7, t.hist.bound)) =
    some (1, 8) := by decide

/-- V35. -/
theorem test_histInc_full : errorOf .histInc
    (withArgs { small with hist := ⟨4, 0, [(3, 0xFFFFFFFF)]⟩ } 3 0 0 0) = some (true, .countOverflow, 0) := by decide

/-- V32. -/
theorem test_histDec : after .histDec (withArgs { small with hist := ⟨0, 8, [(7, 1)]⟩ } 7 0 0 0)
    (fun t => (t.hist.countOf 7, t.hist.bound)) = some (0, 8) := by decide

/-- V33. -/
theorem test_histDec_zero : errorOf .histDec (withArgs small 7 0 0 0) = some (true, .histUnderflow, 0) := by decide

/-- V37. -/
theorem test_histGet : after .histGet (withArgs small 320 0 0 0) (·.res.r0) = some 0 := by decide

/-- R80's example. -/
theorem test_histBound : after .histBound { small with hist := ⟨4, 9, []⟩ } (·.res.r0) = some 9 := by decide

/-- V38. -/
theorem test_histSeed : after .histSeed (withArgs (withWords small [2, 2, 0]) 0 3 0 0)
    (fun t => (t.hist.countOf 2, t.hist.countOf 0, t.hist.hwm)) = some (2, 1, 3) := by decide

/-- The histogram of V39: COUNT = [2, 5, 0, 5]. -/
def hist39 : Hist := ⟨0, 4, [(0, 2), (1, 5), (3, 5)]⟩

/-- The tables of V39. -/
def tables39 : Remap := ⟨true, 4, [(0, 1), (1, 3), (3, 2)], [(0, 2), (2, 3), (3, 1)]⟩

/-- V39. -/
theorem test_histSort : after .histSort { small with hist := hist39 } (·.remap) = some tables39 := by decide

/-- V42. -/
theorem test_tableLoad : after .tableLoad (withArgs (withWords small [0, 2, 1]) 0 3 0 0)
    (fun t => (t.remap.en, t.remap.b, t.remap.mapEnc 0xFFFFFFFF, t.remap.mapEnc 0xFFFFFFFE)) =
      some (true, 3, 0xFFFFFFFF, 0xFFFFFFFD) := by decide

/-- V44. -/
theorem test_tableLoad_repeat : errorOf .tableLoad (withArgs (withWords small [0, 0]) 0 2 0 0) =
    some (true, .tableInvalid, 0) := by decide

/-- V46, at word 12 of the small block. -/
theorem test_tableStore : after .tableStore (withArgs { small with remap := tables39 } 12 0 0 0)
    (fun t => (t.res.r0, t.wordmem.readList 12 4)) = some (4, [1, 3, 0, 2]) := by decide

/-- V48. -/
theorem test_tableClear : after .tableClear { small with remap := tables39 } (fun t => (t.remap.en, t.remap.mapEnc 5)) =
    some (false, 5) := by decide

/-- V40. -/
theorem test_mapEnc : after .mapEnc (withArgs { small with remap := tables39 } 5 0 0 0) (·.res.r0) = some 4 := by decide

/-- V40. -/
theorem test_mapDec : after .mapDec (withArgs { small with remap := tables39 } 4 0 0 0) (·.res.r0) = some 5 := by decide

/-- V52. -/
theorem test_ricePut : after .ricePut (withArgs { small with cfg := ⟨0, 5, 3⟩ } 5 0 0 0)
    (fun t => (t.res.r1, (List.range 6).map t.bit)) = some (6, bits [1, 1, 1, 1, 1, 0]) := by decide

/-- V50. -/
theorem test_riceGet : after .riceGet (withArgs (withStream { small with cfg := ⟨1, 5, 3⟩ } (bits [1, 1, 0, 1])) 0 8 0 0)
    (fun t => (t.res.r0, t.res.r1)) = some (5, 4) := by decide

/-- V54. -/
theorem test_riceGet_cast : errorOf .riceGet
    (withArgs (withStream { small with cfg := ⟨32, 5, 3⟩ } (bits [1])) 0 32 0 0) = some (true, .cast, 0) := by decide

/-- V58. -/
theorem test_riceSearch : after .riceSearch { small with hist := ⟨0, 4, [(0, 4), (1, 2), (2, 1), (3, 1)]⟩ }
    (fun t => (t.cfg.k, t.res.r0, t.res.r1, t.res.r2)) = some (0, 0, 15, 0) := by decide

/-- V62: the search under the tables of V39. -/
theorem test_riceSearch_remapped : after .riceSearch { small with hist := hist39, remap := tables39 }
    (fun t => (t.res.r0, t.res.r1)) = some (0, 21) := by decide

/-- V64. -/
theorem test_glzOpPut : after .glzOpPut (withArgs small 1 6 0 0) (fun t => (t.res.r1, (List.range 14).map t.bit)) =
    some (14, bits [1, 0, 0, 0, 1, 0, 0, 1, 0, 0, 0, 0, 0, 0]) := by decide

/-- V72. -/
theorem test_glzOpPut_overflow : errorOf .glzOpPut (withArgs small 0 34 0x61 0) = some (true, .overflow, 0) := by decide

/-- V73. -/
theorem test_glzOpGet : after .glzOpGet
    (withArgs (withStream small (bits [1, 0, 0, 0, 0, 0, 0, 0, 1, 1, 0, 0, 1, 1, 0, 1, 0, 0, 0, 0])) 0 0 0 0)
    (fun t => (t.res.r0, t.res.r1, t.res.r2, t.res.r3)) = some (0, 5, 0x68, 19) := by decide

/-- V85: "abab" and "ab" give 50 bits and the pairs (18, 4) and (0, 2). -/
theorem test_glzEncodeAll : after .glzEncodeAll
    (withArgs (withWords (withBytes small [97, 98, 97, 98, 97, 98]) [0, 4, 4, 2]) 0 2 8 0)
    (fun t => (t.res.r0, t.res.r1, t.wordmem.readList 8 4)) = some (50, 50, [18, 4, 0, 2]) := by decide +kernel

/-- R116: "aa" is one RUN, so the symbols 256 and 97 are counted once under the fixed length 320. -/
theorem test_glzSeed : after .glzSeed (withArgs (withWords (withBytes small [97, 97]) [0, 2]) 0 1 0 0)
    (fun t => (t.hist.fixlen, t.hist.count, t.res.r0, t.res.r1)) = some (320, [(97, 1), (256, 1)], 8, 0) := by decide

/-- RUN 3, 'h' at position 0 (`10 00000001` `0 01101000`), then LIT '!' at 19 (`0 00100001`). -/
def stream28 : List Bool :=
  bits [1, 0, 0, 0, 0, 0, 0, 0, 0, 1, 0, 0, 1, 1, 0, 1, 0, 0, 0, 0, 0, 0, 1, 0, 0, 0, 0, 1]

/-- R122: two operations, the last one clipped to the length 4. -/
theorem test_glzDecodeAt : after .glzDecodeAt (withArgs (withStream small stream28) 0 4 2 0)
    (fun t => (t.res.r0, t.cycles, t.pushes, t.bytes 2 4)) = some (4, 2, 0, [0x68, 0x68, 0x68, 0x21]) := by decide

/-- R123: the whole stream. -/
theorem test_glzDecodeStream : after .glzDecodeStream (withArgs (withStream small stream28) 0 0 4 0)
    (fun t => (t.res.r0, t.cycles, t.bytes 0 4)) = some (4, 2, [0x68, 0x68, 0x68, 0x21]) := by decide

/-- R123: a maximum of 3 bytes is passed at the second operation. -/
theorem test_glzDecodeStream_capacity : errorOf .glzDecodeStream (withArgs (withStream small stream28) 0 0 3 0) =
    some (true, .capacity, 19) := by decide

/-- A decode in progress: GLZ_DECODE_AT of 4 bytes to address 2, at a point where the operation at p ends at q. -/
def running (p q : Nat) : State :=
  { (State.beginDecode (withStream small stream28).start .decodeAt p (.bytes 4) 2 4) with
    dec := { (State.beginDecode (withStream small stream28).start .decodeAt p (.bytes 4) 2 4).dec with q := q } }

/-- R117: LIT writes its byte and moves p to q. -/
theorem test_lit : after (.lit 0x21) (running 0 9) (fun t => (t.bytemem.read 2, t.dec.p, t.dec.rem, t.dec.k)) =
    some (0x21, 9, .bytes 3, 1) := by decide

/-- R117: RUN is clipped to what is owed. -/
theorem test_run : after (.run 9 0x68) (running 0 19) (fun t => (t.bytes 2 5, t.dec.rem)) =
    some ([0x68, 0x68, 0x68, 0x68, 0], .bytes 0) := by decide

/-- R117: a REF that does not cover what is owed pushes a frame. -/
theorem test_ref_push : after (.ref 3 5) (running 0 14) (fun t => (t.dec.p, t.dec.rem, t.dec.d, t.dec.frame0)) =
    some (19, .bytes 3, 1, ⟨14, .bytes 1⟩) := by decide

/-- R117: a REF in tail position jumps. -/
theorem test_ref_tail : after (.ref 4 5) (running 0 14) (fun t => (t.dec.p, t.dec.rem, t.dec.d)) =
    some (19, .bytes 4, 0) := by decide

/-! ### Witnesses: a state and operands that meet each statement's hypotheses, for each of its clauses, at the ends of its ranges -/

theorem tables39_sound : tables39.Sound := by unfold Remap.Sound; decide

/-- The tables of V42, with the top partial block at 2^32 - 1. -/
def tables42 : Remap := ⟨true, 3, [(1, 2), (2, 1)], [(1, 2), (2, 1)]⟩

theorem tables42_sound : tables42.Sound := by unfold Remap.Sound; decide

theorem small_remap_sound : small.remap.Sound := by unfold Remap.Sound; decide

/-- A code lies in the stream made of it. -/
theorem ofBits_holdsCode (bs : List Bool) : (BitStream.ofBits bs).holdsCode 0 bs :=
  ⟨BitStream.ofBits_holds bs, by simp [BitStream.ofBits]⟩

/-- The small block with a stream of n zeros. -/
def filled (n : Nat) : State := { small with streamLen := BitVec.ofNat 32 n }

theorem witness_BitsPut_width : ∃ s : State, s.streamOk = true ∧ 32 < s.arg0 := ⟨withArgs small 33 0 0 0, by decide⟩

theorem witness_BitsPut_overflow : ∃ s : State, s.streamOk = true ∧ ¬32 < s.arg0 ∧ s.arg0 < 32 ∧ 2 ^ s.arg0 ≤ s.arg1 :=
  ⟨withArgs small 31 0x80000000 0 0, by decide⟩

theorem witness_BitsPut_capacity : ∃ s : State, s.streamOk = true ∧ ¬32 < s.arg0 ∧
    ¬(s.arg0 < 32 ∧ 2 ^ s.arg0 ≤ s.arg1) ∧ s.cap.bitmemBits.toNat < s.streamLen.toNat + s.arg0 :=
  ⟨withArgs (filled 61) 4 15 0 0, by decide⟩

theorem witness_BitsPut_normal : ∃ s : State, s.streamOk = true ∧ ¬32 < s.arg0 ∧
    ¬(s.arg0 < 32 ∧ 2 ^ s.arg0 ≤ s.arg1) ∧ ¬s.cap.bitmemBits.toNat < s.streamLen.toNat + s.arg0 :=
  ⟨withArgs (filled 32) 32 0xFFFFFFFF 0 0, by decide⟩

theorem witness_BitsGet_width : ∃ s : State, s.streamOk = true ∧ 32 < s.arg0 := ⟨withArgs small 33 0 0 0, by decide⟩

theorem witness_BitsGet_truncated : ∃ s : State, s.streamOk = true ∧ ¬32 < s.arg0 ∧
    s.streamLen.toNat < s.arg1 + s.arg0 := ⟨withArgs (filled 3) 3 1 0 0, by decide⟩

theorem witness_BitsGet_normal : ∃ s : State, s.streamOk = true ∧ ¬32 < s.arg0 ∧
    ¬s.streamLen.toNat < s.arg1 + s.arg0 := ⟨withArgs (filled 33) 32 1 0 0, by decide⟩

theorem witness_BitsPutStream_width : ∃ s : State, s.streamOk = true ∧ 32 < s.arg0 :=
  ⟨withArgs small 33 0 0 0, by decide⟩

theorem witness_BitsPutStream_words : ∃ s : State, s.streamOk = true ∧ ¬32 < s.arg0 ∧
    s.cap.wordmemWords.toNat < s.arg1 + s.arg2 := ⟨withArgs small 1 15 2 0, by decide⟩

theorem witness_BitsPutStream_bits : ∃ s : State, s.streamOk = true ∧ ¬32 < s.arg0 ∧
    ¬s.cap.wordmemWords.toNat < s.arg1 + s.arg2 ∧ s.cap.bitmemBits.toNat < s.streamLen.toNat + s.arg2 * s.arg0 :=
  ⟨withArgs (filled 61) 2 14 2 0, by decide⟩

theorem witness_BitsPutStream_overflow : ∃ s : State, s.streamOk = true ∧ ¬32 < s.arg0 ∧
    ¬s.cap.wordmemWords.toNat < s.arg1 + s.arg2 ∧ ¬s.cap.bitmemBits.toNat < s.streamLen.toNat + s.arg2 * s.arg0 ∧
    ∃ i < s.arg2, s.arg0 < 32 ∧ 2 ^ s.arg0 ≤ (s.wordmem.read (s.arg1 + i)).toNat ∧
      ∀ j < i, ¬(s.arg0 < 32 ∧ 2 ^ s.arg0 ≤ (s.wordmem.read (s.arg1 + j)).toNat) :=
  ⟨withArgs (withWords (filled 60) [1, 4]) 2 0 2 0, by decide⟩

theorem witness_BitsPutStream_normal : ∃ s : State, s.streamOk = true ∧ ¬32 < s.arg0 ∧
    ¬s.cap.wordmemWords.toNat < s.arg1 + s.arg2 ∧ ¬s.cap.bitmemBits.toNat < s.streamLen.toNat + s.arg2 * s.arg0 ∧
    ∀ i < s.arg2, ¬(s.arg0 < 32 ∧ 2 ^ s.arg0 ≤ (s.wordmem.read (s.arg1 + i)).toNat) :=
  ⟨withArgs (filled 60) 2 14 2 0, by decide⟩

theorem witness_BitsGetStream_width : ∃ s : State, s.streamOk = true ∧ 32 < s.arg0 :=
  ⟨withArgs small 33 0 0 0, by decide⟩

theorem witness_BitsGetStream_zero : ∃ s : State, s.streamOk = true ∧ ¬32 < s.arg0 ∧ s.arg0 = 0 :=
  ⟨withArgs small 0 7 0 0, by decide⟩

theorem witness_BitsGetStream_position : ∃ s : State, s.streamOk = true ∧ ¬32 < s.arg0 ∧ s.arg0 ≠ 0 ∧
    s.streamLen.toNat < s.arg1 := ⟨withArgs (filled 6) 2 7 0 9, by decide⟩

theorem witness_BitsGetStream_count : ∃ s : State, s.streamOk = true ∧ ¬32 < s.arg0 ∧ s.arg0 ≠ 0 ∧
    ¬s.streamLen.toNat < s.arg1 ∧ s.arg3 < (s.streamLen.toNat - s.arg1) / s.arg0 :=
  ⟨withArgs (filled 6) 2 0 0 2, by decide⟩

theorem witness_BitsGetStream_words : ∃ s : State, s.streamOk = true ∧ ¬32 < s.arg0 ∧ s.arg0 ≠ 0 ∧
    ¬s.streamLen.toNat < s.arg1 ∧ ¬s.arg3 < (s.streamLen.toNat - s.arg1) / s.arg0 ∧
    s.cap.wordmemWords.toNat < s.arg2 + (s.streamLen.toNat - s.arg1) / s.arg0 :=
  ⟨withArgs (filled 6) 2 0 14 3, by decide⟩

theorem witness_BitsGetStream_rest : ∃ s : State, s.streamOk = true ∧ ¬32 < s.arg0 ∧ s.arg0 ≠ 0 ∧
    ¬s.streamLen.toNat < s.arg1 ∧ ¬s.arg3 < (s.streamLen.toNat - s.arg1) / s.arg0 ∧
    ¬s.cap.wordmemWords.toNat < s.arg2 + (s.streamLen.toNat - s.arg1) / s.arg0 ∧
    (s.streamLen.toNat - s.arg1) % s.arg0 ≠ 0 := ⟨withArgs (filled 6) 4 0 15 1, by decide⟩

theorem witness_BitsGetStream_normal : ∃ s : State, s.streamOk = true ∧ ¬32 < s.arg0 ∧ s.arg0 ≠ 0 ∧
    ¬s.streamLen.toNat < s.arg1 ∧ ¬s.arg3 < (s.streamLen.toNat - s.arg1) / s.arg0 ∧
    ¬s.cap.wordmemWords.toNat < s.arg2 + (s.streamLen.toNat - s.arg1) / s.arg0 ∧
    ¬(s.streamLen.toNat - s.arg1) % s.arg0 ≠ 0 := ⟨withArgs (filled 6) 2 0 13 3, by decide⟩

theorem witness_HistClear : (∃ s : State, s.cap.histCap.toNat < s.arg0) ∧ ∃ s : State, ¬s.cap.histCap.toNat < s.arg0 :=
  ⟨⟨withArgs small 321 0 0 0, by decide⟩, ⟨withArgs small 320 0 0 0, by decide⟩⟩

theorem witness_HistInc_capacity : ∃ s : State, s.cap.histCap.toNat ≤ s.arg0 := ⟨withArgs small 320 0 0 0, by decide⟩

theorem witness_HistInc_full : ∃ s : State, ¬s.cap.histCap.toNat ≤ s.arg0 ∧ s.hist.countOf s.arg0 = 2 ^ 32 - 1 :=
  ⟨withArgs { small with hist := ⟨320, 0, [(319, 0xFFFFFFFF)]⟩ } 319 0 0 0, by decide⟩

theorem witness_HistInc_normal : ∃ s : State, ¬s.cap.histCap.toNat ≤ s.arg0 ∧ s.hist.countOf s.arg0 ≠ 2 ^ 32 - 1 :=
  ⟨withArgs { small with hist := ⟨320, 0, [(319, 0xFFFFFFFE)]⟩ } 319 0 0 0, by decide⟩

theorem witness_HistDec_capacity : ∃ s : State, s.cap.histCap.toNat ≤ s.arg0 := ⟨withArgs small 320 0 0 0, by decide⟩

theorem witness_HistDec_zero : ∃ s : State, ¬s.cap.histCap.toNat ≤ s.arg0 ∧ s.hist.countOf s.arg0 = 0 :=
  ⟨withArgs small 319 0 0 0, by decide⟩

theorem witness_HistDec_normal : ∃ s : State, ¬s.cap.histCap.toNat ≤ s.arg0 ∧ s.hist.countOf s.arg0 ≠ 0 :=
  ⟨withArgs { small with hist := ⟨0, 320, [(319, 1)]⟩ } 319 0 0 0, by decide⟩

theorem witness_HistSeed_range : ∃ s : State, s.cap.wordmemWords.toNat < s.arg0 + s.arg1 :=
  ⟨withArgs small 14 3 0 0, by decide⟩

theorem witness_HistSeed_capacity : ∃ s : State, ¬s.cap.wordmemWords.toNat < s.arg0 + s.arg1 ∧
    ∃ n ∈ (s.wordmem.readList s.arg0 s.arg1).map BitVec.toNat, s.cap.histCap.toNat ≤ n :=
  ⟨withArgs (withWords small [320]) 0 1 0 0, by decide⟩

theorem witness_HistSeed_overflow : ∃ s : State, ¬s.cap.wordmemWords.toNat < s.arg0 + s.arg1 ∧
    (∀ n ∈ (s.wordmem.readList s.arg0 s.arg1).map BitVec.toNat, n < s.cap.histCap.toNat) ∧
    ∃ n, 2 ^ 32 - 1 < s.hist.countOf n + ((s.wordmem.readList s.arg0 s.arg1).map BitVec.toNat).count n :=
  ⟨withArgs (withWords { small with hist := ⟨320, 0, [(319, 0xFFFFFFFE)]⟩ } [319, 319]) 0 2 0 0, by decide, by decide,
    319, by decide⟩

theorem witness_HistSeed_normal : ∃ s : State, ¬s.cap.wordmemWords.toNat < s.arg0 + s.arg1 ∧
    (∀ n ∈ (s.wordmem.readList s.arg0 s.arg1).map BitVec.toNat, n < s.cap.histCap.toNat) ∧
    ∀ n, s.hist.countOf n + ((s.wordmem.readList s.arg0 s.arg1).map BitVec.toNat).count n ≤ 2 ^ 32 - 1 :=
  ⟨withArgs (withWords small [319, 319]) 0 2 0 0, by decide, by decide, fun n =>
    show 0 + List.count n [319, 319] ≤ 4294967295 by
      have h : List.count n [319, 319] ≤ 2 := List.count_le_length
      omega⟩

theorem witness_HistSort : (∃ s : State, max s.hist.fixlen.toNat s.hist.hwm.toNat = 0) ∧
    (∃ s : State, max s.hist.fixlen.toNat s.hist.hwm.toNat = 1) ∧
    ∃ s : State, max s.hist.fixlen.toNat s.hist.hwm.toNat = s.cap.histCap.toNat :=
  ⟨⟨small, by decide⟩, ⟨{ small with hist := ⟨0, 1, []⟩ }, by decide⟩, ⟨{ small with hist := ⟨320, 0, []⟩ }, by decide⟩⟩

theorem witness_TableLoad_cap : ∃ s : State, s.cap.histCap.toNat < s.arg1 := ⟨withArgs small 0 321 0 0, by decide⟩

theorem witness_TableLoad_range : ∃ s : State, ¬s.cap.histCap.toNat < s.arg1 ∧
    s.cap.wordmemWords.toNat < s.arg0 + s.arg1 := ⟨withArgs small 14 3 0 0, by decide⟩

theorem witness_TableLoad_empty : ∃ s : State, ¬s.cap.histCap.toNat < s.arg1 ∧
    ¬s.cap.wordmemWords.toNat < s.arg0 + s.arg1 ∧ s.arg1 = 0 := ⟨withArgs small 16 0 0 0, by decide⟩

theorem witness_TableLoad_large : ∃ s : State, ¬s.cap.histCap.toNat < s.arg1 ∧
    ¬s.cap.wordmemWords.toNat < s.arg0 + s.arg1 ∧ s.arg1 ≠ 0 ∧
    ∃ r < s.arg1, s.arg1 ≤ (s.wordmem.read (s.arg0 + r)).toNat := ⟨withArgs (withWords small [0, 2]) 0 2 0 0, by decide⟩

theorem witness_TableLoad_repeat : ∃ s : State, ¬s.cap.histCap.toNat < s.arg1 ∧
    ¬s.cap.wordmemWords.toNat < s.arg0 + s.arg1 ∧ s.arg1 ≠ 0 ∧ ∃ r < s.arg1, ∃ q < s.arg1, r ≠ q ∧
      (s.wordmem.read (s.arg0 + r)).toNat = (s.wordmem.read (s.arg0 + q)).toNat :=
  ⟨withArgs (withWords small [1, 1]) 0 2 0 0, by decide⟩

theorem witness_TableLoad_normal : ∃ s : State, ¬s.cap.histCap.toNat < s.arg1 ∧
    ¬s.cap.wordmemWords.toNat < s.arg0 + s.arg1 ∧ s.arg1 ≠ 0 ∧
    (∀ r < s.arg1, (s.wordmem.read (s.arg0 + r)).toNat < s.arg1) ∧ ∀ r < s.arg1, ∀ q < s.arg1,
      (s.wordmem.read (s.arg0 + r)).toNat = (s.wordmem.read (s.arg0 + q)).toNat → r = q :=
  ⟨withArgs (withWords small [1, 3, 0, 2]) 0 4 0 0, by decide⟩

theorem witness_TableStore : (∃ s : State, s.remap.en = false) ∧
    (∃ s : State, s.remap.en ≠ false ∧ s.cap.wordmemWords.toNat < s.arg0 + s.remap.b.toNat) ∧
    ∃ s : State, s.remap.en ≠ false ∧ ¬s.cap.wordmemWords.toNat < s.arg0 + s.remap.b.toNat :=
  ⟨⟨small, by decide⟩, ⟨withArgs { small with remap := tables39 } 13 0 0 0, by decide⟩,
    ⟨withArgs { small with remap := tables39 } 12 0 0 0, by decide⟩⟩

theorem witness_MapCommands_identity : ∃ s : State, s.remap.Sound ∧ s.remap.en = false := ⟨small, small_remap_sound, rfl⟩

theorem witness_MapCommands_top : ∃ s : State, s.remap.Sound ∧ s.remap.en = true ∧
    2 ^ 32 / s.remap.b.toNat * s.remap.b.toNat ≤ s.arg0 :=
  ⟨withArgs { small with remap := tables42 } 0xFFFFFFFF 0 0 0, tables42_sound, by decide⟩

theorem witness_MapCommands_block : ∃ s : State, s.remap.Sound ∧ s.remap.en = true ∧
    ¬2 ^ 32 / s.remap.b.toNat * s.remap.b.toNat ≤ s.arg0 :=
  ⟨withArgs { small with remap := tables42 } 0xFFFFFFFE 0 0 0, tables42_sound, by decide⟩

theorem witness_RemapIsABijection_top : ∃ (r : Remap) (n : Nat), r.Sound ∧ r.en = true ∧ n < 2 ^ 32 ∧
    2 ^ 32 / r.b.toNat * r.b.toNat ≤ n := ⟨tables42, 0xFFFFFFFF, tables42_sound, by decide⟩

theorem witness_RemapIsABijection_block : ∃ (r : Remap) (n : Nat), r.Sound ∧ r.en = true ∧ n < 2 ^ 32 ∧
    ¬2 ^ 32 / r.b.toNat * r.b.toNat ≤ n := ⟨tables42, 0xFFFFFFFE, tables42_sound, by decide⟩

theorem witness_RicePut_capacity : ∃ s : State, s.riceOk = true ∧ s.cap.bitmemBits.toNat <
    s.streamLen.toNat + (s.remap.mapEnc s.arg0 / 2 ^ s.cfg.k.toNat + 1 + s.cfg.k.toNat) :=
  ⟨withArgs (filled 56) 0 0 0 0, by decide⟩

theorem witness_RicePut_normal : ∃ s : State, s.riceOk = true ∧ ¬s.cap.bitmemBits.toNat <
    s.streamLen.toNat + (s.remap.mapEnc s.arg0 / 2 ^ s.cfg.k.toNat + 1 + s.cfg.k.toNat) :=
  ⟨withArgs (filled 55) 0 0 0 0, by decide⟩

theorem witness_RiceGet_width : ∃ s : State, s.riceOk = true ∧ ¬(s.arg1 = 8 ∨ s.arg1 = 16 ∨ s.arg1 = 32) :=
  ⟨withArgs small 0 12 0 0, by decide⟩

theorem witness_RiceGet_value : ∃ (s : State) (n : Nat), s.riceOk = true ∧ s.arg1 = 8 ∧ n < 2 ^ 32 ∧
    s.stream.holdsCode s.arg0 (riceCode s.cfg.k.toNat n) ∧ ¬(s.arg1 < 32 ∧ 2 ^ s.arg1 ≤ s.remap.mapDec n) :=
  ⟨withArgs (withStream small (riceCode 8 255)) 0 8 0 0, 255, by decide, by decide, by decide,
    by unfold BitStream.holdsCode BitStream.holds; decide, by decide⟩

theorem witness_RiceGet_cast : ∃ (s : State) (n : Nat), s.riceOk = true ∧ s.arg1 = 8 ∧ n < 2 ^ 32 ∧
    s.stream.holdsCode s.arg0 (riceCode s.cfg.k.toNat n) ∧ s.arg1 < 32 ∧ 2 ^ s.arg1 ≤ s.remap.mapDec n :=
  ⟨withArgs (withStream small (riceCode 8 256)) 0 8 0 0, 256, by decide, by decide, by decide,
    by unfold BitStream.holdsCode BitStream.holds; decide, by decide⟩

theorem witness_RiceGet_ones : ∃ (s : State) (q : Nat), s.riceOk = true ∧ s.arg1 = 32 ∧
    2 ^ 32 ≤ q * 2 ^ s.cfg.k.toNat ∧ s.arg0 + q ≤ s.streamLen.toNat ∧ ∀ i < q, s.bit (s.arg0 + i) = true :=
  ⟨withArgs (withStream { small with cfg := ⟨31, 5, 3⟩ } (bits [1, 1])) 0 32 0 0, 2, by decide⟩

theorem witness_RiceGet_unterminated : ∃ s : State, s.riceOk = true ∧ s.arg1 = 16 ∧
    (∀ i, s.arg0 ≤ i → i < s.streamLen.toNat → s.bit i = true) ∧
    (s.streamLen.toNat - s.arg0) * 2 ^ s.cfg.k.toNat < 2 ^ 32 :=
  ⟨withArgs (withStream small (bits [1])) 0 16 0 0, by decide, by decide, fun i _ hi => by
    have h1 : i < 1 := hi
    interval_cases i
    decide, by decide⟩

theorem witness_RiceGet_truncated : ∃ (s : State) (q : Nat), s.riceOk = true ∧ s.arg1 = 8 ∧
    q * 2 ^ s.cfg.k.toNat < 2 ^ 32 ∧ (∀ i < q, s.bit (s.arg0 + i) = true) ∧ s.bit (s.arg0 + q) = false ∧
    s.arg0 + q < s.streamLen.toNat ∧ s.streamLen.toNat < s.arg0 + q + 1 + s.cfg.k.toNat :=
  ⟨withArgs (withStream small (bits [1, 0, 0, 1, 0, 1, 0, 1, 1])) 0 8 0 0, 1, by decide⟩

theorem witness_RiceRoundTrip : ∃ (s t : State) (w : Word), s.remap.Sound ∧ (w = 8 ∨ w = 16 ∨ w = 32) ∧
    s.arg0 < 2 ^ w.toNat ∧ exec .ricePut s = .next t ∧ t.report = Report.normalEnd :=
  ⟨withArgs { small with remap := tables39 } 255 0 0 0, _, 8, tables39_sound, by decide, by decide, rfl, by decide⟩

theorem witness_OperationCode (op : Op) (h : op ∈ [Op.imm 1 0x61, .imm 33 0x61, .ref 2 0, .ref 33 0xFFFFFFFF]) :
    ∃ (c : Coder) (st : BitStream) (p : Nat), c.remap.Sound ∧ 1 ≤ c.m ∧ op.wf c.l = true ∧
      st.holdsCode p (encodeOp c op) :=
  ⟨resetCoder, .ofBits (encodeOp resetCoder op), 0, small_remap_sound, by decide, by
    revert h; revert op; decide, ofBits_holdsCode _⟩

theorem witness_DecodeOfEncode : ∃ (c : Coder) (i : Instr), c.remap.Sound ∧ 1 ≤ c.m ∧ i.wf c.l = true :=
  ⟨resetCoder, .ref 33 0xFFFFFFFF, small_remap_sound, by decide⟩

theorem witness_DecodedOperation : ∃ (c : Coder) (st : BitStream) (p q : Nat) (op : Op),
    decodeOp c st p = .ok (op, q) := ⟨resetCoder, .ofBits stream28, 19, 28, .imm 1 0x21, by decide⟩

theorem witness_Reserved_head : ∃ (c : Coder) (st : BitStream) (p h : Nat), c.remap.Sound ∧ 1 ≤ c.m ∧ h < 2 ^ 32 ∧
    headSpace c.l ≤ h ∧ st.holdsCode p (c.sym h) :=
  ⟨resetCoder, .ofBits (resetCoder.sym 320), 0, 320, small_remap_sound, by decide, by decide, by decide,
    ofBits_holdsCode _⟩

theorem witness_Reserved_byte : ∃ (c : Coder) (st : BitStream) (p n b : Nat), c.remap.Sound ∧ 1 ≤ c.m ∧ 2 ≤ n ∧
    n ≤ sizeMax c.l ∧ b < 2 ^ 32 ∧ 256 ≤ b ∧ st.holdsCode p (c.sym (254 + n) ++ c.sym b) :=
  ⟨resetCoder, .ofBits _, 0, 33, 256, small_remap_sound, by decide, by decide, by decide, by decide, by decide,
    ofBits_holdsCode _⟩

theorem witness_Reserved_chunks : ∃ (c : Coder) (st : BitStream) (p n : Nat) (chunks : List Nat), c.remap.Sound ∧
    1 ≤ c.m ∧ 2 ≤ n ∧ n ≤ sizeMax c.l ∧ (∀ g ∈ chunks, g < 2 ^ c.m) ∧ chunks.length = chunksMax c.m ∧
    st.holdsCode p (c.sym (254 + 2 ^ c.l + n) ++ chunks.flatMap fun g => true :: fieldBits c.m g) :=
  ⟨resetCoder, .ofBits _, 0, 2, List.replicate 11 1, small_remap_sound, by decide, by decide, by decide, by decide,
    by decide, ofBits_holdsCode _⟩

theorem witness_Reserved_offset : ∃ (c : Coder) (st : BitStream) (p n : Nat) (chunks : List Nat) (more : Bool)
    (last : Nat), c.remap.Sound ∧ 1 ≤ c.m ∧ 2 ≤ n ∧ n ≤ sizeMax c.l ∧ (∀ g ∈ chunks, g < 2 ^ c.m) ∧ last < 2 ^ c.m ∧
    chunks.length < chunksMax c.m ∧ 2 ^ 32 ≤ (chunks ++ [last]).foldl (fun o g => o * 2 ^ c.m + g) 0 ∧
    st.holdsCode p (c.sym (254 + 2 ^ c.l + n) ++ (chunks.flatMap fun g => true :: fieldBits c.m g) ++
      more :: fieldBits c.m last) :=
  ⟨resetCoder, .ofBits _, 0, 33, 4 :: List.replicate 9 0, false, 0, small_remap_sound, by decide, by decide, by decide,
    by decide, by decide, by decide, by decide, ofBits_holdsCode _⟩

theorem witness_Thresholds : (∃ (r : Remap) (x n : Nat), r.Sound ∧ r.en = true ∧ r.threshold x ≤ n ∧ n < 2 ^ 32) ∧
    (∃ (r : Remap) (x n : Nat), r.Sound ∧ r.en = false ∧ r.threshold x ≤ n ∧ n < 2 ^ 32) ∧
    ∃ s : State, s.cap.legal = true ∧ s.remap.Sound ∧ s.coder.l ≤ s.cap.lMax.toNat :=
  ⟨⟨tables39, 5, 8, tables39_sound, by decide⟩, ⟨small.remap, 5, 5, small_remap_sound, by decide⟩,
    ⟨small, by decide, small_remap_sound, by decide⟩⟩

theorem witness_BoundedBits : ∃ (c : Coder) (st st' : BitStream) (p : Nat), c.remap.Sound ∧ st.len = st'.len ∧
    st.bit (p + 63) ≠ st'.bit (p + 63) ∧
    ∀ i < ceilDiv (c.remap.threshold (headSpace c.l)) (2 ^ c.k) + ceilDiv (c.remap.threshold 256) (2 ^ c.k) +
      2 * c.k + chunksMax c.m * (c.m + 1), st.bit (p + i) = st'.bit (p + i) :=
  ⟨resetCoder, ⟨fun _ => false, 99⟩, ⟨fun i => decide (63 = i), 99⟩, 0, small_remap_sound, rfl, by decide, by decide⟩

theorem witness_GlzOpPut_kind : ∃ s : State, s.opsOk = true ∧ 2 ≤ s.arg0 := ⟨withArgs small 2 0 0 0, by decide⟩

theorem witness_GlzOpPut_imm : ∀ s ∈ [withArgs small 0 0 0 0, withArgs small 0 34 0 0, withArgs small 0 1 256 0],
    s.opsOk = true ∧ s.arg0 = 0 ∧ (s.arg1 = 0 ∨ 2 ^ s.cfg.l.toNat + 1 < s.arg1 ∨ 255 < s.arg2) := by decide

theorem witness_GlzOpPut_ref : ∀ s ∈ [withArgs small 1 1 0 0, withArgs small 1 34 0 0],
    s.opsOk = true ∧ s.arg0 = 1 ∧ (s.arg1 < 2 ∨ 2 ^ s.cfg.l.toNat + 1 < s.arg1) := by decide

theorem witness_GlzOpPut_capacity : ∃ s : State, s.opsOk = true ∧ s.arg0 = 0 ∧
    ¬(s.arg1 = 0 ∨ 2 ^ s.cfg.l.toNat + 1 < s.arg1 ∨ 255 < s.arg2) ∧ s.cap.bitmemBits.toNat <
      s.streamLen.toNat + (encodeOp s.coder (.imm s.arg1 (BitVec.ofNat 8 s.arg2))).length :=
  ⟨withArgs (filled 46) 0 33 255 0, by decide⟩

theorem witness_GlzOpPut_normal_imm : ∃ s : State, s.opsOk = true ∧ s.arg0 = 0 ∧
    ¬(s.arg1 = 0 ∨ 2 ^ s.cfg.l.toNat + 1 < s.arg1 ∨ 255 < s.arg2) ∧ ¬s.cap.bitmemBits.toNat <
      s.streamLen.toNat + (encodeOp s.coder (.imm s.arg1 (BitVec.ofNat 8 s.arg2))).length :=
  ⟨withArgs (filled 45) 0 33 255 0, by decide⟩

theorem witness_GlzOpPut_normal_ref : ∃ s : State, s.opsOk = true ∧ s.arg0 = 1 ∧
    ¬(s.arg1 < 2 ∨ 2 ^ s.cfg.l.toNat + 1 < s.arg1) ∧ ¬s.cap.bitmemBits.toNat <
      s.streamLen.toNat + (encodeOp s.coder (.ref s.arg1 (BitVec.ofNat 32 s.arg2))).length :=
  ⟨withArgs (filled 10) 1 33 0xFFFFFFFF 0, by decide⟩

theorem witness_GlzOpGet : (∃ s : State, s.opsOk = true ∧ decodeOp s.coder s.stream s.arg0 = .error ⟨.unterminated, 0⟩) ∧
    (∃ s : State, s.opsOk = true ∧ decodeOp s.coder s.stream s.arg0 = .ok (.imm 1 0x21, 28)) ∧
    ∃ s : State, s.opsOk = true ∧ decodeOp s.coder s.stream s.arg0 = .ok (.ref 33 5, 14) :=
  ⟨⟨small, by decide⟩, ⟨withArgs (withStream small stream28) 19 0 0 0, by decide⟩,
    ⟨withStream small (encodeOp resetCoder (.ref 33 5)), by decide⟩⟩

/-- Streams cut inside the head: a run of ones at the threshold, one that the stream ends, a remainder one bit short. -/
theorem witness_GlzOpGet_cut_head : (∃ s : State, s.opsOk = true ∧ s.remap.Sound ∧
      s.coder.remap.threshold (headSpace s.coder.l) ≤ 2 * 2 ^ s.coder.k ∧ s.arg0 + 2 = s.streamLen.toNat ∧
      ∀ i < 2, s.bit (s.arg0 + i) = true) ∧
    (∃ s : State, s.opsOk = true ∧ s.remap.Sound ∧ s.arg0 + 1 = s.streamLen.toNat ∧
      (∀ i, s.arg0 ≤ i → i < s.streamLen.toNat → s.bit i = true) ∧
      (s.streamLen.toNat - s.arg0) * 2 ^ s.coder.k < s.coder.remap.threshold (headSpace s.coder.l)) ∧
    ∃ s : State, s.opsOk = true ∧ s.remap.Sound ∧ s.bit (s.arg0 + 0) = false ∧
      0 * 2 ^ s.coder.k < s.coder.remap.threshold (headSpace s.coder.l) ∧
      s.arg0 + 0 + 1 + s.coder.k = s.streamLen.toNat + 1 :=
  ⟨⟨withStream small [true, true], by decide, small_remap_sound, by decide, by decide, by decide⟩,
    ⟨withStream small [true], by decide, small_remap_sound, by decide, by decide, by decide⟩,
    ⟨withStream small (fieldBits 8 0x55), by decide, small_remap_sound, by decide, by decide, by decide⟩⟩

/-- Streams cut after a RUN's head: GLZ_OP_GET's error at the operation's start (43_glz_ops.md R101). -/
theorem test_glzOpGet_cut_run_byte :
    errorOf .glzOpGet (withStream small (resetCoder.sym 256 ++ [true])) = some (true, .invalidOp, 0) ∧
    errorOf .glzOpGet (withStream small (resetCoder.sym 256)) = some (true, .unterminated, 0) ∧
    errorOf .glzOpGet (withStream small (resetCoder.sym 256 ++ fieldBits 8 0x55)) = some (true, .truncated, 0) := by
  decide

theorem witness_GlzOpGet_cut_run : ∀ tail ∈ [[true], [], fieldBits 8 0x55],
    let s := withStream small (resetCoder.sym 256 ++ tail)
    s.opsOk = true ∧ s.coder.remap.threshold 256 = 1 * 2 ^ s.coder.k ∧ (s.coder.sym (254 + 2)).length = 10 ∧
    ∀ i (h : i < (s.coder.sym (254 + 2)).length), s.stream.bit (s.arg0 + i) = (s.coder.sym (254 + 2))[i] := by decide

/-- A REF cut one bit short of its eleventh chunk. -/
theorem witness_GlzOpGet_cut_ref : ∃ (s : State) (chunks : List Nat), s.opsOk = true ∧ s.remap.Sound ∧
    (∀ g ∈ chunks, g < 2 ^ s.coder.m) ∧ chunks.length + 1 = chunksMax s.coder.m ∧
    chunks.foldl (fun o g => o * 2 ^ s.coder.m + g) 0 < 2 ^ 32 ∧
    s.stream.holdsCode s.arg0 (s.coder.sym (254 + 2 ^ s.coder.l + 33) ++
      chunks.flatMap fun g => true :: fieldBits s.coder.m g) ∧
    s.streamLen.toNat + 1 = s.arg0 + (s.coder.sym (254 + 2 ^ s.coder.l + 33) ++
      chunks.flatMap fun g => true :: fieldBits s.coder.m g).length + 1 + s.coder.m :=
  ⟨withStream small (resetCoder.sym 319 ++ ((List.replicate 10 3).flatMap fun g => true :: fieldBits 3 g) ++
      [false, true, true]), List.replicate 10 3, by decide, small_remap_sound, by decide, by decide, by decide,
    by unfold BitStream.holdsCode BitStream.holds; decide +kernel, by decide +kernel⟩

/-- A decode in progress with the depth and the owed bytes given. -/
def runningAt (cmd : DecodeCmd) (d k limit : Nat) (rem : Remaining) : State :=
  { running 0 19 with dec := { (running 0 19).dec with cmd := cmd, d := d, k := k, limit := limit, rem := rem } }

theorem witness_Immediates_capacity : ∃ s : State, s.dec.running = true ∧
    s.dec.cmd = .decodeStream ∧ s.dec.limit < s.dec.k + s.dec.rem.clip 3 :=
  ⟨runningAt .decodeStream 0 2 4 .unbounded, by decide⟩

theorem witness_Immediates_normal : ∃ s : State, s.dec.running = true ∧
    ¬(s.dec.cmd = .decodeStream ∧ s.dec.limit < s.dec.k + s.dec.rem.clip 3) ∧
    s.dec.out + s.dec.k + s.dec.rem.clip 3 ≤ s.cap.bytememBytes.toNat :=
  ⟨runningAt .decodeStream 0 1 4 .unbounded, by decide⟩

theorem witness_References : (∃ s : State, s.dec.running = true ∧ s.dec.rem.coveredBy 4 = true) ∧
    (∃ s : State, s.dec.running = true ∧ s.dec.rem.coveredBy 4 = false ∧ 2 ≤ s.dec.d) ∧
    ∃ s : State, s.dec.running = true ∧ s.dec.rem.coveredBy 4 = false ∧ s.dec.d = 1 :=
  ⟨⟨runningAt .decodeAt 0 0 4 (.bytes 4), by decide⟩, ⟨runningAt .decodeAt 2 0 4 (.bytes 5), by decide⟩,
    ⟨runningAt .decodeAt 1 0 4 (.bytes 5), by decide⟩⟩

theorem witness_OperationsStop : ∀ i ∈ [Instr.lit 0, .run 2 0, .ref 2 0],
    commandWord i = none ∧ small.dec.running = false := by decide

theorem witness_DecodeAtWritesImmediates : ∃ (s : State) (ims : List (Nat × Byte)), s.opsOk = true ∧ s.remap.Sound ∧
    s.arg2 + s.arg1 ≤ s.cap.bytememBytes.toNat ∧ immediatesLegal s.coder.l ims ∧
    s.stream.holdsCode s.arg0 (immediatesCode s.coder ims) ∧ s.arg1 = (immediatesBytes ims).length :=
  ⟨withArgs (withStream small stream28) 0 4 12 0, [(3, 0x68), (1, 0x21)], by decide, small_remap_sound, by decide,
    by unfold immediatesLegal; decide, by unfold BitStream.holdsCode BitStream.holds; decide, by decide⟩

theorem witness_DecodeStreamWritesImmediates : ∃ (s : State) (ims : List (Nat × Byte)), s.opsOk = true ∧ s.remap.Sound ∧
    s.arg1 + s.arg2 ≤ s.cap.bytememBytes.toNat ∧ immediatesLegal s.coder.l ims ∧
    s.stream.holds s.arg0 (immediatesCode s.coder ims) ∧
    s.arg0 + (immediatesCode s.coder ims).length = s.streamLen.toNat ∧ (immediatesBytes ims).length = s.arg2 :=
  ⟨withArgs (withStream small stream28) 0 12 4 0, [(3, 0x68), (1, 0x21)], by decide, small_remap_sound, by decide,
    by unfold immediatesLegal; decide, by unfold BitStream.holds; decide, by decide, by decide⟩

theorem witness_DecodeCommandsWriteOnly :
    (∃ s t : State, exec .glzDecodeAt s = .next t ∧ t.report.err = false) ∧
    ∃ s t : State, exec .glzDecodeStream s = .next t ∧ t.report.err = true :=
  ⟨⟨withArgs (withStream small stream28) 0 4 12 0, _, rfl, by decide⟩,
    ⟨withArgs (withStream small stream28) 0 0 3 0, _, rfl, by decide⟩⟩

theorem witness_DecodeRange : (∃ s : State, s.opsOk = true ∧ s.cap.bytememBytes.toNat + 1 = s.arg2 + s.arg1) ∧
    ∃ s : State, s.opsOk = true ∧ s.cap.bytememBytes.toNat + 1 = s.arg1 + s.arg2 :=
  ⟨⟨withArgs small 0 0 17 0, by decide⟩, ⟨withArgs small 0 17 0 0, by decide⟩⟩

theorem witness_DecodeCommandRun : ∃ s : State, s.opsOk = true ∧ s.inputs = [] ∧
    s.arg2 + s.arg1 ≤ s.cap.bytememBytes.toNat ∧ s.arg1 + s.arg2 ≤ s.cap.bytememBytes.toNat :=
  ⟨withArgs (withStream small stream28) 0 4 12 0, by decide⟩

/-- The slices of V85. -/
def slices85 : State := withArgs (withWords (withBytes small [97, 98, 97, 98, 97, 98]) [0, 4, 4, 2]) 0 2 8 0

theorem slices85_ok : slices85.descriptorsOk slices85.arg0 slices85.arg1 := by unfold State.descriptorsOk; decide

theorem witness_EncodeAllCompletes : ∃ (s : State) (m : Nat), s.opsOk = true ∧ s.descriptorsOk s.arg0 s.arg1 ∧
    s.arg2 + 2 * s.arg1 ≤ s.cap.wordmemWords.toNat ∧ (∀ h < headSpace s.coder.l, s.coder.symLen h ≤ m) ∧
    s.streamLen.toNat + m * s.sliceBytes s.arg0 s.arg1 ≤ s.cap.bitmemBits.toNat :=
  ⟨slices85, 10, by decide, slices85_ok, by decide, by decide +kernel, by decide⟩

theorem witness_EncodeAllRanges :
    (∃ s : State, s.opsOk = true ∧ s.cap.wordmemWords.toNat < s.arg0 + 2 * s.arg1) ∧
    (∃ s : State, s.opsOk = true ∧ s.cap.wordmemWords.toNat < s.arg2 + 2 * s.arg1) ∧
    ∃ s : State, s.opsOk = true ∧ ∃ i < s.arg1, s.cap.bytememBytes.toNat <
      (s.wordmem.read (s.arg0 + 2 * i)).toNat + (s.wordmem.read (s.arg0 + 2 * i + 1)).toNat :=
  ⟨⟨withArgs small 15 1 0 0, by decide⟩, ⟨withArgs small 0 1 15 0, by decide⟩,
    ⟨withArgs (withWords small [13, 4]) 0 1 8 0, by decide⟩⟩

/-- The bit count W at the end of an encode. -/
def emittedBits (r : Except Raised (List (Slice × Nat) × EncodeRun)) : Option Nat :=
  match r with
  | .ok (_, y) => some y.enc.w
  | .error _ => none

theorem emittedBits_some {r : Except Raised (List (Slice × Nat) × EncodeRun)} {n : Nat} (h : emittedBits r = some n) :
    ∃ ends y, r = .ok (ends, y) ∧ y.enc.w = n := by
  unfold emittedBits at h
  split at h
  · exact ⟨_, _, rfl, Option.some.inj h⟩
  · simp at h

/-- V85 in a BITMEM of 49 bits: its stream has 50. -/
def short85 : State := { slices85 with cap := ⟨49, 16, 16, 320, 5⟩ }

theorem witness_EncodeAll_emission : ∃ (s : State) (room : Nat) (ends : List (Slice × Nat)) (y : EncodeRun),
    s.opsOk = true ∧ s.descriptorsOk s.arg0 s.arg1 ∧ s.arg2 + 2 * s.arg1 ≤ s.cap.wordmemWords.toNat ∧
    encodeAll { s.encodeEnv with sink := .stream s.streamLen.toNat room } (s.slices s.arg0 s.arg1) s.hist =
      .ok (ends, y) ∧ s.cap.bitmemBits.toNat + 1 = s.streamLen.toNat + y.enc.w := by
  obtain ⟨ends, y, h, hw⟩ := emittedBits_some (n := 50) (r := encodeAll { short85.encodeEnv with sink := .stream 0 50 }
    (short85.slices 0 2) short85.hist) (by decide +kernel)
  exact ⟨short85, 50, ends, y, by decide, slices85_ok, by decide, h, by rw [hw]; rfl⟩

theorem test_glzEncodeAll_emission :
    errorOf .glzEncodeAll short85 = some (true, .capacity, 0) := by decide

theorem witness_EncodeAll_error : ∃ s t : State, exec .glzEncodeAll s = .next t ∧ t.report.err = true :=
  ⟨{ small with cfg := ⟨33, 5, 3⟩ }, _, rfl, by decide⟩

theorem witness_DecodeAtRecovers : ∃ (s t : State) (i : Nat) (out : Word), s.remap.Sound ∧
    exec .glzEncodeAll s = .next t ∧ t.report = Report.normalEnd ∧ i < s.arg1 ∧
    out.toNat + (s.wordmem.read (s.arg0 + 2 * i + 1)).toNat ≤ s.cap.bytememBytes.toNat :=
  ⟨slices85, _, 0, 12, small_remap_sound, rfl, by decide +kernel, by decide, by decide⟩

theorem witness_EqualSlices : ∃ (s t : State) (i j : Nat), exec .glzEncodeAll s = .next t ∧
    t.report = Report.normalEnd ∧ i < j ∧ j < s.arg1 ∧
    s.bytes (s.wordmem.read (s.arg0 + 2 * i)).toNat (s.wordmem.read (s.arg0 + 2 * i + 1)).toNat =
      s.bytes (s.wordmem.read (s.arg0 + 2 * j)).toNat (s.wordmem.read (s.arg0 + 2 * j + 1)).toNat :=
  ⟨withArgs (withWords (withBytes small [97, 98, 97, 98]) [0, 2, 2, 2]) 0 2 8 0, _, 0, 1, rfl, by decide,
    by decide, by decide, by decide⟩

theorem witness_Seed (flags : Word) : ∃ s : State, s.args.a2 = flags ∧ s.lmOk = true ∧ s.cap.legal = true ∧
    s.descriptorsOk s.arg0 s.arg1 ∧ s.sliceBytes s.arg0 s.arg1 < 2 ^ 32 :=
  ⟨{ slices85 with args := ⟨0, 2, flags, 0⟩ }, rfl, show slices85.lmOk = true by decide,
    show slices85.cap.legal = true by decide, slices85_ok,
    show slices85.sliceBytes slices85.arg0 slices85.arg1 < 2 ^ 32 by decide⟩

theorem witness_Seed_ranges :
    (∃ s : State, s.lmOk = true ∧ s.cap.legal = true ∧ s.cap.wordmemWords.toNat + 1 = s.arg0 + 2 * s.arg1) ∧
    ∃ s : State, s.lmOk = true ∧ s.cap.legal = true ∧ ¬s.cap.wordmemWords.toNat < s.arg0 + 2 * s.arg1 ∧
      ∃ d ∈ s.slices s.arg0 s.arg1, s.cap.bytememBytes.toNat + 1 = d.addr + d.len :=
  ⟨⟨withArgs small 15 1 0 0, by decide⟩, ⟨withArgs (withWords small [13, 4]) 0 1 3 0, by decide⟩⟩

theorem witness_Seed_completes (flags : Word) : ∃ (s : State) (ends : List (Slice × Nat)) (y : EncodeRun),
    s.args.a2 = flags ∧ s.lmOk = true ∧ s.cap.legal = true ∧
    encodeAll s.seedEnv (s.slices s.arg0 s.arg1) (Hist.cleared (256 + 2 ^ (s.cfg.l.toNat + 1))) = .ok (ends, y) := by
  obtain ⟨ends, y, h, -⟩ := emittedBits_some (n := 50) (r := encodeAll slices85.seedEnv
    (slices85.slices slices85.arg0 slices85.arg1) (Hist.cleared (256 + 2 ^ (slices85.cfg.l.toNat + 1))))
    (by decide +kernel)
  exact ⟨{ slices85 with args := ⟨0, 2, flags, 0⟩ }, ends, y, rfl, show slices85.lmOk = true by decide,
    show slices85.cap.legal = true by decide, h⟩

/-- The largest BYTEMEM, all zeros, three overlapping slices that fill it, L = 0 and M = 32: more than 2^32 immediates. -/
def manyZeros : State :=
  { State.resetWith ⟨64, 0xFFFFFFFF, 16, 320, 5⟩ with
    cfg := ⟨8, 0, 32⟩
    wordmem := Memory.writeList [] 0 [0, 0xFFFFFFFF, 0, 0xFFFFFFFE, 0, 0xFFFFFFFD]
    args := ⟨0, 3, 0, 0⟩ }

/-- A reference costs 43 bits or more there, so each pass takes an immediate of at most two zero bytes. -/
theorem manyZeros_scanStep {base : Nat} {x y : EncodeRun} (hq : 0 < x.enc.q)
    (h : scanStep manyZeros.seedEnv base x = .ok y) :
    x.enc.q ≤ y.enc.q + 2 ∧ y.hist.countOf 0 = x.hist.countOf 0 + 1 := by
  have hsz : sizeMax manyZeros.seedEnv.coder.l = 2 := rfl
  have hlit : manyZeros.seedEnv.coder.opLen (.imm 1 0#8) = 9 := by decide
  have hrun : manyZeros.seedEnv.coder.opLen (.imm 2 0#8) = 19 := by decide
  have hsym1 : opSymbols manyZeros.seedEnv.coder.l (.imm 1 0#8) = [0] := by decide
  have hsym2 : opSymbols manyZeros.seedEnv.coder.l (.imm 2 0#8) = [256, 0] := by decide
  have hb : manyZeros.seedEnv.mem.read (base + x.enc.q - 1) = 0#8 := rfl
  have hc := trailingRun_spec manyZeros.seedEnv.mem base x.enc.q (manyZeros.seedEnv.mem.read (base + x.enc.q - 1))
    (min (sizeMax manyZeros.seedEnv.coder.l) x.enc.q - 1) 1
  have hcases := scanStep_cases manyZeros.seedEnv base x
  dsimp only at hc hcases
  rw [hb, hsz] at hc hcases
  generalize trailingRun manyZeros.seedEnv.mem base x.enc.q 0#8 (min 2 x.enc.q - 1) 1 = c at hc hcases
  have hc12 : c = 1 ∨ c = 2 := by omega
  rcases hcases with ⟨n, o, -, hr, hlt, -⟩ | he
  · exfalso
    obtain ⟨hn2, hn, -⟩ := findRef_spec hr
    obtain rfl : n = 2 := by omega
    have : 33 ≤ 33 * chunkCount 32 (BitVec.ofNat 32 o).toNat := Nat.le_mul_of_pos_right _ (by simp [chunkCount])
    have href : manyZeros.seedEnv.coder.opLen (.ref 2 (BitVec.ofNat 32 o)) =
      10 + 33 * chunkCount 32 (BitVec.ofNat 32 o).toNat := rfl
    rcases hc12 with rfl | rfl
    · rw [hlit, href] at hlt; omega
    · rw [hrun, href] at hlt; omega
  · obtain ⟨z, hz, hyh, hye⟩ := takeImm_ok (he.symm.trans h)
    obtain ⟨-, hze, -⟩ := emit_hist_ok (cap := 320) rfl hz
    refine ⟨by rw [hye, hze]; simp only [Encoder.push_q]; omega, ?_⟩
    rw [hyh, emit_hist_countOf (cap := 320) rfl hz]
    rcases hc12 with rfl | rfl
    · rw [hsym1]; rfl
    · rw [hsym2]; rfl

/-- So a slice of n bytes counts the symbol 0 at least n / 2 times. -/
theorem manyZeros_encodeScan {base fuel : Nat} {x y : EncodeRun} (hq : x.enc.q ≤ fuel)
    (h : encodeScan manyZeros.seedEnv base fuel x = .ok y) :
    x.enc.q + 2 * x.hist.countOf 0 ≤ 2 * y.hist.countOf 0 := by
  induction fuel generalizing x with
  | zero => obtain rfl := Except.ok.inj h; omega
  | succ fuel ih =>
    simp only [encodeScan] at h
    by_cases hz : x.enc.q = 0
    · rw [if_pos hz] at h
      obtain rfl := Except.ok.inj h
      omega
    · rw [if_neg hz] at h
      split at h
      · simp at h
      · rename_i z hstep
        obtain ⟨h1, h2⟩ := manyZeros_scanStep (Nat.pos_of_ne_zero hz) hstep
        have := scanStep_lowers (Nat.pos_of_ne_zero hz) hstep
        have := ih (by omega) h
        omega

theorem manyZeros_encodeSlice {d : Slice} {x y : EncodeRun} (h : encodeSlice manyZeros.seedEnv d x = .ok y) :
    d.len + 2 * x.hist.countOf 0 ≤ 2 * y.hist.countOf 0 :=
  manyZeros_encodeScan (x := { x with enc := { x.enc with q := d.len, r := d.len, f := false } }) le_rfl h

/-- COUNT_OVERFLOW is reached: no 32-bit counter holds the occurrences of the symbol 0 there (44_glz_encode.md R116). -/
theorem witness_Seed_overflow : manyZeros.lmOk = true ∧ manyZeros.cap.legal = true ∧
    ¬manyZeros.cap.wordmemWords.toNat < manyZeros.arg0 + 2 * manyZeros.arg1 ∧
    (¬∃ d ∈ manyZeros.slices manyZeros.arg0 manyZeros.arg1, manyZeros.cap.bytememBytes.toNat < d.addr + d.len) ∧
    ∃ why, encodeAll manyZeros.seedEnv (manyZeros.slices manyZeros.arg0 manyZeros.arg1)
      (Hist.cleared (256 + 2 ^ (manyZeros.cfg.l.toNat + 1))) = .error why := by
  refine ⟨by decide, by decide, by decide, by decide, ?_⟩
  have hs : sortBy Slice.before (manyZeros.slices manyZeros.arg0 manyZeros.arg1) =
      [⟨0, 0, 4294967295⟩, ⟨1, 0, 4294967294⟩, ⟨2, 0, 4294967293⟩] := by decide
  rcases he : encodeAll manyZeros.seedEnv (manyZeros.slices manyZeros.arg0 manyZeros.arg1)
      (Hist.cleared (256 + 2 ^ (manyZeros.cfg.l.toNat + 1))) with why | ⟨ends, y⟩
  · exact ⟨why, rfl⟩
  · exfalso
    rw [encodeAll, hs] at he
    obtain ⟨y1, h1, he⟩ := encodeSlices_fresh (by simp) he
    obtain ⟨y2, h2, he⟩ := encodeSlices_fresh (by simp) he
    obtain ⟨y3, h3, he⟩ := encodeSlices_fresh (by simp) he
    have := manyZeros_encodeSlice h1
    have := manyZeros_encodeSlice h2
    have := manyZeros_encodeSlice h3
    have := y3.hist.countOf_lt 0
    dsimp only at *
    omega

theorem witness_StartChecks : (∃ s : State, s.cap.bitmemBits.toNat < s.streamLen.toNat) ∧
    (∃ s : State, 32 < s.cfg.k.toNat) ∧ (∃ s : State, s.cap.lMax.toNat < s.cfg.l.toNat) ∧
    (∃ s : State, s.cfg.m.toNat = 0) ∧ ∃ s : State, 32 < s.cfg.m.toNat :=
  ⟨⟨filled 65, by decide⟩, ⟨{ small with cfg := ⟨33, 5, 3⟩ }, by decide⟩, ⟨{ small with cfg := ⟨8, 6, 3⟩ }, by decide⟩,
    ⟨{ small with cfg := ⟨8, 5, 0⟩ }, by decide⟩, ⟨{ small with cfg := ⟨8, 5, 33⟩ }, by decide⟩⟩

theorem witness_IllegalCommand : ∀ w ∈ [(0x00000100 : Word), 0x80000010, 0x00000002, 0x000000FF],
    ∃ s : State, s.inputs = [.writeReg 0x00 w] ∧ s.report.busy = false ∧
      (w.toNat / 2 ^ 8 ≠ 0 ∨ w.toNat % 2 ^ 8 ∉ definedOpcodes) := fun w hw =>
  ⟨{ small with inputs := [.writeReg 0x00 w] }, rfl, rfl, by
    simp only [List.mem_cons, List.not_mem_nil, or_false] at hw
    rcases hw with rfl | rfl | rfl | rfl <;> decide⟩

theorem witness_EveryCommandEnds : commandWord .nop ≠ none ∧ commandWord .glzSeed ≠ none := by decide

theorem witness_StepRunsTheCommand : ∃ (s : State) (w : Word) (i : Instr), s.inputs = [.writeReg 0x00 w] ∧
    s.report.busy = false ∧ decodeCommand w = .ok i :=
  ⟨{ small with inputs := [.writeReg 0x00 0x55] }, 0x55, .glzSeed, by decide⟩

theorem witness_StepRunsTheOperation : ∃ (s : State) (op : Op) (q : Nat), s.inputs = [] ∧ s.dec.running = true ∧
    (Decoder.popFinished s.dec.d s.dec).finished s.streamLen.toNat = false ∧
    (Decoder.popFinished s.dec.d s.dec).cycles + 1 ≤ 2 * (Decoder.popFinished s.dec.d s.dec).limit ∧
    decodeOp s.coder s.stream (Decoder.popFinished s.dec.d s.dec).p = .ok (op, q) :=
  ⟨running 19 0, .imm 1 0x21, 28, by decide⟩

theorem witness_DecodeSteps_exit : ∃ s : State, s.inputs = [] ∧ s.dec.running = true ∧ s.report = Report.started ∧
    (Decoder.popFinished s.dec.d s.dec).finished s.streamLen.toNat = true :=
  ⟨runningAt .decodeAt 0 4 4 (.bytes 0), by decide⟩

theorem witness_DecodeSteps_cap : ∃ s : State, s.inputs = [] ∧ s.dec.running = true ∧ s.report = Report.started ∧
    (Decoder.popFinished s.dec.d s.dec).finished s.streamLen.toNat = false ∧
    2 * (Decoder.popFinished s.dec.d s.dec).limit < (Decoder.popFinished s.dec.d s.dec).cycles + 1 :=
  ⟨{ running 0 0 with dec := { (running 0 0).dec with cycles := 8 } }, by decide⟩

theorem witness_DecodeSteps_error : ∃ (s : State) (why : Raised), s.inputs = [] ∧ s.dec.running = true ∧
    s.report = Report.started ∧ (Decoder.popFinished s.dec.d s.dec).finished s.streamLen.toNat = false ∧
    (Decoder.popFinished s.dec.d s.dec).cycles + 1 ≤ 2 * (Decoder.popFinished s.dec.d s.dec).limit ∧
    decodeOp s.coder s.stream (Decoder.popFinished s.dec.d s.dec).p = .error why :=
  ⟨{ running 28 0 with dec := { (running 28 0).dec with cycles := 7 } }, ⟨.unterminated, 28⟩, by decide⟩

theorem witness_Busy : ∀ a ∈ [Input.writeReg 0x00 0x10, .writeBitmem 0 1, .writeBytemem 0 1, .writeWordmem 0 1,
    .readReg 0x01], ∃ s : State, s.inputs = [a] ∧ s.report.busy = true := fun a _ =>
  ⟨{ small.start with inputs := [a] }, rfl, rfl⟩

theorem witness_RegisterWrites : ∀ r ∈ [(0x04 : BitVec 8), 0x05, 0x06, 0x0B, 0x0C, 0x0F, 0x01, 0x16, 0x1B, 0xFF],
    ∃ s : State, s.inputs = [.writeReg r 0xFFFFFFFF] ∧ s.report.busy = false ∧ r ≠ 0x00 := fun r hr =>
  ⟨{ small with inputs := [.writeReg r 0xFFFFFFFF] }, rfl, rfl, by revert hr; revert r; decide⟩

theorem witness_PortReads : ∀ a ∈ [Input.readReg 0x16, .readBytemem 15, .readBytemem 16, .readWordmem 15,
    .readWordmem 16, .readBitmem 7, .readBitmem 8], ∃ s : State, s.inputs = [a] ∧ s.report.busy = false := fun a _ =>
  ⟨{ small with inputs := [a] }, rfl, rfl⟩

theorem witness_PortWrites : ∀ a ∈ [Input.writeBytemem 15 1, .writeBytemem 16 1, .writeWordmem 15 1,
    .writeWordmem 16 1, .writeBitmem 7 1, .writeBitmem 8 1], ∃ s : State, s.inputs = [a] ∧ s.report.busy = false :=
  fun a _ => ⟨{ small with inputs := [a] }, rfl, rfl⟩

theorem witness_PowerOn : (∃ s : State, s.inputs = [.powerOn] ∧ s.report.busy = false) ∧
    ∃ s : State, s.inputs = [.powerOn] ∧ s.report.busy = true ∧ s.dec.running = true :=
  ⟨⟨{ small with inputs := [.powerOn] }, rfl, rfl⟩, ⟨{ running 0 19 with inputs := [.powerOn] }, rfl, rfl, rfl⟩⟩

/-- R143: a decode in progress goes on. -/
theorem test_powerOn_busy : ({ running 0 19 with inputs := [] } : State).access .powerOn = running 0 19 := by decide

/-- A sound state in the middle of a decode, and one with a command to run. -/
theorem running_inv : (running 0 19).Inv where
  params := by decide
  memory := by unfold State.MemorySound; decide
  remap := small_remap_sound
  report := by unfold Report.Sound; decide
  decoder := ⟨by decide, by decide, fun _ => ⟨by decide, by decide, by decide, by decide, by decide, by decide, by decide,
    by simp [Decoder.accounted, running, State.beginDecode, Decoder.frames, Remaining.count]⟩⟩
  encoder := rfl

theorem running_histInv : (running 0 19).HistInv where
  hist := ⟨by decide, by decide, fun _ _ => rfl⟩
  tables := by decide
  entries := by decide

theorem witness_EveryStepKeeps :
    ∃ s t : State, s.Inv ∧ s.HistInv ∧ ¬s.failsSeed t ∧ s.remap.Sound ∧ step s = .next t := by
  have h : (match step (running 0 19) with | .next _ => true | _ => false) = true := by decide
  generalize hs : step (running 0 19) = o at h
  cases o with
  | next t => exact ⟨running 0 19, t, running_inv, running_histInv, fun hf => absurd hf.1 (by decide), small_remap_sound, hs⟩
  | fault _ => simp at h
  | refused _ => simp at h

/-- The step that the invariant of the histogram leaves out: GLZ_SEED with a slice outside BYTEMEM. -/
theorem witness_failsSeed : ∃ s t : State, step s = .next t ∧ s.failsSeed t :=
  ⟨{ withArgs (withWords small [13, 4]) 0 1 3 0 with inputs := [.writeReg 0x00 0x55] }, _, rfl, rfl, rfl, rfl⟩

theorem witness_OnlyTableCommands : ∃ s t u : State, exec .histSeed s = .next t ∧
    Instr.histSeed ∉ [Instr.histSort, .tableLoad, .tableClear, .reset] ∧ exec .glzSeed s = .next u ∧
    s.deriveTable = false := ⟨slices85, _, _, rfl, by decide, rfl, by decide⟩

end Sys2Proof.Tests
end

section
/-! What every command keeps of the block, said once (10_state.md R22, R26, R31 to R33), and the answers of the shared reads and of the encoder. -/

namespace Sys2Proof.Machine

/-! ### Answers and endings -/

/-- The answer is a value of which good holds, or an error with a code of its own (60_exceptions.md R134). -/
def Answers {α : Type} (good : α → Prop) : Except Raised α → Prop
  | .ok a => good a
  | .error why => why.code ≠ .none

theorem Answers.mono {α : Type} {p q : α → Prop} {r : Except Raised α} (h : Answers p r) (hpq : ∀ a, p a → q a) :
    Answers q r := by
  cases r with
  | ok a => exact hpq a h
  | error why => exact h

/-- The pseudocode stops in a state of which post holds, and an error it raises has a code of its own. -/
def Ending.Ends (post : State → Prop) : Ending → Prop
  | .done t => post t
  | .raised t why => post t ∧ why.code ≠ .none

theorem Ending.Ends.mono {p q : State → Prop} {e : Ending} (h : e.Ends p) (hpq : ∀ t, p t → q t) : e.Ends q := by
  cases e with
  | done t => exact hpq t h
  | raised t why => exact ⟨hpq t h.1, h.2⟩

/-- A start check adds one ending only: CONFIG(0), with nothing changed (60_exceptions.md R139). -/
theorem guarded_ends {ok : State → Bool} {body : State → Ending} {s : State} {post : State → Prop} (hs : post s)
    (hb : (body s).Ends post) : (guarded ok body s).Ends post := by
  unfold guarded
  split
  · exact hb
  · exact ⟨hs, by decide⟩

/-- Leaving contents unspecified after an error keeps what the change itself keeps. -/
theorem Ending.Ends.onError {p q : State → Prop} {f : State → State} {e : Ending} (h : e.Ends p)
    (hd : ∀ t, p t → q t) (hf : ∀ t, p t → q (f t)) : (e.onError f).Ends q := by
  cases e with
  | done t => exact hd t h
  | raised t why => exact ⟨hf t h.1, h.2⟩

/-! ### What the shared reads answer -/

theorem decodeOp_answers (c : Coder) (st : BitStream) (p : Nat) : Answers (fun _ => True) (decodeOp c st p) := by
  cases h : decodeOp c st p with
  | ok a => trivial
  | error why =>
    obtain ⟨-, hc | hc | hc⟩ := decodeOp_error h <;> simp [Answers, hc]

theorem getRice_answers (st : BitStream) (k p cap : Nat) {code : ErrCode} (hc : code ≠ .none) (ep : Nat) :
    Answers (fun _ => True) (getRice st k p cap code ep) := by
  cases h : getRice st k p cap code ep with
  | ok a => trivial
  | error why =>
    rcases getRice_error h with rfl | rfl | rfl
    · exact hc
    · simp [Answers]
    · simp [Answers]

theorem getBits_answers (st : BitStream) (p w : Nat) : Answers (fun _ => True) (getBits st p w) := by
  unfold getBits
  split
  · simp [Answers]
  · trivial

/-! ### What the histogram's operations keep -/

/-- From h to g the counters stay canonical and the limits of 10_state.md R31 hold on. -/
structure Hist.Keeps (cap : Nat) (h g : Hist) : Prop where
  counters : h.count.wf cap = true → g.count.wf cap = true
  limits : h.Sound cap → g.Sound cap

theorem Hist.Keeps.refl (cap : Nat) (h : Hist) : h.Keeps cap h := ⟨id, id⟩

theorem Hist.Keeps.trans {cap : Nat} {h g f : Hist} (a : h.Keeps cap g) (b : g.Keeps cap f) : h.Keeps cap f :=
  ⟨b.counters ∘ a.counters, b.limits ∘ a.limits⟩

theorem Hist.keeps_cleared {cap f : Nat} (hf : f ≤ cap) (h : Hist) : h.Keeps cap (Hist.cleared f) :=
  ⟨fun _ => (Hist.cleared_sound hf).1, fun _ => Hist.cleared_sound hf⟩

theorem Hist.keeps_bump {cap n : Nat} (hn : n < cap) (hc : cap < 2 ^ 32) (h : Hist) : h.Keeps cap (h.bump n) :=
  ⟨fun hw => Memory.wf_write hw hn _, fun hs => Hist.bump_sound hs hn hc⟩

theorem Hist.keeps_foldl_bump {cap : Nat} {ns : List Nat} (hn : ∀ n ∈ ns, n < cap) (hc : cap < 2 ^ 32) (h : Hist) :
    h.Keeps cap (ns.foldl Hist.bump h) := by
  induction ns generalizing h with
  | nil => exact .refl cap h
  | cons n ns ih =>
    exact (Hist.keeps_bump (hn n (by simp)) hc h).trans (ih (fun m hm => hn m (List.mem_cons_of_mem _ hm)) _)

/-- The errors of the histogram's operations have codes of their own (41_histogram_remap.md R76 to R81). -/
theorem histError_code {why : Raised}
    (h : why = ⟨.capacity, 0⟩ ∨ why = ⟨.countOverflow, 0⟩ ∨ why = ⟨.histUnderflow, 0⟩) :
    why.code ≠ .none := by
  rcases h with rfl | rfl | rfl <;> decide

theorem Hist.clear_answers (cap f : Nat) (h : Hist) : Answers (h.Keeps cap) (Hist.clear cap f) := by
  unfold Hist.clear
  split
  · simp [Answers]
  · exact Hist.keeps_cleared (by omega) h

theorem Hist.inc_answers {cap : Nat} (hc : cap < 2 ^ 32) (h : Hist) (n : Nat) :
    Answers (h.Keeps cap) (h.inc cap n) := by
  cases hr : h.inc cap n with
  | ok g =>
    obtain ⟨hn, -, rfl⟩ := Hist.inc_ok.1 hr
    exact Hist.keeps_bump hn hc h
  | error why => exact histError_code ((Hist.inc_error hr).imp_right .inl)

theorem Hist.dec_answers (cap : Nat) (h : Hist) (n : Nat) : Answers (h.Keeps cap) (h.dec cap n) := by
  cases hr : h.dec cap n with
  | ok g =>
    refine ⟨fun hw => ?_, fun hs => Hist.dec_sound hs hr⟩
    obtain ⟨hn, -, rfl⟩ := Hist.dec_ok.1 hr
    exact Memory.wf_write hw hn _
  | error why => exact histError_code ((Hist.dec_error hr).imp_right .inr)

theorem Hist.seed_answers {cap : Nat} (hc : cap < 2 ^ 32) (h : Hist) (ns : List Nat) :
    Answers (h.Keeps cap) (h.seed cap ns) := by
  cases hr : h.seed cap ns with
  | ok g =>
    obtain ⟨hn, -, rfl⟩ := Hist.seed_ok hr
    exact Hist.keeps_foldl_bump hn hc h
  | error why => exact histError_code ((Hist.seed_error hr).imp_right .inl)

/-! ### What the encoder keeps of the histogram -/

/-- What a sink keeps of the histogram: a stream all of it, a histogram of cap counters its limits. -/
def Sink.KeepsHist (h g : Hist) : Sink → Prop
  | .stream _ _ => g = h
  | .hist cap => cap < 2 ^ 32 → h.Keeps cap g

theorem Sink.KeepsHist.refl (k : Sink) (h : Hist) : k.KeepsHist h h := by
  cases k with
  | stream s0 cap => exact rfl
  | hist cap => exact fun _ => .refl cap h

theorem Sink.KeepsHist.trans {k : Sink} {h g f : Hist} (a : k.KeepsHist h g) (b : k.KeepsHist g f) :
    k.KeepsHist h f := by
  cases k with
  | stream s0 cap => exact Eq.trans b a
  | hist cap => exact fun hc => (a hc).trans (b hc)

theorem emit_answers (env : EncodeEnv) (x : EncodeRun) (op : Op) :
    Answers (fun y => env.sink.KeepsHist x.hist y.hist) (emit env x op) := by
  cases hr : emit env x op with
  | ok y =>
    rcases hs : env.sink with ⟨s0, cap⟩ | cap
    · obtain ⟨-, rfl⟩ := (emit_stream_ok hs).1 hr
      exact rfl
    · obtain ⟨hn, -, hy⟩ := emit_hist_ok hs hr
      intro hc
      rw [hy]
      exact Hist.keeps_foldl_bump hn hc x.hist
  | error why =>
    rcases hs : env.sink with ⟨s0, cap⟩ | cap
    · obtain ⟨-, rfl⟩ := (emit_stream_error hs).1 hr
      simp [Answers]
    · exact histError_code ((emit_hist_error hs hr).imp_right .inl)

theorem takeImm_answers (env : EncodeEnv) (base : Nat) (x : EncodeRun) (c : Nat) (b : Byte) :
    Answers (fun y => env.sink.KeepsHist x.hist y.hist) (takeImm env base x c b) := by
  have h := emit_answers env x (.imm c b)
  unfold takeImm
  split <;> rename_i he <;> rw [he] at h <;> exact h

theorem takeRef_answers (env : EncodeEnv) (x : EncodeRun) (n o : Nat) :
    Answers (fun y => env.sink.KeepsHist x.hist y.hist) (takeRef env x n o) := by
  have h := emit_answers env x (.ref n (BitVec.ofNat 32 o))
  unfold takeRef
  split <;> rename_i he <;> rw [he] at h <;> exact h

theorem scanStep_answers (env : EncodeEnv) (base : Nat) (x : EncodeRun) :
    Answers (fun y => env.sink.KeepsHist x.hist y.hist) (scanStep env base x) := by
  rcases scanStep_cases env base x with ⟨n, o, -, -, -, he⟩ | he
  · rw [he]; exact takeRef_answers env x n o
  · rw [he]; exact takeImm_answers env base x _ _

theorem encodeScan_answers (env : EncodeEnv) (base fuel : Nat) (x : EncodeRun) :
    Answers (fun y => env.sink.KeepsHist x.hist y.hist) (encodeScan env base fuel x) := by
  induction fuel generalizing x with
  | zero => exact .refl _ _
  | succ fuel ih =>
    have h := scanStep_answers env base x
    unfold encodeScan
    split
    · exact .refl _ _
    · split <;> rename_i he <;> rw [he] at h
      · exact h
      · exact (ih _).mono fun _ hy => h.trans hy

theorem encodeSlices_answers (env : EncodeEnv) (ds : List Slice) (ends : List (Slice × Nat)) (x : EncodeRun) :
    Answers (fun r => env.sink.KeepsHist x.hist r.2.hist) (encodeSlices env ds ends x) := by
  induction ds generalizing ends x with
  | nil => exact .refl _ _
  | cons d ds ih =>
    have h : Answers (fun y => env.sink.KeepsHist x.hist y.hist) (encodeSlice env d x) := encodeScan_answers env _ _ _
    unfold encodeSlices
    split
    · exact ih _ _
    · split <;> rename_i he <;> rw [he] at h
      · exact h
      · exact (ih _ _).mono fun _ hy => h.trans hy

/-- GLZ_ENCODE_ALL leaves the histogram alone, and GLZ_SEED keeps its limits (44_glz_encode.md R111, R116). -/
theorem encodeAll_answers (env : EncodeEnv) (ds : List Slice) (h : Hist) :
    Answers (fun r => env.sink.KeepsHist h r.2.hist) (encodeAll env ds h) :=
  encodeSlices_answers env _ [] ⟨Encoder.idle, h⟩

end Sys2Proof.Machine
end

section
/-! What a command's pseudocode keeps of the block: its parameters, report, decoder and encoder, the canonical memories and the inverse tables; and which commands keep the tables themselves (10_state.md R26, R31 to R33). -/

namespace Sys2Proof.Machine

/-! ### The two relations -/

/-- What every pseudocode keeps between the command's start and its end. -/
structure State.KeepsBlock (s t : State) : Prop where
  cap : t.cap = s.cap
  report : t.report = s.report
  dec : t.dec = s.dec
  enc : s.enc = Encoder.idle → t.enc = Encoder.idle
  memory : s.MemorySound → t.MemorySound
  remap : s.remap.Sound → t.remap.Sound

/-- What a pseudocode that ends without the error of a GLZ_SEED keeps: the limits of the histogram and of the tables too (10_state.md R31, R32). -/
structure State.KeepsLimits (s t : State) : Prop extends s.KeepsBlock t where
  histInv : s.HistInv → t.HistInv

/-- What a pseudocode that installs no table keeps: the tables too (10_state.md R33), and the limits of the histogram. -/
structure State.KeepsTables (s t : State) : Prop extends s.KeepsBlock t where
  tables : t.remap = s.remap
  limits : s.hist.Sound s.cap.histCap.toNat → t.hist.Sound t.cap.histCap.toNat

theorem State.KeepsBlock.refl (s : State) : s.KeepsBlock s := ⟨rfl, rfl, rfl, id, id, id⟩

theorem State.KeepsBlock.trans {s t u : State} (a : s.KeepsBlock t) (b : t.KeepsBlock u) : s.KeepsBlock u :=
  ⟨b.cap.trans a.cap, b.report.trans a.report, b.dec.trans a.dec, b.enc ∘ a.enc, b.memory ∘ a.memory,
    b.remap ∘ a.remap⟩

theorem State.KeepsTables.refl (s : State) : s.KeepsTables s := ⟨.refl s, rfl, id⟩

theorem State.KeepsTables.trans {s t u : State} (a : s.KeepsTables t) (b : t.KeepsTables u) : s.KeepsTables u :=
  ⟨a.toKeepsBlock.trans b.toKeepsBlock, b.tables.trans a.tables, b.limits ∘ a.limits⟩

/-- The limits of R31 and R32 read the parameters, the histogram and the tables alone. -/
theorem State.HistInv.congr {s t : State} (h : s.HistInv) (hcap : t.cap = s.cap) (hhist : t.hist = s.hist)
    (hremap : t.remap = s.remap) : t.HistInv := by
  obtain ⟨h1, h2, h3⟩ := h
  constructor
  · rwa [hcap, hhist]
  · rwa [hcap, hremap]
  · rwa [hcap, hremap]

theorem State.KeepsTables.histInv {s t : State} (h : s.KeepsTables t) (hs : s.HistInv) : t.HistInv := by
  refine ⟨h.limits hs.hist, ?_, ?_⟩
  · rw [h.cap, h.tables]; exact hs.tables
  · rw [h.cap, h.tables]; exact hs.entries

/-! ### The operations over the state -/

/-- A change of anything but the parameters, the report, the tables, the histogram, the decoder and the encoder, when it leaves the memories canonical. -/
theorem State.KeepsTables.of_memories {s t : State} (hcap : t.cap = s.cap := by simp)
    (hreport : t.report = s.report := by simp) (hdec : t.dec = s.dec := by simp) (henc : t.enc = s.enc := by simp)
    (hremap : t.remap = s.remap := by simp) (hhist : t.hist = s.hist := by simp)
    (hbits : s.bitmem.wf s.cap.bitmemBits.toNat = true → t.bitmem.wf s.cap.bitmemBits.toNat = true := by simp)
    (hbytes : s.bytemem.wf s.cap.bytememBytes.toNat = true → t.bytemem.wf s.cap.bytememBytes.toNat = true := by simp)
    (hwords : s.wordmem.wf s.cap.wordmemWords.toNat = true → t.wordmem.wf s.cap.wordmemWords.toNat = true := by simp) :
    s.KeepsTables t where
  cap := hcap
  report := hreport
  dec := hdec
  enc := by rw [henc]; exact id
  memory := by
    rintro ⟨h1, h2, h3, h4, h5, h6⟩
    rw [State.MemorySound, hcap, hhist, hremap]
    exact ⟨hbits h1, hbytes h2, hwords h3, h4, h5, h6⟩
  remap := by rw [hremap]; exact id
  tables := hremap
  limits := by rw [hcap, hhist]; exact id

/-- The result registers, the configuration, the arguments, STREAM_LEN, the port and the model's counters play no part in what is kept. -/
theorem keepsTables_registers (s : State) (cfg : Settings) (len : Word) (args : Args) (res : Results)
    (inputs : List Input) (port : Word) (free : Nat) :
    s.KeepsTables { s with cfg := cfg, streamLen := len, args := args, res := res, inputs := inputs
                           portData := port, free := free } :=
  .of_memories

theorem keepsTables_setRes0 (s : State) (v : Nat) : s.KeepsTables (s.setRes0 v) := keepsTables_registers s _ _ _ _ _ _ _

theorem keepsTables_setRes1 (s : State) (v : Nat) : s.KeepsTables (s.setRes1 v) := keepsTables_registers s _ _ _ _ _ _ _

theorem keepsTables_setRes2 (s : State) (v : Nat) : s.KeepsTables (s.setRes2 v) := keepsTables_registers s _ _ _ _ _ _ _

theorem keepsTables_setBestK (s : State) : s.KeepsTables s.setBestK := keepsTables_registers s _ _ _ _ _ _ _

theorem keepsTables_writeBits (s : State) (p : Nat) (bs : List Bool) : s.KeepsTables (s.writeBits p bs) :=
  .of_memories (hbits := fun h => wf_writeBits h p bs)

theorem keepsTables_putBits (s : State) (bs : List Bool) : s.KeepsTables (s.putBits bs) :=
  (keepsTables_writeBits s s.streamLen.toNat bs).trans (keepsTables_registers _ _ _ _ _ _ _ _)

theorem keepsTables_writeByte (s : State) (a : Nat) (v : Byte) : s.KeepsTables (s.writeByte a v) :=
  .of_memories (hbytes := fun h => wf_writeByte h a v)

theorem keepsTables_fillBytes (s : State) (a : Nat) (v : Byte) (n : Nat) : s.KeepsTables (s.fillBytes a v n) := by
  induction n generalizing s a with
  | zero => exact .refl s
  | succ n ih => exact (keepsTables_writeByte s a v).trans (ih _ _)

theorem keepsTables_writeWord (s : State) (a : Nat) (v : Word) : s.KeepsTables (s.writeWord a v) :=
  .of_memories (hwords := fun h => wf_writeWord h a v)

theorem keepsTables_writeWords (s : State) (a : Nat) (ws : List Word) : s.KeepsTables (s.writeWords a ws) := by
  induction ws generalizing s a with
  | nil => exact .refl s
  | cons w ws ih => exact (keepsTables_writeWord s a w).trans (ih _ _)

theorem keepsTables_writePairs (s : State) (z stop : Nat) (es : List (Slice × Nat)) :
    s.KeepsTables (s.writePairs z stop es) := by
  induction es generalizing s with
  | nil => exact .refl s
  | cons e es ih => exact ((keepsTables_writeWord s _ _).trans (keepsTables_writeWord _ _ _)).trans (ih _)

theorem keepsTables_looseBits (s : State) (lo hi : Nat) : s.KeepsTables (s.looseBits lo hi) :=
  .of_memories (hbits := fun h => wf_looseBits h lo hi)

theorem keepsTables_looseWords (s : State) (lo hi : Nat) : s.KeepsTables (s.looseWords lo hi) :=
  .of_memories (hwords := fun h => wf_looseWords h lo hi)

/-- A new histogram keeps the tables, whatever it is, when its counters are canonical and its limits hold. -/
theorem keepsTables_hist {s : State} {h : Hist} (hk : s.hist.Keeps s.cap.histCap.toNat h) :
    s.KeepsTables { s with hist := h } where
  cap := rfl
  report := rfl
  dec := rfl
  enc := id
  memory := fun ⟨h1, h2, h3, h4, h5, h6⟩ => ⟨h1, h2, h3, hk.counters h4, h5, h6⟩
  remap := id
  tables := rfl
  limits := hk.limits

/-- U4 keeps all but the limits of the histogram. -/
theorem keepsBlock_looseHist (s : State) : s.KeepsBlock s.looseHist where
  cap := rfl
  report := rfl
  dec := rfl
  enc := id
  memory := fun ⟨h1, h2, h3, _, h5, h6⟩ => ⟨h1, h2, h3, s.wf_looseHist_count, h5, h6⟩
  remap := id

/-! ### Installing a table -/

/-- An install of entries below a capacity leaves D and E canonical below it (10_state.md R32). -/
theorem Remap.wf_install {cap : Nat} {r : Remap} {ns : List Nat} (hb : ∀ n ∈ ns, n < cap) (hl : ns.length ≤ cap)
    (h : r.d.wf cap = true ∧ r.e.wf cap = true) : (r.install ns).d.wf cap = true ∧ (r.install ns).e.wf cap = true := by
  by_cases hn : ns = []
  · subst hn; exact h
  · rw [r.install_cons hn]
    exact ⟨Memory.wf_writeList h.1 _ _ (by simpa using hl), wf_inverseEntries h.2 _ hb⟩

/-- TBL_B after an install is the number of entries. -/
theorem Remap.install_b (r : Remap) {ns : List Nat} (hl : ns.length < 2 ^ 32) : (r.install ns).b.toNat = ns.length := by
  by_cases hn : ns = []
  · subst hn; rfl
  · rw [r.install_cons hn]; simpa using Nat.mod_eq_of_lt hl

/-- The entries permute 0..B-1 with B a 32-bit number (41_histogram_remap.md R82, R88). -/
structure TableEntries (ns : List Nat) : Prop where
  nodup : ns.Nodup
  below : ∀ n ∈ ns, n < ns.length
  length : ns.length < 2 ^ 32

theorem keepsBlock_install (s : State) {ns : List Nat} (hn : TableEntries ns) :
    s.KeepsBlock { s with remap := s.remap.install ns } where
  cap := rfl
  report := rfl
  dec := rfl
  enc := id
  memory := by
    rintro ⟨h1, h2, h3, h4, h56⟩
    exact ⟨h1, h2, h3, h4, Remap.wf_install (fun n h => lt_trans (hn.below n h) hn.length) hn.length.le h56⟩
  remap := fun _ => s.remap.install_sound hn.nodup hn.below hn.length

/-- A table of at most HIST_CAP entries keeps the limits of the tables. -/
theorem histInv_install {s : State} {ns : List Nat} (hn : TableEntries ns) (hl : ns.length ≤ s.cap.histCap.toNat)
    (h : s.HistInv) : ({ s with remap := s.remap.install ns } : State).HistInv where
  hist := h.hist
  tables := by
    show (s.remap.install ns).b.toNat ≤ s.cap.histCap.toNat
    rwa [Remap.install_b _ hn.length]
  entries := Remap.wf_install (fun n hm => lt_of_lt_of_le (hn.below n hm) hl) hl h.entries

theorem Hist.bound_lt (h : Hist) : h.bound < 2 ^ 32 := max_lt h.fixlen.isLt h.hwm.isLt

theorem Hist.sorted_entries (h : Hist) : TableEntries h.sorted where
  nodup := h.sorted_perm.nodup_iff.2 List.nodup_range
  below := fun n hn => by simpa using h.sorted_perm.mem_iff.1 hn
  length := by rw [h.length_sorted]; exact h.bound_lt

theorem keepsBlock_sortTables (s : State) : s.KeepsBlock s.sortTables := keepsBlock_install s s.hist.sorted_entries

theorem histInv_sortTables {s : State} (h : s.HistInv) : s.sortTables.HistInv :=
  histInv_install s.hist.sorted_entries (by rw [Hist.length_sorted]; exact h.hist.2.1) h

/-- REMAP.EN = 0 and TBL_B = 0, with D and E kept (41_histogram_remap.md R90, 46_host.md R131). -/
theorem Remap.off_sound (r : Remap) : ({ r with en := false, b := 0 } : Remap).Sound :=
  ⟨fun h => absurd h (by simp), fun _ => rfl⟩

/-! ### The pseudocodes that install no table -/

/-- An error that the pseudocode raises at once, with nothing changed. -/
theorem raised_ends (s : State) {code : ErrCode} (hc : code ≠ .none) (pos : Nat) :
    (Ending.raised s ⟨code, pos⟩).Ends s.KeepsTables := ⟨.refl s, hc⟩

theorem bitsPut_ends (s : State) : (bitsPut s).Ends s.KeepsTables := by
  unfold bitsPut
  extract_lets w n
  split
  · exact raised_ends s (by decide) _
  split
  · exact raised_ends s (by decide) _
  split
  · exact raised_ends s (by decide) _
  · exact (keepsTables_setRes0 s _).trans (keepsTables_putBits _ _)

theorem bitsGet_ends (s : State) : (bitsGet s).Ends s.KeepsTables := by
  unfold bitsGet
  extract_lets w p
  split
  · exact raised_ends s (by decide) _
  have h := getBits_answers s.stream p w
  split <;> rename_i he <;> rw [he] at h
  · exact ⟨.refl s, h⟩
  · exact (keepsTables_setRes0 s _).trans (keepsTables_setRes1 _ _)

theorem bitsPutStream_ends (s : State) : (bitsPutStream s).Ends s.KeepsTables := by
  unfold bitsPutStream
  extract_lets w a c
  split
  · exact raised_ends s (by decide) _
  split
  · exact raised_ends s (by decide) _
  split
  · exact raised_ends s (by decide) _
  split
  · exact raised_ends s (by decide) _
  · exact (keepsTables_setRes0 s _).trans (keepsTables_putBits _ _)

theorem bitsGetStream_ends (s : State) : (bitsGetStream s).Ends s.KeepsTables := by
  unfold bitsGetStream
  extract_lets w p a cmax cnt rest
  split
  · exact raised_ends s (by decide) _
  split
  · exact keepsTables_setRes0 s _
  split
  · exact raised_ends s (by decide) _
  split
  · exact raised_ends s (by decide) _
  split
  · exact raised_ends s (by decide) _
  split
  · exact ⟨keepsTables_looseWords s _ _, by simp⟩
  · exact (keepsTables_writeWords s _ _).trans (keepsTables_setRes0 _ _)

theorem withHist_ends (s : State) {r : Except Raised Hist} (h : Answers (s.hist.Keeps s.cap.histCap.toNat) r) :
    (s.withHist r).Ends s.KeepsTables := by
  cases r with
  | error why => exact ⟨.refl s, h⟩
  | ok g => exact keepsTables_hist h

theorem histSeed_ends (s : State) : (histSeed s).Ends s.KeepsTables := by
  unfold histSeed
  extract_lets a c
  split
  · exact raised_ends s (by decide) _
  · exact withHist_ends s (Hist.seed_answers s.cap.histCap.isLt _ _)

theorem tableStore_ends (s : State) : (tableStore s).Ends s.KeepsTables := by
  unfold tableStore
  extract_lets a b
  split
  · exact keepsTables_setRes0 s _
  split
  · exact raised_ends s (by decide) _
  · exact (keepsTables_writeWords s _ _).trans (keepsTables_setRes0 _ _)

theorem ricePut_ends (s : State) : (ricePut s).Ends s.KeepsTables := by
  unfold ricePut
  extract_lets n len
  split
  · exact raised_ends s (by decide) _
  · exact ((keepsTables_setRes0 s _).trans (keepsTables_setRes1 _ _)).trans (keepsTables_putBits _ _)

theorem riceGet_ends (s : State) : (riceGet s).Ends s.KeepsTables := by
  unfold riceGet
  extract_lets p w
  split
  · exact raised_ends s (by decide) _
  have h := getRice_answers s.stream s.coder.k p (2 ^ 32) (code := .cast) (by decide) p
  split <;> rename_i he <;> rw [he] at h
  · exact ⟨.refl s, h⟩
  · extract_lets v
    split
    · exact raised_ends s (by decide) _
    · exact (keepsTables_setRes0 s _).trans (keepsTables_setRes1 _ _)

theorem riceSearch_ends (s : State) : (riceSearch s).Ends s.KeepsTables :=
  (((keepsTables_setBestK s).trans (keepsTables_setRes0 _ _)).trans (keepsTables_setRes1 _ _)).trans
    (keepsTables_setRes2 _ _)

theorem glzOpPut_ends (s : State) : (glzOpPut s).Ends s.KeepsTables := by
  unfold glzOpPut
  extract_lets kind u v
  split
  · exact raised_ends s (by decide) _
  split
  · exact raised_ends s (by decide) _
  split
  · exact raised_ends s (by decide) _
  · exact ((keepsTables_setRes0 s _).trans (keepsTables_setRes1 _ _)).trans (keepsTables_putBits _ _)

theorem keepsTables_setOpResults (s : State) (q : Nat) (op : Op) : s.KeepsTables (s.setOpResults q op) := by
  cases op <;> exact keepsTables_registers s _ _ _ _ _ _ _

theorem glzOpGet_ends (s : State) : (glzOpGet s).Ends s.KeepsTables := by
  have h := decodeOp_answers s.coder s.stream s.arg0
  unfold glzOpGet
  split <;> rename_i he <;> rw [he] at h
  · exact ⟨.refl s, h⟩
  · exact keepsTables_setOpResults s _ _

/-! ### The encode and seed commands -/

/-- The encoder's values are discarded when the command ends, so what the command made of them is not kept (10_state.md R34). -/
theorem State.KeepsBlock.discardEncoder {s t : State} {x : Encoder}
    (h : ({ s with enc := x } : State).KeepsBlock t) : s.KeepsBlock t.discardEncoder :=
  ⟨h.cap, h.report, h.dec, fun _ => rfl, h.memory, h.remap⟩

theorem State.KeepsTables.discardEncoder {s t : State} {x : Encoder}
    (h : ({ s with enc := x } : State).KeepsTables t) : s.KeepsTables t.discardEncoder :=
  ⟨h.toKeepsBlock.discardEncoder, h.tables, h.limits⟩

theorem keepsTables_storeEncoded (s : State) (z : Nat) (ends : List (Slice × Nat)) (x : Encoder) :
    s.KeepsTables (s.storeEncoded z ends x) :=
  State.KeepsTables.discardEncoder (x := x)
    ((((keepsTables_putBits _ _).trans (keepsTables_writePairs _ _ _ _)).trans (keepsTables_setRes0 _ _)).trans
      (keepsTables_setRes1 _ _))

theorem glzEncodeAll_ends (s : State) : (glzEncodeAll s).Ends s.KeepsTables := by
  unfold glzEncodeAll
  extract_lets a n z
  split
  · exact raised_ends s (by decide) _
  split
  · exact raised_ends s (by decide) _
  have h := encodeAll_answers s.encodeEnv (s.slices a n) s.hist
  split <;> rename_i he <;> rw [he] at h
  · exact ⟨.refl s, h⟩
  · exact keepsTables_storeEncoded s _ _ _

theorem keepsTables_looseEncodeOutput (s : State) : s.KeepsTables s.looseEncodeOutput :=
  (keepsTables_looseBits s _ _).trans (keepsTables_looseWords _ _ _)

/-- What a GLZ_SEED that ends normally keeps: the limits, and the tables unless its derive-table flag is set (10_state.md R31 to R33). -/
structure State.KeepsSeed (s t : State) : Prop extends s.KeepsLimits t where
  tables : s.deriveTable = false → t.remap = s.remap

theorem State.KeepsTables.seed {s t : State} (h : s.KeepsTables t) : s.KeepsSeed t :=
  ⟨⟨h.toKeepsBlock, h.histInv⟩, fun _ => h.tables⟩

theorem State.KeepsSeed.trans_tables {s t u : State} (a : s.KeepsSeed t) (b : t.KeepsTables u) : s.KeepsSeed u :=
  ⟨⟨a.toKeepsBlock.trans b.toKeepsBlock, b.histInv ∘ a.histInv⟩, fun h => b.tables.trans (a.tables h)⟩

theorem keepsSeed_refit (s : State) : s.KeepsSeed s.refit := by
  have hsort : s.KeepsSeed (if s.deriveTable then s.sortTables else s) := by
    split
    · rename_i hd
      exact ⟨⟨keepsBlock_sortTables s, histInv_sortTables⟩, fun h => absurd hd (by simp [h])⟩
    · exact (State.KeepsTables.refl s).seed
  unfold State.refit
  extract_lets t
  split
  · exact hsort.trans_tables (keepsTables_setBestK t)
  · exact hsort

theorem glzSeed_ends (s : State) :
    (∃ t, glzSeed s = .done t ∧ s.KeepsSeed t) ∨ ∃ why, glzSeed s = .raised s why ∧ why.code ≠ .none := by
  unfold glzSeed
  extract_lets a n
  split
  · exact .inr ⟨_, rfl, by decide⟩
  split
  · exact .inr ⟨_, rfl, by decide⟩
  have hclear := Hist.clear_answers s.cap.histCap.toNat (headSpace s.coder.l) s.hist
  split <;> rename_i hc <;> rw [hc] at hclear
  · exact .inr ⟨_, rfl, hclear⟩
  rename_i h
  have hall := encodeAll_answers s.seedEnv (s.slices a n) h
  split <;> rename_i he <;> rw [he] at hall
  · exact .inr ⟨_, rfl, hall⟩
  rename_i y
  have hhist : s.KeepsTables { s with hist := y.hist } := keepsTables_hist (hclear.trans (hall s.cap.histCap.isLt))
  have hrefit := keepsSeed_refit { s with enc := y.enc, hist := y.hist }
  refine .inl ⟨_, rfl, ?_⟩
  have hdiscard : s.KeepsSeed ({ s with enc := y.enc, hist := y.hist } : State).refit.discardEncoder :=
    ⟨⟨hhist.toKeepsBlock.trans hrefit.toKeepsBlock.discardEncoder,
      fun hs => (hrefit.histInv ((hhist.histInv hs).congr rfl rfl rfl)).congr rfl rfl rfl⟩, hrefit.tables⟩
  exact (hdiscard.trans_tables (keepsTables_setRes0 _ _)).trans_tables (keepsTables_setRes1 _ _)

/-! ### The commands that write the tables -/

theorem isPermutation_entries {ns : List Nat} (h : isPermutation ns = true) (hl : ns.length < 2 ^ 32) :
    TableEntries ns := by
  simp only [isPermutation, Bool.and_eq_true, List.all_eq_true, decide_eq_true_eq] at h
  exact ⟨h.2, h.1, hl⟩

theorem tableLoad_ends (s : State) : (tableLoad s).Ends s.KeepsLimits := by
  have hraised : ∀ {code : ErrCode} (_ : code ≠ .none) (pos : Nat),
      (Ending.raised s ⟨code, pos⟩).Ends s.KeepsLimits := fun hc pos => ⟨⟨.refl s, id⟩, hc⟩
  unfold tableLoad
  extract_lets a b ns
  split
  · exact hraised (by decide) _
  rename_i hb
  split
  · exact hraised (by decide) _
  split
  · rename_i hp
    have hl : ns.length = b := by simp [ns]
    have hn : TableEntries ns := isPermutation_entries hp (by rw [hl]; exact s.args.a1.isLt)
    exact ⟨keepsBlock_install s hn, histInv_install hn (by omega)⟩
  · exact hraised (by decide) _

theorem histSort_ends (s : State) : (Ending.done (s.sortTables.setRes0 s.hist.bound)).Ends s.KeepsLimits :=
  ⟨(keepsBlock_sortTables s).trans (keepsTables_setRes0 _ _).toKeepsBlock,
    (keepsTables_setRes0 _ _).histInv ∘ histInv_sortTables⟩

theorem tableClear_ends (s : State) :
    (Ending.done { s with remap := { s.remap with en := false, b := 0 } }).Ends s.KeepsLimits where
  cap := rfl
  report := rfl
  dec := rfl
  enc := id
  memory := id
  remap := fun _ => s.remap.off_sound
  histInv := fun h => ⟨h.hist, Nat.zero_le _, h.entries⟩

end Sys2Proof.Machine
end

section
/-! What every instruction can do, by what it keeps of the block (46_host.md R127): one lemma over all of exec. -/

namespace Sys2Proof.Machine

/-! ### A whole command -/

/-- What a command that is a start, a pseudocode and an end keeps (46_host.md R127). -/
structure RunsCommand (i : Instr) (s t : State) : Prop where
  ending : ∃ e : Ending, t = e.close ∧ e.Ends s.start.KeepsBlock
  histInv : i ≠ .glzSeed ∨ t.report.err = false → s.HistInv → t.HistInv
  tables : i ∉ [Instr.histSort, .tableLoad, .tableClear] → (i = .glzSeed → s.deriveTable = false) →
    t.remap = s.remap

/-- The start and the end of a command touch the report and the results alone. -/
theorem close_histInv {s : State} {e : Ending} (hs : s.HistInv) (h : e.Ends fun t => s.start.HistInv → t.HistInv) :
    e.close.HistInv := by
  have hstart : s.start.HistInv := hs.congr rfl rfl rfl
  cases e with
  | done t => exact (h hstart).congr rfl rfl rfl
  | raised t why => exact (h.1 hstart).congr rfl rfl rfl

theorem close_remap {r : Remap} {e : Ending} (h : e.Ends fun t => t.remap = r) : e.close.remap = r := by
  cases e with
  | done t => exact h
  | raised t why => exact h.1

theorem done_ends {s t : State} (h : s.KeepsTables t) : (Ending.done t).Ends s.KeepsTables := h

/-- A command that installs no table. -/
theorem runsCommand_of_keepsTables {i : Instr} {s t : State} {e : Ending} (hb : e.Ends s.start.KeepsTables)
    (h : (.next e.close : Host.Outcome State Fault Refusal) = .next t) : RunsCommand i s t := by
  obtain rfl := Host.Outcome.next.inj h
  exact ⟨⟨_, rfl, hb.mono fun _ k => k.toKeepsBlock⟩, fun _ hs => close_histInv hs (hb.mono fun _ k => k.histInv),
    fun _ _ => close_remap (hb.mono fun _ k => k.tables)⟩

/-- HIST_SORT, TABLE_LOAD and TABLE_CLEAR. -/
theorem runsCommand_of_keepsLimits {i : Instr} {s t : State} {e : Ending} (hb : e.Ends s.start.KeepsLimits)
    (hi : i ∈ [Instr.histSort, .tableLoad, .tableClear])
    (h : (.next e.close : Host.Outcome State Fault Refusal) = .next t) :
    RunsCommand i s t := by
  obtain rfl := Host.Outcome.next.inj h
  exact ⟨⟨_, rfl, hb.mono fun _ k => k.toKeepsBlock⟩, fun _ hs => close_histInv hs (hb.mono fun _ k => k.histInv),
    fun hn => absurd hi hn⟩

/-- How GLZ_SEED stops: normally, or in an error that leaves the histogram unspecified (44_glz_encode.md R116). -/
theorem seedEnding_cases (s : State) :
    let e := (guarded State.lmOk glzSeed s).onError State.looseHist
    (∃ t, e = .done t ∧ s.KeepsSeed t) ∨ ∃ why, e = .raised s.looseHist why ∧ why.code ≠ .none := by
  intro e
  by_cases hok : s.lmOk = true
  · rcases glzSeed_ends s with ⟨t, ht, hk⟩ | ⟨why, hw, hc⟩
    · exact .inl ⟨t, by simp only [e]; rw [guarded_of_ok hok, ht]; rfl, hk⟩
    · exact .inr ⟨why, by simp only [e]; rw [guarded_of_ok hok, hw]; rfl, hc⟩
  · exact .inr ⟨⟨.config, 0⟩, by simp only [e]; rw [guarded_of_not (by simpa using hok)]; rfl, by decide⟩

theorem runsCommand_glzSeed {s t : State} (h : execGlzSeed s = .next t) : RunsCommand .glzSeed s t := by
  obtain rfl := runCommand_spec.1 h
  rcases seedEnding_cases s.start with ⟨t, ht, hk⟩ | ⟨why, hw, hc⟩
  · rw [ht]
    exact ⟨⟨_, rfl, hk.toKeepsBlock⟩, fun _ hs => close_histInv (e := .done t) hs hk.histInv,
      fun _ hd => hk.tables (hd rfl)⟩
  · rw [hw]
    exact ⟨⟨_, rfl, keepsBlock_looseHist _, hc⟩, fun herr => absurd herr (by simp [Ending.close, Report.failed]),
      fun _ _ => rfl⟩

/-- An operation has its effect in a decode in progress and nowhere else (10_state.md R36). -/
theorem inDecode_next {f : State → State} {s t : State} :
    inDecode f s = .next t ↔ s.dec.running = true ∧ t = f s := by
  cases h : s.dec.running with
  | true => simpa [inDecode, h] using eq_comm
  | false => simp [inDecode, h]

/-- Everything an instruction can do: a command that ends as its pseudocode says, RESET, a decode command, or an operation of a decode in progress. -/
theorem exec_cases {i : Instr} {s t : State} (h : exec i s = .next t) :
    RunsCommand i s t ∨ (i = .reset ∧ t = s.start.resetKeepingMemory) ∨
      (∃ u, (u = s.enterDecodeAt ∨ u = s.enterDecodeStream) ∧ t = decodeCommandFrom u) ∨
      (s.dec.running = true ∧ ∃ op, t = runOp op s) := by
  have hop : ∀ {f : State → State} (op : Op), (∀ u, f u = runOp op u) → inDecode f s = .next t →
      s.dec.running = true ∧ ∃ op, t = runOp op s := fun op hf ho =>
    have ⟨hr, ht⟩ := inDecode_next.1 ho
    ⟨hr, op, ht.trans (hf s)⟩
  cases i with
  | nop => exact .inl (runsCommand_of_keepsTables (done_ends (.refl _)) h)
  | reset => exact .inr (.inl ⟨rfl, (Host.Outcome.next.inj h).symm⟩)
  | bitsPut => exact .inl (runsCommand_of_keepsTables (guarded_ends (.refl _) (bitsPut_ends _)) h)
  | bitsGet => exact .inl (runsCommand_of_keepsTables (guarded_ends (.refl _) (bitsGet_ends _)) h)
  | bitsPutStream => exact .inl (runsCommand_of_keepsTables (guarded_ends (.refl _) (bitsPutStream_ends _)) h)
  | bitsGetStream => exact .inl (runsCommand_of_keepsTables (guarded_ends (.refl _) (bitsGetStream_ends _)) h)
  | histClear => exact .inl (runsCommand_of_keepsTables (withHist_ends _ (Hist.clear_answers _ _ _)) h)
  | histInc => exact .inl (runsCommand_of_keepsTables (withHist_ends _ (Hist.inc_answers (BitVec.isLt _) _ _)) h)
  | histDec => exact .inl (runsCommand_of_keepsTables (withHist_ends _ (Hist.dec_answers _ _ _)) h)
  | histGet => exact .inl (runsCommand_of_keepsTables (done_ends (keepsTables_setRes0 _ _)) h)
  | histBound => exact .inl (runsCommand_of_keepsTables (done_ends (keepsTables_setRes0 _ _)) h)
  | histSeed => exact .inl (runsCommand_of_keepsTables (histSeed_ends _) h)
  | histSort => exact .inl (runsCommand_of_keepsLimits (histSort_ends _) (by simp) h)
  | tableLoad => exact .inl (runsCommand_of_keepsLimits (tableLoad_ends _) (by simp) h)
  | tableStore => exact .inl (runsCommand_of_keepsTables (tableStore_ends _) h)
  | tableClear => exact .inl (runsCommand_of_keepsLimits (tableClear_ends _) (by simp) h)
  | mapEnc => exact .inl (runsCommand_of_keepsTables (done_ends (keepsTables_setRes0 _ _)) h)
  | mapDec => exact .inl (runsCommand_of_keepsTables (done_ends (keepsTables_setRes0 _ _)) h)
  | ricePut => exact .inl (runsCommand_of_keepsTables (guarded_ends (.refl _) (ricePut_ends _)) h)
  | riceGet => exact .inl (runsCommand_of_keepsTables (guarded_ends (.refl _) (riceGet_ends _)) h)
  | riceSearch => exact .inl (runsCommand_of_keepsTables (riceSearch_ends _) h)
  | glzOpPut => exact .inl (runsCommand_of_keepsTables (guarded_ends (.refl _) (glzOpPut_ends _)) h)
  | glzOpGet => exact .inl (runsCommand_of_keepsTables (guarded_ends (.refl _) (glzOpGet_ends _)) h)
  | glzEncodeAll =>
    have hg := (guarded_ends (ok := State.opsOk) (.refl s.start) (glzEncodeAll_ends s.start)).onError (fun _ k => k)
      fun _ k => k.trans (keepsTables_looseEncodeOutput _)
    exact .inl (runsCommand_of_keepsTables hg h)
  | glzDecodeAt => exact .inr (.inr (.inl ⟨_, .inl rfl, (Host.Outcome.next.inj h).symm⟩))
  | glzDecodeStream => exact .inr (.inr (.inl ⟨_, .inr rfl, (Host.Outcome.next.inj h).symm⟩))
  | glzSeed => exact .inl (runsCommand_glzSeed h)
  | lit b => exact .inr (.inr (.inr (hop (.imm 1 b) (fun u => (runOp_imm 1 b u).symm) h)))
  | run n b => exact .inr (.inr (.inr (hop (.imm n b) (fun u => (runOp_imm n b u).symm) h)))
  | ref n o => exact .inr (.inr (.inr (hop (.ref n o) (fun u => (runOp_ref n o u).symm) h)))

end Sys2Proof.Machine
end

section
/-! The decoder's registers: what a decode in progress keeps of them, and what it leaves alone (10_state.md R35, R36; 45_glz_decode.md R117, R118). -/

namespace Sys2Proof.Machine

/-! ### Frames of the state -/

theorem State.changesOnly.mono {s t : State} {ps qs : List Part} (h : s.changesOnly ps t) (hq : ∀ p ∈ ps, p ∈ qs) :
    s.changesOnly qs t := fun p hp => h p fun hm => hp (hq p hm)

theorem State.changesOnly_refl (s : State) (ps : List Part) : s.changesOnly ps s := by
  intro p _
  cases p <;> rfl

theorem State.changesOnly.trans {s t u : State} {ps : List Part} (a : s.changesOnly ps t) (b : t.changesOnly ps u) :
    s.changesOnly ps u := by
  intro p hp
  have ha := a p hp
  have hb := b p hp
  cases p <;> exact Eq.trans hb ha

/-- The parts that a decode writes (45_glz_decode.md R121). -/
def decodeParts : List Part := [.report, .bytemem, .res0, .res1, .res2, .res3, .cycles, .pushes, .dec, .free]

theorem changesOnly_dec (s : State) (x : Decoder) : s.changesOnly decodeParts { s with dec := x } := by
  intro p hp
  cases p <;> first | rfl | exact absurd (by decide) hp

theorem failDecode_frame (s : State) (code : ErrCode) (pos : Nat) : s.changesOnly decodeParts (s.failDecode code pos) :=
  (failDecode_spec s code pos).2.2.2.2.1

theorem endDecode_frame (s : State) : s.changesOnly decodeParts s.endDecode :=
  (endDecode_spec s).2.2.2.2.2.mono (by decide)

theorem runOp_frame (op : Op) (s : State) : s.changesOnly decodeParts (runOp op s) := by
  cases op with
  | imm n b =>
    rw [runOp_imm]
    rcases runImmediate_cases n b s with ⟨-, h⟩ | ⟨-, -, h, -⟩
    · rw [h]; exact failDecode_frame _ _ _
    · exact h.mono (by decide)
  | ref n o =>
    rw [runOp_ref]
    rcases runReference_cases n o s with ⟨-, h⟩ | ⟨-, -, h⟩ | ⟨-, -, h⟩
    · rw [h]; exact changesOnly_dec _ _
    · rw [h]; exact failDecode_frame _ _ _
    · rw [h]; exact changesOnly_dec _ _

theorem decodeCycle_frame (s : State) : s.changesOnly decodeParts (decodeCycle s) := by
  rcases fetchOp_cases s with ⟨-, h⟩ | ⟨-, -, h⟩ | ⟨-, -, why, -, h⟩ | ⟨-, -, op, q, -, h⟩ <;>
    simp only [decodeCycle, h]
  · exact (changesOnly_dec s _).trans (endDecode_frame _)
  · exact (changesOnly_dec s _).trans (failDecode_frame _ _ _)
  · exact (changesOnly_dec s _).trans (failDecode_frame _ _ _)
  · exact (changesOnly_dec s _).trans (runOp_frame _ _)

theorem decodeLoop_frame (fuel : Nat) (s : State) : s.changesOnly decodeParts (decodeLoop fuel s) := by
  induction fuel generalizing s with
  | zero => exact s.changesOnly_refl _
  | succ fuel ih =>
    unfold decodeLoop
    split
    · exact (decodeCycle_frame s).trans (ih _)
    · exact s.changesOnly_refl _

theorem decodeCommandFrom_frame (s : State) : s.changesOnly decodeParts (decodeCommandFrom s) := by
  unfold decodeCommandFrom
  split
  · exact failDecode_frame _ _ _
  split
  · exact failDecode_frame _ _ _
  · exact decodeLoop_frame _ _

/-- What a decode does not write. -/
theorem cap_of_decode {s t : State} (h : s.changesOnly decodeParts t) : t.cap = s.cap := h .cap (by decide)

theorem remap_of_decode {s t : State} (h : s.changesOnly decodeParts t) : t.remap = s.remap := h .remap (by decide)

theorem hist_of_decode {s t : State} (h : s.changesOnly decodeParts t) : t.hist = s.hist := h .hist (by decide)

theorem histInv_of_decode {s t : State} (h : s.changesOnly decodeParts t) (hs : s.HistInv) : t.HistInv :=
  hs.congr (cap_of_decode h) (hist_of_decode h) (remap_of_decode h)

/-! ### The decoder's registers while a decode is in progress -/

/-- The bounds of a decode in progress: the depth and the positions (10_state.md R35, R36), the bytes owed, the cycle cap (45_glz_decode.md R118), and the account of every byte. -/
structure Decoder.InProgress (x : Decoder) : Prop where
  depth : x.d ≤ 2
  position : x.p < 2 ^ 33
  returns : ∀ f ∈ x.frames, f.ret < 2 ^ 33
  owed : x.rem.count < 2 ^ 32
  framesOwed : ∀ f ∈ x.frames, f.rem.count < 2 ^ 32
  cap : x.cycles ≤ 2 * x.limit
  account : x.accounted

/-- The frame that a return pops lies on the frames that stay. -/
theorem Decoder.frames_pop {x : Decoder} (hd : 0 < x.d) (h2 : x.d ≤ 2) :
    x.frames = x.pop.frames ++ [x.frame (x.d - 1)] := by
  obtain h | h : x.d = 1 ∨ x.d = 2 := by omega
  · simp [Decoder.frames, Decoder.pop, Decoder.frame, h]
  · simp [Decoder.frames, Decoder.pop, Decoder.frame, h]

/-- A push puts its frame on those in use. -/
theorem Decoder.frames_push {x : Decoder} (hd : x.d < 2) (f : Frame) : (x.push f).frames = x.frames ++ [f] := by
  obtain h | h : x.d = 0 ∨ x.d = 1 := by omega
  · simp [Decoder.frames, Decoder.push, h]
  · simp [Decoder.frames, Decoder.push, h]

theorem Remaining.isZero_iff {r : Remaining} : r.isZero = true ↔ r = .bytes 0 := by
  cases r <;> simp [Remaining.isZero]

/-- The return of a finished frame keeps the bounds. -/
theorem Decoder.InProgress.pop {x : Decoder} (h : x.InProgress) (hz : x.rem.isZero = true) (hd : 0 < x.d) :
    x.pop.InProgress := by
  have hf := x.frames_pop hd h.depth
  have htop : x.frame (x.d - 1) ∈ x.frames := by simp [hf]
  have hstay : ∀ f ∈ x.pop.frames, f ∈ x.frames := fun f hm => by simp [hf, hm]
  have hrem := Remaining.isZero_iff.1 hz
  refine ⟨le_trans (Nat.sub_le _ _) h.depth, h.returns _ htop, fun f hm => h.returns f (hstay f hm),
    h.framesOwed _ htop, fun f hm => h.framesOwed f (hstay f hm), h.cap, ?_⟩
  have ha := h.account
  have hcmd : x.pop.cmd = x.cmd := rfl
  unfold Decoder.accounted at ha ⊢
  rw [hcmd]
  cases hc : x.cmd with
  | decodeAt =>
    simp only [hc, hrem, hf, List.map_append, List.sum_append] at ha
    obtain ⟨hb, -, hsum⟩ := ha
    refine ⟨fun f hm => hb f (by simp [hm]), hb _ (by simp), ?_⟩
    simpa [Decoder.pop, Remaining.count, Nat.add_comm, Nat.add_left_comm, Nat.add_assoc] using hsum
  | decodeStream =>
    simp only [hc, hrem] at ha
    obtain ⟨hk, ⟨h0, -⟩ | ⟨-, -, hbase, htwo⟩⟩ := ha
    · omega
    · refine ⟨hk, ?_⟩
      obtain h1 | h2 : x.d = 1 ∨ x.d = 2 := by have := h.depth; omega
      · exact .inl (by simp [Decoder.pop, Decoder.frame, h1, hbase])
      · exact .inr (by simp [Decoder.pop, Decoder.frame, h2, hbase, htwo h2])

theorem Decoder.InProgress.popFinished {x : Decoder} (h : x.InProgress) (fuel : Nat) :
    (Decoder.popFinished fuel x).InProgress := by
  induction fuel generalizing x with
  | zero => exact h
  | succ fuel ih =>
    unfold Decoder.popFinished
    split
    · rename_i hp
      simp only [Bool.and_eq_true, decide_eq_true_eq] at hp
      exact ih (h.pop hp.1 hp.2)
    · exact h

/-- A cycle within the cap that fetches an operation keeps the bounds. -/
theorem Decoder.InProgress.fetched {x : Decoder} (h : x.InProgress) (hc : x.cycles + 1 ≤ 2 * x.limit) (q : Nat) :
    ({ x with cycles := x.cycles + 1, q := q } : Decoder).InProgress :=
  ⟨h.depth, h.position, h.returns, h.owed, h.framesOwed, hc, h.account⟩

/-- A move of p alone keeps the bounds. -/
theorem Decoder.InProgress.moved {x : Decoder} (h : x.InProgress) {p : Nat} (hp : p < 2 ^ 33) :
    ({ x with p := p } : Decoder).InProgress :=
  ⟨h.depth, hp, h.returns, h.owed, h.framesOwed, h.cap, h.account⟩

/-- An immediate that the command has room for keeps the bounds: the bytes written are bytes no longer owed. -/
theorem Decoder.InProgress.immediate {x : Decoder} (h : x.InProgress) {n : Nat}
    (hroom : ¬(x.cmd = .decodeStream ∧ x.limit < x.k + x.rem.clip n)) (hq : x.q < 2 ^ 33) :
    ({ x with k := x.k + x.rem.clip n, rem := x.rem.less (x.rem.clip n), p := x.q } : Decoder).InProgress := by
  have howed := h.owed
  have ha := h.account
  refine ⟨h.depth, hq, h.returns, ?_, h.framesOwed, h.cap, ?_⟩
  · cases hr : x.rem <;> simp [hr, Remaining.less, Remaining.count] at howed ⊢; omega
  · unfold Decoder.accounted at ha ⊢
    cases hc : x.cmd with
    | decodeAt =>
      simp only [hc] at ha ⊢
      obtain ⟨hb, hrem, hsum⟩ := ha
      cases hr : x.rem with
      | unbounded => exact absurd hr hrem
      | bytes r =>
        rw [hr] at hsum
        refine ⟨hb, by simp [Remaining.less], ?_⟩
        simp only [Remaining.less, Remaining.clip, Remaining.count, Decoder.frames] at hsum ⊢
        omega
    | decodeStream =>
      simp only [hc] at ha ⊢
      obtain ⟨-, hstack⟩ := ha
      refine ⟨by simp only [hc, true_and] at hroom; omega, ?_⟩
      cases hr : x.rem <;> simpa [hr, Remaining.less] using hstack

/-! A push changes d, its frame and the count of pushes. -/

@[simp] theorem Decoder.push_running (x : Decoder) (f : Frame) : (x.push f).running = x.running := by
  unfold Decoder.push; split <;> rfl

@[simp] theorem Decoder.push_cmd (x : Decoder) (f : Frame) : (x.push f).cmd = x.cmd := by
  unfold Decoder.push; split <;> rfl

@[simp] theorem Decoder.push_d (x : Decoder) (f : Frame) : (x.push f).d = x.d + 1 := by
  unfold Decoder.push; split <;> rfl

@[simp] theorem Decoder.push_cycles (x : Decoder) (f : Frame) : (x.push f).cycles = x.cycles := by
  unfold Decoder.push; split <;> rfl

@[simp] theorem Decoder.push_k (x : Decoder) (f : Frame) : (x.push f).k = x.k := by
  unfold Decoder.push; split <;> rfl

@[simp] theorem Decoder.push_out (x : Decoder) (f : Frame) : (x.push f).out = x.out := by
  unfold Decoder.push; split <;> rfl

@[simp] theorem Decoder.push_limit (x : Decoder) (f : Frame) : (x.push f).limit = x.limit := by
  unfold Decoder.push; split <;> rfl

/-- What a reference leaves owed in its frame: together with its own size, what was owed before. -/
theorem Remaining.less_of_uncovered {r : Remaining} {n : Nat} (h : r.coveredBy n = false) :
    (r.less n).count ≤ r.count ∧ (r.less n = .unbounded ↔ r = .unbounded) ∧
      (r ≠ .unbounded → n + (r.less n).count = r.count) := by
  cases r with
  | unbounded => simp [Remaining.less, Remaining.count]
  | bytes m =>
    simp only [Remaining.coveredBy, decide_eq_false_iff_not] at h
    simp only [Remaining.less, Remaining.count]
    exact ⟨Nat.sub_le _ _, by simp, fun _ => by omega⟩

/-- A reference that is not in tail position keeps the bounds: what it leaves owed is saved in its frame. -/
theorem Decoder.InProgress.reference {x : Decoder} (h : x.InProgress) {n p : Nat} (hn : x.rem.coveredBy n = false)
    (hd : x.d < 2) (hsize : n < 2 ^ 32) (hq : x.q < 2 ^ 33) (hp : p < 2 ^ 33) :
    ({ x.push ⟨x.q, x.rem.less n⟩ with p := p, rem := .bytes n } : Decoder).InProgress := by
  obtain ⟨hle, hunb, hsplit⟩ := Remaining.less_of_uncovered hn
  have hf : ({ x.push ⟨x.q, x.rem.less n⟩ with p := p, rem := .bytes n } : Decoder).frames =
    x.frames ++ [⟨x.q, x.rem.less n⟩] := x.frames_push hd _
  have howed := h.owed
  have hcap := h.cap
  refine ⟨by simp only [Decoder.push_d]; omega, hp, fun f hm => ?_, hsize, fun f hm => ?_, by simpa using hcap, ?_⟩
  · rw [hf, List.mem_append, List.mem_singleton] at hm
    rcases hm with hm | rfl
    · exact h.returns f hm
    · exact hq
  · rw [hf, List.mem_append, List.mem_singleton] at hm
    rcases hm with hm | rfl
    · exact h.framesOwed f hm
    · exact lt_of_le_of_lt hle howed
  · have ha := h.account
    unfold Decoder.accounted at ha ⊢
    rw [hf]
    simp only [Decoder.push_cmd, Decoder.push_k, Decoder.push_limit, Decoder.push_d]
    cases hc : x.cmd with
    | decodeAt =>
      simp only [hc] at ha ⊢
      obtain ⟨hb, hrem, hsum⟩ := ha
      refine ⟨fun f hm => ?_, by simp, ?_⟩
      · rw [List.mem_append, List.mem_singleton] at hm
        rcases hm with hm | rfl
        · exact hb f hm
        · exact fun hu => hrem (hunb.1 hu)
      · have hs := hsplit hrem
        have hn' : (Remaining.bytes n).count = n := rfl
        simp only [List.map_append, List.sum_append, List.map_cons, List.map_nil, List.sum_singleton]
        omega
    | decodeStream =>
      simp only [hc] at ha ⊢
      obtain ⟨hlim, ⟨h0, hu⟩ | ⟨h0, hu, hbase, -⟩⟩ := ha
      · exact ⟨hlim, .inr ⟨by omega, by simp, by simp [Decoder.push, h0, hunb.2 hu], fun h2 => by omega⟩⟩
      · obtain h1 : x.d = 1 := by omega
        exact ⟨hlim, .inr ⟨by omega, by simp, by simp [Decoder.push, h1, hbase],
          fun _ => by simpa [Decoder.push, h1] using fun hl => hu (hunb.1 hl)⟩⟩

/-! ### The fetched operation -/

/-- A reference that decodes has a size of at most 2^L + 1 (43_glz_ops.md R98). -/
theorem decodeOp_refSize {c : Coder} {st : BitStream} {p n q : Nat} {o : Word}
    (h : decodeOp c st p = .ok (.ref n o, q)) :
    n ≤ sizeMax c.l := by
  unfold decodeOp at h
  split at h
  · simp at h
  · simp only at h
    split at h
    · simp at h
    rename_i hlt
    split at h
    · simp at h
    split at h
    · split at h
      · simp at h
      split at h <;> simp at h
    · split at h
      · simp at h
      · simp only [Except.ok.injEq, Prod.mk.injEq, Op.ref.injEq] at h
        simp only [headSpace, sizeMax, Nat.pow_succ] at hlt ⊢
        omega

end Sys2Proof.Machine
end

section
/-! The invariant of the block: what a command, a decode and a host access keep of it (10_state.md R22, R32, R35, R36), and the statements about every step and about reset. -/

namespace Sys2Proof.Machine

/-! ### Reports -/

theorem Report.started_sound : Report.started.Sound := by simp [Report.started, Report.Sound]

theorem Report.failed_sound {code : ErrCode} (h : code ≠ .none) (pos : Nat) : (Report.failed code pos).Sound := by
  simp [Report.failed, Report.Sound, h]

/-- A normal end changes BUSY and DONE alone (10_state.md R22). -/
theorem Report.Sound.finished {r : Report} (h : r.Sound) : r.finished.Sound := by
  obtain ⟨-, -, hcode, hpos⟩ := h
  exact ⟨fun h => absurd h (by simp [Report.finished]), fun _ => rfl, hcode, hpos⟩

/-! ### The part of the invariant that needs no report -/

/-- The invariant but for the report, and of the decoder its depth alone. -/
structure State.BlockSound (s : State) : Prop where
  params : s.cap.legal = true
  memory : s.MemorySound
  remap : s.remap.Sound
  depth : s.dec.d ≤ 2
  encoder : s.enc = Encoder.idle

theorem State.Inv.block {s : State} (h : s.Inv) : s.BlockSound :=
  ⟨h.params, h.memory, h.remap, h.decoder.1, h.encoder⟩

theorem State.KeepsBlock.block {s t : State} (k : s.KeepsBlock t) (h : s.BlockSound) : t.BlockSound :=
  ⟨by rw [k.cap]; exact h.params, k.memory h.memory, k.remap h.remap, by rw [k.dec]; exact h.depth, k.enc h.encoder⟩

/-- Between commands no decode is in progress, and nothing more is asked of the decoder. -/
theorem State.BlockSound.inv_of_idle {s : State} (h : s.BlockSound) (hreport : s.report.Sound)
    (hbusy : s.report.busy = false) (hrunning : s.dec.running = false) : s.Inv where
  params := h.params
  memory := h.memory
  remap := h.remap
  report := hreport
  decoder := ⟨h.depth, by rw [hrunning, hbusy], fun hr => absurd hr (by simp [hrunning])⟩
  encoder := h.encoder

/-- What a state with a decode in progress meets beyond the block's own soundness (45_glz_decode.md R117, R118). -/
structure State.Decoding (s : State) : Prop extends s.BlockSound where
  report : s.report.Sound
  busy : s.report.busy = true
  running : s.dec.running = true
  checks : s.opsOk = true
  range : s.dec.out + s.dec.limit ≤ s.cap.bytememBytes.toNat
  decoder : s.dec.InProgress

theorem State.Decoding.inv {s : State} (h : s.Decoding) : s.Inv where
  params := h.params
  memory := h.memory
  remap := h.remap
  report := h.report
  decoder := ⟨h.depth, by rw [h.running, h.busy], fun _ => ⟨h.checks, h.range, h.decoder.position, h.decoder.returns,
    h.decoder.owed, h.decoder.framesOwed, h.decoder.cap, h.decoder.account⟩⟩
  encoder := h.encoder

theorem State.Inv.decoding {s : State} (h : s.Inv) (hr : s.dec.running = true) : s.Decoding := by
  obtain ⟨hd, hbusy, hrun⟩ := h.decoder
  obtain ⟨hok, hrange, hp, hret, howed, hframes, hcap, hacc⟩ := hrun hr
  exact ⟨h.block, h.report, by rw [← hbusy, hr], hr, hok, hrange, ⟨hd, hp, hret, howed, hframes, hcap, hacc⟩⟩

/-! ### Commands -/

/-- A command that ends on an idle block leaves it sound (46_host.md R127). -/
theorem RunsCommand.inv {i : Instr} {s t : State} (h : RunsCommand i s t) (hs : s.Inv) (hb : s.report.busy = false) :
    t.Inv := by
  obtain ⟨⟨e, rfl, he⟩, -, -⟩ := h
  have hrunning : s.dec.running = false := by rw [hs.decoder.2.1, hb]
  have hstart : s.start.BlockSound := ⟨hs.params, hs.memory, hs.remap, hs.decoder.1, hs.encoder⟩
  cases e with
  | done u =>
    have hu := he.block hstart
    have hreport : u.report = Report.started := he.report
    refine State.BlockSound.inv_of_idle (s := u.finish)
      ⟨hu.params, hu.memory, hu.remap, hu.depth, hu.encoder⟩ ?_ rfl ?_
    · rw [State.finish_report, hreport]
      exact Report.started_sound.finished
    · rw [State.finish_dec, he.dec]; exact hrunning
  | raised u why =>
    have hu := he.1.block hstart
    refine State.BlockSound.inv_of_idle (s := u.raise why.code why.pos)
      ⟨hu.params, hu.memory, hu.remap, hu.depth, hu.encoder⟩ (Report.failed_sound he.2 _) rfl ?_
    rw [State.raise_dec, he.1.dec]; exact hrunning

/-- RESET leaves the tables off and everything but the memories and the table entries at its reset value (46_host.md R131). -/
theorem resetKeepingMemory_inv {s : State} (h : s.Inv) : s.resetKeepingMemory.Inv := by
  obtain ⟨hbits, hbytes, hwords, -, hd, he⟩ := h.memory
  exact State.BlockSound.inv_of_idle ⟨h.params, ⟨hbits, hbytes, hwords, Memory.wf_nil _, hd, he⟩, s.remap.off_sound,
    Nat.zero_le _, rfl⟩ (by simp [State.resetKeepingMemory, State.resetWith, Report.Sound]) rfl rfl

theorem reset_hist_sound (cap : Nat) : Hist.reset.Sound cap := Hist.cleared_sound (Nat.zero_le cap)

theorem resetKeepingMemory_histInv {s : State} (h : s.HistInv) : s.resetKeepingMemory.HistInv :=
  ⟨reset_hist_sound _, Nat.zero_le _, h.entries⟩

/-! ### Decodes -/

theorem State.BlockSound.withDec {s : State} (h : s.BlockSound) {x : Decoder} (hx : x.d ≤ 2) :
    ({ s with dec := x } : State).BlockSound := ⟨h.params, h.memory, h.remap, hx, h.encoder⟩

/-- A decode that ends in error leaves a sound block, whether its start checks held or not (45_glz_decode.md R122). -/
theorem failDecode_inv {s : State} (h : s.BlockSound) {code : ErrCode} (hc : code ≠ .none) (pos : Nat) :
    (s.failDecode code pos).Inv := by
  obtain ⟨hbits, hbytes, hrest⟩ := h.memory
  exact State.BlockSound.inv_of_idle
    ⟨h.params, ⟨hbits, wf_looseBytes hbytes _ _, hrest⟩, h.remap, h.depth, h.encoder⟩
    (Report.failed_sound hc pos) rfl rfl

theorem endDecode_inv {s : State} (h : s.Decoding) : s.endDecode.Inv :=
  State.BlockSound.inv_of_idle ⟨h.params, h.memory, h.remap, h.depth, h.encoder⟩ h.report.finished rfl rfl

/-- New decoder registers within the bounds, for the same output. -/
theorem State.Decoding.withDec {s : State} (h : s.Decoding) {x : Decoder} (hx : x.InProgress) (hr : x.running = true)
    (ho : x.out = s.dec.out) (hl : x.limit = s.dec.limit) : ({ s with dec := x } : State).Decoding :=
  ⟨⟨h.params, h.memory, h.remap, hx.depth, h.encoder⟩, h.report, h.busy, hr, h.checks,
    by rw [show ({ s with dec := x } : State).dec = x from rfl, ho, hl]; exact h.range, hx⟩

/-- Bytes written into BYTEMEM play no part in the decoder's bounds. -/
theorem State.Decoding.fillBytes {s : State} (h : s.Decoding) (a : Nat) (v : Byte) (n : Nat) :
    (s.fillBytes a v n).Decoding where
  toBlockSound := (keepsTables_fillBytes s a v n).block h.toBlockSound
  report := by simpa using h.report
  busy := by simpa using h.busy
  running := by simpa using h.running
  checks := by simpa [State.opsOk, State.streamOk, State.kOk, State.lmOk] using h.checks
  range := by simpa using h.range
  decoder := by simpa using h.decoder

/-- A fetched operation, whose end q lies in the stream and whose size is in range, leaves a sound block. -/
theorem runOp_inv {s : State} (h : s.Decoding) (hq : s.dec.q < 2 ^ 32) {op : Op}
    (hsize : ∀ n o, op = .ref n o → n < 2 ^ 32) : (runOp op s).Inv := by
  cases op with
  | imm n b =>
    rw [runOp_imm]
    unfold runImmediate
    extract_lets x t
    split
    · exact failDecode_inv h.toBlockSound (by decide) _
    · rename_i hroom
      have hx := h.decoder.immediate hroom (by omega)
      exact ((h.fillBytes _ _ _).withDec hx h.running (by simp [x]) (by simp [x])).inv
  | ref n o =>
    have ho := o.isLt
    rw [runOp_ref]
    rcases runReference_cases n o s with ⟨-, he⟩ | ⟨-, -, he⟩ | ⟨hn, hd, he⟩ <;> rw [he]
    · exact (h.withDec (h.decoder.moved (p := s.dec.q + o.toNat) (by omega)) h.running rfl rfl).inv
    · exact failDecode_inv h.toBlockSound (by decide) _
    · have hx := h.decoder.reference (p := s.dec.q + o.toNat) hn hd (hsize n o rfl) (by omega) (by omega)
      exact (h.withDec hx (by simpa using h.running) (by simp) (by simp)).inv

/-- One cycle of a decode in progress leaves a sound block (45_glz_decode.md R118). -/
theorem decodeCycle_inv {s : State} (h : s.Decoding) : (decodeCycle s).Inv := by
  have hx : (Decoder.popFinished s.dec.d s.dec).InProgress := h.decoder.popFinished _
  have hr : (Decoder.popFinished s.dec.d s.dec).running = true := by simpa using h.running
  rcases fetchOp_cases s with ⟨-, hf⟩ | ⟨-, -, hf⟩ | ⟨-, -, why, hwhy, hf⟩ | ⟨-, hc, op, q, hop, hf⟩ <;>
    simp only [decodeCycle, hf]
  · exact endDecode_inv (h.withDec hx hr (by simp) (by simp))
  · refine failDecode_inv (h.toBlockSound.withDec ?_) (by decide) _
    exact hx.depth
  · have hcode := decodeOp_answers s.coder s.stream (Decoder.popFinished s.dec.d s.dec).p
    rw [hwhy] at hcode
    refine failDecode_inv (h.toBlockSound.withDec ?_) hcode _
    exact hx.depth
  · have hq : q ≤ s.streamLen.toNat := (decodeOp_bounds (fun he => (h.remap.1 he).1) hop).2
    refine runOp_inv (h.withDec (hx.fetched hc q) hr (by simp) (by simp)) (lt_of_le_of_lt hq s.streamLen.isLt) ?_
    rintro n o rfl
    have hn : n ≤ 2 ^ s.cfg.l.toNat + 1 := decodeOp_refSize hop
    have hl : 2 ^ s.cfg.l.toNat ≤ 2 ^ 31 := Nat.pow_le_pow_right (by omega) (by have := s.cfg.l.isLt; omega)
    omega

theorem decodeLoop_inv (fuel : Nat) {s : State} (h : s.Inv) : (decodeLoop fuel s).Inv := by
  induction fuel generalizing s with
  | zero => exact h
  | succ fuel ih =>
    unfold decodeLoop
    split
    · exact ih (decodeCycle_inv (h.decoding ‹_›))
    · exact h

/-- A decode command whose registers are set and whose start and range checks are still to come. -/
theorem decodeCommandFrom_inv {s : State} (h : s.BlockSound) (hreport : s.report = Report.started)
    (hr : s.dec.running = true) (hx : s.dec.InProgress) : (decodeCommandFrom s).Inv := by
  unfold decodeCommandFrom
  split
  · exact failDecode_inv h (by decide) _
  rename_i hok
  split
  · exact failDecode_inv h (by decide) _
  rename_i hrange
  refine decodeLoop_inv _ (State.Decoding.inv ⟨h, ?_, ?_, hr, by simpa using hok, by simpa [rangeOk] using hrange, hx⟩)
  · rw [hreport]; exact Report.started_sound
  · rw [hreport]; rfl

theorem enterDecodeAt_inProgress (s : State) : s.enterDecodeAt.dec.InProgress where
  depth := Nat.zero_le _
  position := lt_trans s.args.a0.isLt (by decide)
  returns := fun f hm => absurd hm (by simp [State.enterDecodeAt, Decoder.frames])
  owed := s.args.a1.isLt
  framesOwed := fun f hm => absurd hm (by simp [State.enterDecodeAt, Decoder.frames])
  cap := Nat.zero_le _
  account := by simp [State.enterDecodeAt, Decoder.accounted, Decoder.frames, Remaining.count]

theorem enterDecodeStream_inProgress (s : State) : s.enterDecodeStream.dec.InProgress where
  depth := Nat.zero_le _
  position := lt_trans s.args.a0.isLt (by decide)
  returns := fun f hm => absurd hm (by simp [State.enterDecodeStream, Decoder.frames])
  owed := by simp [State.enterDecodeStream, Remaining.count]
  framesOwed := fun f hm => absurd hm (by simp [State.enterDecodeStream, Decoder.frames])
  cap := Nat.zero_le _
  account := by simp [State.enterDecodeStream, Decoder.accounted]

theorem decodeCommand_inv {s u : State} (h : s.Inv) (hu : u = s.enterDecodeAt ∨ u = s.enterDecodeStream) :
    (decodeCommandFrom u).Inv := by
  rcases hu with rfl | rfl
  · exact decodeCommandFrom_inv ⟨h.params, h.memory, h.remap, Nat.zero_le _, h.encoder⟩ rfl rfl
      (enterDecodeAt_inProgress s)
  · exact decodeCommandFrom_inv ⟨h.params, h.memory, h.remap, Nat.zero_le _, h.encoder⟩ rfl rfl
      (enterDecodeStream_inProgress s)

/-- Every instruction on an idle block leaves it sound. -/
theorem exec_inv {i : Instr} {s t : State} (h : exec i s = .next t) (hs : s.Inv) (hb : s.report.busy = false) :
    t.Inv := by
  rcases exec_cases h with hc | ⟨-, rfl⟩ | ⟨u, hu, rfl⟩ | ⟨hr, -⟩
  · exact hc.inv hs hb
  · exact (resetKeepingMemory_inv hs : s.resetKeepingMemory.Inv)
  · exact decodeCommand_inv hs hu
  · exact absurd hr (by rw [hs.decoder.2.1, hb]; decide)

/-! ### Host accesses -/

/-- What a host access other than power-on keeps: the tables, and while BUSY = 1 everything but the port and the counter of unspecified values (70_reset_and_hazards.md R145). -/
structure State.Accessed (s t : State) : Prop where
  keeps : s.KeepsTables t
  busy : s.report.busy = true → ∃ v n, t = { s with portData := v, free := n }

theorem accessed_refl (s : State) : s.Accessed s := ⟨.refl s, fun _ => ⟨s.portData, s.free, rfl⟩⟩

theorem accessed_port (s : State) (v : Word) (n : Nat) : s.Accessed { s with portData := v, free := n } :=
  ⟨keepsTables_registers s _ _ _ _ _ _ _, fun _ => ⟨v, n, rfl⟩⟩

theorem accessed_hostWrite {s : State} {f : State → State} (hf : s.KeepsTables (f s)) :
    s.Accessed (s.hostWrite f) := by
  cases hb : s.report.busy with
  | true => rw [hostWrite_busy hb]; exact accessed_refl s
  | false => rw [hostWrite_idle hb]; exact ⟨hf, fun h => absurd h (by simp [hb])⟩

theorem accessed_hostReadIdle (s : State) (v : Word) : s.Accessed (s.hostReadIdle v) := by
  unfold State.hostReadIdle
  split
  · exact accessed_port s _ _
  · exact accessed_port s v s.free

theorem keepsTables_writeRegister (s : State) (index : BitVec 8) (v : Word) :
    s.KeepsTables (s.writeRegister index v) := by
  unfold State.writeRegister
  split <;> exact keepsTables_registers s _ _ _ _ _ _ _

/-- Everything a host access can do: a power-on reset of an idle block, or what `State.Accessed` says. -/
theorem access_cases (s : State) (a : Input) :
    (s.report.busy = false ∧ s.access a = s.powerOn) ∨ s.Accessed (s.access a) := by
  cases a with
  | writeReg index v =>
    exact .inr (accessed_hostWrite (f := fun t => t.writeRegister index v) (keepsTables_writeRegister s index v))
  | readReg index =>
    refine .inr ?_
    simp only [State.access]
    split
    · exact accessed_port s _ s.free
    · exact accessed_hostReadIdle s _
  | writeBitmem j v =>
    exact .inr (accessed_hostWrite (f := fun t => t.portWriteBitmem j.toNat v) (keepsTables_writeBits s _ _))
  | readBitmem j => exact .inr (accessed_hostReadIdle s _)
  | writeBytemem j v =>
    exact .inr (accessed_hostWrite (f := fun t => t.portWriteBytemem j.toNat v) (keepsTables_writeByte s _ _))
  | readBytemem j => exact .inr (accessed_hostReadIdle s _)
  | writeWordmem j v =>
    exact .inr (accessed_hostWrite (f := fun t => t.portWriteWordmem j.toNat v) (keepsTables_writeWord s _ _))
  | readWordmem j => exact .inr (accessed_hostReadIdle s _)
  | powerOn =>
    cases hb : s.report.busy with
    | true => exact .inr (by rw [State.access, externalReset_busy hb]; exact accessed_refl s)
    | false => exact .inl ⟨rfl, externalReset_idle hb⟩

/-- Power-on leaves canonical memories, whatever they hold (70_reset_and_hazards.md R142). -/
theorem powerOn_inv {s : State} (h : s.cap.legal = true) : s.powerOn.Inv :=
  State.BlockSound.inv_of_idle
    ⟨h, ⟨Memory.wf_scramble (Memory.wf_nil _) _ _ le_rfl _, Memory.wf_scramble (Memory.wf_nil _) _ _ le_rfl _,
        Memory.wf_scramble (Memory.wf_nil _) _ _ le_rfl _, Memory.wf_nil _, Memory.wf_nil _, Memory.wf_nil _⟩,
      Remap.identity.off_sound, Nat.zero_le _, rfl⟩
    (by simp [State.powerOn, State.resetWith, Report.Sound]) rfl rfl

theorem powerOn_histInv (s : State) : s.powerOn.HistInv :=
  ⟨reset_hist_sound _, Nat.zero_le _, Memory.wf_nil _, Memory.wf_nil _⟩

/-- Every host access leaves a sound block. -/
theorem access_inv {s : State} (h : s.Inv) (a : Input) : (s.access a).Inv := by
  rcases access_cases s a with ⟨-, he⟩ | ⟨hk, hbusy⟩
  · rw [he]; exact powerOn_inv h.params
  · cases hb : s.report.busy with
    | true =>
      obtain ⟨v, n, he⟩ := hbusy hb
      rw [he]
      exact ⟨h.params, h.memory, h.remap, h.report, h.decoder, h.encoder⟩
    | false =>
      refine (hk.toKeepsBlock.block h.block).inv_of_idle ?_ ?_ ?_
      · rw [hk.report]; exact h.report
      · rw [hk.report]; exact hb
      · rw [hk.dec, h.decoder.2.1, hb]

theorem access_histInv {s : State} (h : s.HistInv) (a : Input) : (s.access a).HistInv := by
  rcases access_cases s a with ⟨-, he⟩ | ⟨hk, -⟩
  · rw [he]; exact powerOn_histInv s
  · exact hk.histInv h

/-! ### Steps -/

theorem fetchOp_running {s t : State} {op : Op} (hr : s.dec.running = true) (h : fetchOp s = .op op t) :
    t.dec.running = true := by
  rcases fetchOp_cases s with ⟨-, hf⟩ | ⟨-, -, hf⟩ | ⟨-, -, why, -, hf⟩ | ⟨-, -, op', q, -, hf⟩ <;> rw [hf] at h <;>
    cases h
  simpa using hr

/-- Everything a step that goes on can do, by what it keeps. -/
theorem step_next_cases {s t : State} (h : step s = .next t) :
    (∃ a rest, t = State.access { s with inputs := rest } a) ∨
    (∃ w rest i, s.inputs = .writeReg 0x00 w :: rest ∧ s.report.busy = false ∧ decodeCommand w = .ok i ∧
      exec i { s with inputs := rest } = .next t) ∨
    (∃ rest, s.report.busy = false ∧ t = State.illegalCommand { s with inputs := rest }) ∨
    (s.dec.running = true ∧ t = decodeCycle s) ∨ t = s := by
  rcases step_cases s with ⟨a, rest, -, he⟩ | ⟨w, rest, hi, hb, ⟨i, hd, he⟩ | ⟨e, -, he⟩⟩ |
    ⟨-, hr, ⟨u, hf, he⟩ | ⟨op, u, hf, he⟩⟩ | ⟨-, -, he⟩ <;> rw [he] at h
  · exact .inl ⟨a, rest, (Host.Outcome.next.inj h).symm⟩
  · exact .inr (.inl ⟨w, rest, i, hi, hb, hd, h⟩)
  · exact .inr (.inr (.inl ⟨rest, hb, (Host.Outcome.next.inj h).symm⟩))
  · refine .inr (.inr (.inr (.inl ⟨hr, ?_⟩)))
    rw [decodeCycle, hf]
    exact (Host.Outcome.next.inj h).symm
  · refine .inr (.inr (.inr (.inl ⟨hr, ?_⟩)))
    have hu : u.dec.running = true := fetchOp_running hr hf
    rw [exec_toInstr hu] at h
    rw [decodeCycle, hf]
    exact (Host.Outcome.next.inj h).symm
  · exact .inr (.inr (.inr (.inr (Host.Outcome.next.inj h).symm)))

/-- The pending inputs are no part of the block. -/
theorem State.Inv.withInputs {s : State} (h : s.Inv) (rest : List Input) : ({ s with inputs := rest } : State).Inv :=
  ⟨h.params, h.memory, h.remap, h.report, h.decoder, h.encoder⟩

theorem State.HistInv.withInputs {s : State} (h : s.HistInv) (rest : List Input) :
    ({ s with inputs := rest } : State).HistInv := h.congr rfl rfl rfl

/-- An illegal command word changes the report and the results of an idle block alone. -/
theorem illegalCommand_inv {s : State} (h : s.Inv) (hb : s.report.busy = false) : s.illegalCommand.Inv :=
  State.BlockSound.inv_of_idle ⟨h.params, h.memory, h.remap, h.decoder.1, h.encoder⟩
    (Report.failed_sound (by decide) 0) rfl (by rw [State.illegalCommand, State.raise_dec, h.decoder.2.1, hb])

/-- The one command word of GLZ_SEED (30_encoding.md R56). -/
theorem word_of_decodeCommand_glzSeed {w : Word} (h : decodeCommand w = .ok .glzSeed) : w = 0x00000055 := by
  obtain ⟨hr, hm⟩ := decodeCommand_ok h
  have hop : w.extractLsb' 0 8 = 0x55 := by simpa [opcodeTable] using hm
  have hr' : w.toNat >>> 8 % 2 ^ 24 = 0 := by simpa using congrArg BitVec.toNat hr
  have hop' : w.toNat >>> 0 % 2 ^ 8 = 0x55 := by simpa using congrArg BitVec.toNat hop
  have hw := w.isLt
  refine BitVec.eq_of_toNat_eq ?_
  simp only [Nat.shiftRight_eq_div_pow] at hr' hop'
  show w.toNat = 0x55
  omega

/-- The command that a CMD write runs keeps the limits, unless it is a GLZ_SEED that ends in error. -/
theorem exec_histInv {i : Instr} {s t : State} (h : exec i s = .next t) (hi : i ≠ .glzSeed ∨ t.report.err = false)
    (hs : s.HistInv) : t.HistInv := by
  rcases exec_cases h with hc | ⟨-, rfl⟩ | ⟨u, hu, rfl⟩ | ⟨-, op, rfl⟩
  · exact hc.histInv hi hs
  · exact resetKeepingMemory_histInv (hs.congr rfl rfl rfl)
  · have hus : u.HistInv := by rcases hu with rfl | rfl <;> exact hs.congr rfl rfl rfl
    exact histInv_of_decode (decodeCommandFrom_frame u) hus
  · exact histInv_of_decode (runOp_frame op s) hs

/-- Every instruction keeps the tables inverse (10_state.md R32). -/
theorem exec_remap_sound {i : Instr} {s t : State} (h : exec i s = .next t) (hs : s.remap.Sound) : t.remap.Sound := by
  rcases exec_cases h with ⟨⟨e, rfl, he⟩, -, -⟩ | ⟨-, rfl⟩ | ⟨u, hu, rfl⟩ | ⟨-, op, rfl⟩
  · cases e with
    | done u => exact he.remap hs
    | raised u why => exact he.1.remap hs
  · exact s.remap.off_sound
  · rw [remap_of_decode (decodeCommandFrom_frame u)]
    rcases hu with rfl | rfl <;> exact hs
  · rw [remap_of_decode (runOp_frame op s)]; exact hs

/-- No instruction writes a capability register (10_state.md R26). -/
theorem exec_cap {i : Instr} {s t : State} (h : exec i s = .next t) : t.cap = s.cap := by
  rcases exec_cases h with ⟨⟨e, rfl, he⟩, -, -⟩ | ⟨-, rfl⟩ | ⟨u, hu, rfl⟩ | ⟨-, op, rfl⟩
  · cases e with
    | done u => exact he.cap
    | raised u why => exact he.1.cap
  · rfl
  · rw [cap_of_decode (decodeCommandFrom_frame u)]
    rcases hu with rfl | rfl <;> rfl
  · exact cap_of_decode (runOp_frame op s)

/-! ### The statements -/

/-- Settles O56: the invariant is kept by each kind of step, and its limits by each but a GLZ_SEED that ends in error. -/
theorem everyStepKeepsTheBlockSound : Obligations.EveryStepKeepsTheBlockSound := by
  intro s t hs h
  rcases step_next_cases h with ⟨a, rest, rfl⟩ | ⟨w, rest, i, hin, hb, hd, he⟩ | ⟨rest, hb, rfl⟩ | ⟨hr, rfl⟩ | rfl
  · exact ⟨access_inv (hs.withInputs rest) a, fun hh _ => access_histInv (hh.withInputs rest) a⟩
  · refine ⟨exec_inv he (hs.withInputs rest) hb, fun hh hseed => exec_histInv he ?_ (hh.withInputs rest)⟩
    by_contra hn
    simp only [not_or, not_not, Bool.not_eq_false] at hn
    obtain ⟨rfl, herr⟩ := hn
    obtain rfl := word_of_decodeCommand_glzSeed hd
    exact hseed ⟨by rw [hin]; rfl, hb, herr⟩
  · exact ⟨illegalCommand_inv (hs.withInputs rest) hb, fun hh _ => hh.congr rfl rfl rfl⟩
  · exact ⟨decodeCycle_inv (hs.decoding hr), fun hh _ => histInv_of_decode (decodeCycle_frame s) hh⟩
  · exact ⟨hs, fun hh _ => hh⟩

/-- Settles O57: each kind of step keeps the tables or installs a permutation with its inverse. -/
theorem everyStepKeepsTheTablesInverse : Obligations.EveryStepKeepsTheTablesInverse := by
  intro s t hs h
  rcases step_next_cases h with ⟨a, rest, rfl⟩ | ⟨w, rest, i, -, -, -, he⟩ | ⟨rest, -, rfl⟩ | ⟨-, rfl⟩ | rfl
  · rcases access_cases { s with inputs := rest } a with ⟨-, ha⟩ | ha
    · rw [ha]; exact Remap.identity.off_sound
    · exact ha.keeps.remap hs
  · exact exec_remap_sound he hs
  · exact hs
  · rw [remap_of_decode (decodeCycle_frame s)]; exact hs
  · exact hs

/-- Settles O58, by what every other command, and every decode, leaves unchanged. -/
theorem onlyTableCommandsWriteTheTables : Obligations.OnlyTableCommandsWriteTheTables := by
  intro s t i h hi hseed
  rcases exec_cases h with hc | ⟨rfl, -⟩ | ⟨u, hu, rfl⟩ | ⟨-, op, rfl⟩
  · exact hc.tables (fun hm => hi (by simp only [List.mem_cons] at hm ⊢; tauto)) hseed
  · exact absurd hi (by simp)
  · rw [remap_of_decode (decodeCommandFrom_frame u)]
    rcases hu with rfl | rfl <;> rfl
  · exact remap_of_decode (runOp_frame op s)

/-- Settles O59: no kind of step writes the parameters, and the register map reads them. -/
theorem capabilityRegistersAreConstant : Obligations.CapabilityRegistersAreConstant := by
  refine ⟨fun s t h => ?_, fun s => ⟨rfl, rfl, rfl, rfl, ?_⟩⟩
  · rcases step_next_cases h with ⟨a, rest, rfl⟩ | ⟨w, rest, i, -, -, -, he⟩ | ⟨rest, -, rfl⟩ | ⟨-, rfl⟩ | rfl
    · rcases access_cases { s with inputs := rest } a with ⟨-, ha⟩ | ha
      · rw [ha]; rfl
      · exact ha.keeps.cap
    · have hc := exec_cap he
      exact hc
    · rfl
    · exact cap_of_decode (decodeCycle_frame s)
    · rfl
  · show (s.cap.lMax.setWidth 32).toNat = s.cap.lMax.toNat
    exact BitVec.toNat_setWidth_of_le (by decide)

/-- Settles O32: an instruction without a command word is an operation. -/
theorem operationsStopOutsideADecode : Obligations.OperationsStopOutsideADecode := by
  intro s i hi hr
  have hstop : ∀ f, inDecode f s = .fault .noDecodeRunning := fun f => if_neg (by simp [hr])
  cases i with
  | lit b => exact hstop _
  | run n b => exact hstop _
  | ref n o => exact hstop _
  | _ => exact absurd hi (by simp [commandWord, encode])

/-- Settles O53: each register of the map reads its field of the reset state. -/
theorem resetStateHoldsTheResetValues : Obligations.ResetStateHoldsTheResetValues := by
  refine ⟨rfl, fun c => ⟨fun r hr => ?_, rfl, rfl, rfl, rfl, rfl, rfl, rfl, ?_, fun n => rfl, rfl, rfl⟩⟩
  · fin_cases hr <;> rfl
  · show (c.lMax.setWidth 32).toNat = c.lMax.toNat
    exact BitVec.toNat_setWidth_of_le (by decide)

/-- Settles O55: empty memories are canonical, the tables are off, and the report and the decoder are idle. -/
theorem resetStateIsSound : Obligations.ResetStateIsSound :=
  ⟨State.BlockSound.inv_of_idle
      ⟨by decide,
        ⟨Memory.wf_nil _, Memory.wf_nil _, Memory.wf_nil _, Memory.wf_nil _, Memory.wf_nil _, Memory.wf_nil _⟩,
        Remap.identity.off_sound, Nat.zero_le _, rfl⟩
      (by simp [State.reset, State.resetWith, Report.Sound]) rfl rfl,
    ⟨reset_hist_sound _, Nat.zero_le _, Memory.wf_nil _, Memory.wf_nil _⟩⟩

end Sys2Proof.Machine
end

section
/-! What `decode_op` answers on codes that lie in the stream: the operation of a legal code, and INVALID_OP on a reserved one (30_encoding.md R61 to R66, 43_glz_ops.md R99 to R103). -/

namespace Sys2Proof.Machine

/-! ### The remap on the values of a code -/

/-- What the encode remap does to a value, one past 32 bits included: it fixes the value, as the decode remap does, or ranks it inside its block (41_histogram_remap.md R83, R85). -/
theorem Remap.Sound.mapEnc_cases {r : Remap} (hr : r.Sound) (n : Nat) :
    (r.mapEnc n = n ∧ r.mapDec n = n) ∨
    (r.en = true ∧ r.mapEnc n / r.b.toNat = n / r.b.toNat ∧
      r.mapEnc n % r.b.toNat = (r.e.read (n % r.b.toNat)).toNat ∧
      r.mapEnc n < 2 ^ 32 / r.b.toNat * r.b.toNat) := by
  cases hen : r.en with
  | false => exact .inl ⟨Remap.throughTable_off hen _ _, Remap.throughTable_off hen _ _⟩
  | true =>
    by_cases htop : 2 ^ 32 / r.b.toNat * r.b.toNat ≤ n
    · exact .inl ⟨Remap.throughTable_top _ htop, Remap.throughTable_top _ htop⟩
    · exact .inr ⟨rfl, Remap.throughTable_inBlock hen (fun _ h => (hr.enc_spec hen h).1) (hr.1 hen).1
        (Nat.lt_of_not_le htop)⟩

/-- The decode remap inverts the encode remap (41_histogram_remap.md R85). -/
theorem Remap.Sound.mapDec_mapEnc {r : Remap} (hr : r.Sound) (n : Nat) : r.mapDec (r.mapEnc n) = n := by
  rcases hr.mapEnc_cases n with ⟨he, hd⟩ | ⟨hen, hdiv, hmod, hlt⟩
  · rw [he, hd]
  · rw [Remap.mapDec, Remap.throughTable, if_pos hen, if_neg (Nat.not_le.2 hlt), hdiv, hmod,
      (hr.enc_spec hen (Nat.mod_lt n (hr.1 hen).1)).2, Nat.div_add_mod']

theorem Remap.Sound.le_threshold {r : Remap} (hr : r.Sound) (x : Nat) : x ≤ r.threshold x := by
  unfold Remap.threshold
  split
  · rename_i hen
    exact ceilDiv_mul_le (hr.1 hen).1
  · exact le_rfl

/-- A value below the limit is coded below the abort threshold, so that no legal symbol is aborted (43_glz_ops.md R100). -/
theorem Remap.Sound.mapEnc_lt_threshold {r : Remap} (hr : r.Sound) {n x : Nat} (hn : n < x) :
    r.mapEnc n < r.threshold x := by
  have hx : n < r.threshold x := lt_of_lt_of_le hn (hr.le_threshold x)
  rcases hr.mapEnc_cases n with ⟨he, -⟩ | ⟨hen, hdiv, -, -⟩
  · rwa [he]
  · rw [Remap.threshold, if_pos hen] at hx ⊢
    have hb : 0 < r.b.toNat := (hr.1 hen).1
    rwa [← Nat.div_lt_iff_lt_mul hb, hdiv, Nat.div_lt_iff_lt_mul hb]

end Sys2Proof.Machine

namespace Sys2Proof

open Machine

/-! ### Strings in a stream -/

theorem BitStream.holdsCode_append {st : BitStream} {p : Nat} {a b : List Bool} :
    st.holdsCode p (a ++ b) ↔ st.holdsCode p a ∧ st.holdsCode (p + a.length) b := by
  simp only [BitStream.holdsCode, BitStream.holds_append, List.length_append]
  constructor
  · rintro ⟨⟨ha, hb⟩, hl⟩
    exact ⟨⟨ha, by omega⟩, hb, by omega⟩
  · rintro ⟨⟨ha, -⟩, hb, hl⟩
    exact ⟨⟨ha, hb⟩, by omega⟩

theorem BitStream.ofBits_holdsCode (bs : List Bool) : (BitStream.ofBits bs).holdsCode 0 bs :=
  ⟨BitStream.ofBits_holds bs, (Nat.zero_add _).le⟩

/-! ### Reading a symbol -/

/-- A unary run that ends in the stream is read to its end unless it reaches the abort threshold (42_rice.md R91). -/
theorem unaryRun_of_ones_or_abort {st : BitStream} {k cap ep : Nat} {e : Raised} {q : Nat} :
    ∀ {left i q0 : Nat}, (∀ j < q, st.bit (i + j) = true) → st.bit (i + q) = false → q < left →
      unaryRun st k cap e ep left i q0 = .ok (q0 + q, i + q + 1) ∨ unaryRun st k cap e ep left i q0 = .error e := by
  induction q with
  | zero =>
    intro left i q0 _ h0 hl
    obtain ⟨left, rfl⟩ : ∃ m, left = m + 1 := ⟨left - 1, by omega⟩
    exact .inl (by simp [unaryRun, show st.bit i = false from h0])
  | succ q ih =>
    intro left i q0 h1 h0 hl
    obtain ⟨left, rfl⟩ : ∃ m, left = m + 1 := ⟨left - 1, by omega⟩
    have hb : st.bit i = true := h1 0 (by omega)
    rw [unaryRun, if_pos hb]
    split
    · exact .inr rfl
    · have hrest := ih (left := left) (i := i + 1) (q0 := q0 + 1)
        (fun j hj => by rw [Nat.add_right_comm]; exact h1 (j + 1) (by omega))
        (by rw [Nat.add_right_comm]; exact h0) (by omega)
      rwa [Nat.add_right_comm q0, Nat.add_right_comm i] at hrest

/-- A code word in the stream is read back, whatever its value, or raises the abort error (42_rice.md R91, R92). -/
theorem getRice_of_holds_or_abort {st : BitStream} {k p n cap : Nat} {code : ErrCode} {ep : Nat}
    (h : st.holdsCode p (riceCode k n)) :
    getRice st k p cap code ep = .ok (n, p + riceLen k n) ∨ getRice st k p cap code ep = .error ⟨code, ep⟩ := by
  obtain ⟨hh, hl⟩ := h
  rw [length_riceCode, riceLen] at hl
  rw [riceCode, BitStream.holds_append, BitStream.holds_cons] at hh
  obtain ⟨hones, hzero, hfield⟩ := hh
  simp only [List.length_replicate] at hzero hfield
  have hrun : ∀ j < n / 2 ^ k, st.bit (p + j) = true := fun j hj => by
    rw [hones j (by simpa using hj), List.getElem_replicate]
  have hv : fieldValue st.bit (p + n / 2 ^ k + 1) k = n % 2 ^ k := by rw [fieldValue_of_bits hfield, Nat.mod_mod]
  unfold getRice
  rcases unaryRun_of_ones_or_abort (k := k) (cap := cap) (ep := ep) (e := ⟨code, ep⟩) (left := st.len - p) (q0 := 0)
    hrun hzero (by omega) with hu | hu
  · refine .inl ?_
    simp only [hu, Nat.zero_add]
    rw [if_neg (by omega), hv, Nat.div_add_mod']
    simp only [riceLen, Nat.add_assoc]
  · exact .inr (by rw [hu])

/-- A coded symbol below the limit is read back by its remapped value (43_glz_ops.md R100). -/
theorem getRice_of_sym {c : Coder} {st : BitStream} {p n x ep : Nat} {code : ErrCode} (hr : c.remap.Sound)
    (h : st.holdsCode p (c.sym n)) (hn : n < x) :
    getRice st c.k p (c.remap.threshold x) code ep = .ok (c.remap.mapEnc n, p + c.symLen n) :=
  getRice_of_holds h (hr.mapEnc_lt_threshold hn)

/-! ### The three forms of an operation -/

/-- A head below 256 is a literal (30_encoding.md R61). -/
theorem decodeOp_of_litHead {c : Coder} {st : BitStream} {p h : Nat} (hr : c.remap.Sound)
    (hc : st.holdsCode p (c.sym h)) (hh : h < 256) :
    decodeOp c st p = .ok (.imm 1 (BitVec.ofNat 8 h), p + c.symLen h) := by
  have hH : h < headSpace c.l := lt_of_lt_of_le hh (Nat.le_add_right _ _)
  unfold decodeOp
  rw [getRice_of_sym hr hc hH]
  simp only [hr.mapDec_mapEnc]
  rw [if_neg (Nat.not_le.2 hH), if_pos hh]

/-- After the head of a run of n bytes comes its byte's symbol (30_encoding.md R61). -/
theorem decodeOp_of_runHead {c : Coder} {st : BitStream} {p n : Nat} (hr : c.remap.Sound)
    (hc : st.holdsCode p (c.sym (254 + n))) (h2 : 2 ≤ n) (hn : n ≤ sizeMax c.l) :
    decodeOp c st p = (getRice st c.k (p + c.symLen (254 + n)) (c.remap.threshold 256) .invalidOp p).bind fun x =>
      if 256 ≤ c.remap.mapDec x.1 then .error ⟨.invalidOp, p⟩
      else .ok (.imm n (BitVec.ofNat 8 (c.remap.mapDec x.1)), x.2) := by
  unfold sizeMax at hn
  have hH : 254 + n < headSpace c.l := by unfold headSpace; omega
  unfold decodeOp
  rw [getRice_of_sym hr hc hH]
  simp only [hr.mapDec_mapEnc]
  rw [if_neg (Nat.not_le.2 hH), if_neg (by omega), if_pos (by omega), Nat.add_sub_cancel_left]
  cases getRice st c.k (p + c.symLen (254 + n)) (c.remap.threshold 256) .invalidOp p <;> rfl

/-- After the head of a reference of n bytes comes its offset field (30_encoding.md R61). -/
theorem decodeOp_of_refHead {c : Coder} {st : BitStream} {p n : Nat} (hr : c.remap.Sound)
    (hc : st.holdsCode p (c.sym (254 + 2 ^ c.l + n))) (h2 : 2 ≤ n) (hn : n ≤ sizeMax c.l) :
    decodeOp c st p = (offsetLoop st c.m p (chunksMax c.m) (p + c.symLen (254 + 2 ^ c.l + n)) 0).map fun x =>
      (.ref n (BitVec.ofNat 32 x.1), x.2) := by
  unfold sizeMax at hn
  have hH : 254 + 2 ^ c.l + n < headSpace c.l := by unfold headSpace; omega
  unfold decodeOp
  rw [getRice_of_sym hr hc hH]
  simp only [hr.mapDec_mapEnc]
  rw [if_neg (Nat.not_le.2 hH), if_neg (by omega), if_neg (by omega),
    show 254 + 2 ^ c.l + n - 256 - 2 ^ c.l + 2 = n by omega]
  cases offsetLoop st c.m p (chunksMax c.m) (p + c.symLen (254 + 2 ^ c.l + n)) 0 <;> rfl

/-! ### Decoding what was encoded -/

/-- The code of a legal operation decodes to it, wherever it lies in the stream (43_glz_ops.md R103). -/
theorem decodeOp_of_encodeOp {c : Coder} {st : BitStream} {p : Nat} {op : Op} (hr : c.remap.Sound) (hm : 1 ≤ c.m)
    (hop : op.wf c.l = true) (h : st.holdsCode p (encodeOp c op)) : decodeOp c st p = .ok (op, p + c.opLen op) := by
  cases op with
  | imm n b =>
    simp only [Op.wf, Bool.and_eq_true, decide_eq_true_eq] at hop
    obtain ⟨h1, hn⟩ := hop
    have hb : b.toNat < 256 := b.isLt
    by_cases hone : n = 1
    · subst hone
      rw [decodeOp_of_litHead hr h hb, BitVec.ofNat_toNat, BitVec.setWidth_eq]
      rfl
    · rw [encodeOp, if_neg hone, BitStream.holdsCode_append, Coder.length_sym] at h
      obtain ⟨hhead, hbyte⟩ := h
      rw [decodeOp_of_runHead hr hhead (by omega) hn, getRice_of_sym hr hbyte hb]
      simp [Except.bind, hr.mapDec_mapEnc, hb, Coder.opLen, hone, Nat.add_assoc]
  | ref n o =>
    simp only [Op.wf, refSizeOk, Bool.and_eq_true, decide_eq_true_eq] at hop
    obtain ⟨h2, hn⟩ := hop
    rw [encodeOp, BitStream.holdsCode_append, Coder.length_sym] at h
    obtain ⟨hhead, hoffset⟩ := h
    rw [decodeOp_of_refHead hr hhead h2 hn, offsetLoop_of_code hm o.isLt hoffset]
    simp [Except.map, Coder.opLen, Nat.add_assoc]

/-- A legal operation's bits alone decode to it, with none left (43_glz_ops.md R103). -/
theorem decode_encodeOp {c : Coder} {op : Op} (hr : c.remap.Sound) (hm : 1 ≤ c.m) (hop : op.wf c.l = true) :
    decode c (.operation (encodeOp c op)) = .ok op.toInstr := by
  have hd := decodeOp_of_encodeOp hr hm hop (BitStream.ofBits_holdsCode (encodeOp c op))
  simp [decode, hd]

/-- Settles O23: a command word is a row of the opcode map, and an operation's code decodes to it. -/
theorem decodeOfEncodeIsIdentity : Obligations.DecodeOfEncodeIsIdentity := by
  intro c i hr hm hi
  cases i with
  | lit b => exact decode_encodeOp (op := .imm 1 b) hr hm (by simp [Op.wf, sizeMax])
  | run n b =>
    simp only [Instr.wf, runCountOk, Bool.and_eq_true, decide_eq_true_eq] at hi
    obtain ⟨h2, hn⟩ := hi
    have hd := decode_encodeOp (c := c) (op := .imm n b) hr hm (by simp [Op.wf, hn]; omega)
    rwa [Op.toInstr, if_neg (by omega)] at hd
  | ref n o => exact decode_encodeOp (op := .ref n o) hr hm hi
  | _ => rfl

/-- The written form of a well-formed instruction under the reset configuration decodes to it. -/
theorem decode_of_encode_resetCoder {i : Instr} {e : Encoded} (he : encode resetCoder i = e) (hi : i.wf 5 = true) :
    decode resetCoder e = .ok i :=
  he ▸ decodeOfEncodeIsIdentity resetCoder i Remap.identity.off_sound (by decide) hi

/-- Settles O60: each word and each bit string is the encoding of its instruction. -/
theorem writtenEncodingsDecode : Obligations.WrittenEncodingsDecode :=
  ⟨decode_of_encode_resetCoder (i := .bitsPut) rfl rfl, decode_of_encode_resetCoder (i := .histSort) rfl rfl,
    decode_of_encode_resetCoder (i := .mapDec) rfl rfl, decode_of_encode_resetCoder (i := .riceSearch) rfl rfl,
    decode_of_encode_resetCoder (i := .glzSeed) rfl rfl, decode_of_encode_resetCoder (by decide) rfl,
    decode_of_encode_resetCoder (by decide) (by decide), decode_of_encode_resetCoder (by decide) (by decide)⟩

/-! ### Reserved operations -/

/-- A reserved head is aborted by its threshold or refused by its value (30_encoding.md R66). -/
theorem decodeOp_of_reservedHead {c : Coder} {st : BitStream} {p h : Nat} (hr : c.remap.Sound)
    (hh : headSpace c.l ≤ h) (hc : st.holdsCode p (c.sym h)) : decodeOp c st p = .error ⟨.invalidOp, p⟩ := by
  unfold decodeOp
  rcases getRice_of_holds_or_abort hc with hg | hg
  · rw [hg]
    simp only [hr.mapDec_mapEnc]
    rw [if_pos hh]
  · rw [hg]

/-- A run's symbol of 256 or more is aborted by its threshold or refused by its value (30_encoding.md R66). -/
theorem decodeOp_of_reservedByte {c : Coder} {st : BitStream} {p n b : Nat} (hr : c.remap.Sound) (h2 : 2 ≤ n)
    (hn : n ≤ sizeMax c.l) (hb : 256 ≤ b) (hc : st.holdsCode p (c.sym (254 + n) ++ c.sym b)) :
    decodeOp c st p = .error ⟨.invalidOp, p⟩ := by
  rw [BitStream.holdsCode_append, Coder.length_sym] at hc
  obtain ⟨hhead, hbyte⟩ := hc
  rw [decodeOp_of_runHead hr hhead h2 hn]
  rcases getRice_of_holds_or_abort (cap := c.remap.threshold 256) (code := .invalidOp) (ep := p) hbyte with hg | hg
  · simp [hg, Except.bind, hr.mapDec_mapEnc, hb]
  · simp [hg, Except.bind]

/-- What the offset loop makes of one chunk that lies in the stream (43_glz_ops.md R101). -/
theorem offsetLoop_of_chunk {st : BitStream} {m p allowed i acc g : Nat} {more : Bool} (hg : g < 2 ^ m)
    (h : st.holdsCode i (more :: fieldBits m g)) :
    offsetLoop st m p (allowed + 1) i acc =
      if 2 ^ 32 ≤ acc * 2 ^ m + g then .error ⟨.invalidOp, p⟩
      else if more then offsetLoop st m p allowed (i + 1 + m) (acc * 2 ^ m + g)
      else .ok (acc * 2 ^ m + g, i + 1 + m) := by
  obtain ⟨hh, hl⟩ := h
  rw [BitStream.holds_cons] at hh
  obtain ⟨hf, hfield⟩ := hh
  rw [List.length_cons, length_fieldBits] at hl
  have hv : fieldValue st.bit (i + 1) m = g := by rw [fieldValue_of_bits hfield, Nat.mod_eq_of_lt hg]
  rw [offsetLoop, if_neg (by omega)]
  simp only [hv, hf]

/-- The bits of offset chunks that each announce another (30_encoding.md R63). -/
def announcedChunks (m : Nat) (chunks : List Nat) : List Bool := chunks.flatMap fun g => true :: fieldBits m g

/-- The offset after some more chunks, most significant chunk first (43_glz_ops.md R101). -/
def offsetAfter (m acc : Nat) (chunks : List Nat) : Nat := chunks.foldl (fun o g => o * 2 ^ m + g) acc

theorem announcedChunks_cons (m g : Nat) (gs : List Nat) :
    announcedChunks m (g :: gs) = (true :: fieldBits m g) ++ announcedChunks m gs := List.flatMap_cons

theorem offsetAfter_concat (m acc last : Nat) (gs : List Nat) :
    offsetAfter m acc (gs ++ [last]) = offsetAfter m acc gs * 2 ^ m + last := by
  simp [offsetAfter]

/-- Chunks that each announce another are all read, unless the offset reaches 2^32 on the way (43_glz_ops.md R101). -/
theorem offsetLoop_of_chunks {st : BitStream} {m p : Nat} {chunks : List Nat} :
    ∀ {allowed i acc : Nat}, (∀ g ∈ chunks, g < 2 ^ m) → st.holdsCode i (announcedChunks m chunks) →
      offsetLoop st m p (chunks.length + allowed) i acc = .error ⟨.invalidOp, p⟩ ∨
      offsetLoop st m p (chunks.length + allowed) i acc =
        offsetLoop st m p allowed (i + (announcedChunks m chunks).length) (offsetAfter m acc chunks) := by
  induction chunks with
  | nil => intro allowed i acc _ _; exact .inr (by simp [announcedChunks, offsetAfter])
  | cons g gs ih =>
    intro allowed i acc hlt h
    obtain ⟨hg, hgs⟩ := List.forall_mem_cons.1 hlt
    rw [announcedChunks_cons, BitStream.holdsCode_append] at h
    obtain ⟨hchunk, hrest⟩ := h
    rw [List.length_cons, Nat.add_right_comm, offsetLoop_of_chunk hg hchunk, if_pos rfl, announcedChunks_cons,
      List.length_append, ← Nat.add_assoc]
    split
    · exact .inl rfl
    · have hi : i + 1 + m = i + (true :: fieldBits m g).length := by
        rw [List.length_cons, length_fieldBits]; omega
      rw [hi]
      exact ih hgs hrest

/-- A chunk that follows CMAX(M) others is refused (30_encoding.md R66). -/
theorem offsetLoop_of_tooManyChunks {st : BitStream} {m p i : Nat} {chunks : List Nat} (hlt : ∀ g ∈ chunks, g < 2 ^ m)
    (h : st.holdsCode i (announcedChunks m chunks)) :
    offsetLoop st m p chunks.length i 0 = .error ⟨.invalidOp, p⟩ :=
  (offsetLoop_of_chunks (allowed := 0) hlt h).elim id id

/-- An offset of 2^32 or more is refused at the latest with the chunk that completes it (30_encoding.md R66). -/
theorem offsetLoop_of_largeOffset {st : BitStream} {m p i allowed last : Nat} {chunks : List Nat} {more : Bool}
    (hlt : ∀ g ∈ chunks, g < 2 ^ m) (hlast : last < 2 ^ m) (hn : chunks.length < allowed)
    (ho : 2 ^ 32 ≤ offsetAfter m 0 (chunks ++ [last]))
    (h : st.holdsCode i (announcedChunks m chunks ++ more :: fieldBits m last)) :
    offsetLoop st m p allowed i 0 = .error ⟨.invalidOp, p⟩ := by
  obtain ⟨rest, rfl⟩ : ∃ rest, allowed = chunks.length + (rest + 1) := ⟨allowed - chunks.length - 1, by omega⟩
  rw [BitStream.holdsCode_append] at h
  obtain ⟨hchunks, hend⟩ := h
  rw [offsetAfter_concat] at ho
  rcases offsetLoop_of_chunks (allowed := rest + 1) (p := p) (acc := 0) hlt hchunks with hc | hc
  · exact hc
  · rw [hc, offsetLoop_of_chunk hlast hend, if_pos ho]

/-- A reference whose offset field is refused is refused as a whole, at its start. -/
theorem decodeOp_of_reservedOffset {c : Coder} {st : BitStream} {p n : Nat} {field : List Bool} (hr : c.remap.Sound)
    (h2 : 2 ≤ n) (hn : n ≤ sizeMax c.l) (hc : st.holdsCode p (c.sym (254 + 2 ^ c.l + n) ++ field))
    (ho : ∀ i, st.holdsCode i field → offsetLoop st c.m p (chunksMax c.m) i 0 = .error ⟨.invalidOp, p⟩) :
    decodeOp c st p = .error ⟨.invalidOp, p⟩ := by
  rw [BitStream.holdsCode_append, Coder.length_sym] at hc
  obtain ⟨hhead, hfield⟩ := hc
  rw [decodeOp_of_refHead hr hhead h2 hn, ho _ hfield]
  rfl

/-- Settles O25: a reserved head or byte by its symbol, a reserved offset by the loop over its chunks. -/
theorem reservedOperationsAreInvalid : Obligations.ReservedOperationsAreInvalid := by
  intro c st p hr _
  refine ⟨fun h _ hh hc => decodeOp_of_reservedHead hr hh hc,
    fun n b h2 hn _ hb hc => decodeOp_of_reservedByte hr h2 hn hb hc, ?_, ?_⟩
  · intro n chunks h2 hn hlt hlen hc
    exact decodeOp_of_reservedOffset hr h2 hn hc fun i hi => hlen ▸ offsetLoop_of_tooManyChunks hlt hi
  · intro n chunks more last h2 hn hlt hlast hlen ho hc
    rw [List.append_assoc] at hc
    exact decodeOp_of_reservedOffset hr h2 hn hc fun i hi => offsetLoop_of_largeOffset hlt hlast hlen ho hi

end Sys2Proof
end

section
/-! An illegal command word (30_encoding.md R55, R66): which words decode, and the step that takes one that does not. -/

namespace Sys2Proof.Machine

/-- The opcode list of the statements is the first column of the opcode map (30_encoding.md R56). -/
theorem opcodeTable_opcodes : opcodeTable.map (fun row => row.1.toNat) = definedOpcodes := by decide

/-- A word that decodes has RSVD = 0 and a defined opcode (30_encoding.md R55). -/
theorem legal_of_decodeCommand {w : Word} {i : Instr} (h : decodeCommand w = .ok i) :
    w.toNat / 2 ^ 8 = 0 ∧ w.toNat % 2 ^ 8 ∈ definedOpcodes := by
  obtain ⟨hr, hm⟩ := decodeCommand_ok h
  constructor
  · have hr' : w.toNat >>> 8 % 2 ^ 24 = 0 := by simpa using congrArg BitVec.toNat hr
    have hw := w.isLt
    rw [Nat.shiftRight_eq_div_pow] at hr'
    omega
  · rw [← opcodeTable_opcodes]
    simpa using List.mem_map_of_mem (f := fun row : BitVec 8 × Instr => row.1.toNat) hm

/-- A CMD write of a word that does not decode, to an idle block, only raises ILLEGAL_CMD (46_host.md R127). -/
theorem step_of_illegalWord {s : State} {w : Word} {rest : List Input} {e : DecodeError}
    (hin : s.inputs = .writeReg 0x00 w :: rest) (hb : s.report.busy = false) (hd : decodeCommand w = .error e) :
    step s = .next (State.illegalCommand { s with inputs := rest }) := by
  simp [step, State.fetch, State.fetchInput, hin, hb, hd]

theorem changesOnly_inputs (s : State) (rest : List Input) : s.changesOnly [.inputs] { s with inputs := rest } := by
  intro p hp
  cases p with
  | inputs => exact absurd (by decide) hp
  | _ => rfl

/-- Settles O44: the word does not decode, so the step raises ILLEGAL_CMD and nothing else. -/
theorem illegalCommandWordsChangeNothingElse : Obligations.IllegalCommandWordsChangeNothingElse := by
  intro s w rest hin hb hw
  cases hd : decodeCommand w with
  | ok i =>
    obtain ⟨hr, hop⟩ := legal_of_decodeCommand hd
    exact hw.elim (absurd hr) (absurd hop)
  | error e =>
    refine ⟨_, step_of_illegalWord hin hb hd, rfl, rfl, ?_⟩
    exact ((changesOnly_inputs s rest).mono (by decide)).trans
      ((State.changesOnly_illegalCommand { s with inputs := rest }).mono (by decide))

end Sys2Proof.Machine
end

section
/-! How a command's ending settles what it reports and changes (46_host.md R127, 60_exceptions.md R136, R137), the frames of the writes, and what an append to the stream leaves. -/

namespace Sys2Proof.Machine

/-! ### Frames of the writes -/

theorem start_frame (s : State) : s.changesOnly [.report] s.start := by
  intro p hp
  cases p with
  | report => exact absurd (by decide) hp
  | _ => rfl

theorem finish_frame (s : State) : s.changesOnly [.report] s.finish := by
  intro p hp
  cases p with
  | report => exact absurd (by decide) hp
  | _ => rfl

theorem setRes0_frame (s : State) (v : Nat) : s.changesOnly [.res0] (s.setRes0 v) := by
  intro p hp
  cases p with
  | res0 => exact absurd (by decide) hp
  | _ => rfl

theorem setRes1_frame (s : State) (v : Nat) : s.changesOnly [.res1] (s.setRes1 v) := by
  intro p hp
  cases p with
  | res1 => exact absurd (by decide) hp
  | _ => rfl

theorem putBits_frame (s : State) (bs : List Bool) : s.changesOnly [.streamLen, .bitmem] (s.putBits bs) := by
  intro p hp
  cases p with
  | streamLen | bitmem => exact absurd (by decide) hp
  | _ => simp [Part.same]

theorem writeWords_frame (s : State) (a : Nat) (ws : List Word) : s.changesOnly [.wordmem] (s.writeWords a ws) := by
  intro p hp
  cases p with
  | wordmem => exact absurd (by decide) hp
  | _ => simp [Part.same]

theorem looseWords_frame (s : State) (lo hi : Nat) : s.changesOnly [.wordmem] (s.looseWords lo hi) := by
  intro p hp
  cases p with
  | wordmem => exact absurd (by decide) hp
  | _ => rfl

/-- A word-list write leaves every word outside its range alone. -/
theorem writeWords_read_outside (s : State) (a : Nat) (ws : List Word) {b : Nat} (h : b < a ∨ a + ws.length ≤ b) :
    (s.writeWords a ws).wordmem.read b = s.wordmem.read b := by
  rw [writeWords_read, dif_neg (by omega)]

/-! ### Endings -/

section

variable {i : Instr} {s u : State} {ps : List Part} {code : ErrCode} {pos : Nat} {post : State → Prop} {e : Ending}

/-- A command whose start check holds runs its pseudocode (46_host.md R127, 60_exceptions.md R139). -/
theorem exec_of_guarded {ok : State → Bool} {body : State → Ending} (hexec : exec i s = runCommand (guarded ok body) s)
    (hok : ok s.start = true) : exec i s = .next (body s.start).close := by
  rw [hexec, runCommand, guarded_of_ok hok]

/-- A command whose pseudocode runs to its end reports DONE alone and keeps what the pseudocode keeps (46_host.md R127). -/
theorem endsNormally_of_done (hexec : exec i s = .next e.close) (he : e = .done u) (hu : s.start.changesOnly ps u)
    (hreport : .report ∉ ps) (hpost : post u.finish) : endsNormally i s ps post := by
  refine ⟨u.finish, by rw [hexec, he, Ending.close], finish_report_of_started (hu .report hreport), ?_, hpost⟩
  have hs : s.changesOnly (.report :: ps) s.start := (start_frame s).mono (by simp)
  have hf : u.changesOnly (.report :: ps) u.finish := (finish_frame u).mono (by simp)
  exact (hs.trans (hu.mono fun p hp => List.mem_cons_of_mem _ hp)).trans hf

/-- A command whose pseudocode raises reports the error and keeps what the pseudocode had kept up to there (60_exceptions.md R136, R137). -/
theorem endsInError_of_raised (hexec : exec i s = .next e.close) (he : e = .raised u ⟨code, pos⟩)
    (hu : s.start.changesOnly ps u) : endsInError i s code pos ps := by
  refine ⟨u.raise code pos, by rw [hexec, he, Ending.close], rfl, ?_⟩
  have hs : s.changesOnly (ps ++ [.report, .res0, .res1, .res2, .res3, .free]) s.start :=
    (start_frame s).mono (by simp)
  have hr := (raise_spec u code pos).2.mono (qs := ps ++ [.report, .res0, .res1, .res2, .res3, .free])
    fun p hp => List.mem_append_right ps hp
  exact (hs.trans (hu.mono fun p hp => List.mem_append_left _ hp)).trans hr

/-- An error raised before the first write changes nothing else. -/
theorem endsInError_of_raised_at_start (hexec : exec i s = .next e.close) (he : e = .raised s.start ⟨code, pos⟩) :
    endsInError i s code pos [] :=
  endsInError_of_raised hexec he (s.start.changesOnly_refl [])

theorem endsNormally.mono {q : State → Prop} (h : endsNormally i s ps post) (hq : ∀ t, post t → q t) :
    endsNormally i s ps q := by
  obtain ⟨t, ht, hreport, hframe, hpost⟩ := h
  exact ⟨t, ht, hreport, hframe, hq t hpost⟩

end

/-! ### An append to the stream -/

/-- t holds the stream of s with bs appended, and RES0 the position of the first bit (00_scope.md R14, 40_bits.md R71). -/
structure State.Appended (s : State) (bs : List Bool) (t : State) : Prop where
  position : t.res.r0 = s.streamLen
  streamLen : t.streamLen.toNat = s.streamLen.toNat + bs.length
  bits : ∀ i (h : i < bs.length), t.bit (s.streamLen.toNat + i) = bs[i]
  kept : s.bitsKeptOutside s.streamLen.toNat (s.streamLen.toNat + bs.length) t

theorem appended_putBits {s : State} {bs : List Bool}
    (hspace : s.streamLen.toNat + bs.length ≤ s.cap.bitmemBits.toNat) :
    s.Appended bs ((s.setRes0 s.streamLen.toNat).putBits bs).finish where
  position := by simp
  streamLen := putBits_streamLen_toNat (s := s.setRes0 s.streamLen.toNat) hspace
  bits := putBits_holds (s := s.setRes0 s.streamLen.toNat) hspace
  kept := fun _ => putBits_read_outside (s.setRes0 s.streamLen.toNat) bs

/-- A command that ends in `PutBits` after its space check appends its bits and changes nothing else. -/
theorem endsNormally_of_putBits {i : Instr} {s : State} {e : Ending} {bs : List Bool}
    (hexec : exec i s = .next e.close)
    (he : e = .done ((s.start.setRes0 s.streamLen.toNat).putBits bs))
    (hspace : s.streamLen.toNat + bs.length ≤ s.cap.bitmemBits.toNat) :
    endsNormally i s [.res0, .streamLen, .bitmem] (s.Appended bs) := by
  refine endsNormally_of_done hexec he ?_ (by decide) ?_
  · exact ((setRes0_frame s.start s.streamLen.toNat).mono (by decide)).trans ((putBits_frame _ bs).mono (by decide))
  · obtain ⟨hposition, hlen, hbits, hkept⟩ := appended_putBits (s := s.start) hspace
    exact ⟨hposition, hlen, hbits, hkept⟩

end Sys2Proof.Machine
end

section
/-! The bit-symbol codec: the commands BITS_PUT, BITS_GET, BITS_PUT_STREAM and BITS_GET_STREAM (40_bits.md R69 to R74). -/

namespace Sys2Proof.Machine

/-! ### The arguments after a command's start -/

@[simp] theorem State.start_arg0 (s : State) : s.start.arg0 = s.arg0 := rfl
@[simp] theorem State.start_arg1 (s : State) : s.start.arg1 = s.arg1 := rfl
@[simp] theorem State.start_arg2 (s : State) : s.start.arg2 = s.arg2 := rfl
@[simp] theorem State.start_arg3 (s : State) : s.start.arg3 = s.arg3 := rfl
@[simp] theorem State.start_bit (s : State) : s.start.bit = s.bit := rfl

/-! ### The commands, once the start check holds (60_exceptions.md R139) -/

section

variable {s : State}

theorem exec_bitsPut (hok : s.streamOk = true) : exec .bitsPut s = .next (bitsPut s.start).close :=
  exec_of_guarded (ok := State.streamOk) rfl hok

theorem exec_bitsGet (hok : s.streamOk = true) : exec .bitsGet s = .next (bitsGet s.start).close :=
  exec_of_guarded (ok := State.streamOk) rfl hok

theorem exec_bitsPutStream (hok : s.streamOk = true) : exec .bitsPutStream s = .next (bitsPutStream s.start).close :=
  exec_of_guarded (ok := State.streamOk) rfl hok

theorem exec_bitsGetStream (hok : s.streamOk = true) : exec .bitsGetStream s = .next (bitsGetStream s.start).close :=
  exec_of_guarded (ok := State.streamOk) rfl hok

end

/-! ### Fields -/

@[simp] theorem overflows_iff {w n : Nat} : overflows w n = true ↔ w < 32 ∧ 2 ^ w ≤ n := by
  simp [overflows]

@[simp] theorem rangeOk_eq_false_iff {a n cap : Nat} : rangeOk a n cap = false ↔ cap < a + n := by
  simp [rangeOk]

/-- The value of a field as the sum that 40_bits.md R69 writes. -/
theorem fieldValue_eq_sum (bit : Nat → Bool) (p w : Nat) :
    fieldValue bit p w = ((List.range w).map fun i => (bit (p + i)).toNat * 2 ^ (w - 1 - i)).sum := by
  induction w generalizing p with
  | zero => rfl
  | succ w ih =>
    have hshift : ∀ i, (bit (p + 1 + i)).toNat * 2 ^ (w - 1 - i) = (bit (p + (i + 1))).toNat * 2 ^ (w - (i + 1)) :=
      fun i => by rw [Nat.add_assoc, Nat.add_comm 1 i, Nat.sub_sub, Nat.add_comm 1 i]
    simp [fieldValue, ih, hshift, List.range_succ_eq_map, Function.comp_def]

/-- A field of at most 32 bits fits a register or a word (40_bits.md R69). -/
theorem toNat_fieldValue (bit : Nat → Bool) (p : Nat) {w : Nat} (hw : w ≤ 32) :
    (BitVec.ofNat 32 (fieldValue bit p w)).toNat = fieldValue bit p w := by
  have h32 : 2 ^ w ≤ 2 ^ 32 := Nat.pow_le_pow_right (by decide) hw
  rw [BitVec.toNat_ofNat, Nat.mod_eq_of_lt (lt_of_lt_of_le (fieldValue_lt bit p w) h32)]

/-- The words as consecutive fields of w bits, in stream order (40_bits.md R73). -/
def fieldString (w : Nat) (ws : List Word) : List Bool := ws.flatMap fun v => fieldBits w v.toNat

@[simp] theorem length_fieldString (w : Nat) (ws : List Word) : (fieldString w ws).length = ws.length * w := by
  simp [fieldString, List.length_flatMap]

/-- Bit j of field i is bit w-1-j of word i. -/
theorem getElem?_fieldString {w i j : Nat} {ws : List Word} (hi : i < ws.length) (hj : j < w) :
    (fieldString w ws)[i * w + j]? = some (ws[i].toNat.testBit (w - 1 - j)) := by
  induction ws generalizing i with
  | nil => simp at hi
  | cons v ws ih =>
    rw [fieldString, List.flatMap_cons]
    cases i with
    | zero =>
      rw [List.getElem?_append_left (by simpa using hj), List.getElem?_eq_getElem (by simpa using hj)]
      simp [getElem_fieldBits]
    | succ i =>
      have hskip : (i + 1) * w + j = w + (i * w + j) := by rw [Nat.succ_mul]; omega
      rw [hskip, List.getElem?_append_right (by simp), length_fieldBits, Nat.add_sub_cancel_left]
      exact ih (by simpa using hi)

@[simp] theorem State.length_fields (s : State) (w p cnt : Nat) : (s.fields w p cnt).length = cnt := by
  simp [State.fields]

@[simp] theorem State.start_fields (s : State) : s.start.fields = s.fields := rfl

/-- Fields written to WORDMEM inside the memory read back as their values (40_bits.md R74). -/
theorem writeWords_fields_toNat {s u : State} {w p cnt a i : Nat} (hw : w ≤ 32)
    (hrange : a + cnt ≤ u.cap.wordmemWords.toNat) (hi : i < cnt) :
    ((u.writeWords a (s.fields w p cnt)).wordmem.read (a + i)).toNat = fieldValue s.bit (p + i * w) w := by
  rw [writeWords_read, dif_pos ⟨by omega, by simpa using hi, by omega⟩]
  simp [State.fields, toNat_fieldValue _ _ hw, -BitVec.toNat_ofNat]

/-! ### The first word that does not fit -/

theorem firstOverflow_readList_eq_some {w i a c : Nat} {m : Memory 32} :
    firstOverflow w (m.readList a c) = some i ↔
      i < c ∧ (w < 32 ∧ 2 ^ w ≤ (m.read (a + i)).toNat) ∧ ∀ j < i, ¬(w < 32 ∧ 2 ^ w ≤ (m.read (a + j)).toNat) := by
  simp only [firstOverflow, List.findIdx?_eq_some_iff_getElem, overflows_iff, Memory.getElem_readList,
    Memory.length_readList, exists_prop]

theorem firstOverflow_readList_eq_none {w a c : Nat} {m : Memory 32} :
    firstOverflow w (m.readList a c) = none ↔ ∀ i < c, ¬(w < 32 ∧ 2 ^ w ≤ (m.read (a + i)).toNat) := by
  simp only [firstOverflow, List.findIdx?_eq_none_iff, List.forall_mem_iff_forall_getElem, ← overflows_iff,
    Bool.not_eq_true, Memory.getElem_readList, Memory.length_readList]

/-! ### The statements -/

/-- Settles O3: each check raises at the start, and past them the field is appended. -/
theorem bitsPutAppendsField : Obligations.BitsPutAppendsField := by
  refine ⟨(Laws.CommandWord.bitsPut _ rfl).2, fun s hok => ?_⟩
  have hexec := exec_bitsPut hok
  split
  next hw => exact endsInError_of_raised_at_start hexec (by simp [bitsPut, hw])
  rename_i hw
  split
  next hover => exact endsInError_of_raised_at_start hexec (by simp [bitsPut, hw, hover])
  rename_i hover
  split
  next hspace => exact endsInError_of_raised_at_start hexec (by simp [bitsPut, hw, hover, hspace])
  rename_i hspace
  have hdone : bitsPut s.start = .done ((s.start.setRes0 s.streamLen.toNat).putBits (fieldBits s.arg0 s.arg1)) := by
    simp [bitsPut, hw, hover, hspace]
  refine (endsNormally_of_putBits hexec hdone (by simpa using hspace)).mono fun t ht => ?_
  obtain ⟨hposition, hlen, hbits, hkept⟩ := ht
  rw [length_fieldBits] at hlen hkept
  refine ⟨hposition, hlen, fun i hi => ?_, hkept⟩
  rw [hbits i (by simpa using hi), getElem_fieldBits]

/-- Settles O4: the bounded read answers the field's value or TRUNCATED. -/
theorem bitsGetReadsField : Obligations.BitsGetReadsField := by
  refine ⟨(Laws.CommandWord.bitsGet _ rfl).2, fun s hok => ?_⟩
  have hexec := exec_bitsGet hok
  split
  next hw => exact endsInError_of_raised_at_start hexec (by simp [bitsGet, hw])
  rename_i hw
  split
  next hlen => exact endsInError_of_raised_at_start hexec (by simp [bitsGet, hw, getBits, State.stream, hlen])
  rename_i hlen
  have hdone : bitsGet s.start =
      .done ((s.start.setRes0 (fieldValue s.bit s.arg1 s.arg0)).setRes1 (s.arg1 + s.arg0)) := by
    simp [bitsGet, hw, getBits, State.stream, hlen]
  refine endsNormally_of_done hexec hdone ?_ (by decide) ⟨?_, ?_⟩
  · exact ((setRes0_frame _ _).mono (by decide)).trans ((setRes1_frame _ _).mono (by decide))
  · rw [← fieldValue_eq_sum]
    exact toNat_fieldValue _ _ (by omega)
  · have hlt := s.streamLen.isLt
    exact Nat.mod_eq_of_lt (by omega)

/-- Settles O5: the first word that does not fit is the one the search finds, and without one every field is appended. -/
theorem bitsPutStreamAppendsFields : Obligations.BitsPutStreamAppendsFields := by
  refine ⟨(Laws.CommandWord.bitsPutStream _ rfl).2, fun s hok => ?_⟩
  have hexec := exec_bitsPutStream hok
  dsimp only
  split
  next hw => exact endsInError_of_raised_at_start hexec (by simp [bitsPutStream, hw])
  rename_i hw
  split
  next hrange => exact endsInError_of_raised_at_start hexec (by simp [bitsPutStream, hw, hrange])
  rename_i hrange
  split
  next hspace => exact endsInError_of_raised_at_start hexec (by simp [bitsPutStream, hw, hrange, hspace])
  rename_i hspace
  constructor
  · intro i hi hover hfirst
    have hfound : firstOverflow s.arg0 (s.wordmem.readList s.arg1 s.arg2) = some i :=
      firstOverflow_readList_eq_some.2 ⟨hi, hover, hfirst⟩
    exact endsInError_of_raised_at_start hexec (by simp [bitsPutStream, hw, hrange, hspace, hfound])
  · intro hfits
    have hnone : firstOverflow s.arg0 (s.wordmem.readList s.arg1 s.arg2) = none :=
      firstOverflow_readList_eq_none.2 hfits
    have hdone : bitsPutStream s.start = .done ((s.start.setRes0 s.streamLen.toNat).putBits
        (fieldString s.arg0 (s.wordmem.readList s.arg1 s.arg2))) := by
      simp [bitsPutStream, hw, hrange, hspace, hnone, fieldString]
    refine (endsNormally_of_putBits hexec hdone (by simpa using hspace)).mono fun t ht => ?_
    obtain ⟨hposition, hlen, hbits, hkept⟩ := ht
    rw [length_fieldString, Memory.length_readList] at hlen hkept
    refine ⟨hposition, hlen, fun i hi j hj => ?_, hkept⟩
    obtain ⟨hin, hbit⟩ := List.getElem?_eq_some_iff.1
      (getElem?_fieldString (ws := s.wordmem.readList s.arg1 s.arg2) (by simpa using hi) hj)
    rw [Nat.add_assoc, hbits _ hin, hbit, Memory.getElem_readList]

/-- Settles O6: past the checks the whole fields are read, or their range is left unspecified when bits remain. -/
theorem bitsGetStreamReadsFields : Obligations.BitsGetStreamReadsFields := by
  refine ⟨(Laws.CommandWord.bitsGetStream _ rfl).2, fun s hok => ?_⟩
  have hexec := exec_bitsGetStream hok
  dsimp only
  split
  next hw => exact endsInError_of_raised_at_start hexec (by simp [bitsGetStream, hw])
  rename_i hw
  split
  next hzero =>
    have hdone : bitsGetStream s.start = .done (s.start.setRes0 0) := by simp [bitsGetStream, hzero]
    exact endsNormally_of_done hexec hdone (setRes0_frame _ _) (by decide) rfl
  rename_i hzero
  split
  next hpos => exact endsInError_of_raised_at_start hexec (by simp [bitsGetStream, hw, hzero, hpos])
  rename_i hpos
  split
  next hmax => exact endsInError_of_raised_at_start hexec (by simp [bitsGetStream, hw, hzero, hpos, hmax])
  rename_i hmax
  split
  next hrange =>
    exact endsInError_of_raised_at_start hexec
      (by simp [bitsGetStream, hw, hzero, hpos, hmax, hrange])
  rename_i hrange
  split
  next hrest =>
    have hraised : bitsGetStream s.start =
        .raised (s.start.looseWords s.arg2 (s.arg2 + (s.streamLen.toNat - s.arg1) / s.arg0))
          ⟨.truncated, s.arg1 + (s.streamLen.toNat - s.arg1) / s.arg0 * s.arg0⟩ := by
      simp [bitsGetStream, hw, hzero, hpos, hmax, hrange, hrest]
    refine ⟨endsInError_of_raised hexec hraised (looseWords_frame _ _ _), fun t ht => ?_⟩
    rw [hexec, hraised] at ht
    obtain rfl := Host.Outcome.next.inj ht
    exact fun _ => looseWords_read_outside s.start _ _
  next hrest =>
    have hdone : bitsGetStream s.start =
        .done ((s.start.writeWords s.arg2 (s.fields s.arg0 s.arg1 ((s.streamLen.toNat - s.arg1) / s.arg0))).setRes0
          ((s.streamLen.toNat - s.arg1) / s.arg0)) := by
      simp [bitsGetStream, hw, hzero, hpos, hmax, hrange, hrest]
    refine endsNormally_of_done hexec hdone ?_ (by decide) ⟨?_, ?_, ?_⟩
    · exact ((writeWords_frame _ _ _).mono (by decide)).trans ((setRes0_frame _ _).mono (by decide))
    · have hcnt := Nat.div_le_self (s.streamLen.toNat - s.arg1) s.arg0
      have hlt := s.streamLen.isLt
      exact Nat.mod_eq_of_lt (by omega)
    · exact fun b hb => writeWords_read_outside s.start _ _ (by simpa using hb)
    · intro i hi
      rw [← fieldValue_eq_sum]
      exact writeWords_fields_toNat (u := s.start) (Nat.le_of_not_lt hw) (Nat.le_of_not_lt hrange) hi

end Sys2Proof.Machine
end

section
/-! The bijective remap: the encode and decode remaps invert each other, and each keeps a value in its block (41_histogram_remap.md R83 to R85). -/

namespace Sys2Proof.Machine

/-! ### The remap with its tables exchanged -/

/-- The remap with D and E exchanged, so that what holds of the encode remap is said of the decode remap too. -/
def Remap.exchanged (r : Remap) : Remap := { r with d := r.e, e := r.d }

@[simp] theorem Remap.exchanged_b (r : Remap) : r.exchanged.b = r.b := rfl
@[simp] theorem Remap.exchanged_mapEnc (r : Remap) : r.exchanged.mapEnc = r.mapDec := rfl
@[simp] theorem Remap.exchanged_mapDec (r : Remap) : r.exchanged.mapDec = r.mapEnc := rfl

/-- E is a permutation with inverse D as much as D is one with inverse E (10_state.md R32). -/
theorem Remap.Sound.exchanged {r : Remap} (hr : r.Sound) : r.exchanged.Sound :=
  ⟨fun hen => ⟨(hr.1 hen).1, fun _ hn => hr.enc_spec hen hn⟩, hr.2⟩

/-! ### Inverses and blocks -/

/-- The encode remap inverts the decode remap (41_histogram_remap.md R85). -/
theorem Remap.Sound.mapEnc_mapDec {r : Remap} (hr : r.Sound) (n : Nat) : r.mapEnc (r.mapDec n) = n := by
  simpa using hr.exchanged.mapDec_mapEnc n

/-- The encode remap answers a 32-bit value with a 32-bit value (41_histogram_remap.md R85). -/
theorem Remap.Sound.mapEnc_lt {r : Remap} (hr : r.Sound) {n : Nat} (hn : n < 2 ^ 32) : r.mapEnc n < 2 ^ 32 := by
  rcases hr.mapEnc_cases n with ⟨he, -⟩ | ⟨-, -, -, hlt⟩
  · rwa [he]
  · exact lt_of_lt_of_le hlt (Nat.div_mul_le_self _ _)

theorem Remap.Sound.mapDec_lt {r : Remap} (hr : r.Sound) {n : Nat} (hn : n < 2 ^ 32) : r.mapDec n < 2 ^ 32 := by
  simpa using hr.exchanged.mapEnc_lt hn

/-- The encode remap keeps a value in its block (41_histogram_remap.md R85). -/
theorem Remap.Sound.mapEnc_div {r : Remap} (hr : r.Sound) (n : Nat) : r.mapEnc n / r.b.toNat = n / r.b.toNat := by
  rcases hr.mapEnc_cases n with ⟨he, -⟩ | ⟨-, hdiv, -, -⟩
  · rw [he]
  · exact hdiv

theorem Remap.Sound.mapDec_div {r : Remap} (hr : r.Sound) (n : Nat) : r.mapDec n / r.b.toNat = n / r.b.toNat := by
  simpa using hr.exchanged.mapEnc_div n

/-! ### The statement -/

/-- Settles O17: each remap undoes the other, stays below 2^32, and moves a value inside its block only. -/
theorem remapIsABijection : Obligations.RemapIsABijection := by
  intro r n hr _ hn
  refine ⟨hr.mapDec_mapEnc n, hr.mapEnc_mapDec n, hr.mapEnc_lt hn, hr.mapDec_lt hn, ?_⟩
  split
  next htop => exact ⟨Remap.throughTable_top _ htop, Remap.throughTable_top _ htop⟩
  next => exact ⟨hr.mapEnc_div n, hr.mapDec_div n⟩

end Sys2Proof.Machine
end

section
/-! The table commands and the remap commands TABLE_LOAD, TABLE_STORE, TABLE_CLEAR, MAP_ENC and MAP_DEC (41_histogram_remap.md R86 to R90). -/

namespace Sys2Proof.Machine

/-! ### The commands, run from their start (46_host.md R127) -/

section

variable {s : State}

theorem exec_tableLoad : exec .tableLoad s = .next (tableLoad s.start).close := rfl

theorem exec_tableStore : exec .tableStore s = .next (tableStore s.start).close := rfl

theorem exec_tableClear : exec .tableClear s =
    .next (Ending.done { s.start with remap := { s.remap with en := false, b := 0 } }).close := rfl

theorem exec_mapEnc : exec .mapEnc s = .next (Ending.done (s.start.setRes0 (s.remap.mapEnc s.arg0))).close := rfl

theorem exec_mapDec : exec .mapDec s = .next (Ending.done (s.start.setRes0 (s.remap.mapDec s.arg0))).close := rfl

end

/-! ### Endings -/

theorem remap_frame (s : State) (r : Remap) : s.changesOnly [.remap] { s with remap := r } := by
  intro p hp
  cases p with
  | remap => exact absurd (by decide) hp
  | _ => rfl

/-- A command that only answers in RES0 changes no other register. -/
theorem endsNormally_of_setRes0 {i : Instr} {s : State} {v : Nat}
    (hexec : exec i s = .next (Ending.done (s.start.setRes0 v)).close) :
    endsNormally i s [.res0] fun t => t.res.r0 = BitVec.ofNat 32 v :=
  endsNormally_of_done hexec rfl (setRes0_frame _ _) (by decide) rfl

/-- A value below 2^32 is reported in RES0 as it is. -/
theorem endsNormally_of_setRes0_lt {i : Instr} {s : State} {v : Nat}
    (hexec : exec i s = .next (Ending.done (s.start.setRes0 v)).close) (hv : v < 2 ^ 32) :
    endsNormally i s [.res0] fun t => t.res.r0.toNat = v :=
  (endsNormally_of_setRes0 hexec).mono fun t ht => by rw [ht, BitVec.toNat_ofNat, Nat.mod_eq_of_lt hv]

/-- A command whose pseudocode sets the remap state changes it alone. -/
theorem endsNormally_of_remap {i : Instr} {s : State} {e : Ending} {r : Remap} (hexec : exec i s = .next e.close)
    (he : e = .done { s.start with remap := r }) : endsNormally i s [.remap] fun t => t.remap = r :=
  endsNormally_of_done hexec he (remap_frame _ _) (by decide) rfl

/-! ### The remap through one table -/

/-- The value of a remap through one table, as R83 and R84 write it. -/
theorem Remap.throughTable_eq (r : Remap) (table : Memory 32) (n : Nat) : r.throughTable table n =
    if r.en = false then n
    else if 2 ^ 32 / r.b.toNat * r.b.toNat ≤ n then n
    else n / r.b.toNat * r.b.toNat + (table.read (n % r.b.toNat)).toNat := by
  cases hen : r.en <;> simp [Remap.throughTable, hen]

/-! ### Tables in WORDMEM -/

/-- A table is accepted exactly when its entries lie below their number and no two are equal (41_histogram_remap.md R88). -/
theorem isPermutation_readList_iff (m : Memory 32) (a b : Nat) :
    isPermutation ((m.readList a b).map BitVec.toNat) = true ↔
      (∀ r < b, (m.read (a + r)).toNat < b) ∧
      ∀ r < b, ∀ q < b, (m.read (a + r)).toNat = (m.read (a + q)).toNat → r = q := by
  have hnodup : ((m.readList a b).map BitVec.toNat).Nodup ↔
      ∀ r < b, ∀ q < b, (m.read (a + r)).toNat = (m.read (a + q)).toNat → r = q := by
    rw [Memory.readList, List.map_map, List.nodup_map_iff_inj_on List.nodup_range]
    simp only [List.mem_range, Function.comp_apply]
  simp [isPermutation, hnodup, List.forall_mem_iff_forall_getElem, Memory.getElem_readList]

/-- After an install of a permutation, D lists its entries and E gives each entry its rank (41_histogram_remap.md R82, R88). -/
theorem Remap.install_entry (r : Remap) {ns : List Nat} (hns : TableEntries ns) {i : Nat} (hi : i < ns.length) :
    ((r.install ns).d.read i).toNat = ns[i] ∧ ((r.install ns).e.read ns[i]).toNat = i := by
  have hentry : ns[i] < ns.length := hns.below _ (List.getElem_mem hi)
  have hlen := hns.length
  rw [r.install_d i hi, r.install_e hns.nodup i hi, BitVec.toNat_ofNat, BitVec.toNat_ofNat,
    Nat.mod_eq_of_lt (by omega), Nat.mod_eq_of_lt (by omega)]
  exact ⟨rfl, rfl⟩

/-- An install of at least one entry sets REMAP.EN (41_histogram_remap.md R82, R88). -/
theorem Remap.install_en (r : Remap) {ns : List Nat} (hns : ns ≠ []) : (r.install ns).en = true := by
  rw [r.install_cons hns]

/-! ### The statements -/

/-- Settles O13: past the range checks the permutation test decides between the install and TABLE_INVALID. -/
theorem tableLoadInstallsPermutation : Obligations.TableLoadInstallsPermutation := by
  refine ⟨(Laws.CommandWord.tableLoad _ rfl).2, fun s => ?_⟩
  dsimp only
  split
  next hcap => exact endsInError_of_raised_at_start exec_tableLoad (by simp [tableLoad, hcap])
  rename_i hcap
  split
  next hrange => exact endsInError_of_raised_at_start exec_tableLoad (by simp [tableLoad, hcap, hrange])
  rename_i hrange
  have htest := isPermutation_readList_iff s.wordmem s.arg0 s.arg1
  generalize hns : (s.wordmem.readList s.arg0 s.arg1).map BitVec.toNat = ns at htest
  have hlen : ns.length = s.arg1 := by simp [← hns]
  have hdone (hperm : isPermutation ns = true) :
      tableLoad s.start = .done { s.start with remap := s.remap.install ns } := by
    simp [tableLoad, hcap, hrange, hns, hperm]
  split
  next hempty =>
    obtain rfl : ns = [] := List.length_eq_zero_iff.1 (hlen.trans hempty)
    exact (endsNormally_of_remap exec_tableLoad (hdone rfl)).mono fun t ht => by simp [ht, Remap.install_nil]
  rename_i hpos
  constructor
  · intro hbad
    have hperm : isPermutation ns = false := by
      rw [Bool.eq_false_iff, Ne, htest]
      rintro ⟨hbelow, hinj⟩
      rcases hbad with ⟨r, hr, hlarge⟩ | ⟨r, hr, q, hq, hne, heq⟩
      · exact absurd (hbelow r hr) (Nat.not_lt.2 hlarge)
      · exact hne (hinj r hr q hq heq)
    exact endsInError_of_raised_at_start exec_tableLoad (by simp [tableLoad, hcap, hrange, hns, hperm])
  · intro hbelow hinj
    have hperm : isPermutation ns = true := htest.2 ⟨hbelow, hinj⟩
    have hentries : TableEntries ns := isPermutation_entries hperm (hlen ▸ s.args.a1.isLt)
    refine (endsNormally_of_remap exec_tableLoad (hdone hperm)).mono fun t ht => ?_
    rw [ht]
    refine ⟨Remap.install_en _ (List.ne_nil_of_length_pos (by omega)), ?_, fun r hr => ?_⟩
    · rw [Remap.install_b _ hentries.length, hlen]
    · have hr' : r < ns.length := hlen ▸ hr
      have hword : ns[r] = (s.wordmem.read (s.arg0 + r)).toNat := by simp [← hns, Memory.getElem_readList]
      rw [← hword]
      exact s.remap.install_entry hentries hr'

/-- Settles O14: the identity writes nothing; otherwise the first TBL_B entries of D are written at ARG0. -/
theorem tableStoreCopiesDecodeTable : Obligations.TableStoreCopiesDecodeTable := by
  refine ⟨(Laws.CommandWord.tableStore _ rfl).2, fun s => ?_⟩
  dsimp only
  split
  next hoff =>
    have hdone : tableStore s.start = .done (s.start.setRes0 0) := by simp [tableStore, hoff]
    exact endsNormally_of_setRes0 (by rw [exec_tableStore, hdone])
  rename_i hon
  split
  next hrange => exact endsInError_of_raised_at_start exec_tableStore (by simp [tableStore, hon, hrange])
  rename_i hrange
  have hdone : tableStore s.start =
      .done ((s.start.writeWords s.arg0 (s.remap.d.readList 0 s.remap.b.toNat)).setRes0 s.remap.b.toNat) := by
    simp [tableStore, hon, hrange]
  refine endsNormally_of_done exec_tableStore hdone ?_ (by decide) ⟨?_, fun r hr => ?_, fun a ha => ?_⟩
  · exact ((writeWords_frame _ _ _).mono (by decide)).trans ((setRes0_frame _ _).mono (by decide))
  · simp
  · rw [State.finish_wordmem, State.setRes0_wordmem, writeWords_read,
      dif_pos ⟨by omega, by simpa using hr, by rw [State.start_cap]; omega⟩]
    simp [Memory.getElem_readList]
  · exact writeWords_read_outside s.start _ _ (by simpa using ha)

/-- Settles O15: with REMAP.EN = 0 both remaps pass every value through, whatever D and E hold. -/
theorem tableClearSelectsIdentity : Obligations.TableClearSelectsIdentity := by
  refine ⟨(Laws.CommandWord.tableClear _ rfl).2, fun s => ?_⟩
  refine (endsNormally_of_remap exec_tableClear rfl).mono fun t ht => ?_
  rw [ht]
  exact ⟨rfl, rfl, rfl, rfl, fun n => ⟨Remap.throughTable_off rfl _ n, Remap.throughTable_off rfl _ n⟩⟩

/-- Settles O16: the answer of a sound remap fits RES0. -/
theorem mapCommandsApplyRemap : Obligations.MapCommandsApplyRemap := by
  refine ⟨(Laws.CommandWord.mapEnc _ rfl).2, (Laws.CommandWord.mapDec _ rfl).2, fun s hs => ?_⟩
  have hn : s.arg0 < 2 ^ 32 := s.args.a0.isLt
  dsimp only
  rw [← Remap.throughTable_eq, ← Remap.throughTable_eq]
  exact ⟨endsNormally_of_setRes0_lt exec_mapEnc (hs.mapEnc_lt hn),
    endsNormally_of_setRes0_lt exec_mapDec (hs.mapDec_lt hn)⟩

end Sys2Proof.Machine
end

section
/-! The histogram's commands HIST_CLEAR, HIST_INC, HIST_DEC, HIST_GET, HIST_BOUND, HIST_SEED and HIST_SORT (41_histogram_remap.md R76 to R82). -/

namespace Sys2Proof.Machine

/-! ### The commands, run from their start (46_host.md R127) -/

section

variable {s : State}

theorem exec_histClear : exec .histClear s =
    .next (s.start.withHist (Hist.clear s.cap.histCap.toNat s.arg0)).close := rfl

theorem exec_histInc : exec .histInc s =
    .next (s.start.withHist (s.hist.inc s.cap.histCap.toNat s.arg0)).close := rfl

theorem exec_histDec : exec .histDec s =
    .next (s.start.withHist (s.hist.dec s.cap.histCap.toNat s.arg0)).close := rfl

theorem exec_histGet : exec .histGet s = .next (Ending.done (s.start.setRes0
    (if s.arg0 < s.cap.histCap.toNat then s.hist.countOf s.arg0 else 0))).close := rfl

theorem exec_histBound : exec .histBound s = .next (Ending.done (s.start.setRes0 s.hist.bound)).close := rfl

theorem exec_histSeed : exec .histSeed s = .next (histSeed s.start).close := rfl

theorem exec_histSort : exec .histSort s =
    .next (Ending.done (s.start.sortTables.setRes0 s.hist.bound)).close := rfl

/-- HIST_SEED on words that lie in WORDMEM counts them (41_histogram_remap.md R81). -/
theorem exec_histSeed_of_range (hrange : s.arg0 + s.arg1 ≤ s.cap.wordmemWords.toNat) : exec .histSeed s =
    .next (s.start.withHist (s.hist.seed s.cap.histCap.toNat
      ((s.wordmem.readList s.arg0 s.arg1).map BitVec.toNat))).close := by
  rw [exec_histSeed, histSeed]
  simp [rangeOk, hrange]

end

/-! ### Endings -/

theorem hist_frame (s : State) (h : Hist) : s.changesOnly [.hist] { s with hist := h } := by
  intro p hp
  cases p with
  | hist => exact absurd (by decide) hp
  | _ => rfl

section

variable {i : Instr} {s : State} {answer : Except Raised Hist}

/-- A histogram operation that answers an error leaves the histogram unchanged (41_histogram_remap.md R76 to R81). -/
theorem endsInError_of_withHist {code : ErrCode} {pos : Nat}
    (hexec : exec i s = .next (s.start.withHist answer).close) (hanswer : answer = .error ⟨code, pos⟩) :
    endsInError i s code pos [] :=
  endsInError_of_raised_at_start hexec (by rw [hanswer, State.withHist])

/-- A histogram operation that answers a histogram stores it and changes nothing else. -/
theorem endsNormally_of_withHist {h : Hist} (hexec : exec i s = .next (s.start.withHist answer).close)
    (hanswer : answer = .ok h) : endsNormally i s [.hist] fun t => t.hist = h :=
  endsNormally_of_done (u := { s.start with hist := h }) hexec (by rw [hanswer, State.withHist]) (hist_frame _ _)
    (by decide) rfl

end

/-! ### The check before the first increment -/

theorem Hist.seed_of_capacity {cap : Nat} {h : Hist} {ns : List Nat} (hlarge : ∃ n ∈ ns, cap ≤ n) :
    h.seed cap ns = .error ⟨.capacity, 0⟩ := if_pos (by simpa using hlarge)

/-- A counter that would pass its end belongs to a word of the sequence, since each counter starts below its end. -/
theorem Hist.seed_of_overflow {cap : Nat} {h : Hist} {ns : List Nat} (hbelow : ∀ n ∈ ns, n < cap)
    (hover : ∃ n, 2 ^ 32 - 1 < h.countOf n + ns.count n) : h.seed cap ns = .error ⟨.countOverflow, 0⟩ := by
  obtain ⟨n, hn⟩ := hover
  have hlt := h.countOf_lt n
  have hmem : n ∈ ns := List.count_pos_iff.1 (by omega)
  rw [Hist.seed, if_neg (by simpa using hbelow), if_pos (List.any_eq_true.2 ⟨n, hmem, decide_eq_true hn⟩)]

theorem Hist.seed_of_room {cap : Nat} {h : Hist} {ns : List Nat} (hbelow : ∀ n ∈ ns, n < cap)
    (hroom : ∀ n, h.countOf n + ns.count n ≤ 2 ^ 32 - 1) : h.seed cap ns = .ok (ns.foldl Hist.bump h) := by
  rw [Hist.seed, if_neg (by simpa using hbelow), if_neg (by simpa using fun n _ => hroom n)]

/-! ### The ranks -/

/-- A symbol of a lower rank has a higher count, or the same count and a lower number (41_histogram_remap.md R82). -/
theorem Hist.sorted_strict (h : Hist) {r q : Nat} (hrq : r < q) (hq : q < h.sorted.length) :
    h.countOf h.sorted[q] < h.countOf h.sorted[r] ∨
      (h.countOf h.sorted[r] = h.countOf h.sorted[q] ∧ h.sorted[r] < h.sorted[q]) := by
  have hbefore : h.before h.sorted[r] h.sorted[q] = true :=
    List.pairwise_iff_getElem.1 h.sorted_pairwise r q (by omega) hq hrq
  have hne : h.sorted[r] ≠ h.sorted[q] :=
    fun heq => absurd ((h.sorted_entries.nodup.getElem_inj_iff).1 heq) (by omega)
  simp only [Hist.before, Bool.or_eq_true, Bool.and_eq_true, decide_eq_true_eq] at hbefore
  omega

theorem sortTables_frame (s : State) : s.changesOnly [.remap] s.sortTables := remap_frame s _

/-- HIST_SORT installs the sorted symbols and reports their number (41_histogram_remap.md R82). -/
theorem endsNormally_histSort (s : State) : endsNormally .histSort s [.remap, .res0] fun t =>
    t.remap = s.remap.install s.hist.sorted ∧ t.res.r0.toNat = s.hist.bound :=
  endsNormally_of_done exec_histSort rfl
    (((sortTables_frame _).mono (by decide)).trans ((setRes0_frame _ _).mono (by decide))) (by decide)
    ⟨rfl, Nat.mod_eq_of_lt s.hist.bound_lt⟩

/-! ### The statements -/

/-- Settles O7: HIST_CLEAR refuses a fixed length above HIST_CAP and otherwise leaves the empty histogram. -/
theorem histClearEmptiesTheHistogram : Obligations.HistClearEmptiesTheHistogram := by
  refine ⟨(Laws.CommandWord.histClear _ rfl).2, fun s => ?_⟩
  split
  next hcap => exact endsInError_of_withHist exec_histClear (if_pos hcap)
  next hcap =>
    refine (endsNormally_of_withHist exec_histClear (if_neg hcap)).mono fun t ht => ?_
    rw [ht]
    exact ⟨BitVec.ofNat_toNat _ _, rfl, Hist.cleared_countOf _⟩

/-- Settles O8: past the two checks the increment is that of R77. -/
theorem histIncCountsOneSymbol : Obligations.HistIncCountsOneSymbol := by
  refine ⟨(Laws.CommandWord.histInc _ rfl).2, fun s => ?_⟩
  split
  next hcap => exact endsInError_of_withHist exec_histInc (if_pos hcap)
  rename_i hcap
  split
  next hfull => exact endsInError_of_withHist exec_histInc (by rw [Hist.inc, if_neg hcap, if_pos hfull])
  next hfull =>
    have hinc := Hist.inc_ok.2 ⟨Nat.lt_of_not_le hcap, hfull, rfl⟩
    refine (endsNormally_of_withHist exec_histInc hinc).mono fun t ht => ?_
    have hcount := s.hist.countOf_lt s.arg0
    have hcapLt := s.cap.histCap.isLt
    rw [ht]
    refine ⟨?_, fun n hn => ?_, Hist.bump_hwm_toNat _ (by omega), rfl⟩
    · rw [Hist.bump_countOf, if_pos rfl, Nat.mod_eq_of_lt (by omega)]
    · rw [Hist.bump_countOf, if_neg hn]

/-- Settles O9: past the two checks one counter falls by one and the high-water mark stays. -/
theorem histDecRemovesOneSymbol : Obligations.HistDecRemovesOneSymbol := by
  refine ⟨(Laws.CommandWord.histDec _ rfl).2, fun s => ?_⟩
  split
  next hcap => exact endsInError_of_withHist exec_histDec (if_pos hcap)
  rename_i hcap
  split
  next hzero => exact endsInError_of_withHist exec_histDec (by rw [Hist.dec, if_neg hcap, if_pos hzero])
  next hzero =>
    have hdec := Hist.dec_ok.2 ⟨Nat.lt_of_not_le hcap, hzero, rfl⟩
    refine (endsNormally_of_withHist exec_histDec hdec).mono fun t ht => ?_
    have hcount := s.hist.countOf_lt s.arg0
    rw [ht]
    refine ⟨?_, fun n hn => ?_, rfl, rfl⟩
    · rw [Hist.countOf, Memory.read_write_same, BitVec.toNat_ofNat, Nat.mod_eq_of_lt (by omega)]
      omega
    · rw [Hist.countOf, Memory.read_write_other _ _ hn, Hist.countOf]

/-- Settles O10: both commands only answer in RES0, and the bound fits it. -/
theorem histGetAndBoundRead : Obligations.HistGetAndBoundRead := by
  refine ⟨(Laws.CommandWord.histGet _ rfl).2, (Laws.CommandWord.histBound _ rfl).2, fun s => ⟨?_, ?_⟩⟩
  · refine (endsNormally_of_setRes0 exec_histGet).mono fun t ht => ?_
    rw [ht]
    split
    next => exact BitVec.ofNat_toNat _ _
    next => rfl
  · exact endsNormally_of_setRes0_lt exec_histBound s.hist.bound_lt

/-- Settles O11: every check comes first, and past them each word of the sequence is one increment. -/
theorem histSeedCountsEverySymbol : Obligations.HistSeedCountsEverySymbol := by
  refine ⟨(Laws.CommandWord.histSeed _ rfl).2, fun s => ?_⟩
  dsimp only
  split
  next hrange => exact endsInError_of_raised_at_start exec_histSeed (by simp [histSeed, hrange])
  rename_i hrange
  have hexec := exec_histSeed_of_range (Nat.le_of_not_lt hrange)
  refine ⟨fun hlarge => ?_, fun hbelow hover => ?_, fun hbelow hroom => ?_⟩
  · exact endsInError_of_withHist hexec (Hist.seed_of_capacity hlarge)
  · exact endsInError_of_withHist hexec (Hist.seed_of_overflow hbelow hover)
  · refine (endsNormally_of_withHist hexec (Hist.seed_of_room hbelow hroom)).mono fun t ht => ?_
    have hcap := s.cap.histCap.isLt
    rw [ht]
    refine ⟨fun n => Hist.foldl_bump_countOf _ _ n ?_, Hist.foldl_bump_hwm _ fun n hn => ?_,
      Hist.foldl_bump_fixlen _ _⟩
    · have := hroom n
      omega
    · have := hbelow n hn
      omega

/-- Settles O12: the tables are those of the sorted symbols, of which each is ranked once and strictly before the next. -/
theorem histSortBuildsRankedTables : Obligations.HistSortBuildsRankedTables := by
  refine ⟨(Laws.CommandWord.histSort _ rfl).2, fun s => ?_⟩
  have hlen : s.hist.sorted.length = max s.hist.fixlen.toNat s.hist.hwm.toNat := s.hist.length_sorted
  have hentries := s.hist.sorted_entries
  dsimp only
  split
  next hzero =>
    have hempty : s.hist.sorted = [] := List.length_eq_zero_iff.1 (hlen.trans hzero)
    refine (endsNormally_histSort s).mono fun t ⟨hremap, hres⟩ => ?_
    rw [hremap, hempty, Remap.install_nil]
    exact ⟨rfl, rfl, BitVec.eq_of_toNat_eq (hres.trans hzero)⟩
  next hpos =>
    refine (endsNormally_histSort s).mono fun t ⟨hremap, hres⟩ => ?_
    rw [← hlen] at hpos ⊢
    rw [hremap]
    have hsound := s.remap.install_sound hentries.nodup hentries.below hentries.length
    have hen := s.remap.install_en (List.ne_nil_of_length_pos (Nat.pos_of_ne_zero hpos))
    have hb := s.remap.install_b hentries.length
    refine ⟨hen, hb, hres.trans s.hist.length_sorted.symm, fun r hr => ?_, fun r q hrq hq => ?_⟩
    · simpa only [hb] using (hsound.1 hen).2 r (hb.symm ▸ hr)
    · rw [(s.remap.install_entry hentries (lt_trans hrq hq)).1, (s.remap.install_entry hentries hq).1]
      exact s.hist.sorted_strict hrq hq

end Sys2Proof.Machine
end

section
/-! The Golomb-Rice commands RICE_PUT, RICE_GET and RICE_SEARCH (42_rice.md R91 to R97). -/

namespace Sys2Proof

open Machine

/-! ### The code word, bit by bit -/

/-- A Rice code word in a stream: the unary quotient, its end, and the remainder's bits (30_encoding.md R59). -/
theorem BitStream.holds_riceCode_iff {st : BitStream} {p k n : Nat} :
    st.holds p (riceCode k n) ↔
      (∀ i < n / 2 ^ k, st.bit (p + i) = true) ∧ st.bit (p + n / 2 ^ k) = false ∧
        ∀ i < k, st.bit (p + n / 2 ^ k + 1 + i) = (n % 2 ^ k).testBit (k - 1 - i) := by
  rw [riceCode, BitStream.holds_append, BitStream.holds_cons]
  simp [BitStream.holds, getElem_fieldBits, -Nat.testBit_mod_two_pow]

/-! ### The errors of the Rice read (42_rice.md R91) -/

section

variable {st : BitStream} {k cap ep : Nat}

/-- A run of ones that reaches the abort threshold raises the caller's error. -/
theorem unaryRun_of_ones_to_threshold {e : Raised} {q : Nat} :
    ∀ {left i q0 : Nat}, (∀ j < q, st.bit (i + j) = true) → q ≤ left → q0 * 2 ^ k < cap →
      cap ≤ (q0 + q) * 2 ^ k → unaryRun st k cap e ep left i q0 = .error e := by
  induction q with
  | zero =>
    intro left i q0 _ _ hbelow hreach
    exact absurd hreach (Nat.not_le.2 hbelow)
  | succ q ih =>
    intro left i q0 hones hleft _ hreach
    obtain ⟨left, rfl⟩ : ∃ m, left = m + 1 := ⟨left - 1, by omega⟩
    have hone : st.bit i = true := hones 0 (by omega)
    rw [unaryRun, if_pos hone]
    split
    next => rfl
    next hbelow =>
      refine ih (fun j hj => ?_) (by omega) (Nat.lt_of_not_le hbelow) (by rwa [Nat.add_right_comm])
      rw [Nat.add_right_comm]
      exact hones (j + 1) (by omega)

/-- Ones up to the end of the stream, below the abort threshold, are a run without an end. -/
theorem unaryRun_of_ones_to_end {e : Raised} :
    ∀ {left i q0 : Nat}, (∀ j < left, st.bit (i + j) = true) → (q0 + left) * 2 ^ k < cap →
      unaryRun st k cap e ep left i q0 = .error ⟨.unterminated, ep⟩ := by
  intro left
  induction left with
  | zero => intro i q0 _ _; rfl
  | succ left ih =>
    intro i q0 hones hbelow
    have hone : st.bit i = true := hones 0 (by omega)
    have hstep : (q0 + 1) * 2 ^ k ≤ (q0 + (left + 1)) * 2 ^ k := Nat.mul_le_mul_right _ (by omega)
    rw [unaryRun, if_pos hone, if_neg (by omega)]
    refine ih (fun j hj => ?_) (by rwa [Nat.add_right_comm])
    rw [Nat.add_right_comm]
    exact hones (j + 1) (by omega)

variable {p q : Nat} {code : ErrCode}

theorem getRice_of_ones_to_threshold (hcap : 0 < cap) (hones : ∀ i < q, st.bit (p + i) = true)
    (hin : p + q ≤ st.len) (hreach : cap ≤ q * 2 ^ k) : getRice st k p cap code ep = .error ⟨code, ep⟩ := by
  rw [getRice, unaryRun_of_ones_to_threshold hones (by omega) (by simpa using hcap) (by simpa using hreach)]

theorem getRice_of_ones_to_end (hones : ∀ i, p ≤ i → i < st.len → st.bit i = true)
    (hbelow : (st.len - p) * 2 ^ k < cap) : getRice st k p cap code ep = .error ⟨.unterminated, ep⟩ := by
  rw [getRice, unaryRun_of_ones_to_end (fun j _ => hones _ (by omega) (by omega)) (by simpa using hbelow)]

theorem getRice_of_cut_remainder (hones : ∀ i < q, st.bit (p + i) = true) (hzero : st.bit (p + q) = false)
    (hin : p + q < st.len) (hbelow : q * 2 ^ k < cap) (hcut : st.len < p + q + 1 + k) :
    getRice st k p cap code ep = .error ⟨.truncated, ep⟩ := by
  rw [getRice, unaryRun_of_ones hones hzero (by omega) (by simpa using hbelow)]
  exact if_pos hcut

end

end Sys2Proof

namespace Sys2Proof.Machine

/-! ### What an instruction's end says of the state it answers -/

section

variable {i : Instr} {s t : State} {ps : List Part} {post : State → Prop}

/-- The state an instruction answers has what its normal end promises. -/
theorem endsNormally.of_exec (h : endsNormally i s ps post) (ht : exec i s = .next t) :
    s.changesOnly (.report :: ps) t ∧ post t := by
  obtain ⟨u, hu, -, hframe, hpost⟩ := h
  obtain rfl := Host.Outcome.next.inj (hu.symm.trans ht)
  exact ⟨hframe, hpost⟩

/-- An instruction that ends in error does not report a normal end (60_exceptions.md R136). -/
theorem endsInError.report_ne {code : ErrCode} {pos : Nat} (h : endsInError i s code pos ps)
    (ht : exec i s = .next t) : t.report ≠ Report.normalEnd := by
  obtain ⟨u, hu, hreport, -⟩ := h
  obtain rfl := Host.Outcome.next.inj (hu.symm.trans ht)
  rw [hreport]
  exact fun heq => Bool.noConfusion (congrArg Report.err heq)

/-- A command whose start check fails ends in CONFIG(0) (60_exceptions.md R139). -/
theorem endsInError_of_guarded {ok : State → Bool} {body : State → Ending}
    (hexec : exec i s = runCommand (guarded ok body) s) (hok : ok s.start = false) :
    endsInError i s .config 0 [] :=
  endsInError_of_raised_at_start (e := guarded ok body s.start) hexec (guarded_of_not hok)

end

/-! ### A code word appended with its length -/

/-- A command that reports position and length of the code it appends, after its space check (42_rice.md R94, 43_glz_ops.md R104). -/
theorem endsNormally_of_putCode {i : Instr} {s : State} {e : Ending} {bs : List Bool}
    (hexec : exec i s = .next e.close)
    (he : e = .done (((s.start.setRes0 s.streamLen.toNat).setRes1 bs.length).putBits bs))
    (hspace : s.streamLen.toNat + bs.length ≤ s.cap.bitmemBits.toNat) :
    endsNormally i s [.res0, .res1, .streamLen, .bitmem] fun t => s.Appended bs t ∧ t.res.r1.toNat = bs.length := by
  refine endsNormally_of_done hexec he ?_ (by decide) ⟨?_, ?_⟩
  · exact (((setRes0_frame _ _).mono (by decide)).trans ((setRes1_frame _ _).mono (by decide))).trans
      ((putBits_frame _ bs).mono (by decide))
  · obtain ⟨hposition, hlen, hbits, hkept⟩ := appended_putBits (s := s.start.setRes1 bs.length) hspace
    exact ⟨hposition, hlen, hbits, hkept⟩
  · have hcap := s.cap.bitmemBits.isLt
    have hmod : bs.length % 2 ^ 32 = bs.length := Nat.mod_eq_of_lt (by omega)
    simpa using hmod

/-- The coder reads CFG_K, CFG_L, CFG_M and the remap alone (43_glz_ops.md R99). -/
theorem State.changesOnly.coder {s t : State} {ps : List Part} (h : s.changesOnly ps t)
    (hps : ∀ p ∈ [Part.cfgK, .cfgL, .cfgM, .remap], p ∉ ps) : t.coder = s.coder := by
  have hk : t.cfg.k = s.cfg.k := h .cfgK (hps _ (by decide))
  have hl : t.cfg.l = s.cfg.l := h .cfgL (hps _ (by decide))
  have hm : t.cfg.m = s.cfg.m := h .cfgM (hps _ (by decide))
  have hremap : t.remap = s.remap := h .remap (hps _ (by decide))
  rw [State.coder, State.coder, hk, hl, hm, hremap]

/-- What was appended lies in the stream from the old STREAM_LEN to the new one. -/
theorem State.Appended.holdsCode {s t : State} {bs : List Bool} (h : s.Appended bs t) :
    t.stream.holdsCode s.streamLen.toNat bs :=
  ⟨h.bits, h.streamLen.ge⟩

/-! ### RICE_PUT and RICE_GET, once the start checks hold (60_exceptions.md R139) -/

@[simp] theorem State.start_coder (s : State) : s.start.coder = s.coder := rfl
@[simp] theorem State.start_stream (s : State) : s.start.stream = s.stream := rfl

theorem State.riceOk_iff {s : State} :
    s.riceOk = true ↔ s.streamLen.toNat ≤ s.cap.bitmemBits.toNat ∧ s.cfg.k.toNat ≤ 32 := by
  simp [State.riceOk, State.streamOk, State.kOk]

section

variable {s : State}

theorem exec_ricePut (hok : s.riceOk = true) : exec .ricePut s = .next (ricePut s.start).close :=
  exec_of_guarded (ok := State.riceOk) rfl hok

theorem exec_riceGet (hok : s.riceOk = true) : exec .riceGet s = .next (riceGet s.start).close :=
  exec_of_guarded (ok := State.riceOk) rfl hok

/-- A code word that does not fit is not written (42_rice.md R94). -/
theorem ricePut_of_full (hok : s.riceOk = true)
    (hfull : s.cap.bitmemBits.toNat < s.streamLen.toNat + s.coder.symLen s.arg0) :
    endsInError .ricePut s .capacity s.streamLen.toNat [] :=
  endsInError_of_raised_at_start (exec_ricePut hok) (by simp [ricePut, hfull])

/-- A code word that fits is appended, and its length reported (42_rice.md R94). -/
theorem ricePut_of_space (hok : s.riceOk = true)
    (hspace : s.streamLen.toNat + s.coder.symLen s.arg0 ≤ s.cap.bitmemBits.toNat) :
    endsNormally .ricePut s [.res0, .res1, .streamLen, .bitmem] fun t =>
      s.Appended (s.coder.sym s.arg0) t ∧ t.res.r1.toNat = s.coder.symLen s.arg0 := by
  have hdone : ricePut s.start = .done (((s.start.setRes0 s.streamLen.toNat).setRes1
      (s.coder.sym s.arg0).length).putBits (s.coder.sym s.arg0)) := by
    simp [ricePut, Nat.not_lt.2 hspace]
  simpa using endsNormally_of_putCode (exec_ricePut hok) hdone (by simpa using hspace)

/-- RICE_PUT ends normally only past its start checks and its space check (42_rice.md R94, 60_exceptions.md R139). -/
theorem fits_of_ricePut {t : State} (ht : exec .ricePut s = .next t) (hnormal : t.report = Report.normalEnd) :
    s.riceOk = true ∧ s.streamLen.toNat + s.coder.symLen s.arg0 ≤ s.cap.bitmemBits.toNat := by
  have hok : s.riceOk = true := by
    by_contra hbad
    exact (endsInError_of_guarded rfl (Bool.eq_false_iff.2 hbad)).report_ne ht hnormal
  refine ⟨hok, ?_⟩
  by_contra hfull
  exact (ricePut_of_full hok (Nat.lt_of_not_le hfull)).report_ne ht hnormal

theorem riceGet_of_badWidth (hok : s.riceOk = true) (hw : ¬(s.arg1 = 8 ∨ s.arg1 = 16 ∨ s.arg1 = 32)) :
    endsInError .riceGet s .config s.arg0 [] :=
  endsInError_of_raised_at_start (exec_riceGet hok) (by simp [riceGet, hw])

/-- An error of the Rice read is the command's own (42_rice.md R95). -/
theorem riceGet_of_error {code : ErrCode} {pos : Nat} (hok : s.riceOk = true)
    (hw : s.arg1 = 8 ∨ s.arg1 = 16 ∨ s.arg1 = 32)
    (hread : getRice s.stream s.cfg.k.toNat s.arg0 (2 ^ 32) .cast s.arg0 = .error ⟨code, pos⟩) :
    endsInError .riceGet s code pos [] :=
  endsInError_of_raised_at_start (exec_riceGet hok) (by simp [riceGet, hw, State.coder, -Nat.reducePow, hread])

/-- A value past the width ends in CAST (42_rice.md R95). -/
theorem riceGet_of_wide {n : Nat} (hok : s.riceOk = true) (hw : s.arg1 = 8 ∨ s.arg1 = 16 ∨ s.arg1 = 32)
    (hn : n < 2 ^ 32) (hcode : s.stream.holdsCode s.arg0 (riceCode s.cfg.k.toNat n))
    (hwide : s.arg1 < 32 ∧ 2 ^ s.arg1 ≤ s.remap.mapDec n) : endsInError .riceGet s .cast s.arg0 [] :=
  endsInError_of_raised_at_start (exec_riceGet hok)
    (by simp [riceGet, hw, State.coder, -Nat.reducePow, getRice_of_holds hcode hn, hwide])

/-- A value of the width is answered with the position just after its code word (42_rice.md R95). -/
theorem riceGet_of_fits {n : Nat} (hok : s.riceOk = true) (hw : s.arg1 = 8 ∨ s.arg1 = 16 ∨ s.arg1 = 32)
    (hn : n < 2 ^ 32) (hcode : s.stream.holdsCode s.arg0 (riceCode s.cfg.k.toNat n))
    (hfits : ¬(s.arg1 < 32 ∧ 2 ^ s.arg1 ≤ s.remap.mapDec n)) :
    endsNormally .riceGet s [.res0, .res1] fun t =>
      t.res.r0 = BitVec.ofNat 32 (s.remap.mapDec n) ∧ t.res.r1.toNat = s.arg0 + riceLen s.cfg.k.toNat n := by
  have hdone : riceGet s.start = .done
      ((s.start.setRes0 (s.remap.mapDec n)).setRes1 (s.arg0 + riceLen s.cfg.k.toNat n)) := by
    simp [riceGet, hw, State.coder, -Nat.reducePow, getRice_of_holds hcode hn, hfits]
  refine endsNormally_of_done (exec_riceGet hok) hdone ?_ (by decide) ⟨rfl, ?_⟩
  · exact ((setRes0_frame _ _).mono (by decide)).trans ((setRes1_frame _ _).mono (by decide))
  · have hend : s.arg0 + (riceCode s.cfg.k.toNat n).length ≤ s.streamLen.toNat := hcode.2
    have hlen := s.streamLen.isLt
    rw [length_riceCode] at hend
    exact Nat.mod_eq_of_lt (by omega)

/-- A symbol of the width, coded in the stream, is answered with the position just after it (42_rice.md R97). -/
theorem riceGet_of_sym {n : Nat} (hok : s.riceOk = true) (hw : s.arg1 = 8 ∨ s.arg1 = 16 ∨ s.arg1 = 32)
    (hsound : s.remap.Sound) (hn : n < 2 ^ 32) (hfits : n < 2 ^ s.arg1)
    (hcode : s.stream.holdsCode s.arg0 (s.coder.sym n)) :
    endsNormally .riceGet s [.res0, .res1] fun t =>
      t.res.r0 = BitVec.ofNat 32 n ∧ t.res.r1.toNat = s.arg0 + s.coder.symLen n := by
  have hback := hsound.mapDec_mapEnc n
  refine (riceGet_of_fits hok hw (hsound.mapEnc_lt hn) hcode ?_).mono fun t ⟨hvalue, hend⟩ => ⟨?_, hend⟩
  · rw [hback]
    exact fun hwide => absurd hfits (Nat.not_lt.2 hwide.2)
  · rw [hvalue, hback]

end

/-! ### The search (42_rice.md R96) -/

theorem setRes2_frame (s : State) (v : Nat) : s.changesOnly [.res2] (s.setRes2 v) := by
  intro p hp
  cases p with
  | res2 => exact absurd (by decide) hp
  | _ => rfl

theorem setBestK_frame (s : State) : s.changesOnly [.cfgK] s.setBestK := by
  intro p hp
  cases p with
  | cfgK => exact absurd (by decide) hp
  | _ => rfl

/-- Two registers hold a number of 64 bits (10_state.md R21). -/
theorem toNat_lowWord_add_highWord {c : Nat} (hc : c < 2 ^ 64) :
    (BitVec.ofNat 32 (c % 2 ^ 32)).toNat + 2 ^ 32 * (BitVec.ofNat 32 (c / 2 ^ 32)).toNat = c := by
  have hhigh : c / 2 ^ 32 < 2 ^ 32 := Nat.div_lt_of_lt_mul hc
  rw [BitVec.toNat_ofNat, BitVec.toNat_ofNat, Nat.mod_mod, Nat.mod_eq_of_lt hhigh, Nat.mod_add_div]

theorem exec_riceSearch {s : State} : exec .riceSearch s = .next (riceSearch s.start).close := rfl

@[simp] theorem State.start_cost (s : State) : s.start.cost = s.cost := rfl
@[simp] theorem State.start_searchK (s : State) : s.start.searchK = s.searchK := rfl

/-- What the search answers: the least k of the least cost among 0 .. ceil_log2(bound), and that cost. -/
structure State.BestK (s : State) (best bestCost : Nat) : Prop where
  le : best ≤ ceilLog2 s.hist.bound
  cost : bestCost = s.cost best
  least : ∀ k ≤ ceilLog2 s.hist.bound, s.cost best ≤ s.cost k
  first : ∀ k < best, s.cost best < s.cost k

theorem State.bestK_searchK (s : State) : s.BestK s.searchK.1 s.searchK.2 := by
  have hscan : 0 :: (List.range (ceilLog2 s.hist.bound)).map (· + 1) = List.range (ceilLog2 s.hist.bound + 1) :=
    List.range_succ_eq_map.symm
  have hmem : ∀ k ≤ ceilLog2 s.hist.bound, k ∈ 0 :: (List.range (ceilLog2 s.hist.bound)).map (· + 1) := by
    intro k hk
    rw [hscan, List.mem_range]
    omega
  have hfirst := searchFrom_first s.cost 0 (hscan ▸ List.pairwise_lt_range)
  obtain ⟨hin, hcost, hstart, hleast⟩ :=
    searchFrom_spec s.cost 0 ((List.range (ceilLog2 s.hist.bound)).map (· + 1))
  have hle : s.searchK.1 ≤ ceilLog2 s.hist.bound := by
    have hrange : s.searchK.1 ∈ List.range (ceilLog2 s.hist.bound + 1) := hscan ▸ List.mem_cons.2 hin
    rw [List.mem_range] at hrange
    omega
  refine ⟨hle, hcost, fun k hk => ?_, fun k hk => hfirst k (hmem k (by omega)) hk⟩
  rw [State.searchK, ← hcost]
  rcases List.mem_cons.1 (hmem k hk) with rfl | hscanned
  · exact hstart
  · exact hleast k hscanned

/-! ### The statements -/

/-- Settles O20: RICE_PUT leaves the coded symbol in the stream, and RICE_GET at its position reads it back. -/
theorem riceGetReturnsWhatRicePutAppended : Obligations.RiceGetReturnsWhatRicePutAppended := by
  intro s t w hsound hw hv ht hnormal a2 a3
  obtain ⟨hok, hspace⟩ := fits_of_ricePut ht hnormal
  obtain ⟨hframe, happended, -⟩ := (ricePut_of_space hok hspace).of_exec ht
  have hcap : t.cap = s.cap := hframe .cap (by decide)
  have hk : t.cfg.k = s.cfg.k := hframe .cfgK (by decide)
  have hremap : t.remap = s.remap := hframe .remap (by decide)
  have hcoder : t.coder = s.coder := hframe.coder (by decide)
  have hposition : t.res.r0.toNat = s.streamLen.toNat := congrArg BitVec.toNat happended.position
  have hlen : t.streamLen.toNat = s.streamLen.toNat + s.coder.symLen s.arg0 := by
    simpa using happended.streamLen
  have hcode : t.stream.holdsCode t.res.r0.toNat (t.coder.sym s.arg0) := by
    rw [hposition, hcoder]
    exact happended.holdsCode
  have hokGet : t.riceOk = true := by
    rw [State.riceOk_iff, hcap, hk, hlen]
    exact ⟨hspace, (State.riceOk_iff.1 hok).2⟩
  have hwidth : w.toNat = 8 ∨ w.toNat = 16 ∨ w.toNat = 32 :=
    hw.imp (congrArg BitVec.toNat) (Or.imp (congrArg BitVec.toNat) (congrArg BitVec.toNat))
  refine (riceGet_of_sym (s := { t with args := ⟨t.res.r0, w, a2, a3⟩ }) hokGet hwidth (hremap ▸ hsound)
    s.args.a0.isLt hv hcode).mono fun u ⟨hvalue, hend⟩ => ?_
  refine ⟨hvalue.trans (BitVec.ofNat_toNat _ _), BitVec.eq_of_toNat_eq (hend.trans ?_)⟩
  change t.res.r0.toNat + t.coder.symLen s.arg0 = t.streamLen.toNat
  rw [hposition, hcoder, hlen]

/-- Settles O18: past the space check the code word is appended, and its bits are those of R59. -/
theorem ricePutAppendsCodedSymbol : Obligations.RicePutAppendsCodedSymbol := by
  refine ⟨(Laws.CommandWord.ricePut _ rfl).2, fun s hok => ?_⟩
  dsimp only
  split
  next hfull => exact ricePut_of_full hok hfull
  next hspace =>
    refine (ricePut_of_space hok (Nat.le_of_not_lt hspace)).mono fun t ⟨happended, hr1⟩ => ?_
    obtain ⟨hones, hzero, hremainder⟩ := BitStream.holds_riceCode_iff.1 happended.holdsCode.1
    have hlen := happended.streamLen
    have hkept := happended.kept
    rw [Coder.length_sym] at hlen hkept
    exact ⟨happended.position, hr1, hlen, hones, hzero, hremainder, hkept⟩

/-- Settles O19: each way the Rice read can end is the command's own answer. -/
theorem riceGetReadsCodedSymbol : Obligations.RiceGetReadsCodedSymbol := by
  refine ⟨(Laws.CommandWord.riceGet _ rfl).2, fun s hok => ⟨riceGet_of_badWidth hok, fun hw => ?_⟩⟩
  refine ⟨fun n hn hcode => ?_, fun q hreach hin hones => ?_, fun hones hbelow => ?_,
    fun q hbelow hones hzero hin hcut => ?_⟩
  · split
    next hwide => exact riceGet_of_wide hok hw hn hcode hwide
    next hfits => exact riceGet_of_fits hok hw hn hcode hfits
  · exact riceGet_of_error hok hw (getRice_of_ones_to_threshold (by decide) hones hin hreach)
  · exact riceGet_of_error hok hw (getRice_of_ones_to_end hones hbelow)
  · exact riceGet_of_error hok hw (getRice_of_cut_remainder hones hzero hin hbelow hcut)

/-- Settles O21: the scan's answer is the least k of least cost, at most 32, and two words hold the saturated cost. -/
theorem riceSearchFindsLeastCost : Obligations.RiceSearchFindsLeastCost := by
  refine ⟨(Laws.CommandWord.riceSearch _ rfl).2, fun s => ?_⟩
  obtain ⟨hle, hcost, hleast, hfirst⟩ := s.bestK_searchK
  have hmax : ceilLog2 s.hist.bound ≤ 32 := ceilLog2_le s.hist.bound_lt.le
  have hbest : (BitVec.ofNat 6 s.searchK.1).toNat = s.searchK.1 := by
    rw [BitVec.toNat_ofNat, Nat.mod_eq_of_lt (by omega)]
  refine endsNormally_of_done exec_riceSearch rfl ?_ (by decide) ?_
  · exact ((((setBestK_frame _).mono (by decide)).trans ((setRes0_frame _ _).mono (by decide))).trans
      ((setRes1_frame _ _).mono (by decide))).trans ((setRes2_frame _ _).mono (by decide))
  · simp only [State.finish_cfg, State.setRes2_cfg, State.setRes1_cfg, State.setRes0_cfg, State.setBestK_cfg,
      State.start_searchK, hbest]
    refine ⟨Nat.mod_eq_of_lt (by omega), hle, hmax, hleast, hfirst, ?_⟩
    exact (toNat_lowWord_add_highWord (by omega)).trans (congrArg (min · (2 ^ 64 - 1)) hcost)

end Sys2Proof.Machine
end

section
/-! What `decode_op` answers and what it depends on: the operation of a legal code, legal operations only, and a number of bits that the configuration bounds (43_glz_ops.md R98 to R103). -/

namespace Sys2Proof

open Machine

/-- Settles O22: the head is read back by its symbol, and the byte or the offset after it by its own code. -/
theorem operationCodeDecodesBack : Obligations.OperationCodeDecodesBack :=
  fun _ _ _ _ hr hm hop hcode => decodeOp_of_encodeOp hr hm hop hcode

/-! ### What a decoded operation is made of -/

/-- The unary loop passes one position for each 1 it counts, and one for the 0. -/
theorem unaryRun_position {st : BitStream} {k cap ep : Nat} {e : Raised} :
    ∀ {left i q0 q j : Nat}, unaryRun st k cap e ep left i q0 = .ok (q, j) → j + q0 = i + q + 1 := by
  intro left
  induction left with
  | zero => intro i q0 q j h; simp [unaryRun] at h
  | succ left ih =>
    intro i q0 q j h
    rw [unaryRun] at h
    split at h
    · split at h
      · simp at h
      · have hrest := ih h
        omega
    · simp only [Except.ok.injEq, Prod.mk.injEq] at h
      omega

/-- The two parts of a Rice read that succeeds: the unary quotient and the remainder (42_rice.md R91). -/
theorem getRice_ok {st : BitStream} {k p cap ep n i : Nat} {code : ErrCode}
    (h : getRice st k p cap code ep = .ok (n, i)) :
    ∃ q j, unaryRun st k cap ⟨code, ep⟩ ep (st.len - p) p 0 = .ok (q, j) ∧ i = j + k ∧ i ≤ st.len := by
  unfold getRice at h
  split at h
  · simp at h
  next q j hu =>
    split at h
    · simp at h
    · simp only [Except.ok.injEq, Prod.mk.injEq] at h
      exact ⟨q, j, hu, h.2.symm, by omega⟩

/-- A Rice read ends past its start and inside the stream, whatever its threshold (42_rice.md R92). -/
theorem getRice_position {st : BitStream} {k p cap ep n i : Nat} {code : ErrCode}
    (h : getRice st k p cap code ep = .ok (n, i)) : p < i ∧ i ≤ st.len := by
  obtain ⟨q, j, hu, rfl, hle⟩ := getRice_ok h
  obtain ⟨hj, -, -⟩ := unaryRun_bounds hu
  exact ⟨by omega, hle⟩

/-- Everything a successful `decode_op` answers: a literal, a run with its byte, or a reference with its offset (43_glz_ops.md R101). -/
theorem decodeOp_ok {c : Coder} {st : BitStream} {p q : Nat} {op : Op} (h : decodeOp c st p = .ok (op, q)) :
    ∃ n i, getRice st c.k p (c.remap.threshold (headSpace c.l)) .invalidOp p = .ok (n, i) ∧
      c.remap.mapDec n < headSpace c.l ∧
      ((c.remap.mapDec n < 256 ∧ op = .imm 1 (BitVec.ofNat 8 (c.remap.mapDec n)) ∧ q = i) ∨
       (256 ≤ c.remap.mapDec n ∧ c.remap.mapDec n < 256 + 2 ^ c.l ∧
        ∃ n', getRice st c.k i (c.remap.threshold 256) .invalidOp p = .ok (n', q) ∧
          op = .imm (c.remap.mapDec n - 254) (BitVec.ofNat 8 (c.remap.mapDec n'))) ∨
       (256 + 2 ^ c.l ≤ c.remap.mapDec n ∧
        ∃ o, offsetLoop st c.m p (chunksMax c.m) i 0 = .ok (o, q) ∧
          op = .ref (c.remap.mapDec n - 256 - 2 ^ c.l + 2) (BitVec.ofNat 32 o))) := by
  unfold decodeOp at h
  split at h
  · simp at h
  next n i hhead =>
    refine ⟨n, i, hhead, ?_⟩
    simp only at h
    split at h
    · simp at h
    rename_i hspace
    refine ⟨Nat.lt_of_not_le hspace, ?_⟩
    split at h
    next hlit =>
      simp only [Except.ok.injEq, Prod.mk.injEq] at h
      exact .inl ⟨hlit, h.1.symm, h.2.symm⟩
    next hlit =>
      split at h
      next hrun =>
        split at h
        · simp at h
        next n' j hbyte =>
          split at h
          · simp at h
          · simp only [Except.ok.injEq, Prod.mk.injEq] at h
            obtain ⟨rfl, rfl⟩ := h
            exact .inr (.inl ⟨Nat.le_of_not_lt hlit, hrun, n', hbyte, rfl⟩)
      next hrun =>
        split at h
        · simp at h
        next o j hoffset =>
          simp only [Except.ok.injEq, Prod.mk.injEq] at h
          obtain ⟨rfl, rfl⟩ := h
          exact .inr (.inr ⟨Nat.le_of_not_lt hrun, o, hoffset, rfl⟩)

theorem Machine.Op.wf_imm_iff {l n : Nat} {b : Byte} : (Op.imm n b).wf l = true ↔ 1 ≤ n ∧ n ≤ sizeMax l := by
  simp [Op.wf]

theorem Machine.Op.wf_ref_iff {l n : Nat} {o : Word} : (Op.ref n o).wf l = true ↔ 2 ≤ n ∧ n ≤ sizeMax l := by
  simp [Op.wf, refSizeOk]

/-- Settles O24: each kind of head leaves a count or size in its range, and every read ends past its start. -/
theorem decodedOperationIsLegal : Obligations.DecodedOperationIsLegal := by
  intro c st p q op h
  obtain ⟨n, i, hhead, hspace, hform⟩ := decodeOp_ok h
  obtain ⟨hpi, hi⟩ := getRice_position hhead
  have hpow : headSpace c.l = 256 + (2 ^ c.l + 2 ^ c.l) := by rw [headSpace, Nat.pow_succ, Nat.mul_two]
  have hsize : sizeMax c.l = 2 ^ c.l + 1 := rfl
  rcases hform with ⟨-, rfl, rfl⟩ | ⟨hlo, hhi, n', hbyte, rfl⟩ | ⟨hlo, o, hoffset, rfl⟩
  · exact ⟨Op.wf_imm_iff.2 ⟨le_rfl, Nat.le_add_left 1 _⟩, hpi, hi⟩
  · obtain ⟨hiq, hq⟩ := getRice_position hbyte
    exact ⟨Op.wf_imm_iff.2 (by omega), by omega, hq⟩
  · obtain ⟨hiq, hq, -⟩ := offsetLoop_bounds hoffset
    exact ⟨Op.wf_ref_iff.2 (by omega), by omega, hq⟩

/-! ### The abort thresholds (43_glz_ops.md R100) -/

/-- A coded value at or past the threshold lies in a block of values that are all at least X. -/
theorem le_mapDec_of_threshold_le {r : Remap} (hr : r.Sound) {x n : Nat} (h : r.threshold x ≤ n) : x ≤ r.mapDec n := by
  unfold Remap.threshold at h
  split at h
  next hen =>
    have hb : 0 < r.b.toNat := (hr.1 hen).1
    have hblock : ceilDiv x r.b.toNat ≤ r.mapDec n / r.b.toNat := by
      rw [hr.mapDec_div, Nat.le_div_iff_mul_le hb]
      exact h
    calc x ≤ ceilDiv x r.b.toNat * r.b.toNat := ceilDiv_mul_le hb
      _ ≤ r.mapDec n := (Nat.le_div_iff_mul_le hb).1 hblock
  next hen =>
    rw [Remap.mapDec, Remap.throughTable_off (by simpa using hen)]
    exact h

/-- The threshold of a limit up to 2^31 is a 32-bit value: it is TBL_B itself, or less than twice the limit. -/
theorem threshold_lt {r : Remap} {x : Nat} (hx : x ≤ 2 ^ 31) : r.threshold x < 2 ^ 32 := by
  unfold Remap.threshold
  split
  · by_cases hone : x ≤ r.b.toNat
    · have hceil : ceilDiv x r.b.toNat * r.b.toNat ≤ 1 * r.b.toNat := by
        rcases Nat.eq_zero_or_pos r.b.toNat with hb | hb
        · simp [hb]
        · refine Nat.mul_le_mul_right _ (Nat.le_of_not_lt fun hlt => ?_)
          rw [lt_ceilDiv_iff hb] at hlt
          omega
      have := r.b.isLt
      omega
    · have hmul : ceilDiv x r.b.toNat * r.b.toNat ≤ x + r.b.toNat - 1 := Nat.div_mul_le_self _ _
      omega
  · omega

/-- Settles O26: the remap keeps a value in its block, and the head space is at most 256 + 2^17. -/
theorem thresholdsRejectNoLegalCode : Obligations.ThresholdsRejectNoLegalCode := by
  refine ⟨fun r x hr => ⟨rfl, fun n hn _ => le_mapDec_of_threshold_le hr hn⟩, fun s hcap _ hl => ?_⟩
  have hmax : s.cap.lMax.toNat ≤ 16 := by
    simp only [Params.legal, Bool.and_eq_true, decide_eq_true_eq] at hcap
    omega
  have hpow : 2 ^ (s.coder.l + 1) ≤ 2 ^ 17 := Nat.pow_le_pow_right (by decide) (by omega)
  exact ⟨threshold_lt (by unfold headSpace; omega), threshold_lt (by decide)⟩

/-! ### How many bits a read depends on (43_glz_ops.md R102) -/

section

variable {st st' : BitStream} {k cap ep : Nat}

/-- The unary loop reads no bit past the 1 that reaches the threshold. -/
theorem unaryRun_congr {e : Raised} :
    ∀ {left i q0 : Nat}, q0 * 2 ^ k < cap →
      Set.EqOn st.bit st'.bit (Set.Ico i (i + (ceilDiv cap (2 ^ k) - q0))) →
      unaryRun st k cap e ep left i q0 = unaryRun st' k cap e ep left i q0 := by
  intro left
  induction left with
  | zero => intro i q0 _ _; rfl
  | succ left ih =>
    intro i q0 hq0 hbits
    rw [← lt_ceilDiv_iff (by positivity)] at hq0
    rw [unaryRun, unaryRun, hbits ⟨le_rfl, by omega⟩]
    split
    · split
      · rfl
      next hbelow =>
        exact ih (Nat.lt_of_not_le hbelow) (hbits.mono (Set.Ico_subset_Ico (by omega) (by omega)))
    · rfl

/-- A unary run that succeeds, its 0 included, takes no more bits than its threshold allows. -/
theorem unaryRun_end_le {e : Raised} {left i q j : Nat} (hcap : 0 < cap)
    (h : unaryRun st k cap e ep left i 0 = .ok (q, j)) : j ≤ i + ceilDiv cap (2 ^ k) := by
  have hj := unaryRun_position h
  obtain ⟨-, -, hq⟩ := unaryRun_bounds h
  have hbelow : q * 2 ^ k < cap := hq.elim (fun h0 => by simpa [h0] using hcap) id
  rw [← lt_ceilDiv_iff (by positivity)] at hbelow
  omega

variable {p : Nat} {code : ErrCode}

/-- A Rice read that succeeds ends within the bits its threshold allows. -/
theorem getRice_end_le {n i : Nat} (hcap : 0 < cap) (h : getRice st k p cap code ep = .ok (n, i)) :
    i ≤ p + (ceilDiv cap (2 ^ k) + k) := by
  obtain ⟨q, j, hu, rfl, -⟩ := getRice_ok h
  have hj := unaryRun_end_le hcap hu
  omega

/-- A Rice read depends on the bits its threshold allows and on the stream length alone. -/
theorem getRice_congr (hcap : 0 < cap) (hlen : st.len = st'.len)
    (hbits : Set.EqOn st.bit st'.bit (Set.Ico p (p + (ceilDiv cap (2 ^ k) + k)))) :
    getRice st k p cap code ep = getRice st' k p cap code ep := by
  have hrun : unaryRun st k cap ⟨code, ep⟩ ep (st.len - p) p 0 = unaryRun st' k cap ⟨code, ep⟩ ep (st.len - p) p 0 :=
    unaryRun_congr (by simpa using hcap) (hbits.mono (Set.Ico_subset_Ico le_rfl (by omega)))
  cases hu : unaryRun st k cap ⟨code, ep⟩ ep (st.len - p) p 0 with
  | error r => rw [getRice, getRice, ← hlen, ← hrun, hu]
  | ok x =>
    obtain ⟨q, j⟩ := x
    have hj := unaryRun_end_le hcap hu
    obtain ⟨hpj, -, -⟩ := unaryRun_bounds hu
    have hfield : fieldValue st.bit j k = fieldValue st'.bit j k :=
      fieldValue_congr fun a ha => hbits ⟨by omega, by omega⟩
    rw [getRice, getRice, ← hlen, ← hrun, hu]
    simp only [hfield]

/-- The offset loop reads at most the chunks still allowed. -/
theorem offsetLoop_congr {m : Nat} (hlen : st.len = st'.len) :
    ∀ {allowed i acc : Nat}, Set.EqOn st.bit st'.bit (Set.Ico i (i + allowed * (m + 1))) →
      offsetLoop st m p allowed i acc = offsetLoop st' m p allowed i acc := by
  intro allowed
  induction allowed with
  | zero => intro i acc _; rfl
  | succ allowed ih =>
    intro i acc hbits
    rw [Nat.succ_mul] at hbits
    have hfield : fieldValue st.bit (i + 1) m = fieldValue st'.bit (i + 1) m :=
      fieldValue_congr fun a ha => hbits ⟨by omega, by omega⟩
    have hflag : st.bit i = st'.bit i := hbits ⟨le_rfl, by omega⟩
    have hrest : ∀ acc', offsetLoop st m p allowed (i + 1 + m) acc' = offsetLoop st' m p allowed (i + 1 + m) acc' :=
      fun _ => ih (hbits.mono (Set.Ico_subset_Ico (by omega) (by omega)))
    rw [offsetLoop, offsetLoop, hlen]
    simp only [hfield, hflag, hrest]

end

/-- Settles O27: the head's read, and the byte's or the offset's after it, each stay within their part of the bound. -/
theorem decodeOpReadsBoundedBits : Obligations.DecodeOpReadsBoundedBits := by
  intro c st st' p hr hlen hbits
  have hcap : ∀ x, 0 < x → 0 < c.remap.threshold x := fun x hx => lt_of_lt_of_le hx (hr.le_threshold x)
  have hspace : 0 < headSpace c.l := by unfold headSpace; positivity
  have hagree : Set.EqOn st.bit st'.bit (Set.Ico p (p + (ceilDiv (c.remap.threshold (headSpace c.l)) (2 ^ c.k) +
      ceilDiv (c.remap.threshold 256) (2 ^ c.k) + 2 * c.k + chunksMax c.m * (c.m + 1)))) := by
    intro a ha
    obtain ⟨i, rfl⟩ := Nat.exists_eq_add_of_le ha.1
    exact hbits i (Nat.add_lt_add_iff_left.1 ha.2)
  have hhead : getRice st c.k p (c.remap.threshold (headSpace c.l)) .invalidOp p =
      getRice st' c.k p (c.remap.threshold (headSpace c.l)) .invalidOp p :=
    getRice_congr (hcap _ hspace) hlen (hagree.mono (Set.Ico_subset_Ico le_rfl (by omega)))
  unfold decodeOp
  rw [hhead]
  cases hread : getRice st' c.k p (c.remap.threshold (headSpace c.l)) .invalidOp p with
  | error r => rfl
  | ok x =>
    obtain ⟨n, i⟩ := x
    obtain ⟨hpi, -⟩ := getRice_position hread
    have hi := getRice_end_le (hcap _ hspace) hread
    have hbyte : getRice st c.k i (c.remap.threshold 256) .invalidOp p =
        getRice st' c.k i (c.remap.threshold 256) .invalidOp p :=
      getRice_congr (hcap _ (by decide)) hlen (hagree.mono (Set.Ico_subset_Ico (by omega) (by omega)))
    have hoffset : offsetLoop st c.m p (chunksMax c.m) i 0 = offsetLoop st' c.m p (chunksMax c.m) i 0 :=
      offsetLoop_congr hlen (hagree.mono (Set.Ico_subset_Ico (by omega) (by omega)))
    simp only [hbyte, hoffset]

end Sys2Proof
end

section
/-! The commands that put and get one operation, GLZ_OP_PUT and GLZ_OP_GET, and what a stream cut inside an operation makes of the second (43_glz_ops.md R101, R104, R105). -/

namespace Sys2Proof

open Machine

/-! ### A stream cut inside an operation (43_glz_ops.md R101) -/

/-- What a read of a code word raises on a stream cut inside it: at the threshold, inside the unary run, inside the remainder (42_rice.md R91). -/
theorem raises_of_cut_code {st : BitStream} {k j cap p : Nat} {raises : ErrCode → Prop} (hcap : 0 < cap)
    (hread : ∀ code, getRice st k j cap .invalidOp p = .error ⟨code, p⟩ → raises code) :
    (∀ q, cap ≤ q * 2 ^ k → j + q ≤ st.len → (∀ i < q, st.bit (j + i) = true) → raises .invalidOp) ∧
    ((∀ i, j ≤ i → i < st.len → st.bit i = true) → (st.len - j) * 2 ^ k < cap → raises .unterminated) ∧
    (∀ q, q * 2 ^ k < cap → (∀ i < q, st.bit (j + i) = true) → st.bit (j + q) = false → j + q < st.len →
      st.len < j + q + 1 + k → raises .truncated) :=
  ⟨fun _ hreach hin hones => hread _ (getRice_of_ones_to_threshold hcap hones hin hreach),
    fun hones hbelow => hread _ (getRice_of_ones_to_end hones hbelow),
    fun _ hbelow hones hzero hin hcut => hread _ (getRice_of_cut_remainder hones hzero hin hbelow hcut)⟩

section

variable {c : Coder} {st : BitStream} {p n : Nat}

/-- An error of the head's read is the operation's own. -/
theorem decodeOp_of_headError {r : Raised}
    (h : getRice st c.k p (c.remap.threshold (headSpace c.l)) .invalidOp p = .error r) :
    decodeOp c st p = .error r := by
  unfold decodeOp
  rw [h]

/-- An error in the read of a run's byte is the operation's own. -/
theorem decodeOp_of_byteError {r : Raised} (hr : c.remap.Sound) (h2 : 2 ≤ n) (hn : n ≤ sizeMax c.l)
    (hc : st.holdsCode p (c.sym (254 + n)))
    (h : getRice st c.k (p + (c.sym (254 + n)).length) (c.remap.threshold 256) .invalidOp p = .error r) :
    decodeOp c st p = .error r := by
  rw [Coder.length_sym] at h
  rw [decodeOp_of_runHead hr hc h2 hn, h]
  rfl

theorem le_offsetAfter (m acc : Nat) (chunks : List Nat) : acc ≤ offsetAfter m acc chunks := by
  induction chunks generalizing acc with
  | nil => exact le_rfl
  | cons g gs ih =>
    calc acc ≤ acc * 2 ^ m := Nat.le_mul_of_pos_right _ (Nat.two_pow_pos m)
      _ ≤ acc * 2 ^ m + g := Nat.le_add_right _ _
      _ ≤ offsetAfter m acc (g :: gs) := ih _

/-- Chunks that each announce another, and whose offset stays below 2^32, are all read (43_glz_ops.md R101). -/
theorem offsetLoop_of_smallChunks {m : Nat} {chunks : List Nat} :
    ∀ {allowed i acc : Nat}, (∀ g ∈ chunks, g < 2 ^ m) → st.holdsCode i (announcedChunks m chunks) →
      offsetAfter m acc chunks < 2 ^ 32 →
      offsetLoop st m p (chunks.length + allowed) i acc =
        offsetLoop st m p allowed (i + (announcedChunks m chunks).length) (offsetAfter m acc chunks) := by
  induction chunks with
  | nil => intro allowed i acc _ _ _; simp [announcedChunks, offsetAfter]
  | cons g gs ih =>
    intro allowed i acc hlt h ho
    obtain ⟨hg, hgs⟩ := List.forall_mem_cons.1 hlt
    rw [announcedChunks_cons, BitStream.holdsCode_append] at h
    obtain ⟨hchunk, hrest⟩ := h
    have hsmall : acc * 2 ^ m + g < 2 ^ 32 := lt_of_le_of_lt (le_offsetAfter m _ gs) ho
    have hi : i + 1 + m = i + (true :: fieldBits m g).length := by
      rw [List.length_cons, length_fieldBits]; omega
    rw [List.length_cons, Nat.add_right_comm, offsetLoop_of_chunk hg hchunk, if_neg (Nat.not_le.2 hsmall), if_pos rfl,
      hi, ih hgs hrest ho, announcedChunks_cons, List.length_append, Nat.add_assoc]
    rfl

/-- An offset chunk that the stream cuts off, after others that are whole, raises TRUNCATED (43_glz_ops.md R101). -/
theorem decodeOp_of_cutChunk {chunks : List Nat} (hr : c.remap.Sound) (h2 : 2 ≤ n) (hn : n ≤ sizeMax c.l)
    (hlt : ∀ g ∈ chunks, g < 2 ^ c.m) (hlen : chunks.length < chunksMax c.m) (ho : offsetAfter c.m 0 chunks < 2 ^ 32)
    (hc : st.holdsCode p (c.sym (254 + 2 ^ c.l + n) ++ announcedChunks c.m chunks))
    (hcut : st.len < p + (c.sym (254 + 2 ^ c.l + n) ++ announcedChunks c.m chunks).length + 1 + c.m) :
    decodeOp c st p = .error ⟨.truncated, p⟩ := by
  obtain ⟨rest, hrest⟩ : ∃ rest, chunksMax c.m = chunks.length + (rest + 1) :=
    ⟨chunksMax c.m - chunks.length - 1, by omega⟩
  rw [BitStream.holdsCode_append, Coder.length_sym] at hc
  obtain ⟨hhead, hchunks⟩ := hc
  rw [List.length_append, Coder.length_sym, ← Nat.add_assoc] at hcut
  rw [decodeOp_of_refHead hr hhead h2 hn, hrest, offsetLoop_of_smallChunks hlt hchunks ho, offsetLoop, if_pos hcut]
  rfl

end

end Sys2Proof

namespace Sys2Proof.Machine

/-! ### The commands, once the start checks hold (60_exceptions.md R139) -/

theorem setRes3_frame (s : State) (v : Nat) : s.changesOnly [.res3] (s.setRes3 v) := by
  intro p hp
  cases p with
  | res3 => exact absurd (by decide) hp
  | _ => rfl

theorem setOpResults_frame (s : State) (q : Nat) (op : Op) :
    s.changesOnly [.res0, .res1, .res2, .res3] (s.setOpResults q op) := by
  cases op with
  | imm n b | ref n o =>
    exact ((((setRes0_frame _ _).mono (by decide)).trans ((setRes1_frame _ _).mono (by decide))).trans
      ((setRes2_frame _ _).mono (by decide))).trans ((setRes3_frame _ _).mono (by decide))

theorem opPutOverflows_imm_iff {l u v : Nat} : opPutOverflows l 0 u v = true ↔ u = 0 ∨ sizeMax l < u ∨ 255 < v := by
  simp [opPutOverflows, or_assoc]

theorem opPutOverflows_ref_iff {l u v : Nat} : opPutOverflows l 1 u v = true ↔ u < 2 ∨ sizeMax l < u := by
  simp [opPutOverflows]

section

variable {s : State}

theorem exec_glzOpPut (hok : s.opsOk = true) : exec .glzOpPut s = .next (glzOpPut s.start).close :=
  exec_of_guarded (ok := State.opsOk) rfl hok

theorem exec_glzOpGet (hok : s.opsOk = true) : exec .glzOpGet s = .next (glzOpGet s.start).close :=
  exec_of_guarded (ok := State.opsOk) rfl hok

theorem glzOpPut_of_badKind (hok : s.opsOk = true) (hkind : 2 ≤ s.arg0) : endsInError .glzOpPut s .config 0 [] :=
  endsInError_of_raised_at_start (exec_glzOpPut hok) (by simp [glzOpPut, hkind])

theorem glzOpPut_of_overflow (hok : s.opsOk = true) (hkind : s.arg0 < 2)
    (hover : opPutOverflows s.coder.l s.arg0 s.arg1 s.arg2 = true) :
    endsInError .glzOpPut s .overflow s.streamLen.toNat [] :=
  endsInError_of_raised_at_start (exec_glzOpPut hok) (by simp [glzOpPut, Nat.not_le.2 hkind, hover])

/-- The code of a legal operation that does not fit is not written (43_glz_ops.md R104). -/
theorem glzOpPut_of_full (hok : s.opsOk = true) (hkind : s.arg0 < 2)
    (hfits : opPutOverflows s.coder.l s.arg0 s.arg1 s.arg2 = false)
    (hfull : s.cap.bitmemBits.toNat <
      s.streamLen.toNat + (encodeOp s.coder (opOfArgs s.arg0 s.arg1 s.arg2)).length) :
    endsInError .glzOpPut s .capacity s.streamLen.toNat [] := by
  rw [length_encodeOp] at hfull
  exact endsInError_of_raised_at_start (exec_glzOpPut hok) (by simp [glzOpPut, Nat.not_le.2 hkind, hfits, hfull])

/-- The code of a legal operation that fits is appended, and its length reported (43_glz_ops.md R104). -/
theorem glzOpPut_of_space (hok : s.opsOk = true) (hkind : s.arg0 < 2)
    (hfits : opPutOverflows s.coder.l s.arg0 s.arg1 s.arg2 = false)
    (hspace : s.streamLen.toNat + (encodeOp s.coder (opOfArgs s.arg0 s.arg1 s.arg2)).length ≤
      s.cap.bitmemBits.toNat) :
    endsNormally .glzOpPut s [.res0, .res1, .streamLen, .bitmem] fun t =>
      s.Appended (encodeOp s.coder (opOfArgs s.arg0 s.arg1 s.arg2)) t ∧
      t.res.r1.toNat = (encodeOp s.coder (opOfArgs s.arg0 s.arg1 s.arg2)).length := by
  refine endsNormally_of_putCode (exec_glzOpPut hok) ?_ hspace
  rw [length_encodeOp] at hspace ⊢
  simp [glzOpPut, Nat.not_le.2 hkind, hfits, Nat.not_lt.2 hspace]

/-- An error of `decode_op` is the command's own (43_glz_ops.md R105). -/
theorem glzOpGet_of_error {code : ErrCode} {pos : Nat} (hok : s.opsOk = true)
    (h : decodeOp s.coder s.stream s.arg0 = .error ⟨code, pos⟩) : endsInError .glzOpGet s code pos [] :=
  endsInError_of_raised_at_start (exec_glzOpGet hok) (by simp [glzOpGet, h])

/-- The operation that `decode_op` finds is put into the result registers (43_glz_ops.md R105). -/
theorem glzOpGet_of_ok {op : Op} {q : Nat} (hok : s.opsOk = true)
    (h : decodeOp s.coder s.stream s.arg0 = .ok (op, q)) :
    endsNormally .glzOpGet s [.res0, .res1, .res2, .res3] fun t => t.res = (s.start.setOpResults q op).res :=
  endsNormally_of_done (exec_glzOpGet hok) (by simp [glzOpGet, h]) (setOpResults_frame _ _ _) (by decide) rfl

/-- A legal count or size fits a register under any CFG_L (10_state.md R23, 43_glz_ops.md R98). -/
theorem toNat_ofNat_of_le_sizeMax {n : Nat} (hn : n ≤ sizeMax s.coder.l) : (BitVec.ofNat 32 n).toNat = n := by
  have hl : s.coder.l < 2 ^ 5 := s.cfg.l.isLt
  have hpow : 2 ^ s.coder.l ≤ 2 ^ 31 := Nat.pow_le_pow_right (by decide) (by omega)
  have hsize : sizeMax s.coder.l = 2 ^ s.coder.l + 1 := rfl
  exact Nat.mod_eq_of_lt (by omega)

/-- A position up to STREAM_LEN fits a register (10_state.md R25). -/
theorem toNat_ofNat_of_le_streamLen {q : Nat} (hq : q ≤ s.streamLen.toNat) : (BitVec.ofNat 32 q).toNat = q :=
  Nat.mod_eq_of_lt (lt_of_le_of_lt hq s.streamLen.isLt)

end

/-! ### The statements -/

/-- Settles O28: each check raises before the first write, and past them the operation's code is appended. -/
theorem glzOpPutAppendsOperation : Obligations.GlzOpPutAppendsOperation := by
  refine ⟨(Laws.CommandWord.glzOpPut _ rfl).2, fun s hok => ?_⟩
  dsimp only
  split
  next hkind => exact glzOpPut_of_badKind hok hkind
  rename_i hkind
  have hlt : s.arg0 < 2 := Nat.lt_of_not_le hkind
  split
  next himm =>
    obtain ⟨h0, hover⟩ := himm
    exact glzOpPut_of_overflow hok hlt (h0 ▸ opPutOverflows_imm_iff.2 hover)
  rename_i himm
  split
  next href =>
    obtain ⟨h1, hover⟩ := href
    exact glzOpPut_of_overflow hok hlt (h1 ▸ opPutOverflows_ref_iff.2 hover)
  rename_i href
  have hfits : opPutOverflows s.coder.l s.arg0 s.arg1 s.arg2 = false := by
    rw [Bool.eq_false_iff]
    intro hover
    rcases (show s.arg0 = 0 ∨ s.arg0 = 1 by omega) with h0 | h1
    · rw [h0, opPutOverflows_imm_iff] at hover
      exact himm ⟨h0, hover⟩
    · rw [h1, opPutOverflows_ref_iff] at hover
      exact href ⟨h1, hover⟩
  rw [← opOfArgs]
  split
  next hfull => exact glzOpPut_of_full hok hlt hfits hfull
  next hspace =>
    exact (glzOpPut_of_space hok hlt hfits (Nat.le_of_not_lt hspace)).mono fun t ⟨happended, hr1⟩ =>
      ⟨happended.position, hr1, happended.streamLen, happended.holdsCode, happended.kept⟩

/-- Settles O29: `decode_op`'s answer is the command's own, and a cut stream raises in the read that meets its end. -/
theorem glzOpGetReturnsOperation : Obligations.GlzOpGetReturnsOperation := by
  refine ⟨(Laws.CommandWord.glzOpGet _ rfl).2, fun s hok => ?_, fun s hok hr => ?_⟩
  · split
    next why hd =>
      obtain ⟨code, pos⟩ := why
      obtain ⟨rfl, -⟩ := decodeOp_error hd
      exact ⟨rfl, glzOpGet_of_error hok hd⟩
    next n b q hd =>
      obtain ⟨hop, -, hq⟩ := decodedOperationIsLegal _ _ _ _ _ hd
      refine (glzOpGet_of_ok hok hd).mono fun t ht => ?_
      rw [ht]
      exact ⟨rfl, toNat_ofNat_of_le_sizeMax (Op.wf_imm_iff.1 hop).2,
        Nat.mod_eq_of_lt (lt_trans b.isLt (by decide)), toNat_ofNat_of_le_streamLen hq⟩
    next n o q hd =>
      obtain ⟨hop, -, hq⟩ := decodedOperationIsLegal _ _ _ _ _ hd
      refine (glzOpGet_of_ok hok hd).mono fun t ht => ?_
      rw [ht]
      exact ⟨rfl, toNat_ofNat_of_le_sizeMax (Op.wf_ref_iff.1 hop).2, BitVec.ofNat_toNat _ _,
        toNat_ofNat_of_le_streamLen hq⟩
  · have hcap : ∀ x, 0 < x → 0 < s.coder.remap.threshold x := fun x hx => lt_of_lt_of_le hx (hr.le_threshold x)
    refine ⟨raises_of_cut_code (hcap _ (by unfold headSpace; positivity)) fun code hread =>
        glzOpGet_of_error hok (decodeOp_of_headError hread),
      fun n h2 hn hc => raises_of_cut_code (hcap _ (by decide)) fun code hread =>
        glzOpGet_of_error hok (decodeOp_of_byteError hr h2 hn hc hread),
      fun n chunks h2 hn hlt hlen ho hc hcut => ?_⟩
    exact glzOpGet_of_error hok (decodeOp_of_cutChunk hr h2 hn hlt hlen ho hc hcut)

end Sys2Proof.Machine
end

section
/-! What an encode emits: the operation that one pass of the scan picks, and what holds at the end of an encode because every emission keeps it (44_glz_encode.md R108 to R111). -/

namespace Sys2Proof.Machine

/-! ### Operations in stream order -/

/-- The bytes an operation makes (43_glz_ops.md R98). -/
def Op.size : Op → Nat
  | .imm n _ => n
  | .ref n _ => n

/-- The code of a sequence of operations, in stream order (44_glz_encode.md R110). -/
def opsCode (c : Coder) (ops : List Op) : List Bool := ops.flatMap (encodeOp c)

@[simp] theorem opsCode_nil (c : Coder) : opsCode c [] = [] := rfl

@[simp] theorem opsCode_cons (c : Coder) (op : Op) (ops : List Op) :
    opsCode c (op :: ops) = encodeOp c op ++ opsCode c ops := rfl

@[simp] theorem opsCode_append (c : Coder) (ops ops' : List Op) :
    opsCode c (ops ++ ops') = opsCode c ops ++ opsCode c ops' := List.flatMap_append

/-- EL in stream order: the operation emitted last comes first (44_glz_encode.md R110). -/
def Encoder.ops (x : Encoder) : List Op := x.el.reverse

@[simp] theorem Encoder.ops_idle : Encoder.idle.ops = [] := rfl

@[simp] theorem Encoder.ops_push (x : Encoder) (c : Coder) (op : Op) : (x.push c op).ops = op :: x.ops := by
  simp [Encoder.ops]

theorem Encoder.stream_eq_opsCode (x : Encoder) (c : Coder) : x.stream c = opsCode c x.ops := rfl

/-! ### One pass of the scan -/

/-- The operation that a pass of the scan at q > 0 emits (44_glz_encode.md R109). -/
def Encoder.picked (x : Encoder) (c : Coder) (mem : Memory 8) (base : Nat) : Op :=
  let b := mem.read (base + x.q - 1)
  let n := trailingRun mem base x.q b (min (sizeMax c.l) x.q - 1) 1
  match if x.f then none else findRef mem base x (min (sizeMax c.l) x.q - 1) with
  | some (m, o) =>
    if c.opLen (.ref m (BitVec.ofNat 32 o)) * n < c.opLen (.imm n b) * m then .ref m (BitVec.ofNat 32 o)
    else .imm n b
  | none => .imm n b

/-- What the pass makes of the scan's registers and of the dictionary, once the operation is emitted (44_glz_encode.md R109). -/
def Encoder.advanced (x : Encoder) (l base : Nat) : Op → Encoder
  | .imm n _ => { x with
      q := x.q - n, f := false, dict := appendAnchor l x.dict ⟨base + (x.q - n), base + x.r, x.w⟩ }
  | .ref n _ => { x with q := x.q - n, r := x.q - n, f := true }

@[simp] theorem Encoder.advanced_el (x : Encoder) (l base : Nat) (op : Op) : (x.advanced l base op).el = x.el := by
  cases op <;> rfl
@[simp] theorem Encoder.advanced_ops (x : Encoder) (l base : Nat) (op : Op) : (x.advanced l base op).ops = x.ops := by
  cases op <;> rfl
@[simp] theorem Encoder.advanced_w (x : Encoder) (l base : Nat) (op : Op) : (x.advanced l base op).w = x.w := by
  cases op <;> rfl
@[simp] theorem Encoder.advanced_q (x : Encoder) (l base : Nat) (op : Op) :
    (x.advanced l base op).q = x.q - op.size := by cases op <;> rfl

/-- Everything a pass of the scan does: it emits the operation it picks, and moves on (44_glz_encode.md R109). -/
theorem scanStep_eq (env : EncodeEnv) (base : Nat) (x : EncodeRun) :
    let op := x.enc.picked env.coder env.mem base
    scanStep env base x =
      (emit env x op).map fun y => { y with enc := y.enc.advanced env.coder.l base op } := by
  have himm : ∀ n b, takeImm env base x n b =
      (emit env x (.imm n b)).map fun y => { y with enc := y.enc.advanced env.coder.l base (.imm n b) } := by
    intro n b
    unfold takeImm
    cases emit env x (.imm n b) <;> rfl
  have href : ∀ n o, takeRef env x n o = (emit env x (.ref n (BitVec.ofNat 32 o))).map fun y =>
      { y with enc := y.enc.advanced env.coder.l base (.ref n (BitVec.ofNat 32 o)) } := by
    intro n o
    unfold takeRef
    cases emit env x (.ref n (BitVec.ofNat 32 o)) <;> rfl
  simp only [scanStep, Encoder.picked]
  generalize (if x.enc.f then none else findRef env.mem base x.enc _) = found
  rcases found with _ | ⟨n, o⟩
  · exact himm _ _
  · dsimp only
    split
    · exact href _ _
    · exact himm _ _

theorem scanStep_ok {env : EncodeEnv} {base : Nat} {x y : EncodeRun} (h : scanStep env base x = .ok y) :
    let op := x.enc.picked env.coder env.mem base
    ∃ z, emit env x op = .ok z ∧ y = { z with enc := z.enc.advanced env.coder.l base op } := by
  rw [scanStep_eq] at h
  cases hz : emit env x (x.enc.picked env.coder env.mem base) with
  | error why => simp [hz, Except.map] at h
  | ok z => exact ⟨z, hz, by simpa [hz, Except.map, eq_comm] using h⟩

/-! ### What a pass can pick -/

/-- What the picked operation is made of (44_glz_encode.md R109): a run that ends at the scan position, or a reference to the first bytes of an anchor's range, which costs less for each byte than some immediate. -/
inductive Encoder.Candidate (x : Encoder) (c : Coder) (mem : Memory 8) (base : Nat) : Op → Prop
  | imm {n : Nat} {b : Byte} (pos : 1 ≤ n) (legal : n ≤ sizeMax c.l) (left : n ≤ x.q)
      (bytes : ∀ j < n, mem.read (base + x.q - 1 - j) = b) : x.Candidate c mem base (.imm n b)
  | ref {n k : Nat} {o : Word} {an : Anchor} {b : Byte} (two : 2 ≤ n) (legal : n ≤ sizeMax c.l) (left : n ≤ x.q)
      (anchor : an ∈ x.dict) (offset : o.toNat = x.w - an.w) (fits : n ≤ an.lim - an.a)
      (bytes : ∀ j < n, mem.read (an.a + j) = mem.read (base + x.q - n + j))
      (pos : 1 ≤ k) (run : k ≤ sizeMax c.l) (cheaper : c.opLen (.ref n o) * k < c.opLen (.imm k b) * n) :
      x.Candidate c mem base (.ref n o)

theorem Encoder.picked_candidate {x : Encoder} (c : Coder) (mem : Memory 8) (base : Nat) (hq : 0 < x.q) :
    x.Candidate c mem base (x.picked c mem base) := by
  have hsize : 1 ≤ sizeMax c.l := Nat.le_add_left _ _
  obtain ⟨hpos, hcap, hrun⟩ := trailingRun_spec mem base x.q (mem.read (base + x.q - 1))
    (min (sizeMax c.l) x.q - 1) 1
  have himm : x.Candidate c mem base (.imm (trailingRun mem base x.q (mem.read (base + x.q - 1))
      (min (sizeMax c.l) x.q - 1) 1) (mem.read (base + x.q - 1))) := by
    refine .imm hpos (by omega) (by omega) fun j hj => ?_
    rcases Nat.eq_zero_or_pos j with rfl | hj0
    · rfl
    · exact hrun j hj0 hj
  dsimp only [Encoder.picked]
  split
  next m o hfound =>
    split
    next hlt =>
      have href : findRef mem base x (min (sizeMax c.l) x.q - 1) = some (m, o) := by
        by_cases hf : x.f = true
        · simp [hf] at hfound
        · simpa [hf] using hfound
      obtain ⟨htwo, htop, an, han, hserves, rfl⟩ := findRef_spec href
      obtain ⟨hfits, hoffset, hbytes⟩ := (an.serves_iff mem base x.q x.w m).1 hserves
      exact .ref htwo (by omega) (by omega) han (Nat.mod_eq_of_lt hoffset) hfits hbytes hpos (by omega) hlt
    next => exact himm
  next => exact himm

/-- A legal operation whose code takes no more bits than a bound on every head's code allows its bytes. -/
structure Op.Affordable (c : Coder) (op : Op) : Prop where
  legal : op.wf c.l = true
  budget : ∀ m, (∀ h < headSpace c.l, c.symLen h ≤ m) → c.opLen op ≤ m * op.size

/-- An immediate has one symbol for its byte, and a second one only when it makes two bytes or more. -/
theorem opLen_imm_le {c : Coder} {n m : Nat} (b : Byte) (hpos : 1 ≤ n) (hn : n ≤ sizeMax c.l)
    (hm : ∀ h < headSpace c.l, c.symLen h ≤ m) : c.opLen (.imm n b) ≤ m * n := by
  have hheads : headSpace c.l = 256 + 2 ^ c.l * 2 := rfl
  have hsize : sizeMax c.l = 2 ^ c.l + 1 := rfl
  have hb := hm b.toNat (by have := b.isLt; omega)
  rw [Coder.opLen]
  split
  next hone => rw [hone]; omega
  next hone =>
    have hh := hm (254 + n) (by omega)
    have htwo : m * 2 ≤ m * n := Nat.mul_le_mul_left m (by omega)
    omega

theorem Encoder.Candidate.affordable {x : Encoder} {c : Coder} {mem : Memory 8} {base : Nat} {op : Op}
    (h : x.Candidate c mem base op) : op.Affordable c := by
  cases h with
  | imm pos legal left bytes => exact ⟨by simp [Op.wf, pos, legal], fun m hm => opLen_imm_le _ pos legal hm⟩
  | @ref n k o an b two legal left anchor offset fits bytes pos run cheaper =>
    refine ⟨by simp [Op.wf, refSizeOk, two, legal], fun m hm => ?_⟩
    have himm : c.opLen (.imm k b) * n ≤ m * k * n := Nat.mul_le_mul_right n (opLen_imm_le b pos run hm)
    have hlt : c.opLen (.ref n o) * k < m * n * k := by
      calc _ < _ := cheaper
        _ ≤ m * k * n := himm
        _ = m * n * k := Nat.mul_right_comm m k n
    exact (Nat.lt_of_mul_lt_mul_right hlt).le

theorem Encoder.Candidate.size_le {x : Encoder} {c : Coder} {mem : Memory 8} {base : Nat} {op : Op}
    (h : x.Candidate c mem base op) : 1 ≤ op.size ∧ op.size ≤ x.q := by
  cases h with
  | imm pos legal left => exact ⟨pos, left⟩
  | ref two legal left => exact ⟨Nat.le_of_succ_le two, left⟩

/-! ### What every emission keeps, an encode keeps -/

/-- The answer is a value of which good holds, or an error of which bad holds. -/
def Yields {α : Type} (good : α → Prop) (bad : Raised → Prop) : Except Raised α → Prop
  | .ok a => good a
  | .error why => bad why

theorem Yields.of_ok {α : Type} {good : α → Prop} {bad : Raised → Prop} {r : Except Raised α} {a : α}
    (h : Yields good bad r) (hr : r = .ok a) : good a := by rwa [hr] at h

theorem Yields.of_error {α : Type} {good : α → Prop} {bad : Raised → Prop} {r : Except Raised α} {why : Raised}
    (h : Yields good bad r) (hr : r = .error why) : bad why := by rwa [hr] at h

/-- When no error can come, there is a value. -/
theorem Yields.exists_ok {α : Type} {good : α → Prop} {r : Except Raised α} (h : Yields good (fun _ => False) r) :
    ∃ a, r = .ok a ∧ good a := by
  cases r with
  | ok a => exact ⟨a, rfl, h⟩
  | error why => exact h.elim

/-- What an encode has emitted: EL, W, and the counters that a seed trains. -/
structure Emitted where
  el : List Op
  w : Nat
  hist : Hist

def EncodeRun.emitted (x : EncodeRun) : Emitted := ⟨x.enc.el, x.enc.w, x.hist⟩

/-- I holds of what is emitted while n bytes are left to encode: each emission of an operation keeps it, as the operation's bytes are no longer left, or raises an error of which bad holds. -/
structure KeptByEmission (env : EncodeEnv) (I : Nat → Emitted → Prop) (bad : Raised → Prop) : Prop where
  less : ∀ {n k e}, I (n + k) e → I n e
  emit : ∀ {n x op}, op.Affordable env.coder → I (n + op.size) x.emitted →
    Yields (fun y => I n y.emitted) bad (emit env x op)

section

variable {env : EncodeEnv} {I : Nat → Emitted → Prop} {bad : Raised → Prop} (hI : KeptByEmission env I bad)

include hI

theorem KeptByEmission.scanStep {base n : Nat} {x : EncodeRun} (hq : 0 < x.enc.q) (hx : I (n + x.enc.q) x.emitted) :
    Yields (fun y => y.enc.q < x.enc.q ∧ I (n + y.enc.q) y.emitted) bad (scanStep env base x) := by
  have hc := Encoder.picked_candidate env.coder env.mem base hq
  obtain ⟨hpos, hle⟩ := hc.size_le
  rw [scanStep_eq]
  generalize x.enc.picked env.coder env.mem base = op at *
  have he := hI.emit (n := n + (x.enc.q - op.size)) (x := x) hc.affordable
    (by rwa [Nat.add_assoc, Nat.sub_add_cancel hle])
  cases hr : Machine.emit env x op with
  | error why => exact he.of_error hr
  | ok y =>
    have hy : (y.enc.advanced env.coder.l base op).q = x.enc.q - op.size := by
      rw [Encoder.advanced_q, emit_enc hr, Encoder.push_q]
    refine ⟨by simp only [hy]; omega, ?_⟩
    rw [hy]
    simpa [EncodeRun.emitted] using he.of_ok hr

theorem KeptByEmission.encodeScan {base n : Nat} (fuel : Nat) {x : EncodeRun} (hfuel : x.enc.q ≤ fuel)
    (hx : I (n + x.enc.q) x.emitted) : Yields (fun y => I n y.emitted) bad (encodeScan env base fuel x) := by
  induction fuel generalizing x with
  | zero => exact hI.less hx
  | succ fuel ih =>
    unfold Machine.encodeScan
    split
    next => exact hI.less hx
    next hq =>
      have hstep := hI.scanStep (base := base) (Nat.pos_of_ne_zero hq) hx
      split
      next why hr => exact hstep.of_error hr
      next y hr =>
        obtain ⟨hlt, hy⟩ := hstep.of_ok hr
        exact ih (by omega) hy

theorem KeptByEmission.encodeSlices {n : Nat} {ds : List Slice} {ends : List (Slice × Nat)} {x : EncodeRun}
    (hx : I (n + (ds.map Slice.len).sum) x.emitted) :
    Yields (fun r => I n r.2.emitted) bad (encodeSlices env ds ends x) := by
  induction ds generalizing ends x with
  | nil => exact hx
  | cons d ds ih =>
    rw [List.map_cons, List.sum_cons, Nat.add_comm d.len, ← Nat.add_assoc] at hx
    unfold Machine.encodeSlices
    split
    next => exact ih (hI.less hx)
    next =>
      have hslice : Yields (fun y => I (n + (ds.map Slice.len).sum) y.emitted) bad (encodeSlice env d x) :=
        hI.encodeScan d.len (x := { x with enc := { x.enc with q := d.len, r := d.len, f := false } }) le_rfl hx
      split
      next why hr => exact hslice.of_error hr
      next y hr => exact ih (hslice.of_ok hr)

/-- What every emission keeps holds at the end of an encode that has enough for every byte of its slices (44_glz_encode.md R111). -/
theorem KeptByEmission.encodeAll {ds : List Slice} {h : Hist} (h0 : I (ds.map Slice.len).sum ⟨[], 0, h⟩) :
    Yields (fun r => I 0 r.2.emitted) bad (encodeAll env ds h) := by
  refine hI.encodeSlices ?_
  rwa [Nat.zero_add, ((sortBy_perm Slice.before ds).map Slice.len).sum_eq]

end

end Sys2Proof.Machine
end

section
/-! What the emitted operations stand for: from each slice's bit count on they spell the slice's bytes, a reference by bytes that immediates alone cover (44_glz_encode.md R107, R109 to R112). -/

namespace Sys2Proof.Machine

/-! ### Ranges of bytes -/

theorem Memory.readList_add {w : Nat} (m : Memory w) (a n k : Nat) :
    m.readList a (n + k) = m.readList a n ++ m.readList (a + n) k := by
  simp [Memory.readList, List.range_add, Function.comp_def, Nat.add_assoc]

theorem Memory.readList_congr {w : Nat} {m : Memory w} {a b n : Nat} (h : ∀ j < n, m.read (a + j) = m.read (b + j)) :
    m.readList a n = m.readList b n :=
  List.map_congr_left fun j hj => h j (List.mem_range.1 hj)

theorem Memory.take_readList {w : Nat} (m : Memory w) (a : Nat) {n k : Nat} (h : n ≤ k) :
    (m.readList a k).take n = m.readList a n := by
  obtain ⟨d, rfl⟩ := Nat.exists_eq_add_of_le h
  rw [Memory.readList_add, List.take_left' (m.length_readList a n)]

theorem Memory.readList_replicate {w : Nat} {m : Memory w} {a n : Nat} {v : BitVec w} (h : ∀ j < n, m.read (a + j) = v) :
    m.readList a n = List.replicate n v :=
  List.eq_replicate_iff.2 ⟨m.length_readList a n, by simpa [Memory.readList] using h⟩

/-! ### What operations spell -/

/-- The operations begin with immediates that make the bytes (44_glz_encode.md R107). -/
inductive OpenWith : List Op → List Byte → Prop
  | none (ops : List Op) : OpenWith ops []
  | imm {ops : List Op} {bs : List Byte} (n : Nat) (b : Byte) (rest : OpenWith ops bs) :
      OpenWith (.imm n b :: ops) (List.replicate n b ++ bs)

/-- What was emitted up to bit count w, in stream order, is good (44_glz_encode.md R110). -/
def EmittedBy (c : Coder) (ops : List Op) (w : Nat) (good : List Op → Prop) : Prop :=
  ∃ rest, rest <:+ ops ∧ (opsCode c rest).length = w ∧ good rest

/-- The operations spell the bytes: an immediate its run, a reference the first bytes of the immediates at its target (44_glz_encode.md R112). -/
inductive Spell (c : Coder) : List Op → List Byte → Prop
  | none (ops : List Op) : Spell c ops []
  | imm {ops : List Op} {bs : List Byte} (n : Nat) (b : Byte) (rest : Spell c ops bs) :
      Spell c (.imm n b :: ops) (List.replicate n b ++ bs)
  | ref {ops : List Op} {bs piece : List Byte} {n w : Nat} {o : Word} (fits : n ≤ piece.length)
      (offset : o.toNat + w = (opsCode c ops).length) (target : EmittedBy c ops w (OpenWith · piece))
      (rest : Spell c ops bs) : Spell c (.ref n o :: ops) (piece.take n ++ bs)

section

variable {c : Coder} {ops ops' : List Op} {w : Nat} {good : List Op → Prop}

/-- Everything emitted so far. -/
theorem EmittedBy.all (h : good ops) : EmittedBy c ops (opsCode c ops).length good :=
  ⟨ops, List.suffix_rfl, rfl, h⟩

/-- Later emissions stand earlier in the stream, so they leave what was emitted as it was (44_glz_encode.md R110). -/
theorem EmittedBy.mono (h : EmittedBy c ops w good) (hops : ops <:+ ops') : EmittedBy c ops' w good := by
  obtain ⟨rest, hrest, hlen, hgood⟩ := h
  exact ⟨rest, hrest.trans hops, hlen, hgood⟩

theorem EmittedBy.le (h : EmittedBy c ops w good) : w ≤ (opsCode c ops).length := by
  obtain ⟨rest, ⟨newer, rfl⟩, rfl, -⟩ := h
  rw [opsCode_append, List.length_append]
  omega

end

/-! ### The encoder's state -/

/-- The encoder's working state means what R107 and R108 say: W is the length of the code, every operation is legal, and every anchor's range is covered by immediates from its bit count on. -/
structure Encoder.Sound (x : Encoder) (c : Coder) (mem : Memory 8) : Prop where
  count : x.w = (opsCode c x.ops).length
  legal : ∀ op ∈ x.ops, op.wf c.l = true
  anchors : ∀ an ∈ x.dict, EmittedBy c x.ops an.w (OpenWith · (mem.readList an.a (an.lim - an.a)))

/-- Inside a slice of n bytes at base, the bytes from the scan position on are spelled, and those up to the limit R by immediates (44_glz_encode.md R109). -/
structure Encoder.Scanning (x : Encoder) (c : Coder) (mem : Memory 8) (base n : Nat) : Prop extends
    x.Sound c mem where
  position : x.q ≤ x.r
  limit : x.r ≤ n
  spelled : Spell c x.ops (mem.readList (base + x.q) (n - x.q))
  run : OpenWith x.ops (mem.readList (base + x.q) (x.r - x.q))

theorem Encoder.idle_sound (c : Coder) (mem : Memory 8) : Encoder.idle.Sound c mem where
  count := rfl
  legal := List.forall_mem_nil _
  anchors := List.forall_mem_nil _

/-- An operation that is emitted leaves the anchors as they were and counts its own length (44_glz_encode.md R108). -/
theorem Encoder.Sound.push {x : Encoder} {c : Coder} {mem : Memory 8} {op : Op} (h : x.Sound c mem)
    (hop : op.wf c.l = true) : (x.push c op).Sound c mem where
  count := by
    rw [Encoder.push_w, Encoder.ops_push, opsCode_cons, List.length_append, length_encodeOp, h.count, Nat.add_comm]
  legal := by
    rw [Encoder.ops_push]
    exact List.forall_mem_cons.2 ⟨hop, h.legal⟩
  anchors := fun an han => by
    rw [Encoder.ops_push]
    exact (h.anchors an han).mono (List.suffix_cons _ _)

/-- The bytes from an earlier scan position are those passed and those from the later position on. -/
theorem readList_passed (mem : Memory 8) {base q n len : Nat} (hn : n ≤ q) (hq : q ≤ len) :
    mem.readList (base + (q - n)) (len - (q - n)) =
      mem.readList (base + (q - n)) n ++ mem.readList (base + q) (len - q) := by
  rw [show len - (q - n) = n + (len - q) by omega, Memory.readList_add]
  congr 2
  omega

/-- A pass of the scan spells the bytes it passes (44_glz_encode.md R109, R112). -/
theorem Encoder.Scanning.advance {x : Encoder} {c : Coder} {mem : Memory 8} {base n : Nat} {op : Op}
    (h : x.Scanning c mem base n) (hop : x.Candidate c mem base op) :
    ((x.push c op).advanced c.l base op).Scanning c mem base n := by
  have hsound := h.toSound.push hop.affordable.legal
  have hposition := h.position
  have hlimit := h.limit
  cases hop with
  | @imm k b pos legal left bytes =>
    have hbytes : mem.readList (base + (x.q - k)) k = List.replicate k b :=
      Memory.readList_replicate fun j hj => by
        rw [← bytes (k - 1 - j) (by omega)]
        congr 1
        omega
    have hrun : OpenWith (.imm k b :: x.ops) (mem.readList (base + (x.q - k)) (x.r - (x.q - k))) := by
      rw [readList_passed mem left hposition, hbytes]
      exact .imm k b h.run
    refine ⟨⟨hsound.count, hsound.legal, fun an han => ?_⟩, ?_, hlimit, ?_, ?_⟩
    · rw [Encoder.advanced_ops]
      rcases mem_appendAnchor han with hold | rfl
      · exact hsound.anchors an hold
      · have hall := EmittedBy.all (c := c) (good := (OpenWith · (mem.readList (base + (x.q - k)) (x.r - (x.q - k))))) hrun
        rw [← Encoder.ops_push x c, ← hsound.count] at hall
        simpa [Nat.add_sub_add_left] using hall
    · exact Nat.le_trans (Nat.sub_le _ _) hposition
    · rw [Encoder.advanced_ops, Encoder.ops_push]
      change Spell c _ (mem.readList (base + (x.q - k)) (n - (x.q - k)))
      rw [readList_passed mem left (hposition.trans hlimit), hbytes]
      exact .imm k b h.spelled
    · rw [Encoder.advanced_ops, Encoder.ops_push]
      exact hrun
  | @ref k j o an b two legal left anchor offset fits bytes pos run cheaper =>
    have htarget := h.anchors an anchor
    have hbytes : mem.readList (base + (x.q - k)) k = (mem.readList an.a (an.lim - an.a)).take k := by
      rw [Memory.take_readList mem an.a fits]
      refine Memory.readList_congr fun j hj => ?_
      rw [bytes j hj]
      congr 1
      omega
    refine ⟨⟨hsound.count, hsound.legal, hsound.anchors⟩, le_rfl, ?_, ?_, ?_⟩
    · exact (Nat.sub_le _ _).trans (hposition.trans hlimit)
    · rw [Encoder.advanced_ops, Encoder.ops_push]
      change Spell c _ (mem.readList (base + (x.q - k)) (n - (x.q - k)))
      rw [readList_passed mem left (hposition.trans hlimit), hbytes]
      refine .ref (by simpa using fits) ?_ htarget h.spelled
      have hle := htarget.le
      rw [offset, h.count]
      omega
    · change OpenWith _ (mem.readList _ (x.q - k - (x.q - k)))
      rw [Nat.sub_self]
      exact .none _

/-! ### The scan and the slices -/

/-- The scan spells its slice and leaves what was emitted before in place (44_glz_encode.md R109). -/
theorem encodeScan_spells {env : EncodeEnv} {base n fuel : Nat} {x y : EncodeRun} (hfuel : x.enc.q ≤ fuel)
    (hx : x.enc.Scanning env.coder env.mem base n) (h : encodeScan env base fuel x = .ok y) :
    y.enc.Sound env.coder env.mem ∧ x.enc.ops <:+ y.enc.ops ∧ Spell env.coder y.enc.ops (env.mem.readList base n) := by
  have hend : ∀ {z : EncodeRun}, z.enc.Scanning env.coder env.mem base n → z.enc.q = 0 →
      Spell env.coder z.enc.ops (env.mem.readList base n) := fun hz hq => by simpa [hq] using hz.spelled
  induction fuel generalizing x with
  | zero =>
    obtain rfl := Except.ok.inj h
    exact ⟨hx.toSound, List.suffix_rfl, hend hx (Nat.le_zero.1 hfuel)⟩
  | succ fuel ih =>
    simp only [encodeScan] at h
    split at h
    next hq =>
      obtain rfl := Except.ok.inj h
      exact ⟨hx.toSound, List.suffix_rfl, hend hx hq⟩
    next hq =>
      have hpos := Nat.pos_of_ne_zero hq
      have hop := Encoder.picked_candidate env.coder env.mem base hpos
      split at h
      · simp at h
      next z hz =>
        have hlt := scanStep_lowers hpos hz
        obtain ⟨u, hu, rfl⟩ := scanStep_ok hz
        rw [emit_enc hu] at h hlt
        obtain ⟨hsound, hsuffix, hspell⟩ := ih (by omega) (hx.advance hop) h
        refine ⟨hsound, List.IsSuffix.trans ?_ hsuffix, hspell⟩
        rw [Encoder.advanced_ops, Encoder.ops_push]
        exact List.suffix_cons _ _

/-- The bytes of a slice (44_glz_encode.md R111). -/
def Slice.content (d : Slice) (mem : Memory 8) : List Byte := mem.readList d.addr d.len

/-- The encode of one slice spells it (44_glz_encode.md R109). -/
theorem encodeSlice_spells {env : EncodeEnv} {d : Slice} {x y : EncodeRun} (hx : x.enc.Sound env.coder env.mem)
    (h : encodeSlice env d x = .ok y) :
    y.enc.Sound env.coder env.mem ∧ x.enc.ops <:+ y.enc.ops ∧ Spell env.coder y.enc.ops (d.content env.mem) := by
  refine encodeScan_spells (x := { x with enc := { x.enc with q := d.len, r := d.len, f := false } }) le_rfl
    ⟨⟨hx.count, hx.legal, hx.anchors⟩, le_rfl, le_rfl, ?_, ?_⟩ h
  · simpa [Memory.readList] using Spell.none _
  · simpa [Memory.readList] using OpenWith.none _

/-- Slices are found byte-identical exactly when their bytes are equal (44_glz_encode.md R111). -/
theorem sameBytes_iff {mem : Memory 8} {e d : Slice} :
    (decide (e.len = d.len) && bytesEqual mem e.addr d.addr d.len) = true ↔ e.content mem = d.content mem := by
  rw [Bool.and_eq_true, decide_eq_true_eq, bytesEqual_iff]
  constructor
  · rintro ⟨hlen, hbytes⟩
    rw [Slice.content, Slice.content, hlen]
    exact Memory.readList_congr hbytes
  · intro h
    have hlen : e.len = d.len := by simpa [Slice.content] using congrArg List.length h
    refine ⟨hlen, fun j hj => ?_⟩
    have hj' := congrArg (·[j]?) h
    simpa [Slice.content, Memory.readList, hlen, hj] using hj'

/-- The end counts recorded so far: from each on the slice's bytes are spelled, and equal bytes have equal counts (44_glz_encode.md R111, R114). -/
structure EndsSound (env : EncodeEnv) (ends : List (Slice × Nat)) (x : Encoder) : Prop where
  encoder : x.Sound env.coder env.mem
  spelled : ∀ e ∈ ends, EmittedBy env.coder x.ops e.2 (Spell env.coder · (e.1.content env.mem))
  shared : ∀ e ∈ ends, ∀ e' ∈ ends, e.1.content env.mem = e'.1.content env.mem → e.2 = e'.2

/-- One more end count is sound when it serves its slice and is that of every earlier slice of the same bytes. -/
theorem EndsSound.snoc {env : EncodeEnv} {ends : List (Slice × Nat)} {x y : Encoder} {d : Slice} {w : Nat}
    (h : EndsSound env ends x) (hy : y.Sound env.coder env.mem) (hops : x.ops <:+ y.ops)
    (hd : EmittedBy env.coder y.ops w (Spell env.coder · (d.content env.mem)))
    (hsame : ∀ e ∈ ends, e.1.content env.mem = d.content env.mem → e.2 = w) :
    EndsSound env (ends ++ [(d, w)]) y where
  encoder := hy
  spelled := by
    rw [List.forall_mem_append, List.forall_mem_singleton]
    exact ⟨fun e he => (h.spelled e he).mono hops, hd⟩
  shared := by
    intro e he e' he' heq
    rw [List.mem_append, List.mem_singleton] at he he'
    rcases he with he | rfl <;> rcases he' with he' | rfl
    · exact h.shared e he e' he' heq
    · exact hsame e he heq
    · exact (hsame e' he' heq.symm).symm
    · rfl

theorem encodeSlices_sound {env : EncodeEnv} {ds : List Slice} {ends ends' : List (Slice × Nat)} {x y : EncodeRun}
    (hx : EndsSound env ends x.enc) (h : encodeSlices env ds ends x = .ok (ends', y)) :
    EndsSound env ends' y.enc ∧ ends'.map Prod.fst = ends.map Prod.fst ++ ds := by
  induction ds generalizing ends x with
  | nil =>
    obtain ⟨rfl, rfl⟩ := Prod.mk.inj (Except.ok.inj h)
    exact ⟨hx, (List.append_nil _).symm⟩
  | cons d ds ih =>
    have hnext : ∀ {w : Nat} {z : EncodeRun}, EndsSound env (ends ++ [(d, w)]) z.enc →
        encodeSlices env ds (ends ++ [(d, w)]) z = .ok (ends', y) →
        EndsSound env ends' y.enc ∧ ends'.map Prod.fst = ends.map Prod.fst ++ d :: ds := fun hz hr => by
      simpa using ih hz hr
    simp only [encodeSlices] at h
    split at h
    next e he =>
      have hmem := List.mem_of_find?_eq_some he
      have hfound := List.find?_some he
      have heq : e.1.content env.mem = d.content env.mem := sameBytes_iff.1 hfound
      refine hnext (hx.snoc hx.encoder List.suffix_rfl (heq ▸ hx.spelled e hmem) fun e' he' heq' => ?_) h
      exact hx.shared e' he' e hmem (heq'.trans heq.symm)
    next hnone =>
      split at h
      · simp at h
      next z hz =>
        obtain ⟨hsound, hops, hspell⟩ := encodeSlice_spells hx.encoder hz
        refine hnext (hx.snoc hsound hops ?_ fun e he heq => ?_) h
        · rw [hsound.count]
          exact .all hspell
        · exact absurd (sameBytes_iff.2 heq) (List.find?_eq_none.1 hnone e he)

/-- What a finished encode leaves: every slice, in the order of encoding, with the bit count from which its bytes are spelled (44_glz_encode.md R111, R114). -/
theorem encodeAll_sound {env : EncodeEnv} {ds : List Slice} {h0 : Hist} {ends : List (Slice × Nat)} {y : EncodeRun}
    (h : encodeAll env ds h0 = .ok (ends, y)) :
    EndsSound env ends y.enc ∧ ends.map Prod.fst = sortBy Slice.before ds :=
  encodeSlices_sound (x := ⟨Encoder.idle, h0⟩)
    ⟨Encoder.idle_sound _ _, List.forall_mem_nil _, List.forall_mem_nil _⟩ h

end Sys2Proof.Machine
end

section
/-! GLZ_DECODE_AT on operations that spell bytes writes those bytes, within the cycle cap and with at most one frame (44_glz_encode.md R113, 45_glz_decode.md R117, R118). -/

namespace Sys2Proof.Machine

/-! ### Ranges written -/

theorem Memory.writeList_append {w : Nat} (m : Memory w) (a : Nat) (vs ws : List (BitVec w)) :
    m.writeList a (vs ++ ws) = (m.writeList a vs).writeList (a + vs.length) ws := by
  induction vs generalizing m a with
  | nil => rfl
  | cons v vs ih =>
    rw [List.cons_append, Memory.writeList, Memory.writeList, ih, List.length_cons, Nat.add_right_comm, Nat.add_assoc]

theorem Memory.readList_of_writeList {w : Nat} {m m' : Memory w} {a : Nat} {vs : List (BitVec w)}
    (h : ∀ b, m.read b = (m'.writeList a vs).read b) : m.readList a vs.length = vs := by
  refine List.ext_getElem (m.length_readList a vs.length) fun i hi hi' => ?_
  rw [Memory.getElem_readList, h, Memory.read_writeList, dif_pos ⟨Nat.le_add_right a i, by omega⟩]
  congr 1
  omega

/-! ### Cycles from one state to another -/

/-- The stream depends on BITMEM and STREAM_LEN alone (10_state.md R25). -/
theorem State.changesOnly.stream {s t : State} {ps : List Part} (h : s.changesOnly ps t)
    (hps : ∀ p ∈ [Part.bitmem, .streamLen], p ∉ ps) : t.stream = s.stream := by
  have hbits : t.bitmem = s.bitmem := h .bitmem (hps _ (by decide))
  have hlen : t.streamLen = s.streamLen := h .streamLen (hps _ (by decide))
  have hbit : t.bit = s.bit := funext fun p => by rw [State.bit, State.bit, hbits]
  rw [State.stream, State.stream, hbit, hlen]

/-- n cycles lead from s to t, but for the frame returns that the next fetch makes first. -/
def State.Reaches (s : State) (n : Nat) (t : State) : Prop :=
  t.dec.cycles = s.dec.cycles + n ∧ ∀ fuel, decodeLoop (fuel + 1 + n) s = decodeLoop (fuel + 1) t

theorem State.Reaches.refl (s : State) : s.Reaches 0 s := ⟨rfl, fun _ => rfl⟩

theorem State.Reaches.trans {s t u : State} {n m : Nat} (a : s.Reaches n t) (b : t.Reaches m u) :
    s.Reaches (n + m) u := by
  obtain ⟨ha, hs⟩ := a
  obtain ⟨hb, ht⟩ := b
  refine ⟨by omega, fun fuel => ?_⟩
  rw [← ht, show fuel + 1 + (n + m) = fuel + m + 1 + n by omega, hs]
  congr 1
  omega

theorem State.reaches_decodeCycle {s : State} (hr : s.dec.running = true)
    (hc : (decodeCycle s).dec.cycles = s.dec.cycles + 1) : s.Reaches 1 (decodeCycle s) :=
  ⟨hc, fun fuel => by rw [decodeLoop, if_pos hr]⟩

/-- The state after the finished frames have returned (45_glz_decode.md R117). -/
def State.returned (s : State) : State := { s with dec := Decoder.popFinished s.dec.d s.dec }

/-- Frame returns come first in every fetch, so making them before it changes nothing. -/
theorem decodeCycle_returned (s : State) : decodeCycle s.returned = decodeCycle s := by
  have hagain : Decoder.popFinished (Decoder.popFinished s.dec.d s.dec).d (Decoder.popFinished s.dec.d s.dec) =
      Decoder.popFinished s.dec.d s.dec := by
    rcases s.dec.popFinished_stops with howed | hd
    · exact Decoder.popFinished_of_owed howed _
    · rw [hd]; rfl
  have hfetch : fetchOp s.returned = fetchOp s := by
    unfold fetchOp
    dsimp only [State.returned]
    rw [hagain]
    rfl
  rw [decodeCycle, decodeCycle, hfetch]

theorem State.reaches_returned {s : State} (hr : s.dec.running = true) : s.Reaches 0 s.returned := by
  refine ⟨s.dec.popFinished_cycles s.dec.d, fun fuel => ?_⟩
  have hr' : s.returned.dec.running = true := (s.dec.popFinished_running s.dec.d).trans hr
  rw [Nat.add_zero, decodeLoop, decodeLoop, decodeCycle_returned, if_pos hr, if_pos hr']

/-! ### A decode in progress -/

/-- What GLZ_DECODE_AT needs of the state it starts from, its start checks apart: inverse tables, chunks of at least one bit, and its output range in BYTEMEM (45_glz_decode.md R122). -/
structure State.DecodeReady (u : State) : Prop where
  remap : u.remap.Sound
  chunk : 1 ≤ u.coder.m
  range : u.dec.out + u.dec.limit ≤ u.cap.bytememBytes.toNat

/-- In a GLZ_DECODE_AT entered at u, the bytes bs are written and r more are owed in the current frame. -/
structure State.Wrote (u : State) (bs : List Byte) (r : Nat) (s : State) : Prop where
  running : s.dec.running = true
  cmd : s.dec.cmd = .decodeAt
  out : s.dec.out = u.dec.out
  limit : s.dec.limit = u.dec.limit
  count : s.dec.k = bs.length
  owed : s.dec.rem = .bytes r
  frame : u.changesOnly [.bytemem, .dec] s
  bytes : ∀ a, s.bytemem.read a = (u.bytemem.writeList u.dec.out bs).read a

/-- A change of the decoder's other registers leaves what is written. -/
theorem State.Wrote.withDec {u s : State} {bs : List Byte} {r n : Nat} {x : Decoder} (h : u.Wrote bs r s)
    (running : x.running = s.dec.running) (cmd : x.cmd = s.dec.cmd) (out : x.out = s.dec.out)
    (limit : x.limit = s.dec.limit) (count : x.k = s.dec.k) (owed : x.rem = .bytes n) :
    u.Wrote bs n { s with dec := x } where
  running := running.trans h.running
  cmd := cmd.trans h.cmd
  out := out.trans h.out
  limit := limit.trans h.limit
  count := count.trans h.count
  owed := owed
  frame := h.frame.trans fun p hp => by
    cases p with
    | dec => exact absurd (by decide) hp
    | _ => rfl
  bytes := h.bytes

/-- The fetch of an operation that ends at q counts a cycle (45_glz_decode.md R117, R118). -/
def State.fetched (s : State) (q : Nat) : State := { s with dec := { s.dec with cycles := s.dec.cycles + 1, q := q } }

theorem State.Wrote.fetched {u s : State} {bs : List Byte} {r : Nat} (h : u.Wrote bs r s) (q : Nat) :
    u.Wrote bs r (s.fetched q) := h.withDec rfl rfl rfl rfl rfl h.owed

section

variable {u s : State} {bs : List Byte} {r n : Nat} (hu : u.DecodeReady) (h : u.Wrote bs r s) (hr : 0 < r)
  (hcycles : s.dec.cycles + 1 ≤ 2 * u.dec.limit)

include hu h hr hcycles

/-- A legal operation whose code lies at p is fetched and run (45_glz_decode.md R117, R118). -/
theorem State.Wrote.decodeCycle_eq {op : Op} (hop : op.wf u.coder.l = true)
    (hcode : u.stream.holdsCode s.dec.p (encodeOp u.coder op)) :
    decodeCycle s = runOp op (s.fetched (s.dec.p + u.coder.opLen op)) := by
  have hcoder : s.coder = u.coder := h.frame.coder (by decide)
  have hstream : s.stream = u.stream := h.frame.stream (by decide)
  have howed : s.dec.rem.isZero = false := by
    rw [h.owed]
    exact decide_eq_false hr.ne'
  have hfinished : s.dec.finished s.streamLen.toNat = false := by simp [Decoder.finished, h.cmd, howed]
  have hdecode := decodeOp_of_encodeOp hu.remap hu.chunk hop hcode
  rw [← hcoder, ← hstream] at hdecode
  rcases fetchOp_cases s with ⟨hend, -⟩ | ⟨-, hcap, -⟩ | ⟨-, -, why, hwhy, -⟩ | ⟨-, -, op', q, hq, hfetch⟩
  all_goals rw [Decoder.popFinished_of_owed howed] at *
  · exact absurd (hfinished.symm.trans hend) (by decide)
  · rw [h.limit] at hcap
    omega
  · exact absurd (hdecode.symm.trans hwhy) (by simp)
  · obtain ⟨rfl, rfl⟩ := Prod.mk.inj (Except.ok.inj (hdecode.symm.trans hq))
    rw [decodeCycle, hfetch, hcoder]
    rfl

/-- A cycle that runs an immediate writes its bytes, clipped to those owed (45_glz_decode.md R117). -/
theorem State.Wrote.immediate {b : Byte} (hroom : bs.length + r ≤ u.dec.limit)
    (hop : (Op.imm n b).wf u.coder.l = true)
    (hcode : u.stream.holdsCode s.dec.p (encodeOp u.coder (.imm n b))) :
    ∃ t, s.Reaches 1 t ∧ u.Wrote (bs ++ List.replicate (min n r) b) (r - n) t ∧
      t.dec.p = s.dec.p + u.coder.opLen (.imm n b) ∧ t.dec.d = s.dec.d ∧ t.dec.frame0 = s.dec.frame0 := by
  have hcycle := h.decodeCycle_eq hu hr hcycles hop hcode
  have hv := h.fetched (s.dec.p + u.coder.opLen (.imm n b))
  have hcap : (s.fetched (s.dec.p + u.coder.opLen (.imm n b))).cap = u.cap := hv.frame .cap (by decide)
  have hrange := hu.range
  rw [runOp_imm] at hcycle
  rcases runImmediate_cases n b (s.fetched (s.dec.p + u.coder.opLen (.imm n b))) with
    ⟨⟨hcmd, -⟩, -⟩ | ⟨-, hdec, hframe, hbytes⟩
  · exact absurd (hcmd.symm.trans hv.cmd) (by decide)
  rw [← hcycle, hv.owed] at hdec hbytes
  rw [← hcycle] at hframe
  refine ⟨_, State.reaches_decodeCycle h.running (by rw [hdec]; rfl), ⟨?_, ?_, ?_, ?_, ?_, ?_, ?_, ?_⟩, ?_, ?_, ?_⟩
  · rw [hdec]; exact hv.running
  · rw [hdec]; exact hv.cmd
  · rw [hdec]; exact hv.out
  · rw [hdec]; exact hv.limit
  · rw [hdec, List.length_append, List.length_replicate, ← hv.count]; rfl
  · rw [hdec]
    change Remaining.bytes (r - min n r) = .bytes (r - n)
    congr 1
    omega
  · exact hv.frame.trans hframe
  · intro a
    rw [hbytes, hv.out, hv.count, hcap, hv.bytes, Memory.writeList_append, Memory.read_writeList _ (_ + _),
      show Remaining.clip n (.bytes r) = min n r from rfl]
    simp only [List.length_replicate, List.getElem_replicate]
    by_cases hin : u.dec.out + bs.length ≤ a ∧ a < u.dec.out + bs.length + min n r
    · rw [if_pos ⟨hin.1, hin.2, by omega⟩, dif_pos ⟨hin.1, by omega⟩]
    · rw [if_neg (by omega), dif_neg (by omega)]
  · rw [hdec]; rfl
  · rw [hdec]; rfl
  · rw [hdec]; rfl

end

/-- Immediates write the bytes they make, down to the last one owed, and leave the frames alone (45_glz_decode.md R117). -/
theorem State.Wrote.openWith {u : State} (hu : u.DecodeReady) {ops : List Op} {piece : List Byte}
    (hops : OpenWith ops piece) (hlegal : ∀ op ∈ ops, op.wf u.coder.l = true) {s : State} {bs : List Byte} {r : Nat}
    (h : u.Wrote bs r s) (hr : r ≤ piece.length) (hroom : bs.length + r ≤ u.dec.limit)
    (hcycles : s.dec.cycles ≤ 2 * bs.length + 1) (hcode : u.stream.holdsCode s.dec.p (opsCode u.coder ops)) :
    ∃ t n, s.Reaches n t ∧ n ≤ r ∧ u.Wrote (bs ++ piece.take r) 0 t ∧ t.dec.d = s.dec.d ∧
      t.dec.frame0 = s.dec.frame0 := by
  rcases Nat.eq_zero_or_pos r with rfl | hpos
  · exact ⟨s, 0, .refl s, le_rfl, by simpa using h, rfl, rfl⟩
  induction hops generalizing s bs r with
  | none ops => exact absurd hr (Nat.not_le.2 hpos)
  | @imm ops piece n b hops ih =>
    obtain ⟨hop, hlegal⟩ := List.forall_mem_cons.1 hlegal
    have hn := (Op.wf_imm_iff.1 hop).1
    rw [opsCode_cons, BitStream.holdsCode_append, length_encodeOp] at hcode
    obtain ⟨hhead, hrest⟩ := hcode
    rw [List.length_append, List.length_replicate] at hr
    obtain ⟨t, hst, ht, hp, hd, hframe⟩ := h.immediate hu hpos (by omega) hroom hop hhead
    have hbytes : bs ++ (List.replicate n b ++ piece).take r =
        bs ++ List.replicate (min n r) b ++ piece.take (r - n) := by
      rw [List.take_append, List.take_replicate, List.length_replicate, Nat.min_comm, List.append_assoc]
    rw [hbytes]
    rcases Nat.eq_zero_or_pos (r - n) with hzero | hleft
    · exact ⟨t, 1, hst, hpos, by simpa [hzero] using ht, hd, hframe⟩
    · have hcycles' := hst.1
      obtain ⟨v, k, htv, hk, hv, hd', hframe'⟩ := ih hlegal ht (by omega) (by simp; omega)
        (by simp; omega) (hp ▸ hrest) hleft
      exact ⟨v, 1 + k, hst.trans htv, by omega, hv, hd'.trans hd, hframe'.trans hframe⟩

section

variable {u s : State} {bs : List Byte} {r n : Nat} {o : Word} (hu : u.DecodeReady)
  (hcycles : s.dec.cycles + 1 ≤ 2 * u.dec.limit) (hop : (Op.ref n o).wf u.coder.l = true)
  (hcode : u.stream.holdsCode s.dec.p (encodeOp u.coder (.ref n o)))

include hu hcycles hop hcode

/-- A reference to all the bytes owed moves p to its target (45_glz_decode.md R119). -/
theorem State.Wrote.tailReference (h : u.Wrote bs n s) :
    ∃ t, s.Reaches 1 t ∧ u.Wrote bs n t ∧ t.dec.p = s.dec.p + u.coder.opLen (.ref n o) + o.toNat ∧
      t.dec.d = s.dec.d := by
  have htwo := (Op.wf_ref_iff.1 hop).1
  have hcycle := h.decodeCycle_eq hu (by omega) hcycles hop hcode
  have hv := h.fetched (s.dec.p + u.coder.opLen (.ref n o))
  rw [runOp_ref] at hcycle
  rcases runReference_cases n o (s.fetched (s.dec.p + u.coder.opLen (.ref n o))) with
    ⟨-, hrun⟩ | ⟨hcovered, -⟩ | ⟨hcovered, -⟩
  · rw [hrun] at hcycle
    refine ⟨_, State.reaches_decodeCycle h.running (by rw [hcycle]; rfl), ?_, ?_, ?_⟩ <;> rw [hcycle]
    · exact hv.withDec rfl rfl rfl rfl rfl hv.owed
    · rfl
    · rfl
  all_goals
    rw [hv.owed] at hcovered
    simp [Remaining.coveredBy] at hcovered

/-- Any other reference at the top level saves its return in the first frame (45_glz_decode.md R117). -/
theorem State.Wrote.savedReference (h : u.Wrote bs (n + r) s) (hr : 0 < r) (hd : s.dec.d = 0) :
    ∃ t, s.Reaches 1 t ∧ u.Wrote bs n t ∧ t.dec.p = s.dec.p + u.coder.opLen (.ref n o) + o.toNat ∧
      t.dec.d = 1 ∧ t.dec.frame0 = ⟨s.dec.p + u.coder.opLen (.ref n o), .bytes r⟩ := by
  have hcycle := h.decodeCycle_eq hu (by omega) hcycles hop hcode
  have hv := h.fetched (s.dec.p + u.coder.opLen (.ref n o))
  rw [runOp_ref] at hcycle
  rcases runReference_cases n o (s.fetched (s.dec.p + u.coder.opLen (.ref n o))) with
    ⟨hcovered, -⟩ | ⟨-, htwo, -⟩ | ⟨-, -, hrun⟩
  · rw [hv.owed] at hcovered
    simp [Remaining.coveredBy] at hcovered
    omega
  · change 2 ≤ s.dec.d at htwo
    omega
  · rw [hrun, hv.owed] at hcycle
    refine ⟨_, State.reaches_decodeCycle h.running (by rw [hcycle]; simp [State.fetched]), ?_, ?_, ?_, ?_⟩ <;>
      rw [hcycle]
    · exact hv.withDec (by simp) (by simp) (by simp) (by simp) (by simp) rfl
    · rfl
    · simp [State.fetched, hd]
    · simp [State.fetched, Decoder.push, hd, Remaining.less]

end

/-- The return of the first frame, when its bytes are written (45_glz_decode.md R117). -/
theorem State.Wrote.returned {u s : State} {bs : List Byte} {r q : Nat} (h : u.Wrote bs 0 s) (hd : s.dec.d = 1)
    (hframe : s.dec.frame0 = ⟨q, .bytes r⟩) :
    s.Reaches 0 s.returned ∧ u.Wrote bs r s.returned ∧ s.returned.dec.p = q ∧ s.returned.dec.d = 0 := by
  have hpop : Decoder.popFinished s.dec.d s.dec = s.dec.pop := by
    simp [hd, Decoder.popFinished, h.owed, Remaining.isZero]
  have hreturn : s.returned = { s with dec := s.dec.pop } := by rw [State.returned, hpop]
  have htop : s.dec.frame (s.dec.d - 1) = ⟨q, .bytes r⟩ := by simp [hd, Decoder.frame, hframe]
  refine ⟨State.reaches_returned h.running, ?_, ?_, ?_⟩ <;> rw [hreturn]
  · exact h.withDec rfl rfl rfl rfl rfl (congrArg Frame.rem htop)
  · exact congrArg Frame.ret htop
  · simp [Decoder.pop, hd]

/-- Operations that spell bytes write them at the top level, each byte within two cycles (44_glz_encode.md R113). -/
theorem State.Wrote.spell {u : State} (hu : u.DecodeReady) {ops : List Op} {bytes : List Byte}
    (hspell : Spell u.coder ops bytes) (hlegal : ∀ op ∈ ops, op.wf u.coder.l = true) {s : State} {bs : List Byte}
    (h : u.Wrote bs bytes.length s) (hd : s.dec.d = 0) (hroom : bs.length + bytes.length ≤ u.dec.limit)
    (hcycles : s.dec.cycles ≤ 2 * bs.length) (hcode : u.stream.holdsCode s.dec.p (opsCode u.coder ops)) :
    ∃ t n, s.Reaches n t ∧ n ≤ 2 * bytes.length ∧ u.Wrote (bs ++ bytes) 0 t ∧ t.dec.d = 0 := by
  induction hspell generalizing s bs with
  | none ops => exact ⟨s, 0, .refl s, le_rfl, by simpa using h, hd⟩
  | @imm ops bytes n b rest ih =>
    obtain ⟨hop, hlegal⟩ := List.forall_mem_cons.1 hlegal
    have hn := (Op.wf_imm_iff.1 hop).1
    rw [opsCode_cons, BitStream.holdsCode_append, length_encodeOp] at hcode
    obtain ⟨hhead, hrest⟩ := hcode
    rw [List.length_append, List.length_replicate] at h hroom ⊢
    obtain ⟨t, hst, ht, hp, htd, -⟩ := h.immediate hu (by omega) (by omega) hroom hop hhead
    rw [Nat.min_eq_left (Nat.le_add_right n _), Nat.add_sub_cancel_left] at ht
    have hcycles' := hst.1
    obtain ⟨v, k, htv, hk, hv, hvd⟩ := ih hlegal ht (htd.trans hd) (by simp; omega) (by simp; omega) (hp ▸ hrest)
    exact ⟨v, 1 + k, hst.trans htv, by omega, by rwa [← List.append_assoc], hvd⟩
  | @ref ops bytes piece n w o fits offset target rest ih =>
    obtain ⟨hop, hlegal⟩ := List.forall_mem_cons.1 hlegal
    have htwo := (Op.wf_ref_iff.1 hop).1
    rw [opsCode_cons, BitStream.holdsCode_append, length_encodeOp] at hcode
    obtain ⟨hhead, hrest⟩ := hcode
    obtain ⟨rest', ⟨newer, rfl⟩, rfl, hopen⟩ := target
    have hlegal' : ∀ op ∈ rest', op.wf u.coder.l = true := fun op hmem => hlegal op (List.mem_append_right _ hmem)
    have htarget : u.stream.holdsCode (s.dec.p + u.coder.opLen (.ref n o) + o.toNat) (opsCode u.coder rest') := by
      rw [opsCode_append, BitStream.holdsCode_append] at hrest
      rw [opsCode_append, List.length_append] at offset
      rw [show o.toNat = (opsCode u.coder newer).length by omega]
      exact hrest.2
    have hpiece : (piece.take n).length = n := List.length_take_of_le fits
    rw [List.length_append, hpiece] at h hroom ⊢
    rcases Nat.eq_zero_or_pos bytes.length with hempty | hleft
    · rw [hempty, Nat.add_zero] at h
      obtain ⟨t, hst, ht, hp, htd⟩ := h.tailReference hu (by omega) hop hhead
      have hcycles' := hst.1
      obtain ⟨v, k, htv, hk, hv, hvd, -⟩ := ht.openWith hu hopen hlegal' fits (by omega) (by omega) (hp ▸ htarget)
      obtain rfl := List.length_eq_zero_iff.1 hempty
      exact ⟨v, 1 + k, hst.trans htv, by omega, by simpa using hv, (hvd.trans htd).trans hd⟩
    · obtain ⟨t, hst, ht, hp, htd, htf⟩ := h.savedReference hu (by omega) hop hhead hleft hd
      have hcycles' := hst.1
      obtain ⟨v, k, htv, hk, hv, hvd, hvf⟩ := ht.openWith hu hopen hlegal' fits (by omega) (by omega) (hp ▸ htarget)
      obtain ⟨hvx, hx, hxp, hxd⟩ := hv.returned (hvd.trans htd) (hvf.trans htf)
      have hcycles'' := (hst.trans (htv.trans hvx)).1
      obtain ⟨z, m, hxz, hm, hz, hzd⟩ := ih hlegal hx hxd (by simp [hpiece]; omega) (by simp [hpiece]; omega)
        (hxp ▸ hrest)
      exact ⟨z, 1 + (k + 0) + m, (hst.trans (htv.trans hvx)).trans hxz, by omega, by rwa [← List.append_assoc], hzd⟩

/-! ### The command -/

/-- With nothing owed at the top level the next cycle ends the command (45_glz_decode.md R117, R122). -/
theorem State.Wrote.decodeLoop_eq {u t : State} {bs : List Byte} (h : u.Wrote bs 0 t) (hd : t.dec.d = 0)
    (fuel : Nat) : decodeLoop (fuel + 1) t = t.endDecode := by
  have hpop : Decoder.popFinished t.dec.d t.dec = t.dec := by rw [hd]; rfl
  have hfinished : t.dec.finished t.streamLen.toNat = true := by
    simp [Decoder.finished, h.cmd, h.owed, Remaining.isZero]
  have hcycle : decodeCycle t = t.endDecode := by
    rcases fetchOp_cases t with ⟨-, hfetch⟩ | ⟨hrun, -⟩ | ⟨hrun, -⟩ | ⟨hrun, -⟩
    all_goals rw [hpop] at *
    · rw [decodeCycle, hfetch]
    all_goals exact absurd (hfinished.symm.trans hrun) (by decide)
  rw [decodeLoop, if_pos h.running, hcycle]
  cases fuel <;> rfl

theorem enterDecodeAt_frame (s : State) : s.changesOnly [.report, .dec] s.enterDecodeAt := by
  intro p hp
  cases p with
  | report | dec => exact absurd (by decide) hp
  | _ => rfl

theorem enterDecodeAt_wrote (s : State) : s.enterDecodeAt.Wrote [] s.arg1 s.enterDecodeAt where
  running := rfl
  cmd := rfl
  out := rfl
  limit := rfl
  count := rfl
  owed := rfl
  frame := State.changesOnly_refl _ _
  bytes := fun _ => rfl

/-- Past its start checks GLZ_DECODE_AT runs its loop (45_glz_decode.md R122). -/
theorem exec_glzDecodeAt {s : State} (hok : s.opsOk = true) (hrange : s.arg2 + s.arg1 ≤ s.cap.bytememBytes.toNat) :
    exec .glzDecodeAt s = .next (decodeLoop (2 * s.arg1 + 1) s.enterDecodeAt) := by
  have hok' : s.enterDecodeAt.opsOk = true := hok
  have hrange' : rangeOk s.enterDecodeAt.dec.out s.enterDecodeAt.dec.limit
      s.enterDecodeAt.cap.bytememBytes.toNat = true := decide_eq_true hrange
  change Host.Outcome.next (decodeCommandFrom s.enterDecodeAt) = _
  rw [decodeCommandFrom, hok', hrange']
  rfl

/-- GLZ_DECODE_AT of a position from which the stream spells the requested bytes writes them (45_glz_decode.md R122). -/
theorem decodeAt_of_spell {s : State} {ops : List Op} {bytes : List Byte} (hok : s.opsOk = true)
    (hremap : s.remap.Sound) (hrange : s.arg2 + s.arg1 ≤ s.cap.bytememBytes.toNat)
    (hspell : Spell s.coder ops bytes) (hlegal : ∀ op ∈ ops, op.wf s.coder.l = true) (hlen : bytes.length = s.arg1)
    (hcode : s.stream.holdsCode s.arg0 (opsCode s.coder ops)) :
    endsNormally .glzDecodeAt s [.bytemem, .res0, .cycles, .pushes, .dec] fun t =>
      t.bytes s.arg2 s.arg1 = bytes ∧ s.bytesKeptOutside s.arg2 (s.arg2 + s.arg1) t := by
  have hchunk : 1 ≤ s.coder.m := by
    simp only [State.opsOk, State.lmOk, Bool.and_eq_true, decide_eq_true_eq] at hok
    exact hok.2.1.2
  have hwrote := enterDecodeAt_wrote s
  rw [← hlen] at hwrote
  have hready : s.enterDecodeAt.DecodeReady := ⟨hremap, hchunk, hrange⟩
  have hroom : ([] : List Byte).length + bytes.length ≤ s.enterDecodeAt.dec.limit :=
    (Nat.zero_add _).trans_le hlen.le
  obtain ⟨t, n, ⟨-, hloop⟩, hn, ht, hd⟩ :=
    hwrote.spell hready hspell hlegal rfl hroom (Nat.zero_le _) hcode
  have hrun : exec .glzDecodeAt s = .next t.endDecode := by
    rw [exec_glzDecodeAt hok hrange, ← ht.decodeLoop_eq hd (2 * s.arg1 - n), ← hloop]
    congr 2
    omega
  obtain ⟨-, hreport, -, -, -, hframe⟩ := endDecode_spec t
  have hbytemem : t.endDecode.bytemem = t.bytemem := hframe .bytemem (by decide)
  have hread : ∀ a, t.endDecode.bytemem.read a = (s.bytemem.writeList s.arg2 bytes).read a := fun a => by
    rw [hbytemem]
    exact ht.bytes a
  have hstarted : t.report = Report.started := ht.frame .report (by decide)
  refine ⟨_, hrun, ?_, ?_, ?_, fun a ha => ?_⟩
  · rw [hreport, hstarted]
    rfl
  · exact (((enterDecodeAt_frame s).mono (by decide)).trans (ht.frame.mono (by decide))).trans
      (hframe.mono (by decide))
  · rw [← hlen]
    exact Memory.readList_of_writeList hread
  · rw [hread, Memory.read_writeList, dif_neg (by omega)]

end Sys2Proof.Machine
end

section
/-! GLZ_ENCODE_ALL: its range checks, its stream and its result table (44_glz_encode.md R108, R110, R111), and the two laws of its output (R114). -/

namespace Sys2Proof.Machine

/-! ### Emission into a stream -/

/-- A stream that starts inside BITMEM stays inside it, or the encode raises CAPACITY(S0) (44_glz_encode.md R108). -/
theorem keptByEmission_fits {env : EncodeEnv} {s0 cap : Nat} (hs : env.sink = .stream s0 cap) :
    KeptByEmission env (fun _ e => s0 + e.w ≤ cap) (· = ⟨.capacity, s0⟩) where
  less := id
  emit := by
    intro n x op _ _
    cases hr : Machine.emit env x op with
    | error why => exact ((emit_stream_error hs).1 hr).2
    | ok y =>
      obtain ⟨hfits, rfl⟩ := (emit_stream_ok hs).1 hr
      exact (Nat.add_assoc _ _ _).symm.trans_le hfits

/-- A stream with m bits left for every byte never runs out of room (44_glz_encode.md R108, R109). -/
theorem keptByEmission_room {env : EncodeEnv} {s0 cap m total : Nat} (hs : env.sink = .stream s0 cap)
    (hm : ∀ h < headSpace env.coder.l, env.coder.symLen h ≤ m) (hroom : s0 + m * total ≤ cap) :
    KeptByEmission env (fun n e => e.w + m * n ≤ m * total) (fun _ => False) where
  less := by
    intro n k e h
    rw [Nat.mul_add] at h
    omega
  emit := by
    intro n x op hop h
    have hlen := hop.budget m hm
    rw [Nat.mul_add] at h
    change x.enc.w + (m * n + m * op.size) ≤ m * total at h
    rw [(emit_stream_ok hs).2 ⟨by omega, rfl⟩]
    change x.enc.w + env.coder.opLen op + m * n ≤ m * total
    omega

section

variable {env : EncodeEnv} {k : Sink}
  (hemit : ∀ {x y y' op}, emit env x op = .ok y → emit { env with sink := k } x op = .ok y' → y = y')

include hemit

/-! Two sinks that agree on every emission agree on every encode, because what a pass emits does not depend on the sink. -/

theorem encodeScan_agrees {base fuel : Nat} {x y y' : EncodeRun} (h : encodeScan env base fuel x = .ok y)
    (h' : encodeScan { env with sink := k } base fuel x = .ok y') : y = y' := by
  induction fuel generalizing x with
  | zero => exact Except.ok.inj (h.symm.trans h')
  | succ fuel ih =>
    simp only [encodeScan] at h h'
    split at h
    next hq =>
      rw [if_pos hq] at h'
      exact Except.ok.inj (h.symm.trans h')
    next hq =>
      rw [if_neg hq] at h'
      split at h
      · simp at h
      next z hz =>
        split at h'
        · simp at h'
        next z' hz' =>
          obtain ⟨v, hv, rfl⟩ := scanStep_ok hz
          obtain ⟨v', hv', rfl⟩ := scanStep_ok hz'
          obtain rfl := hemit hv hv'
          exact ih h h'

theorem encodeSlices_agrees {ds : List Slice} {ends : List (Slice × Nat)} {x : EncodeRun}
    {r r' : List (Slice × Nat) × EncodeRun} (h : encodeSlices env ds ends x = .ok r)
    (h' : encodeSlices { env with sink := k } ds ends x = .ok r') : r = r' := by
  induction ds generalizing ends x with
  | nil => exact Except.ok.inj (h.symm.trans h')
  | cons d ds ih =>
    simp only [encodeSlices] at h h'
    cases hfind : ends.find? fun e => decide (e.1.len = d.len) && bytesEqual env.mem e.1.addr d.addr d.len with
    | some e =>
      rw [hfind] at h h'
      exact ih h h'
    | none =>
      rw [hfind] at h h'
      dsimp only at h h'
      split at h
      · simp at h
      next z hz =>
        split at h'
        · simp at h'
        next z' hz' =>
          obtain rfl := encodeScan_agrees hemit hz hz'
          exact ih h h'

end

/-- With room or without, an encode that completes gives the same stream (44_glz_encode.md R114). -/
theorem encodeAll_room {env : EncodeEnv} {s0 cap room : Nat} {ds : List Slice} {h : Hist}
    {r r' : List (Slice × Nat) × EncodeRun} (hs : env.sink = .stream s0 cap) (hr : encodeAll env ds h = .ok r)
    (hr' : encodeAll { env with sink := .stream s0 room } ds h = .ok r') : r = r' := by
  refine encodeSlices_agrees (fun hy hy' => ?_) hr hr'
  rw [((emit_stream_ok hs).1 hy).2, ((emit_stream_ok rfl).1 hy').2]

/-! ### The result table -/

/-- Words that belong to no pair of the list keep their contents. -/
theorem writePairs_read_other {s : State} {z stop b : Nat} {es : List (Slice × Nat)}
    (h : ∀ e ∈ es, b ≠ z + 2 * e.1.idx ∧ b ≠ z + 2 * e.1.idx + 1) :
    (s.writePairs z stop es).wordmem.read b = s.wordmem.read b := by
  induction es generalizing s with
  | nil => rfl
  | cons e es ih =>
    obtain ⟨⟨h0, h1⟩, hrest⟩ := List.forall_mem_cons.1 h
    rw [State.writePairs, ih hrest, writeWord_read, writeWord_read, if_neg (fun hb => h1 hb.1),
      if_neg (fun hb => h0 hb.1)]

/-- Each slice has its own pair (44_glz_encode.md R111). -/
theorem writePairs_read {s : State} {z stop : Nat} {es : List (Slice × Nat)} (hnodup : (es.map (·.1.idx)).Nodup)
    (hcap : ∀ e ∈ es, z + 2 * e.1.idx + 1 < s.cap.wordmemWords.toNat) {e : Slice × Nat} (he : e ∈ es) :
    (s.writePairs z stop es).wordmem.read (z + 2 * e.1.idx) = BitVec.ofNat 32 (stop - e.2) ∧
    (s.writePairs z stop es).wordmem.read (z + 2 * e.1.idx + 1) = BitVec.ofNat 32 e.1.len := by
  induction es generalizing s with
  | nil => simp at he
  | cons d es ih =>
    rw [List.map_cons, List.nodup_cons] at hnodup
    obtain ⟨hfresh, hnodup⟩ := hnodup
    obtain ⟨hd, hcap⟩ := List.forall_mem_cons.1 hcap
    rw [State.writePairs]
    rcases List.mem_cons.1 he with rfl | he
    · have hother : ∀ d ∈ es, d.1.idx ≠ e.1.idx := fun d hd heq => hfresh (heq ▸ List.mem_map_of_mem hd)
      rw [writePairs_read_other fun d hd => by have := hother d hd; omega,
        writePairs_read_other fun d hd => by have := hother d hd; omega]
      simp only [writeWord_read, State.writeWord_cap]
      constructor
      · rw [if_neg (by omega), if_pos ⟨trivial, by omega⟩]
      · rw [if_pos ⟨trivial, hd⟩]
    · exact ih hnodup (by simpa using hcap) he

/-! ### The descriptors -/

theorem State.mem_slices {s : State} {a n : Nat} {d : Slice} : d ∈ s.slices a n ↔
    ∃ i < n, d = ⟨i, (s.wordmem.read (a + 2 * i)).toNat, (s.wordmem.read (a + 2 * i + 1)).toNat⟩ := by
  simp [State.slices, eq_comm]

theorem State.slices_idx (s : State) (a n : Nat) : (s.slices a n).map Slice.idx = List.range n := by
  simp [State.slices, Function.comp_def]

theorem State.slicesOk_iff {s : State} {ds : List Slice} :
    s.slicesOk ds = true ↔ ∀ d ∈ ds, d.addr + d.len ≤ s.cap.bytememBytes.toNat := by
  simp [State.slicesOk, rangeOk]

/-- The ranges that GLZ_ENCODE_ALL checks: its descriptors and slices, and its result table (44_glz_encode.md R111). -/
def State.encodeRangesOk (s : State) : Prop :=
  s.descriptorsOk s.arg0 s.arg1 ∧ s.arg2 + 2 * s.arg1 ≤ s.cap.wordmemWords.toNat

/-- The encode that GLZ_ENCODE_ALL runs (44_glz_encode.md R111). -/
def State.encodeResult (s : State) : Except Raised (List (Slice × Nat) × EncodeRun) :=
  encodeAll s.encodeEnv (s.slices s.arg0 s.arg1) s.hist

/-! ### The command -/

theorem glzEncodeAll_of_badRange {s : State} (h : ¬s.encodeRangesOk) : glzEncodeAll s = .raised s ⟨.capacity, 0⟩ := by
  simp only [glzEncodeAll]
  split
  next => rfl
  next hwords =>
    rw [if_pos]
    rw [Bool.not_eq_true', Bool.eq_false_iff]
    intro hbytes
    simp only [Bool.not_eq_true, Bool.not_eq_false', Bool.and_eq_true, rangeOk, decide_eq_true_eq] at hwords
    exact h ⟨⟨hwords.1, State.slicesOk_iff.1 hbytes⟩, hwords.2⟩

theorem glzEncodeAll_of_ranges {s : State} (h : s.encodeRangesOk) : glzEncodeAll s =
    match s.encodeResult with
    | .error why => .raised s why
    | .ok (ends, y) => .done (s.storeEncoded s.arg2 ends y.enc) := by
  obtain ⟨⟨hwords, hbytes⟩, hz⟩ := h
  simp only [glzEncodeAll]
  rw [if_neg (by simp [rangeOk, hwords, hz]), if_neg (by simpa using State.slicesOk_iff.2 hbytes)]
  rfl

theorem exec_glzEncodeAll {s : State} : exec .glzEncodeAll s =
    .next ((guarded State.opsOk glzEncodeAll s.start).onError State.looseEncodeOutput).close := rfl

/-- Everything GLZ_ENCODE_ALL's pseudocode can do: raise before its first write, or store what it encoded (44_glz_encode.md R111). -/
theorem guarded_glzEncodeAll_cases (s : State) :
    (∃ why, guarded State.opsOk glzEncodeAll s = .raised s why) ∨
    (s.opsOk = true ∧ s.encodeRangesOk ∧ ∃ ends y, s.encodeResult = .ok (ends, y) ∧
      guarded State.opsOk glzEncodeAll s = .done (s.storeEncoded s.arg2 ends y.enc)) := by
  cases hok : s.opsOk with
  | false => exact .inl ⟨_, guarded_of_not hok⟩
  | true =>
    rw [guarded_of_ok hok]
    by_cases hr : s.encodeRangesOk
    · rw [glzEncodeAll_of_ranges hr]
      rcases he : s.encodeResult with why | ⟨ends, y⟩
      · exact .inl ⟨why, rfl⟩
      · exact .inr ⟨rfl, hr, ends, y, rfl, rfl⟩
    · exact .inl ⟨_, glzEncodeAll_of_badRange hr⟩

theorem looseEncodeOutput_frame (s : State) : s.changesOnly [.bitmem, .wordmem] s.looseEncodeOutput := by
  intro p hp
  cases p with
  | bitmem | wordmem => exact absurd (by decide) hp
  | _ => rfl

theorem endsInError_glzEncodeAll {s : State} {code : ErrCode} {pos : Nat}
    (h : guarded State.opsOk glzEncodeAll s.start = .raised s.start ⟨code, pos⟩) :
    endsInError .glzEncodeAll s code pos [.bitmem, .wordmem] :=
  endsInError_of_raised exec_glzEncodeAll (by rw [h, Ending.onError]) (looseEncodeOutput_frame _)

/-- After an error the bits below STREAM_LEN and the words outside the result table are what they were (44_glz_encode.md R111). -/
theorem raised_glzEncodeAll {s t : State} {why : Raised}
    (h : guarded State.opsOk glzEncodeAll s.start = .raised s.start why) (ht : exec .glzEncodeAll s = .next t) :
    s.changesOnly [.report, .bitmem, .wordmem, .res0, .res1, .res2, .res3, .free] t ∧
    s.bitsKeptOutside s.streamLen.toNat s.cap.bitmemBits.toNat t ∧
    s.wordsKeptOutside s.arg2 (s.arg2 + 2 * s.arg1) t := by
  rw [exec_glzEncodeAll, h] at ht
  obtain rfl := Host.Outcome.next.inj ht
  refine ⟨?_, fun p hp => ?_, fun a ha => ?_⟩
  · exact (((start_frame s).mono (by decide)).trans ((looseEncodeOutput_frame _).mono (by decide))).trans
      ((raise_spec _ why.code why.pos).2.mono (by decide))
  · exact looseBits_read_outside s.start _ _ hp
  · exact looseWords_read_outside (s.start.looseBits _ _) _ _ ha

/-- What a GLZ_ENCODE_ALL that succeeds leaves: the stream appended, its length reported, and a pair for each slice (44_glz_encode.md R110, R111). -/
structure State.Encoded (s : State) (ends : List (Slice × Nat)) (x : Encoder) (t : State) : Prop where
  fits : s.streamLen.toNat + x.w ≤ s.cap.bitmemBits.toNat
  streamLen : t.streamLen.toNat = s.streamLen.toNat + x.w
  res0 : t.res.r0.toNat = x.w
  res1 : t.res.r1 = t.streamLen
  dict : t.enc.dict = []
  code : t.stream.holdsCode s.streamLen.toNat (opsCode s.coder x.ops)
  bitsKept : s.bitsKeptOutside s.streamLen.toNat t.streamLen.toNat t
  wordsKept : s.wordsKeptOutside s.arg2 (s.arg2 + 2 * s.arg1) t
  pairs : ∀ e ∈ ends, (t.wordmem.read (s.arg2 + 2 * e.1.idx)).toNat = s.streamLen.toNat + x.w - e.2 ∧
    t.wordmem.read (s.arg2 + 2 * e.1.idx + 1) = BitVec.ofNat 32 e.1.len

/-- The parts that a GLZ_ENCODE_ALL that succeeds writes (44_glz_encode.md R111). -/
def encodeParts : List Part := [.res0, .res1, .streamLen, .bitmem, .wordmem, .enc]

theorem writePairs_frame (s : State) (z stop : Nat) (es : List (Slice × Nat)) :
    s.changesOnly [.wordmem] (s.writePairs z stop es) := by
  intro p hp
  cases p with
  | wordmem => exact absurd (by decide) hp
  | _ => simp [Part.same]

/-- The encoder's state takes the encode's last values (10_state.md R37). -/
def State.withEncoder (s : State) (x : Encoder) : State := { s with enc := x }

@[simp] theorem State.withEncoder_cap (s : State) (x : Encoder) : (s.withEncoder x).cap = s.cap := rfl
@[simp] theorem State.withEncoder_streamLen (s : State) (x : Encoder) : (s.withEncoder x).streamLen = s.streamLen := rfl
@[simp] theorem State.withEncoder_bitmem (s : State) (x : Encoder) : (s.withEncoder x).bitmem = s.bitmem := rfl
@[simp] theorem State.withEncoder_wordmem (s : State) (x : Encoder) : (s.withEncoder x).wordmem = s.wordmem := rfl

theorem withEncoder_frame (s : State) (x : Encoder) : s.changesOnly [.enc] (s.withEncoder x) := by
  intro p hp
  cases p with
  | enc => exact absurd (by decide) hp
  | _ => rfl

theorem storeEncoded_eq (s : State) (z : Nat) (ends : List (Slice × Nat)) (x : Encoder) :
    s.storeEncoded z ends x = (((((s.withEncoder x).putBits (opsCode s.coder x.ops)).writePairs z
      (s.streamLen.toNat + x.w) ends).setRes0 x.w).setRes1 (s.streamLen.toNat + x.w)).withEncoder Encoder.idle := rfl

theorem storeEncoded_frame (s : State) (z : Nat) (ends : List (Slice × Nat)) (x : Encoder) :
    s.changesOnly encodeParts (s.storeEncoded z ends x) :=
  (((((withEncoder_frame s x).mono (by decide)).trans ((putBits_frame _ _).mono (by decide))).trans
    ((writePairs_frame _ _ _ _).mono (by decide))).trans ((setRes0_frame _ _).mono (by decide))).trans
      (((setRes1_frame _ _).mono (by decide)).trans ((withEncoder_frame _ _).mono (by decide)))

/-- The writes of a GLZ_ENCODE_ALL whose stream fits (44_glz_encode.md R110, R111). -/
theorem encoded_storeEncoded {s : State} {ends : List (Slice × Nat)} {x : Encoder}
    (hsound : EndsSound s.encodeEnv ends x)
    (hslices : (ends.map Prod.fst).Perm (s.slices s.arg0 s.arg1)) (hranges : s.encodeRangesOk)
    (hfits : s.streamLen.toNat + x.w ≤ s.cap.bitmemBits.toNat) :
    s.Encoded ends x (s.start.storeEncoded s.arg2 ends x).finish := by
  have hcap := s.cap.bitmemBits.isLt
  have hz := hranges.2
  have hw : (opsCode s.coder x.ops).length = x.w := hsound.encoder.count.symm
  have hidx : (ends.map (·.1.idx)).Perm (List.range s.arg1) := by
    have hmap := hslices.map Slice.idx
    rwa [State.slices_idx, List.map_map] at hmap
  have hlt : ∀ e ∈ ends, e.1.idx < s.arg1 := fun e he =>
    List.mem_range.1 (hidx.mem_iff.1 (List.mem_map_of_mem he))
  have hspace : (s.start.withEncoder x).streamLen.toNat + (opsCode s.coder x.ops).length ≤
      (s.start.withEncoder x).cap.bitmemBits.toNat := by rwa [hw]
  have hlen : ((s.start.withEncoder x).putBits (opsCode s.coder x.ops)).streamLen.toNat =
      s.streamLen.toNat + x.w := by
    rw [putBits_streamLen_toNat hspace, hw]
    rfl
  rw [storeEncoded_eq]
  refine ⟨hfits, ?_, Nat.mod_eq_of_lt (by omega), BitVec.eq_of_toNat_eq ?_, rfl, ⟨fun i hi => ?_, ?_⟩,
    fun p hp => ?_, fun b hb => ?_, fun e he => ?_⟩
  · simpa using hlen
  · change (BitVec.ofNat 32 (s.streamLen.toNat + x.w)).toNat = _
    rw [BitVec.toNat_ofNat, Nat.mod_eq_of_lt (by omega), ← hlen]
    simp
  · have hbit := putBits_holds hspace i hi
    simpa [State.bit, State.stream] using hbit
  · simpa [State.stream, hw] using hlen.ge
  · have hp' : p < s.streamLen.toNat ∨ s.streamLen.toNat + x.w ≤ p := by
      rw [← hlen]
      simpa using hp
    rw [← hw] at hp'
    have hread := putBits_read_outside (s.start.withEncoder x) _ hp'
    simpa using hread
  · have hread := writePairs_read_other (s := (s.start.withEncoder x).putBits (opsCode s.coder x.ops)) (z := s.arg2)
      (stop := s.streamLen.toNat + x.w) (b := b) fun e he => by have := hlt e he; omega
    simpa using hread
  · obtain ⟨hoffset, hlength⟩ := writePairs_read (s := (s.start.withEncoder x).putBits (opsCode s.coder x.ops))
      (z := s.arg2) (stop := s.streamLen.toNat + x.w) (hidx.nodup_iff.2 List.nodup_range)
      (fun e he => by have := hlt e he; simp; omega) he
    refine ⟨(congrArg BitVec.toNat hoffset).trans (Nat.mod_eq_of_lt (by omega)), hlength⟩

/-- The one error of an encode into the stream (44_glz_encode.md R108). -/
theorem encodeResult_error {s : State} {why : Raised} (hok : s.opsOk = true) (herror : s.encodeResult = .error why) :
    why = ⟨.capacity, s.streamLen.toNat⟩ := by
  simp only [State.opsOk, State.streamOk, Bool.and_eq_true, decide_eq_true_eq] at hok
  exact ((keptByEmission_fits (env := s.encodeEnv) rfl).encodeAll hok.1.1).of_error herror

section

variable {s : State} {ends : List (Slice × Nat)} {y : EncodeRun} (hok : s.opsOk = true) (hranges : s.encodeRangesOk)
  (hresult : s.encodeResult = .ok (ends, y))

include hok hresult

/-- A stream that was emitted fits in BITMEM (44_glz_encode.md R108). -/
theorem encodeResult_fits : s.streamLen.toNat + y.enc.w ≤ s.cap.bitmemBits.toNat := by
  simp only [State.opsOk, State.streamOk, Bool.and_eq_true, decide_eq_true_eq] at hok
  exact ((keptByEmission_fits (env := s.encodeEnv) rfl).encodeAll hok.1.1).of_ok hresult

include hranges

/-- GLZ_ENCODE_ALL stores what it encoded (44_glz_encode.md R111). -/
theorem glzEncodeAll_of_result : endsNormally .glzEncodeAll s encodeParts (s.Encoded ends y.enc) := by
  obtain ⟨hsound, horder⟩ := encodeAll_sound hresult
  have hslices : (ends.map Prod.fst).Perm (s.slices s.arg0 s.arg1) := horder ▸ sortBy_perm _ _
  have hdone : guarded State.opsOk glzEncodeAll s.start = .done (s.start.storeEncoded s.arg2 ends y.enc) := by
    have hresult' : s.start.encodeResult = .ok (ends, y) := hresult
    rw [guarded_of_ok (s := s.start) hok, glzEncodeAll_of_ranges (s := s.start) hranges, hresult']
    rfl
  exact endsNormally_of_done exec_glzEncodeAll (by rw [hdone, Ending.onError]) (storeEncoded_frame _ _ _ _)
    (by decide) (encoded_storeEncoded hsound hslices hranges (encodeResult_fits hok hresult))

end

/-- A GLZ_ENCODE_ALL that ends normally has passed its checks and encoded its slices (44_glz_encode.md R111). -/
theorem result_of_glzEncodeAll {s t : State} (ht : exec .glzEncodeAll s = .next t)
    (hnormal : t.report = Report.normalEnd) :
    s.opsOk = true ∧ s.encodeRangesOk ∧ ∃ ends y, s.encodeResult = .ok (ends, y) := by
  rcases guarded_glzEncodeAll_cases s.start with ⟨⟨code, pos⟩, hraised⟩ | ⟨hok, hranges, ends, y, hresult, -⟩
  · exact absurd hnormal ((endsInError_glzEncodeAll hraised).report_ne ht)
  · exact ⟨hok, hranges, ends, y, hresult⟩

/-- The pair of slice i and the bit count from which its bytes are spelled (44_glz_encode.md R111, R114). -/
theorem State.Encoded.pair {s t : State} {ends : List (Slice × Nat)} {y : EncodeRun}
    (h : s.Encoded ends y.enc t) (hresult : s.encodeResult = .ok (ends, y)) {i : Nat} (hi : i < s.arg1) :
    ∃ e ∈ ends, e.1 = ⟨i, (s.wordmem.read (s.arg0 + 2 * i)).toNat, (s.wordmem.read (s.arg0 + 2 * i + 1)).toNat⟩ ∧
      (t.wordmem.read (s.arg2 + 2 * i)).toNat = s.streamLen.toNat + y.enc.w - e.2 ∧
      t.wordmem.read (s.arg2 + 2 * i + 1) = s.wordmem.read (s.arg0 + 2 * i + 1) := by
  obtain ⟨-, horder⟩ := encodeAll_sound hresult
  have hslices : (ends.map Prod.fst).Perm (s.slices s.arg0 s.arg1) := horder ▸ sortBy_perm _ _
  obtain ⟨e, he, heq⟩ := List.mem_map.1 (hslices.mem_iff.2 (State.mem_slices.2 ⟨i, hi, rfl⟩))
  obtain ⟨hoffset, hlength⟩ := h.pairs e he
  simp only [heq, BitVec.ofNat_toNat, BitVec.setWidth_eq] at hoffset hlength
  exact ⟨e, he, heq, hoffset, hlength⟩

/-! ### The statements -/

/-- Settles O40: from a slice's end count on the stream spells the slice's bytes, and GLZ_DECODE_AT writes what is spelled. -/
theorem decodeAtRecoversEverySlice : Obligations.DecodeAtRecoversEverySlice := by
  intro s t i out hremap ht hnormal hi len hout u
  obtain ⟨hok, hranges, ends, y, hresult⟩ := result_of_glzEncodeAll ht hnormal
  obtain ⟨hframe, hencoded⟩ := (glzEncodeAll_of_result hok hranges hresult).of_exec ht
  obtain ⟨hsound, -⟩ := encodeAll_sound hresult
  obtain ⟨e, he, hslice, hoffset, hlength⟩ := hencoded.pair hresult hi
  obtain ⟨rest, ⟨newer, hops⟩, hcount, hspell⟩ := hsound.spelled e he
  have hcap : t.cap = s.cap := hframe .cap (by decide)
  have hcoder : t.coder = s.coder := hframe.coder (by decide)
  have hremap' : t.remap = s.remap := hframe .remap (by decide)
  have hw : y.enc.w = (opsCode s.coder y.enc.ops).length := hsound.encoder.count
  have hcode := hencoded.code
  rw [← hops, opsCode_append, List.length_append] at hw
  rw [← hops, opsCode_append, BitStream.holdsCode_append] at hcode
  have hcount' : (opsCode s.coder rest).length = e.2 := hcount
  have hposition : (t.wordmem.read (s.arg2 + 2 * i)).toNat =
      s.streamLen.toNat + (opsCode s.coder newer).length := by omega
  have hokU : u.opsOk = true := by
    have hk : t.cfg.k = s.cfg.k := hframe .cfgK (by decide)
    have hl : t.cfg.l = s.cfg.l := hframe .cfgL (by decide)
    have hm : t.cfg.m = s.cfg.m := hframe .cfgM (by decide)
    have hfits := hencoded.streamLen.trans_le hencoded.fits
    simp only [State.opsOk, State.streamOk, State.kOk, State.lmOk, Bool.and_eq_true, decide_eq_true_eq] at hok ⊢
    rw [hcap, hk, hl, hm]
    exact ⟨⟨hfits, hok.1.2⟩, hok.2⟩
  have hcode' : u.stream.holdsCode u.arg0 (opsCode u.coder rest) := by
    have hrest := hcode.2
    rw [← hposition, ← hcoder] at hrest
    exact hrest
  have hlegal : ∀ op ∈ rest, op.wf u.coder.l = true := fun op hop => by
    have hmem : op ∈ y.enc.ops := hops ▸ List.mem_append_right newer hop
    rw [show u.coder = s.coder from hcoder]
    exact hsound.encoder.legal op hmem
  have hlen : u.arg1 = len.toNat := congrArg BitVec.toNat hlength
  have hcontent : (e.1.content s.bytemem).length = u.arg1 := by
    rw [hlen, Slice.content, Memory.length_readList, hslice]
  have hrange : u.arg2 + u.arg1 ≤ u.cap.bytememBytes.toNat := by
    rw [hlen, show u.cap = s.cap from hcap]
    exact hout
  have hspell' : Spell u.coder rest (e.1.content s.bytemem) := by
    rw [show u.coder = s.coder from hcoder]
    exact hspell
  refine (decodeAt_of_spell hokU (hremap' ▸ hremap) hrange hspell' hlegal hcontent hcode').mono fun x hx => ?_
  rw [hlen, hslice] at hx
  exact hx

/-- Settles O38: with m bits for every byte the encode cannot raise, and it emits at most that. -/
theorem encodeAllCompletes : Obligations.EncodeAllCompletes := by
  intro s m hok hdescriptors hz hm hroom
  have hstart : (fun n (e : Emitted) => e.w + m * n ≤ m * s.sliceBytes s.arg0 s.arg1)
      (((s.slices s.arg0 s.arg1).map Slice.len).sum) ⟨[], 0, s.hist⟩ := (Nat.zero_add _).le
  obtain ⟨⟨ends, y⟩, hresult, hy⟩ :=
    ((keptByEmission_room (env := s.encodeEnv) rfl hm hroom).encodeAll hstart).exists_ok
  refine (glzEncodeAll_of_result hok ⟨hdescriptors, hz⟩ hresult).mono fun t ht => ?_
  refine ⟨?_, ?_, ht.res1.symm, ht.dict, ht.bitsKept, ht.wordsKept, fun i hi => ?_⟩
  · rw [ht.res0]
    exact hy
  · rw [ht.res1, ht.streamLen, ht.res0]
  · obtain ⟨e, he, -, hoffset, hlength⟩ := ht.pair hresult hi
    obtain ⟨hsound, -⟩ := encodeAll_sound hresult
    have hle := (hsound.spelled e he).le
    have hw := hsound.encoder.count
    rw [hoffset, ht.streamLen]
    exact ⟨hlength, by omega, by omega⟩

/-- Settles O39: the checks come first, an emission is the only other thing that raises, and an error loosens the output alone. -/
theorem encodeAllChecksItsRanges : Obligations.EncodeAllChecksItsRanges := by
  intro s
  refine ⟨fun hok hbad => ?_, fun hok hdescriptors hz room ends y hroom hfull => ?_, fun t ht herr => ?_⟩
  · refine endsInError_glzEncodeAll ?_
    rw [guarded_of_ok (s := s.start) hok]
    refine glzEncodeAll_of_badRange (s := s.start) fun ⟨⟨hwords, hbytes⟩, hz⟩ => ?_
    rcases hbad with hbad | hbad | ⟨i, hi, hbad⟩
    · exact absurd hwords (Nat.not_le.2 hbad)
    · exact absurd hz (Nat.not_le.2 hbad)
    · exact absurd (hbytes _ (State.mem_slices.2 ⟨i, hi, rfl⟩)) (Nat.not_le.2 hbad)
  · refine endsInError_glzEncodeAll ?_
    rw [guarded_of_ok (s := s.start) hok, glzEncodeAll_of_ranges (s := s.start) ⟨hdescriptors, hz⟩,
      show s.start.encodeResult = s.encodeResult from rfl]
    rcases hresult : s.encodeResult with why | ⟨ends', y'⟩
    · rw [encodeResult_error hok hresult]
    · obtain ⟨rfl, rfl⟩ := Prod.mk.inj (encodeAll_room (env := s.encodeEnv) rfl hresult hroom)
      exact absurd (encodeResult_fits hok hresult) (Nat.not_le.2 hfull)
  · rcases guarded_glzEncodeAll_cases s.start with ⟨⟨code, pos⟩, hraised⟩ | ⟨-, -, ends, y, -, hdone⟩
    · exact raised_glzEncodeAll hraised ht
    · rw [exec_glzEncodeAll, hdone] at ht
      obtain rfl := Host.Outcome.next.inj ht
      have hreport := finish_report_of_started (storeEncoded_frame s.start s.start.arg2 ends y.enc .report (by decide))
      exact absurd ((congrArg Report.err hreport).symm.trans herr) (by decide)

/-- Settles O41: equal bytes have one end count and one length. -/
theorem equalSlicesGetEqualPairs : Obligations.EqualSlicesGetEqualPairs := by
  intro s t i j ht hnormal hi hj heq
  obtain ⟨hok, hranges, ends, y, hresult⟩ := result_of_glzEncodeAll ht hnormal
  obtain ⟨-, hencoded⟩ := (glzEncodeAll_of_result hok hranges hresult).of_exec ht
  obtain ⟨hsound, -⟩ := encodeAll_sound hresult
  obtain ⟨e, he, hslice, hoffset, hlength⟩ := hencoded.pair hresult hi
  obtain ⟨e', he', hslice', hoffset', hlength'⟩ := hencoded.pair hresult hj
  have hcount : e.2 = e'.2 := hsound.shared e he e' he' (by rw [hslice, hslice']; exact heq)
  have hlen := congrArg List.length heq
  simp only [State.bytes, Memory.length_readList] at hlen
  refine ⟨BitVec.eq_of_toNat_eq ?_, ?_⟩
  · rw [hoffset, hoffset', hcount]
  · rw [hlength, hlength']
    exact BitVec.eq_of_toNat_eq hlen

end Sys2Proof.Machine
end

section
/-! GLZ_SEED: the histogram it trains from the emitted symbols, and the refit of the tables and of k (44_glz_encode.md R116). -/

namespace Sys2Proof.Machine

/-! ### The symbols of an operation -/

/-- A legal operation has symbols of the head space, and at most one for each of its bytes (44_glz_encode.md R116). -/
theorem Op.Affordable.symbols {c : Coder} {op : Op} (h : op.Affordable c) :
    (∀ n ∈ opSymbols c.l op, n < headSpace c.l) ∧ (opSymbols c.l op).length ≤ op.size := by
  have hheads : headSpace c.l = 256 + 2 ^ c.l * 2 := rfl
  have hsize : sizeMax c.l = 2 ^ c.l + 1 := rfl
  have hlegal := h.legal
  cases op with
  | imm n b =>
    obtain ⟨hpos, hn⟩ := Op.wf_imm_iff.1 hlegal
    have hb := b.isLt
    rw [opSymbols]
    split
    · simp only [List.forall_mem_singleton, List.length_singleton, Op.size]
      omega
    · simp only [List.forall_mem_cons, List.length_cons, List.length_nil, Op.size]
      exact ⟨⟨by omega, by omega, List.forall_mem_nil _⟩, by omega⟩
  | ref n o =>
    obtain ⟨htwo, hn⟩ := Op.wf_ref_iff.1 hlegal
    simp only [opSymbols, List.forall_mem_singleton, List.length_singleton, Op.size]
    omega

/-- The one error of a sequence of HIST_INC within the capacity (41_histogram_remap.md R77). -/
theorem Hist.incAll_error_of_lt {cap : Nat} {ns : List Nat} {h : Hist} {why : Raised} (hn : ∀ n ∈ ns, n < cap)
    (he : h.incAll cap ns = .error why) : why = ⟨.countOverflow, 0⟩ := by
  induction ns generalizing h with
  | nil => simp [Hist.incAll] at he
  | cons n ns ih =>
    obtain ⟨hlt, hn⟩ := List.forall_mem_cons.1 hn
    simp only [Hist.incAll] at he
    split at he
    next hr =>
      obtain rfl := Except.error.inj he
      rw [Hist.inc, if_neg (Nat.not_le.2 hlt)] at hr
      split at hr
      · exact (Except.error.inj hr).symm
      · simp at hr
    next => exact ih hn he

/-- Emission into a histogram counts the operation's symbols, and its errors are those of the increments (44_glz_encode.md R116). -/
theorem emit_hist_eq {env : EncodeEnv} {cap : Nat} (hs : env.sink = .hist cap) (x : EncodeRun) (op : Op) :
    emit env x op = (x.hist.incAll cap (opSymbols env.coder.l op)).map fun h => ⟨x.enc.push env.coder op, h⟩ := by
  unfold emit
  rw [hs]
  dsimp only
  cases x.hist.incAll cap (opSymbols env.coder.l op) <;> rfl

/-! ### What a seed trains -/

/-- The symbols that a seed counts (44_glz_encode.md R116). -/
def Emitted.symbols (e : Emitted) (l : Nat) : List Nat := e.el.flatMap (opSymbols l)

/-- The histogram is that of the emitted symbols, each of the head space, and no counter has wrapped (44_glz_encode.md R116). -/
structure Emitted.Trained (l : Nat) (e : Emitted) : Prop where
  below : ∀ n ∈ e.symbols l, n < headSpace l
  hist : e.hist = (e.symbols l).foldl Hist.bump (Hist.cleared (headSpace l))
  counts : ∀ n, e.hist.countOf n = (e.symbols l).count n

theorem Emitted.trained_nil (l w : Nat) : Emitted.Trained l ⟨[], w, Hist.cleared (headSpace l)⟩ where
  below := List.forall_mem_nil _
  hist := rfl
  counts := fun _ => rfl

/-- Every emission trains the histogram or raises COUNT_OVERFLOW (44_glz_encode.md R116). -/
theorem keptByEmission_trained {env : EncodeEnv} {cap : Nat} (hs : env.sink = .hist cap)
    (hcap : headSpace env.coder.l ≤ cap) :
    KeptByEmission env (fun _ e => e.Trained env.coder.l) (· = ⟨.countOverflow, 0⟩) where
  less := id
  emit := by
    intro n x op hop hx
    obtain ⟨hsymbols, -⟩ := hop.symbols
    cases hr : Machine.emit env x op with
    | error why =>
      rw [emit_hist_eq hs] at hr
      cases hi : x.hist.incAll cap (opSymbols env.coder.l op) with
      | error why' =>
        rw [hi] at hr
        obtain rfl := Except.error.inj hr
        exact Hist.incAll_error_of_lt (fun n hn => lt_of_lt_of_le (hsymbols n hn) hcap) hi
      | ok h =>
        rw [hi] at hr
        simp [Except.map] at hr
    | ok y =>
      obtain ⟨-, henc, hhist⟩ := emit_hist_ok hs hr
      have hel : y.emitted.symbols env.coder.l = x.emitted.symbols env.coder.l ++ opSymbols env.coder.l op := by
        simp [Emitted.symbols, EncodeRun.emitted, henc]
      refine ⟨?_, ?_, fun m => ?_⟩ <;> rw [hel]
      · exact List.forall_mem_append.2 ⟨hx.below, hsymbols⟩
      · rw [List.foldl_append, ← hx.hist]
        exact hhist
      · rw [List.count_append, ← hx.counts]
        exact emit_hist_countOf hs hr m

/-- While the counters and the bytes left together stay below 2^32, no counter overflows: an operation has at most one symbol for each byte (44_glz_encode.md R116). -/
theorem keptByEmission_counters {env : EncodeEnv} {cap : Nat} (hs : env.sink = .hist cap)
    (hcap : headSpace env.coder.l ≤ cap) :
    KeptByEmission env (fun n e => ∀ m, e.hist.countOf m + n < 2 ^ 32) (fun _ => False) where
  less := fun h m => lt_of_le_of_lt (by omega) (h m)
  emit := by
    intro n x op hop hx
    obtain ⟨hsymbols, hlen⟩ := hop.symbols
    have hcount : ∀ m, (opSymbols env.coder.l op).count m ≤ op.size := fun m => List.count_le_length.trans hlen
    have hroom : ∀ m, x.hist.countOf m + (n + op.size) < 2 ^ 32 := hx
    have hok := Hist.incAll_of_room (h := x.hist) (fun n hn => lt_of_lt_of_le (hsymbols n hn) hcap) fun m => by
      have := hroom m
      have := hcount m
      omega
    rw [emit_hist_eq hs, hok]
    intro m
    change (List.foldl Hist.bump x.hist _).countOf m + n < 2 ^ 32
    have := hroom m
    have := hcount m
    rw [Hist.foldl_bump_countOf _ _ _ (by omega)]
    omega

theorem foldl_max_le {heads : Nat} {ns : List Nat} {m : Nat} (hm : m ≤ heads) (hn : ∀ n ∈ ns, n < heads) :
    ns.foldl (fun m n => max m (n + 1)) m ≤ heads := by
  induction ns generalizing m with
  | nil => exact hm
  | cons n ns ih =>
    obtain ⟨hlt, hn⟩ := List.forall_mem_cons.1 hn
    exact ih (max_le hm hlt) hn

/-- HIST_FIXLEN, HIST_HWM and the bound of a trained histogram (41_histogram_remap.md R75 to R77). -/
theorem Emitted.Trained.limits {l : Nat} {e : Emitted} (h : e.Trained l) (hl : headSpace l < 2 ^ 32) :
    e.hist.fixlen.toNat = headSpace l ∧
    e.hist.hwm.toNat = (e.symbols l).foldl (fun m n => max m (n + 1)) 0 ∧
    e.hist.hwm.toNat ≤ headSpace l ∧ e.hist.bound = headSpace l := by
  have hfixlen : e.hist.fixlen.toNat = headSpace l := by
    rw [h.hist, Hist.foldl_bump_fixlen]
    exact Nat.mod_eq_of_lt hl
  have hhwm : e.hist.hwm.toNat = (e.symbols l).foldl (fun m n => max m (n + 1)) 0 := by
    rw [h.hist, Hist.foldl_bump_hwm _ fun n hn => lt_of_le_of_lt (h.below n hn) hl]
    rfl
  have hle : e.hist.hwm.toNat ≤ headSpace l := hhwm ▸ foldl_max_le (Nat.zero_le _) h.below
  refine ⟨hfixlen, hhwm, hle, ?_⟩
  rw [Hist.bound, hfixlen, Nat.max_eq_left hle]

/-! ### The refit -/

/-- The tables of a histogram's sort: inverse to each other, and ranked strictly (41_histogram_remap.md R82). -/
theorem Remap.install_sorted (r : Remap) {h : Hist} (hpos : 0 < h.bound) :
    let r' := r.install h.sorted
    r'.en = true ∧ r'.b.toNat = h.bound ∧
    (∀ i < h.bound, (r'.d.read i).toNat < h.bound ∧ (r'.e.read (r'.d.read i).toNat).toNat = i) ∧
    ∀ i j, i < j → j < h.bound →
      h.countOf (r'.d.read j).toNat < h.countOf (r'.d.read i).toNat ∨
      (h.countOf (r'.d.read i).toNat = h.countOf (r'.d.read j).toNat ∧
        (r'.d.read i).toNat < (r'.d.read j).toNat) := by
  intro r'
  have hentries := h.sorted_entries
  have hlen := h.length_sorted
  have hen : r'.en = true := r.install_en (List.ne_nil_of_length_pos (hlen.symm ▸ hpos))
  have hb : r'.b.toNat = h.bound := (r.install_b hentries.length).trans hlen
  have hsound := r.install_sound hentries.nodup hentries.below hentries.length
  refine ⟨hen, hb, fun i hi => hb ▸ (hsound.1 hen).2 i (hb.symm ▸ hi), fun i j hij hj => ?_⟩
  rw [← hlen] at hj
  rw [(r.install_entry hentries (lt_trans hij hj)).1, (r.install_entry hentries hj).1]
  exact h.sorted_strict hij hj

theorem refit_frame (s : State) : s.changesOnly [.cfgK, .remap] s.refit := by
  have hk : ∀ t : State, s.changesOnly [.cfgK, .remap] t →
      s.changesOnly [.cfgK, .remap] (if s.deriveK then t.setBestK else t) := fun t ht => by
    split
    · exact ht.trans ((setBestK_frame t).mono (by decide))
    · exact ht
  refine hk _ ?_
  split
  · exact (sortTables_frame s).mono (by decide)
  · exact s.changesOnly_refl _

/-- DERIVE_TABLE decides whether the tables are sorted anew (44_glz_encode.md R116). -/
theorem refit_remap (s : State) :
    s.refit.remap = if s.deriveTable then s.remap.install s.hist.sorted else s.remap := by
  unfold State.refit
  cases s.deriveTable <;> cases s.deriveK <;> rfl

/-- DERIVE_K decides whether k is searched anew, under the tables then in force (44_glz_encode.md R116). -/
theorem refit_k (s : State) :
    if s.deriveK then s.refit.BestK s.refit.cfg.k.toNat (s.refit.cost s.refit.cfg.k.toNat)
    else s.refit.cfg.k = s.cfg.k := by
  have hbest : ∀ t : State, t.setBestK.BestK t.setBestK.cfg.k.toNat (t.setBestK.cost t.setBestK.cfg.k.toNat) := by
    intro t
    obtain ⟨hle, -, hleast, hfirst⟩ := t.bestK_searchK
    have hmax : ceilLog2 t.hist.bound ≤ 32 := ceilLog2_le t.hist.bound_lt.le
    have hk : t.setBestK.cfg.k.toNat = t.searchK.1 := Nat.mod_eq_of_lt (by omega)
    rw [hk]
    exact ⟨hle, rfl, hleast, hfirst⟩
  unfold State.refit
  cases s.deriveK with
  | true => exact hbest _
  | false => cases s.deriveTable <;> rfl

/-- The cost of k is that of the counters under the tables in force (42_rice.md R96). -/
theorem State.cost_congr {s t : State} (hhist : t.hist = s.hist) (hremap : t.remap = s.remap) : t.cost = s.cost := by
  funext k
  rw [State.cost, State.cost, hhist, hremap]

theorem State.BestK.congr {s t : State} {best bestCost : Nat} (h : s.BestK best bestCost) (hhist : t.hist = s.hist)
    (hremap : t.remap = s.remap) : t.BestK best bestCost := by
  obtain ⟨hle, hcost, hleast, hfirst⟩ := h
  rw [← hhist] at hle hleast
  rw [← State.cost_congr hhist hremap] at hcost hleast hfirst
  exact ⟨hle, hcost, hleast, hfirst⟩

/-! ### The command -/

/-- The encode that GLZ_SEED runs (44_glz_encode.md R116). -/
def State.seedResult (s : State) : Except Raised (List (Slice × Nat) × EncodeRun) :=
  encodeAll s.seedEnv (s.slices s.arg0 s.arg1) (Hist.cleared (headSpace s.coder.l))

/-- The state of a seed that has trained its histogram (44_glz_encode.md R116). -/
def State.trained (s : State) (y : EncodeRun) : State := { s.withEncoder y.enc with hist := y.hist }

/-- The state of a seed at its end (44_glz_encode.md R116). -/
def State.seeded (s : State) (y : EncodeRun) : State :=
  (((s.trained y).refit.withEncoder Encoder.idle).setRes0 (s.trained y).refit.cfg.k.toNat).setRes1
    (s.trained y).refit.remap.b.toNat

theorem seeded_frame_refit (s : State) (y : EncodeRun) :
    (s.trained y).refit.changesOnly [.enc, .res0, .res1] (s.seeded y) :=
  (((withEncoder_frame _ _).mono (by decide)).trans ((setRes0_frame _ _).mono (by decide))).trans
    ((setRes1_frame _ _).mono (by decide))

theorem seeded_frame (s : State) (y : EncodeRun) :
    s.changesOnly [.cfgK, .remap, .hist, .res0, .res1, .enc] (s.seeded y) := by
  have htrained : s.changesOnly [.hist, .enc] (s.trained y) :=
    ((withEncoder_frame _ _).mono (by decide)).trans ((hist_frame _ _).mono (by decide))
  exact ((htrained.mono (by decide)).trans ((refit_frame _).mono (by decide))).trans
    ((seeded_frame_refit s y).mono (by decide))

theorem seeded_hist (s : State) (y : EncodeRun) : (s.seeded y).hist = y.hist :=
  refit_frame (s.trained y) .hist (by decide)

theorem seeded_remap (s : State) (y : EncodeRun) :
    (s.seeded y).remap = if s.deriveTable then s.remap.install y.hist.sorted else s.remap :=
  refit_remap (s.trained y)

theorem seeded_k (s : State) (y : EncodeRun) :
    if s.deriveK then (s.seeded y).BestK (s.seeded y).cfg.k.toNat ((s.seeded y).cost (s.seeded y).cfg.k.toNat)
    else (s.seeded y).cfg.k = s.cfg.k := by
  have hframe := seeded_frame_refit s y
  have hcfg : (s.seeded y).cfg.k = (s.trained y).refit.cfg.k := hframe .cfgK (by decide)
  have hcost := State.cost_congr (hframe .hist (by decide)) (hframe .remap (by decide))
  have hflag : (s.trained y).deriveK = s.deriveK := rfl
  have hk := refit_k (s.trained y)
  rw [hflag] at hk
  rw [hcfg, hcost]
  split_ifs at hk ⊢
  · exact hk.congr (hframe .hist (by decide)) (hframe .remap (by decide))
  · exact hk

theorem seeded_results (s : State) (y : EncodeRun) :
    (s.seeded y).res.r0 = (s.seeded y).cfg.k.setWidth 32 ∧ (s.seeded y).res.r1 = (s.seeded y).remap.b :=
  ⟨BitVec.ofNat_toNat _ _, (BitVec.ofNat_toNat _ _).trans (BitVec.setWidth_eq _)⟩

/-- Legal parameters hold the head space in the histogram (00_scope.md R10, 60_exceptions.md R139). -/
theorem headSpace_le_histCap {s : State} (hok : s.lmOk = true) (hcap : s.cap.legal = true) :
    headSpace s.coder.l ≤ s.cap.histCap.toNat := by
  simp only [State.lmOk, Bool.and_eq_true, decide_eq_true_eq] at hok
  simp only [Params.legal, Bool.and_eq_true, decide_eq_true_eq] at hcap
  have hpow : 2 ^ (s.cfg.l.toNat + 1) ≤ 2 ^ (s.cap.lMax.toNat + 1) :=
    Nat.pow_le_pow_right (by decide) (Nat.succ_le_succ hok.1.1)
  exact (Nat.add_le_add_left hpow 256).trans hcap.2

@[simp] theorem State.start_slices (s : State) (a n : Nat) : s.start.slices a n = s.slices a n := rfl
@[simp] theorem State.start_slicesOk (s : State) (ds : List Slice) : s.start.slicesOk ds = s.slicesOk ds := rfl

theorem exec_glzSeed {s : State} : exec .glzSeed s =
    .next ((guarded State.lmOk glzSeed s.start).onError State.looseHist).close := rfl

theorem looseHist_frame (s : State) : s.changesOnly [.hist] s.looseHist := hist_frame s _

section

variable {s : State} (hok : s.lmOk = true)

include hok

/-- An error of GLZ_SEED is raised before its first write (44_glz_encode.md R116). -/
theorem endsInError_glzSeed {code : ErrCode} {pos : Nat} (h : glzSeed s.start = .raised s.start ⟨code, pos⟩) :
    endsInError .glzSeed s code pos [.hist] :=
  endsInError_of_raised exec_glzSeed (by rw [guarded_of_ok (s := s.start) hok, h, Ending.onError]) (looseHist_frame _)

theorem glzSeed_of_badDescriptors (h : s.cap.wordmemWords.toNat < s.arg0 + 2 * s.arg1) :
    endsInError .glzSeed s .capacity 0 [.hist] :=
  endsInError_glzSeed hok (by
    simp only [glzSeed]
    exact if_pos (by simpa using h))

theorem glzSeed_of_badSlice (h : ∃ d ∈ s.slices s.arg0 s.arg1, s.cap.bytememBytes.toNat < d.addr + d.len) :
    endsInError .glzSeed s .capacity 0 [.hist] := by
  obtain ⟨d, hd, hbad⟩ := h
  refine endsInError_glzSeed hok ?_
  have hslices : s.start.slicesOk (s.start.slices s.start.arg0 s.start.arg1) = false :=
    Bool.eq_false_iff.2 fun hall => absurd (State.slicesOk_iff.1 hall d hd) (Nat.not_le.2 hbad)
  simp only [glzSeed, hslices]
  split <;> rfl

variable (hcap : s.cap.legal = true)

include hcap

/-- What a seed that completes has trained (44_glz_encode.md R116). -/
theorem trained_of_seedResult {ends : List (Slice × Nat)} {y : EncodeRun} (hresult : s.seedResult = .ok (ends, y)) :
    y.emitted.Trained s.coder.l :=
  ((keptByEmission_trained (env := s.seedEnv) rfl (headSpace_le_histCap hok hcap)).encodeAll
    (Emitted.trained_nil _ _)).of_ok hresult

/-- Slices of fewer than 2^32 bytes overflow no counter (44_glz_encode.md R116). -/
theorem seedResult_of_fewBytes (hbytes : s.sliceBytes s.arg0 s.arg1 < 2 ^ 32) :
    ∃ ends y, s.seedResult = .ok (ends, y) := by
  have hkept := keptByEmission_counters (env := s.seedEnv) rfl (headSpace_le_histCap hok hcap)
  obtain ⟨⟨ends, y⟩, hresult, -⟩ := (hkept.encodeAll (ds := s.slices s.arg0 s.arg1)
    (h := Hist.cleared (headSpace s.coder.l)) fun m => (Nat.zero_add _).trans_lt hbytes).exists_ok
  exact ⟨ends, y, hresult⟩

variable (hranges : s.descriptorsOk s.arg0 s.arg1)

include hranges

/-- Past its range checks GLZ_SEED runs its encode (44_glz_encode.md R116). -/
theorem glzSeed_of_ranges : glzSeed s.start =
    match s.seedResult with
    | .error why => .raised s.start why
    | .ok (_, y) => .done (s.start.seeded y) := by
  obtain ⟨hwords, hbytes⟩ := hranges
  have hclear : Hist.clear s.start.cap.histCap.toNat (headSpace s.start.coder.l) =
      .ok (Hist.cleared (headSpace s.coder.l)) := Hist.clear_ok.2 ⟨headSpace_le_histCap hok hcap, rfl⟩
  simp only [glzSeed]
  rw [if_neg (by simp [rangeOk, hwords]), if_neg (by simpa using State.slicesOk_iff.2 hbytes), hclear]
  rfl

/-- The one error of the encode that GLZ_SEED runs (44_glz_encode.md R116). -/
theorem glzSeed_of_error {why : Raised} (hresult : s.seedResult = .error why) :
    endsInError .glzSeed s .countOverflow 0 [.hist] := by
  have hkept := keptByEmission_trained (env := s.seedEnv) rfl (headSpace_le_histCap hok hcap)
  have hwhy : why = ⟨.countOverflow, 0⟩ := (hkept.encodeAll (Emitted.trained_nil _ _)).of_error hresult
  exact endsInError_glzSeed hok (by rw [glzSeed_of_ranges hok hcap hranges, hresult, hwhy])

/-- A seed that completes leaves the trained histogram and the refit (44_glz_encode.md R116). -/
theorem glzSeed_of_result {ends : List (Slice × Nat)} {y : EncodeRun} (hresult : s.seedResult = .ok (ends, y)) :
    endsNormally .glzSeed s [.cfgK, .remap, .hist, .res0, .res1, .enc] fun t => t = (s.start.seeded y).finish := by
  have hdone : glzSeed s.start = .done (s.start.seeded y) := by rw [glzSeed_of_ranges hok hcap hranges, hresult]
  exact endsNormally_of_done exec_glzSeed (by rw [guarded_of_ok (s := s.start) hok, hdone, Ending.onError])
    (seeded_frame _ _) (by decide) rfl

end

/-! ### The statement -/

/-- Settles O42: past its range checks a seed is its encode into the histogram, then the sort and the search that its flags ask for. -/
theorem seedTrainsTheHistogram : Obligations.SeedTrainsTheHistogram := by
  refine ⟨(Laws.CommandWord.glzSeed _ rfl).2, ?_⟩
  intro s hok hcap ds heads emitted completes
  split
  next hwords => exact glzSeed_of_badDescriptors hok hwords
  rename_i hwords
  split
  next hslice => exact glzSeed_of_badSlice hok hslice
  rename_i hslices
  have hranges : s.descriptorsOk s.arg0 s.arg1 :=
    ⟨Nat.le_of_not_lt hwords, fun d hd => Nat.le_of_not_lt fun hlt => hslices ⟨d, hd, hlt⟩⟩
  have hcompletes : ∀ ends y, emitted = .ok (ends, y) → completes y := by
    intro ends y hresult
    have hheads : headSpace s.coder.l < 2 ^ 32 :=
      lt_of_le_of_lt (headSpace_le_histCap hok hcap) s.cap.histCap.isLt
    have htrained := trained_of_seedResult hok hcap hresult
    obtain ⟨hfixlen, hhwm, hle, hbound⟩ := htrained.limits hheads
    obtain ⟨hr0, hr1⟩ := seeded_results s.start y
    have hpos : 0 < y.hist.bound := by
      rw [show y.hist.bound = headSpace s.coder.l from hbound]
      exact Nat.add_pos_left (by decide) _
    refine (glzSeed_of_result hok hcap hranges hresult).mono fun t ht => ?_
    subst ht
    rw [State.finish_hist, seeded_hist]
    refine ⟨hfixlen, htrained.counts, hhwm, hle, hr0, hr1, rfl, ?_, ?_⟩
    · have hremap : (s.start.seeded y).remap = if s.deriveTable then s.remap.install y.hist.sorted else s.remap :=
        seeded_remap s.start y
      have hcounts : ∀ n, y.hist.countOf n = (y.enc.el.flatMap (opSymbols s.cfg.l.toNat)).count n := htrained.counts
      have hranked := s.remap.install_sorted hpos
      rw [show y.hist.bound = heads from hbound] at hranked
      rw [State.finish_remap, hremap]
      split_ifs
      · simpa only [hcounts] using hranked
      · rfl
    · have hk : if s.deriveK then _ else _ := seeded_k s.start y
      have hseeded : (s.start.seeded y).hist.bound = heads := by rw [seeded_hist]; exact hbound
      rw [State.finish_cfg, State.cost_congr (State.finish_hist _) (State.finish_remap _)]
      split_ifs at hk ⊢
      · exact ⟨hseeded ▸ hk.le, hseeded ▸ hk.least, hk.first⟩
      · exact hk
  refine ⟨fun hbytes => ?_, hcompletes, fun why hwhy => glzSeed_of_error hok hcap hranges hwhy⟩
  obtain ⟨ends, y, hresult⟩ := seedResult_of_fewBytes hok hcap hbytes
  exact ⟨ends, y, hresult, hcompletes ends y hresult⟩

end Sys2Proof.Machine
end

section
/-! One cycle of the decoder, case by case, and a step of a decode in progress: the operations LIT, RUN and REF, the ends of a decode, and a decode command as the run of its cycles (45_glz_decode.md R117 to R119, R123). -/

namespace Sys2Proof.Machine

/-! ### One cycle, case by case (45_glz_decode.md R117, R118) -/

/-- A cycle is counted before its operation decodes (45_glz_decode.md R118). -/
def State.counted (s : State) : State := { s with dec := { s.dec with cycles := s.dec.cycles + 1 } }

section

variable {s : State}

theorem decodeCycle_of_finished (hend : s.returned.dec.finished s.streamLen.toNat = true) :
    decodeCycle s = s.returned.endDecode := by
  have hfetch : fetchOp s = .ended s.returned.endDecode := if_pos hend
  rw [decodeCycle, hfetch]

variable (hrun : s.returned.dec.finished s.streamLen.toNat = false)

include hrun

theorem decodeCycle_of_spent (hcap : 2 * s.returned.dec.limit < s.returned.dec.cycles + 1) :
    decodeCycle s = s.returned.counted.failDecode .runtimeExceeded s.returned.dec.p := by
  have hfetch : fetchOp s = .ended (s.returned.counted.failDecode .runtimeExceeded s.returned.dec.p) :=
    (if_neg (ne_true_of_eq_false hrun)).trans (if_pos hcap)
  rw [decodeCycle, hfetch]

variable (hcap : s.returned.dec.cycles + 1 ≤ 2 * s.returned.dec.limit)

include hcap

/-- A cycle within the cap goes by what decodes at p. -/
theorem fetchOp_of_cycle :
    (∃ why, decodeOp s.coder s.stream s.returned.dec.p = .error why ∧
      fetchOp s = .ended (s.returned.counted.failDecode why.code why.pos)) ∨
    ∃ op q, decodeOp s.coder s.stream s.returned.dec.p = .ok (op, q) ∧ fetchOp s = .op op (s.returned.fetched q) := by
  rcases fetchOp_cases s with ⟨hend, -⟩ | ⟨-, hspent, -⟩ | ⟨-, -, herr⟩ | ⟨-, -, hop⟩
  · exact absurd (hend.symm.trans hrun) (by decide)
  · exact absurd hcap (Nat.not_le.2 hspent)
  · exact .inl herr
  · exact .inr hop

theorem decodeCycle_of_undecodable {why : Raised} (herr : decodeOp s.coder s.stream s.returned.dec.p = .error why) :
    decodeCycle s = s.returned.counted.failDecode why.code s.returned.dec.p := by
  rcases fetchOp_of_cycle hrun hcap with ⟨why', herr', hfetch⟩ | ⟨op, q, hop, -⟩
  · obtain rfl := Except.error.inj (herr.symm.trans herr')
    rw [decodeCycle, hfetch, (decodeOp_error herr).1]
  · exact absurd (herr.symm.trans hop) (by simp)

theorem decodeCycle_of_op {op : Op} {q : Nat} (hop : decodeOp s.coder s.stream s.returned.dec.p = .ok (op, q)) :
    decodeCycle s = runOp op (s.returned.fetched q) := by
  rcases fetchOp_of_cycle hrun hcap with ⟨why, herr, -⟩ | ⟨op', q', hop', hfetch⟩
  · exact absurd (herr.symm.trans hop) (by simp)
  · obtain ⟨rfl, rfl⟩ := Prod.mk.inj (Except.ok.inj (hop.symm.trans hop'))
    rw [decodeCycle, hfetch]

end

/-! ### Frames -/

theorem withDec_frame (s : State) (x : Decoder) : s.changesOnly [.dec] { s with dec := x } := by
  intro p hp
  cases p with
  | dec => exact absurd (by decide) hp
  | _ => rfl

theorem returned_frame (s : State) : s.changesOnly [.dec] s.returned := withDec_frame s _

theorem counted_frame (s : State) : s.changesOnly [.dec] s.counted := withDec_frame s _

/-- An instruction that ends a decode in error writes the output region, CYCLES, PUSHES and the decoder's registers, and takes the error (45_glz_decode.md R121, 60_exceptions.md R137). -/
theorem endsInError_of_failDecode {i : Instr} {s u : State} {code : ErrCode} {pos : Nat}
    (hexec : exec i s = .next (u.failDecode code pos)) (hu : s.changesOnly [.report, .dec] u) :
    endsInError i s code pos [.bytemem, .cycles, .pushes, .dec] := by
  obtain ⟨-, hreport, -, -, hframe, -⟩ := failDecode_spec u code pos
  exact ⟨_, hexec, hreport, (hu.mono (by decide)).trans (hframe.mono (by decide))⟩

/-! ### The operations in a decode -/

section

variable {s : State} (hr : s.dec.running = true)

include hr

theorem exec_immediate {n : Nat} {b : Byte} {i : Instr} (hi : (i = .lit b ∧ n = 1) ∨ i = .run n b) :
    exec i s = .next (runImmediate n b s) := by
  rcases hi with ⟨rfl, rfl⟩ | rfl
  · exact inDecode_next.2 ⟨hr, rfl⟩
  · exact inDecode_next.2 ⟨hr, rfl⟩

theorem exec_reference (n : Nat) (o : Word) : exec (.ref n o) s = .next (runReference n o s) :=
  inDecode_next.2 ⟨hr, rfl⟩

end

/-- A push writes the frame at the old depth and no frame below it (10_state.md R35). -/
theorem Decoder.frame_push {x : Decoder} (hd : x.d < 2) (f : Frame) :
    (x.push f).frame x.d = f ∧ ∀ j < x.d, (x.push f).frame j = x.frame j := by
  obtain h | h : x.d = 0 ∨ x.d = 1 := by omega
  · simp [Decoder.push, Decoder.frame, h]
  · simp [Decoder.push, Decoder.frame, h]

/-- Apart from its frame a push changes d and the count of pushes. -/
theorem Decoder.push_eq (x : Decoder) (f : Frame) : x.push f =
    { x with d := x.d + 1, pushes := x.pushes + 1, frame0 := (x.push f).frame0, frame1 := (x.push f).frame1 } := by
  unfold Decoder.push
  split <;> rfl

/-- Settles O30: an immediate either passes the maximum of GLZ_DECODE_STREAM or fills its bytes, all of them in BYTEMEM. -/
theorem immediatesWriteTheirBytes : Obligations.ImmediatesWriteTheirBytes := by
  intro s n b i hi hr
  dsimp only
  have hexec := exec_immediate hr hi
  rcases runImmediate_cases n b s with ⟨hpast, hfail⟩ | ⟨hroom, hdec, hframe, hread⟩
  · rw [if_pos hpast]
    rw [hfail] at hexec
    exact endsInError_of_failDecode hexec (s.changesOnly_refl _)
  · rw [if_neg hroom]
    intro hrange
    refine ⟨_, hexec, hframe, fun j hj => ?_, fun a ha => ?_, hdec⟩
    · rw [hread, if_pos ⟨by omega, by omega, by omega⟩]
    · rw [hread, if_neg (by omega)]

/-- Settles O31: a reference jumps when its bytes cover what is owed, fails with both frames in use, and pushes otherwise. -/
theorem referencesJumpOrPush : Obligations.ReferencesJumpOrPush := by
  intro s n o hr x
  have hexec := exec_reference hr n o
  rcases runReference_cases n o s with ⟨hcovered, hrun⟩ | ⟨hcovered, hd, hrun⟩ | ⟨hcovered, hd, hrun⟩
  all_goals rw [hrun] at hexec
  · rw [if_pos hcovered]
    exact hexec
  · rw [if_neg (ne_true_of_eq_false hcovered), if_pos hd]
    exact endsInError_of_failDecode hexec (s.changesOnly_refl _)
  · rw [if_neg (ne_true_of_eq_false hcovered), if_neg (Nat.not_le.2 hd)]
    obtain ⟨htop, hbelow⟩ := Decoder.frame_push hd ⟨x.q, x.rem.less n⟩
    refine ⟨_, hexec, withDec_frame s _, htop, hbelow, ?_⟩
    dsimp only
    rw [Decoder.push_eq]

/-! ### A step of a decode in progress (46_host.md R128) -/

/-- With no host access pending, a decode in progress advances by one cycle. -/
theorem step_eq_decodeCycle {s : State} (hi : s.inputs = []) (hr : s.dec.running = true) :
    step s = .next (decodeCycle s) := by
  rcases step_cases s with ⟨a, rest, hne, -⟩ | ⟨w, rest, hne, -⟩ | ⟨-, -, ⟨t, hfetch, hstep⟩ | ⟨op, t, hfetch, hstep⟩⟩ |
    ⟨-, hstop, -⟩
  · exact absurd (hi.symm.trans hne) (by simp)
  · exact absurd (hi.symm.trans hne) (by simp)
  · rw [hstep, decodeCycle, hfetch]
  · rw [hstep, exec_toInstr (fetchOp_running hr hfetch), decodeCycle, hfetch]
  · exact absurd (hr.symm.trans hstop) (by decide)

theorem decodeLoop_of_stopped {s : State} (hr : s.dec.running = false) (fuel : Nat) : decodeLoop fuel s = s := by
  cases fuel <;> simp [decodeLoop, hr]

theorem step_of_stopped {s : State} (hi : s.inputs = []) (hr : s.dec.running = false) : step s = .next s := by
  simp [step, State.fetch, hi, hr]

theorem run_succ_of_next {n : Nat} {s t : State} (hstep : step s = .next t) :
    Host.Core.run core (n + 1) s = Host.Core.run core n t := by
  have hcore : core.step s = .next t := hstep
  simp only [Host.Core.run, hcore]

/-- Without host accesses a run is the decode loop (45_glz_decode.md R117). -/
theorem run_eq_decodeLoop (n : Nat) {s : State} (hi : s.inputs = []) :
    Host.Core.run core n s = .next (decodeLoop n s) := by
  induction n generalizing s with
  | zero => rfl
  | succ n ih =>
    cases hr : s.dec.running with
    | true =>
      have hinputs : (decodeCycle s).inputs = s.inputs := decodeCycle_frame s .inputs (by decide)
      rw [run_succ_of_next (step_eq_decodeCycle hi hr), ih (hinputs.trans hi), decodeLoop, if_pos hr]
    | false =>
      rw [run_succ_of_next (step_of_stopped hi hr), ih hi, decodeLoop_of_stopped hr, decodeLoop_of_stopped hr]

/-- Past its start checks GLZ_DECODE_STREAM runs its loop (45_glz_decode.md R123). -/
theorem exec_glzDecodeStream {s : State} (hok : s.opsOk = true)
    (hrange : s.arg1 + s.arg2 ≤ s.cap.bytememBytes.toNat) :
    exec .glzDecodeStream s = .next (decodeLoop (2 * s.arg2 + 1) s.enterDecodeStream) := by
  have hok' : s.enterDecodeStream.opsOk = true := hok
  have hrange' : rangeOk s.enterDecodeStream.dec.out s.enterDecodeStream.dec.limit
      s.enterDecodeStream.cap.bytememBytes.toNat = true := decide_eq_true hrange
  change Host.Outcome.next (decodeCommandFrom s.enterDecodeStream) = _
  rw [decodeCommandFrom, hok', hrange']
  rfl

/-- Settles O37: past its checks a decode command is its loop, and so is the run from its entry. -/
theorem decodeCommandIsItsCyclesRun : Obligations.DecodeCommandIsItsCyclesRun := by
  intro s hok hi
  constructor
  · intro hrange
    have hinputs : s.enterDecodeAt.inputs = [] := hi
    rw [exec_glzDecodeAt hok hrange]
    exact run_eq_decodeLoop _ hinputs
  · intro hrange
    have hinputs : s.enterDecodeStream.inputs = [] := hi
    rw [exec_glzDecodeStream hok hrange]
    exact run_eq_decodeLoop _ hinputs

/-- Settles O47: the cycle of a step fetches the operation at p, and its instruction form has its effect. -/
theorem stepRunsTheOperationAtP : Obligations.StepRunsTheOperationAtP := by
  intro s op q hi hr x hrun hcap hop
  have hfetched : (s.returned.fetched q).dec.running = true := (s.dec.popFinished_running s.dec.d).trans hr
  rw [step_eq_decodeCycle hi hr, decodeCycle_of_op hrun hcap hop, ← exec_toInstr hfetched]
  rfl

/-- What a cycle that fails after it is counted leaves of the state before it (45_glz_decode.md R118, R121). -/
theorem failDecode_counted_spec (s : State) (code : ErrCode) (pos : Nat) :
    let x := s.returned.dec
    let t := s.returned.counted.failDecode code pos
    t.report = Report.failed code pos ∧
      (t.dec.running = false ∧ t.cycles = saturate (x.cycles + 1) ∧ t.pushes = saturate x.pushes) ∧
      s.changesOnly [.report, .bytemem, .res0, .res1, .res2, .res3, .cycles, .pushes, .dec, .free] t ∧
      s.bytesKeptOutside x.out (x.out + x.limit) t := by
  obtain ⟨hdec, hreport, hcycles, hpushes, hframe, hkept⟩ := failDecode_spec s.returned.counted code pos
  refine ⟨hreport, ⟨by rw [hdec], hcycles, hpushes⟩, ?_, hkept⟩
  exact ((returned_frame s).trans (counted_frame _)).mono (by decide) |>.trans hframe

/-- Settles O48: each of the three ends is one case of the cycle. -/
theorem decodeStepsThatEndTheCommand : Obligations.DecodeStepsThatEndTheCommand := by
  intro s hi hr hreport x ends
  have hstep := step_eq_decodeCycle hi hr
  refine ⟨fun hend => ?_, fun hrun hcap => ?_, fun why hrun hcap herr => ?_⟩
  · obtain ⟨hstop, hfinished, hcycles, hpushes, hr0, hframe⟩ := endDecode_spec s.returned
    rw [decodeCycle_of_finished hend] at hstep
    exact ⟨_, hstep, finish_report_of_started hreport, ⟨hstop, hcycles, hpushes⟩, hr0,
      ((returned_frame s).mono (by decide)).trans hframe⟩
  · rw [decodeCycle_of_spent hrun hcap] at hstep
    exact ⟨_, hstep, failDecode_counted_spec s _ _⟩
  · rw [decodeCycle_of_undecodable hrun hcap herr] at hstep
    exact ⟨_, hstep, failDecode_counted_spec s _ _⟩

end Sys2Proof.Machine
end

section
/-! What a whole decode leaves: its ends, within the cycle cap and with the counts reported, and its writes, all in the output region (45_glz_decode.md R118, R120 to R123). -/

namespace Sys2Proof.Machine

/-! ### The end of a decode -/

/-- t is where the decode in progress at s ends: the block is idle, the counts lie within the cap, and only the output region and the results are written (45_glz_decode.md R118, R120, R121). -/
structure State.DecodesTo (s t : State) : Prop where
  stopped : t.dec.running = false
  idle : t.report.busy = false
  cycles : t.cycles.toNat ≤ 2 * s.dec.limit + 1
  pushes : t.pushes.toNat ≤ t.cycles.toNat
  frame : s.changesOnly decodeParts t
  normal : t.report.err = false → s.changesOnly [.report, .bytemem, .res0, .cycles, .pushes, .dec] t
  kept : s.bytesKeptOutside s.dec.out (s.dec.out + s.dec.limit) t

theorem saturate_le_saturate {m n : Nat} (h : m ≤ n) : (saturate m).toNat ≤ (saturate n).toNat := by
  rw [toNat_saturate, toNat_saturate]
  exact min_le_min_right _ h

theorem saturate_le (n : Nat) : (saturate n).toNat ≤ n := (toNat_saturate n).trans_le (min_le_left _ _)

section

variable {s : State} (hpushes : s.dec.pushes ≤ s.dec.cycles) (hcycles : s.dec.cycles ≤ 2 * s.dec.limit + 1)

include hpushes hcycles

theorem endDecode_decodesTo : s.DecodesTo s.endDecode where
  stopped := rfl
  idle := rfl
  cycles := (saturate_le _).trans hcycles
  pushes := saturate_le_saturate hpushes
  frame := endDecode_frame s
  normal := fun _ => (endDecode_spec s).2.2.2.2.2.mono (by decide)
  kept := fun _ _ => rfl

theorem failDecode_decodesTo (code : ErrCode) (pos : Nat) : s.DecodesTo (s.failDecode code pos) where
  stopped := rfl
  idle := rfl
  cycles := (saturate_le _).trans hcycles
  pushes := saturate_le_saturate hpushes
  frame := failDecode_frame s code pos
  normal := fun herr => absurd herr (by simp [State.failDecode, Report.failed])
  kept := fun _ ha => looseBytes_read_outside s _ _ ha

end

/-! ### A decode that goes on -/

/-- The decode goes on from s to t: the same output region, where alone it writes (45_glz_decode.md R121). -/
structure State.GoesOnTo (s t : State) : Prop where
  out : t.dec.out = s.dec.out
  limit : t.dec.limit = s.dec.limit
  frame : s.changesOnly [.bytemem, .dec] t
  kept : s.bytesKeptOutside s.dec.out (s.dec.out + s.dec.limit) t

theorem State.GoesOnTo.trans {s t u : State} (a : s.GoesOnTo t) (b : t.GoesOnTo u) : s.GoesOnTo u where
  out := b.out.trans a.out
  limit := b.limit.trans a.limit
  frame := a.frame.trans b.frame
  kept := fun p hp => (b.kept p (by rwa [a.out, a.limit])).trans (a.kept p hp)

theorem State.GoesOnTo.decodesTo {s t u : State} (a : s.GoesOnTo t) (b : t.DecodesTo u) : s.DecodesTo u where
  stopped := b.stopped
  idle := b.idle
  cycles := by rw [← a.limit]; exact b.cycles
  pushes := b.pushes
  frame := (a.frame.mono (by decide)).trans b.frame
  normal := fun herr => (a.frame.mono (by decide)).trans (b.normal herr)
  kept := fun p hp => (b.kept p (by rwa [a.out, a.limit])).trans (a.kept p hp)

/-- A change of the decoder's registers alone, its output region apart. -/
theorem goesOnTo_withDec (s : State) {x : Decoder} (hout : x.out = s.dec.out) (hlimit : x.limit = s.dec.limit) :
    s.GoesOnTo { s with dec := x } where
  out := hout
  limit := hlimit
  frame := (withDec_frame s x).mono (by decide)
  kept := fun _ _ => rfl

theorem goesOnTo_returned (s : State) : s.GoesOnTo s.returned := goesOnTo_withDec s (by simp) (by simp)

theorem goesOnTo_counted (s : State) : s.GoesOnTo s.counted := goesOnTo_withDec s rfl rfl

theorem goesOnTo_fetched (s : State) (q : Nat) : s.GoesOnTo (s.fetched q) := goesOnTo_withDec s rfl rfl

/-! ### One cycle -/

/-- A decode in progress within its bounds, with no more pushes than cycles (45_glz_decode.md R118). -/
structure State.WithinBounds (s : State) : Prop where
  running : s.dec.running = true
  decoder : s.dec.InProgress
  pushes : s.dec.pushes ≤ s.dec.cycles

/-- The bytes written lie within the limit. -/
theorem Decoder.InProgress.written_le {x : Decoder} (h : x.InProgress) : x.k ≤ x.limit := by
  have ha := h.account
  unfold Decoder.accounted at ha
  split at ha
  · obtain ⟨-, -, hsum⟩ := ha
    omega
  · exact ha.1

@[simp] theorem Decoder.push_pushes (x : Decoder) (f : Frame) : (x.push f).pushes = x.pushes + 1 := by
  unfold Decoder.push; split <;> rfl

/-- What a fetched operation can do to a decode within its bounds: end it, or go on with it. -/
theorem runOp_outcome {s : State} (hs : s.WithinBounds) (hpushes : s.dec.pushes + 1 ≤ s.dec.cycles)
    (hq : s.dec.q < 2 ^ 32) {op : Op} (hsize : ∀ n o, op = .ref n o → n < 2 ^ 32) :
    s.DecodesTo (runOp op s) ∨
      s.GoesOnTo (runOp op s) ∧ (runOp op s).WithinBounds ∧ (runOp op s).dec.cycles = s.dec.cycles := by
  have hcap := hs.decoder.cap
  have hfail : ∀ code pos, s.DecodesTo (s.failDecode code pos) :=
    failDecode_decodesTo hs.pushes (hcap.trans (Nat.le_succ _))
  cases op with
  | imm n b =>
    rw [runOp_imm]
    rcases runImmediate_cases n b s with ⟨-, hrun⟩ | ⟨hroom, hdec, hframe, hread⟩
    · exact .inl (hrun ▸ hfail _ _)
    · have hx := hs.decoder.immediate hroom (by omega)
      have hwritten := hx.written_le
      refine .inr ⟨⟨by rw [hdec], by rw [hdec], hframe, fun a ha => ?_⟩, ⟨?_, hdec ▸ hx, ?_⟩, by rw [hdec]⟩
      · rw [hread, if_neg (by dsimp only at hwritten; omega)]
      · rw [hdec]; exact hs.running
      · rw [hdec]; exact hs.pushes
  | ref n o =>
    have ho := o.isLt
    rw [runOp_ref]
    rcases runReference_cases n o s with ⟨-, hrun⟩ | ⟨-, -, hrun⟩ | ⟨hcovered, hd, hrun⟩ <;> rw [hrun]
    · exact .inr ⟨goesOnTo_withDec s rfl rfl,
        ⟨hs.running, hs.decoder.moved (p := s.dec.q + o.toNat) (by omega), hs.pushes⟩, rfl⟩
    · exact .inl (hfail _ _)
    · have hx := hs.decoder.reference (p := s.dec.q + o.toNat) hcovered hd (hsize n o rfl) (by omega) (by omega)
      exact .inr ⟨goesOnTo_withDec s (by simp) (by simp),
        ⟨by simpa using hs.running, hx, by simpa using hpushes⟩, by simp⟩

/-- A reference that decodes has a size below 2^32 (10_state.md R35). -/
theorem decodedSize_lt {s : State} {p q n : Nat} {o : Word} (h : decodeOp s.coder s.stream p = .ok (.ref n o, q)) :
    n < 2 ^ 32 := by
  have hn : n ≤ 2 ^ s.cfg.l.toNat + 1 := decodeOp_refSize h
  have hl : 2 ^ s.cfg.l.toNat ≤ 2 ^ 31 := Nat.pow_le_pow_right (by omega) (by have := s.cfg.l.isLt; omega)
  omega

theorem State.WithinBounds.returned {s : State} (hs : s.WithinBounds) : s.returned.WithinBounds where
  running := (s.dec.popFinished_running s.dec.d).trans hs.running
  decoder := hs.decoder.popFinished _
  pushes := by simpa [State.returned] using hs.pushes

/-- One cycle of a decode within its bounds ends it, or goes on with one more cycle counted (45_glz_decode.md R117, R118). -/
theorem decodeCycle_outcome {s : State} (hs : s.WithinBounds) :
    s.DecodesTo (decodeCycle s) ∨
      s.GoesOnTo (decodeCycle s) ∧ (decodeCycle s).WithinBounds ∧ (decodeCycle s).dec.cycles = s.dec.cycles + 1 := by
  have hreturned := goesOnTo_returned s
  obtain ⟨hr, hx, hpushes⟩ := hs.returned
  have hcap := hx.cap
  have hfail : ∀ code pos, s.DecodesTo (s.returned.counted.failDecode code pos) := fun code pos =>
    (hreturned.trans (goesOnTo_counted _)).decodesTo
      (failDecode_decodesTo (s := s.returned.counted) (hpushes.trans (Nat.le_succ _)) (Nat.succ_le_succ hcap) code pos)
  cases hend : s.returned.dec.finished s.streamLen.toNat with
  | true =>
    rw [decodeCycle_of_finished hend]
    exact .inl (hreturned.decodesTo (endDecode_decodesTo hpushes (hcap.trans (Nat.le_succ _))))
  | false =>
    rcases Nat.lt_or_ge (2 * s.returned.dec.limit) (s.returned.dec.cycles + 1) with hspent | hleft
    · rw [decodeCycle_of_spent hend hspent]
      exact .inl (hfail _ _)
    rcases hdecode : decodeOp s.coder s.stream s.returned.dec.p with why | ⟨op, q⟩
    · rw [decodeCycle_of_undecodable hend hleft hdecode]
      exact .inl (hfail _ _)
    · rw [decodeCycle_of_op hend hleft hdecode]
      have hgo : s.GoesOnTo (s.returned.fetched q) := hreturned.trans (goesOnTo_fetched _ q)
      have hfetched : (s.returned.fetched q).WithinBounds := ⟨hr, hx.fetched hleft q, hpushes.trans (Nat.le_succ _)⟩
      have hq : q < 2 ^ 32 := (decodedOperationIsLegal _ _ _ _ _ hdecode).2.2.trans_lt s.streamLen.isLt
      have hsize : ∀ n o, op = .ref n o → n < 2 ^ 32 := fun n o hop => decodedSize_lt (hop ▸ hdecode)
      rcases runOp_outcome hfetched (Nat.succ_le_succ hpushes) hq hsize with hto | ⟨hon, hbounds, hcount⟩
      · exact .inl (hgo.decodesTo hto)
      · refine .inr ⟨hgo.trans hon, hbounds, hcount.trans ?_⟩
        exact congrArg (· + 1) (s.dec.popFinished_cycles s.dec.d)

/-! ### The loop and the commands -/

/-- With fuel for one cycle past the cap the loop ends the decode (45_glz_decode.md R120). -/
theorem decodeLoop_decodesTo {fuel : Nat} {s : State} (hs : s.WithinBounds)
    (hfuel : 2 * s.dec.limit + 1 ≤ s.dec.cycles + fuel) : s.DecodesTo (decodeLoop fuel s) := by
  induction fuel generalizing s with
  | zero =>
    have hcap := hs.decoder.cap
    omega
  | succ fuel ih =>
    rw [decodeLoop, if_pos hs.running]
    rcases decodeCycle_outcome hs with hto | ⟨hon, hbounds, hcount⟩
    · rwa [decodeLoop_of_stopped hto.stopped]
    · exact hon.decodesTo (ih hbounds (by rw [hon.limit, hcount]; omega))

/-- A decode command ends, whether its start checks and its range check hold or not (45_glz_decode.md R120, R122, R123). -/
theorem decodeCommandFrom_decodesTo {s : State} (hs : s.WithinBounds) : s.DecodesTo (decodeCommandFrom s) := by
  have hfail : ∀ code pos, s.DecodesTo (s.failDecode code pos) :=
    failDecode_decodesTo hs.pushes (hs.decoder.cap.trans (Nat.le_succ _))
  unfold decodeCommandFrom
  split_ifs
  · exact hfail _ _
  · exact hfail _ _
  · exact decodeLoop_decodesTo hs (Nat.le_add_left _ _)

theorem enterDecodeStream_frame (s : State) : s.changesOnly [.report, .dec] s.enterDecodeStream := by
  intro p hp
  cases p with
  | report | dec => exact absurd (by decide) hp
  | _ => rfl

theorem glzDecodeAt_decodesTo (s : State) : s.enterDecodeAt.DecodesTo (decodeCommandFrom s.enterDecodeAt) :=
  decodeCommandFrom_decodesTo ⟨rfl, enterDecodeAt_inProgress s, le_rfl⟩

theorem glzDecodeStream_decodesTo (s : State) :
    s.enterDecodeStream.DecodesTo (decodeCommandFrom s.enterDecodeStream) :=
  decodeCommandFrom_decodesTo ⟨rfl, enterDecodeStream_inProgress s, le_rfl⟩

/-- Past the start checks an output range that leaves BYTEMEM ends the command in CAPACITY(0) (45_glz_decode.md R122, R123). -/
theorem decodeCommandFrom_of_badRange {s : State} (hok : s.opsOk = true)
    (hrange : s.cap.bytememBytes.toNat < s.dec.out + s.dec.limit) :
    decodeCommandFrom s = s.failDecode .capacity 0 := by
  rw [decodeCommandFrom, hok, rangeOk_eq_false_iff.2 hrange]
  rfl

/-- What a decode command leaves of the state before it, from what its decode leaves of the state it enters. -/
theorem State.DecodesTo.writesOnly {s u t : State} (h : u.DecodesTo t) (hu : s.changesOnly [.report, .dec] u) :
    s.changesOnly decodeParts t ∧ s.bytesKeptOutside u.dec.out (u.dec.out + u.dec.limit) t ∧
      (t.report.err = false → s.changesOnly [.report, .bytemem, .res0, .cycles, .pushes, .dec] t) := by
  have hbytes : u.bytemem = s.bytemem := hu .bytemem (by decide)
  exact ⟨(hu.mono (by decide)).trans h.frame, fun a ha => (h.kept a ha).trans (by rw [hbytes]),
    fun herr => (hu.mono (by decide)).trans (h.normal herr)⟩

/-! ### The statements -/

/-- Settles O35: every cycle writes within the output region, and only an error touches RES1 to RES3. -/
theorem decodeCommandsWriteOnlyTheirOutput : Obligations.DecodeCommandsWriteOnlyTheirOutput := by
  intro s t i out len hi hexec
  rcases hi with ⟨rfl, rfl, rfl⟩ | ⟨rfl, rfl, rfl⟩
  · obtain rfl := Host.Outcome.next.inj hexec
    exact (glzDecodeAt_decodesTo s).writesOnly (enterDecodeAt_frame s)
  · obtain rfl := Host.Outcome.next.inj hexec
    exact (glzDecodeStream_decodesTo s).writesOnly (enterDecodeStream_frame s)

/-- Settles O36: a cycle ends the decode or counts one of the cycles that the cap allows. -/
theorem decodeCommandsEndWithinTheCycleCap : Obligations.DecodeCommandsEndWithinTheCycleCap := by
  intro s
  have hat := glzDecodeAt_decodesTo s
  have hstream := glzDecodeStream_decodesTo s
  refine ⟨⟨_, rfl, hat.idle, hat.stopped, hat.cycles, hat.pushes⟩,
    ⟨_, rfl, hstream.idle, hstream.stopped, hstream.cycles, hstream.pushes⟩, fun hok hrange => ?_, fun hok hrange => ?_⟩
  · have hfail := decodeCommandFrom_of_badRange (s := s.enterDecodeAt) hok hrange
    exact endsInError_of_failDecode (congrArg Host.Outcome.next hfail) (enterDecodeAt_frame s)
  · have hfail := decodeCommandFrom_of_badRange (s := s.enterDecodeStream) hok hrange
    exact endsInError_of_failDecode (congrArg Host.Outcome.next hfail) (enterDecodeStream_frame s)

end Sys2Proof.Machine
end

section
/-! The decode commands on a stream of immediates: their bytes, one cycle for each, and no frame (45_glz_decode.md R117, R122, R123). -/

namespace Sys2Proof.Machine

/-! ### Sequences of immediates -/

@[simp] theorem immediatesCode_cons (c : Coder) (n : Nat) (b : Byte) (ims : List (Nat × Byte)) :
    immediatesCode c ((n, b) :: ims) = encodeOp c (.imm n b) ++ immediatesCode c ims := rfl

@[simp] theorem immediatesBytes_nil : immediatesBytes [] = [] := rfl

@[simp] theorem immediatesBytes_cons (n : Nat) (b : Byte) (ims : List (Nat × Byte)) :
    immediatesBytes ((n, b) :: ims) = List.replicate n b ++ immediatesBytes ims := rfl

theorem immediatesLegal_cons {l n : Nat} {b : Byte} {ims : List (Nat × Byte)} :
    immediatesLegal l ((n, b) :: ims) ↔ (Op.imm n b).wf l = true ∧ immediatesLegal l ims := by
  simp [immediatesLegal]

/-- Every immediate of a legal sequence stands for a byte at least (43_glz_ops.md R98). -/
theorem length_le_length_immediatesBytes {l : Nat} {ims : List (Nat × Byte)} (h : immediatesLegal l ims) :
    ims.length ≤ (immediatesBytes ims).length := by
  induction ims with
  | nil => exact le_rfl
  | cons x ims ih =>
    obtain ⟨n, b⟩ := x
    obtain ⟨hop, hrest⟩ := immediatesLegal_cons.1 h
    have hn := (Op.wf_imm_iff.1 hop).1
    have := ih hrest
    simp only [immediatesBytes_cons, List.length_append, List.length_replicate, List.length_cons]
    omega

theorem Remaining.less_less (r : Remaining) (m n : Nat) : (r.less m).less n = r.less (m + n) := by
  cases r with
  | unbounded => rfl
  | bytes k => exact congrArg Remaining.bytes (Nat.sub_sub k m n)

/-! ### Cycles of immediates -/

theorem returned_of_noFrame {s : State} (hd : s.dec.d = 0) : s.returned = s := by
  rw [State.returned, hd]
  rfl

/-- With no frame in use, a cycle that fetches an immediate writes its bytes, clipped to those owed, and moves p past it (45_glz_decode.md R117). -/
theorem decodeCycle_of_immediate {s : State} {n q : Nat} {b : Byte} (hd : s.dec.d = 0)
    (hrun : s.dec.finished s.streamLen.toNat = false) (hcycles : s.dec.cycles + 1 ≤ 2 * s.dec.limit)
    (hrange : s.dec.out + s.dec.limit ≤ s.cap.bytememBytes.toNat)
    (hdecode : decodeOp s.coder s.stream s.dec.p = .ok (.imm n b, q)) :
    let m := s.dec.rem.clip n
    s.dec.k + m ≤ s.dec.limit →
      (decodeCycle s).dec = { s.dec with
        cycles := s.dec.cycles + 1, q := q, p := q, k := s.dec.k + m, rem := s.dec.rem.less m } ∧
      s.changesOnly [.bytemem, .dec] (decodeCycle s) ∧
      ∀ a, (decodeCycle s).bytemem.read a =
        (s.bytemem.writeList (s.dec.out + s.dec.k) (List.replicate m b)).read a := by
  intro m hroom
  have hreturned := returned_of_noFrame hd
  have hcycle : decodeCycle s = runImmediate n b (s.fetched q) := by
    rw [decodeCycle_of_op (hreturned.symm ▸ hrun) (hreturned.symm ▸ hcycles) (hreturned.symm ▸ hdecode), hreturned,
      runOp_imm]
  rcases runImmediate_cases n b (s.fetched q) with ⟨⟨-, hpast⟩, -⟩ | ⟨-, hdec, hframe, hread⟩
  · exact absurd hroom (Nat.not_le.2 hpast)
  rw [← hcycle] at hdec hframe hread
  refine ⟨hdec, (goesOnTo_fetched s q).frame.trans hframe, fun a => (hread a).trans ?_⟩
  change (if s.dec.out + s.dec.k ≤ a ∧ a < s.dec.out + s.dec.k + m ∧ a < s.cap.bytememBytes.toNat then b
    else s.bytemem.read a) = _
  rw [Memory.read_writeList]
  simp only [List.length_replicate, List.getElem_replicate, dite_eq_ite]
  congr 1
  exact propext ⟨fun ⟨hlo, hhi, _⟩ => ⟨hlo, by omega⟩, fun ⟨hlo, hhi⟩ => ⟨hlo, by omega, by omega⟩⟩

/-- A decode at its entry: no frame in use and nothing written (45_glz_decode.md R117). -/
structure State.AtEntry (u : State) : Prop extends u.DecodeReady where
  running : u.dec.running = true
  depth : u.dec.d = 0
  count : u.dec.k = 0

/-- In the decode entered at u immediates have written the bytes bs: p, the cycle count and what is owed move, the frames do not (45_glz_decode.md R117). -/
structure State.WroteFlat (u : State) (bs : List Byte) (s : State) : Prop where
  decoder : s.dec = { u.dec with
    p := s.dec.p, q := s.dec.q, cycles := s.dec.cycles, k := bs.length, rem := u.dec.rem.less bs.length }
  frame : u.changesOnly [.bytemem, .dec] s
  bytes : ∀ a, s.bytemem.read a = (u.bytemem.writeList u.dec.out bs).read a

section

variable {u s : State} {bs : List Byte} (hu : u.AtEntry)

include hu

theorem State.AtEntry.wroteFlat : u.WroteFlat [] u where
  decoder := by
    have hless : u.dec.rem.less 0 = u.dec.rem := by cases u.dec.rem <;> rfl
    rw [List.length_nil, hless, ← hu.count]
  frame := u.changesOnly_refl _
  bytes := fun _ => rfl

variable (h : u.WroteFlat bs s)

include h

theorem State.WroteFlat.running : s.dec.running = true := by rw [h.decoder]; exact hu.running

theorem State.WroteFlat.depth : s.dec.d = 0 := by rw [h.decoder]; exact hu.depth

/-- The next cycle runs the immediate whose code lies at p. -/
theorem State.WroteFlat.next {n : Nat} {b : Byte} (hrun : s.dec.finished u.streamLen.toNat = false)
    (hcycles : s.dec.cycles + 1 ≤ 2 * u.dec.limit)
    (hroom : bs.length + (u.dec.rem.less bs.length).clip n ≤ u.dec.limit)
    (hop : (Op.imm n b).wf u.coder.l = true) (hcode : u.stream.holdsCode s.dec.p (encodeOp u.coder (.imm n b))) :
    ∃ t, s.Reaches 1 t ∧ u.WroteFlat (bs ++ List.replicate ((u.dec.rem.less bs.length).clip n) b) t ∧
      t.dec.p = s.dec.p + (encodeOp u.coder (.imm n b)).length := by
  have hlimit : s.dec.limit = u.dec.limit := by rw [h.decoder]
  have hout : s.dec.out = u.dec.out := by rw [h.decoder]
  have hk : s.dec.k = bs.length := by rw [h.decoder]
  have hrem : s.dec.rem = u.dec.rem.less bs.length := by rw [h.decoder]
  have hcap : s.cap = u.cap := h.frame .cap (by decide)
  have hlen : s.streamLen = u.streamLen := h.frame .streamLen (by decide)
  have hdecode : decodeOp s.coder s.stream s.dec.p =
      .ok (.imm n b, s.dec.p + (encodeOp u.coder (.imm n b)).length) := by
    rw [h.frame.coder (by decide), h.frame.stream (by decide), length_encodeOp]
    exact decodeOp_of_encodeOp hu.remap hu.chunk hop hcode
  rw [← hlen] at hrun
  rw [← hrem, ← hk, ← hlimit] at hroom
  obtain ⟨hdec, hframe, hread⟩ := decodeCycle_of_immediate (h.depth hu) hrun (hlimit ▸ hcycles)
    (by rw [hout, hlimit, hcap]; exact hu.range) hdecode hroom
  refine ⟨_, State.reaches_decodeCycle (h.running hu) (by rw [hdec]), ⟨?_, h.frame.trans hframe, fun a => ?_⟩,
    by rw [hdec]⟩
  · rw [hdec, List.length_append, List.length_replicate, ← Remaining.less_less, ← hrem, ← hk, h.decoder]
  · rw [hread, Memory.writeList_append, Memory.read_writeList, Memory.read_writeList _ (_ + bs.length), h.bytes,
      hout, hk, hrem]

/-- The immediates of GLZ_DECODE_AT write down to the last byte owed, each at least one (45_glz_decode.md R117, R122). -/
theorem State.WroteFlat.decodeAt (hcmd : u.dec.cmd = .decodeAt) (howed : u.dec.rem = .bytes u.dec.limit)
    {ims : List (Nat × Byte)} (hlegal : immediatesLegal u.coder.l ims)
    (hcode : u.stream.holdsCode s.dec.p (immediatesCode u.coder ims)) (hle : bs.length ≤ u.dec.limit)
    (henough : u.dec.limit ≤ bs.length + (immediatesBytes ims).length) (hcycles : s.dec.cycles ≤ bs.length) :
    ∃ t n, s.Reaches n t ∧ n + bs.length ≤ u.dec.limit ∧
      u.WroteFlat ((bs ++ immediatesBytes ims).take u.dec.limit) t := by
  induction ims generalizing s bs with
  | nil =>
    have hall : bs.length = u.dec.limit := le_antisymm hle henough
    exact ⟨s, 0, .refl s, by omega, by rwa [List.take_left' hall]⟩
  | cons x ims ih =>
    obtain ⟨c, b⟩ := x
    obtain ⟨hop, hlegal⟩ := immediatesLegal_cons.1 hlegal
    have hpos := (Op.wf_imm_iff.1 hop).1
    rw [immediatesCode_cons, BitStream.holdsCode_append] at hcode
    obtain ⟨hhead, hrest⟩ := hcode
    rw [immediatesBytes_cons] at henough ⊢
    rcases hle.eq_or_lt with hall | hleft
    · exact ⟨s, 0, .refl s, by omega, by rwa [List.take_left' hall]⟩
    have hclip : (u.dec.rem.less bs.length).clip c = min c (u.dec.limit - bs.length) := by rw [howed]; rfl
    have hrun : s.dec.finished u.streamLen.toNat = false := by
      rw [h.decoder, Decoder.finished]
      simp only [hcmd, howed, Remaining.less, Remaining.isZero, decide_eq_false_iff_not]
      omega
    obtain ⟨t, hst, ht, hp⟩ := h.next hu hrun (by omega) (by omega) hop hhead
    rw [hclip] at ht
    rcases Nat.le_total c (u.dec.limit - bs.length) with hfits | hlast
    · rw [Nat.min_eq_left hfits] at ht
      have hlength : (bs ++ List.replicate c b).length = bs.length + c := by simp
      have hcount := hst.1
      simp only [List.length_append, List.length_replicate] at henough
      obtain ⟨v, k, htv, hk, hv⟩ := ih ht hlegal (hp ▸ hrest) (by omega) (by omega) (by omega)
      rw [List.append_assoc] at hv
      exact ⟨v, 1 + k, hst.trans htv, by omega, hv⟩
    · rw [Nat.min_eq_right hlast] at ht
      refine ⟨t, 1, hst, by omega, ?_⟩
      rwa [List.take_append, List.take_of_length_le hle, List.take_append_of_le_length (by simpa using hlast),
        List.take_replicate, Nat.min_eq_left hlast]

/-- The immediates of GLZ_DECODE_STREAM write all their bytes, up to the end of the stream (45_glz_decode.md R123). -/
theorem State.WroteFlat.decodeStream (hcmd : u.dec.cmd = .decodeStream) (howed : u.dec.rem = .unbounded)
    {ims : List (Nat × Byte)} (hlegal : immediatesLegal u.coder.l ims)
    (hcode : u.stream.holds s.dec.p (immediatesCode u.coder ims))
    (hend : s.dec.p + (immediatesCode u.coder ims).length = u.streamLen.toNat)
    (hroom : bs.length + (immediatesBytes ims).length ≤ u.dec.limit) (hcycles : s.dec.cycles ≤ bs.length) :
    ∃ t, s.Reaches ims.length t ∧ u.WroteFlat (bs ++ immediatesBytes ims) t ∧ t.dec.p = u.streamLen.toNat := by
  induction ims generalizing s bs with
  | nil => exact ⟨s, .refl s, by rwa [immediatesBytes_nil, List.append_nil], hend⟩
  | cons x ims ih =>
    obtain ⟨c, b⟩ := x
    obtain ⟨hop, hlegal⟩ := immediatesLegal_cons.1 hlegal
    have hpos := (Op.wf_imm_iff.1 hop).1
    rw [immediatesCode_cons, BitStream.holds_append] at hcode
    obtain ⟨hhead, hrest⟩ := hcode
    rw [immediatesCode_cons, List.length_append] at hend
    rw [immediatesBytes_cons, List.length_append, List.length_replicate] at hroom
    have hbits := u.coder.opLen_pos (.imm c b)
    rw [← length_encodeOp] at hbits
    have hclip : (u.dec.rem.less bs.length).clip c = c := by rw [howed]; rfl
    have hrun : s.dec.finished u.streamLen.toNat = false := by
      have hcmd' : s.dec.cmd = .decodeStream := by rw [h.decoder]; exact hcmd
      simp only [Decoder.finished, hcmd', Bool.and_eq_false_iff, decide_eq_false_iff_not]
      omega
    have hinside : s.dec.p + (encodeOp u.coder (.imm c b)).length ≤ u.streamLen.toNat := by omega
    obtain ⟨t, hst, ht, hp⟩ := h.next hu hrun (by omega) (by omega) hop ⟨hhead, hinside⟩
    rw [hclip] at ht
    have hlength : (bs ++ List.replicate c b).length = bs.length + c := by simp
    have hcount := hst.1
    obtain ⟨v, htv, hv, hvp⟩ := ih ht hlegal (hp ▸ hrest) (by omega) (by omega) (by omega)
    exact ⟨v, by rw [List.length_cons, Nat.add_comm]; exact hst.trans htv, by rwa [immediatesBytes_cons, ← List.append_assoc], hvp⟩

/-- At the exit test the next cycle ends the command (45_glz_decode.md R117). -/
theorem State.WroteFlat.decodeLoop_eq (hend : s.dec.finished u.streamLen.toNat = true) (fuel : Nat) :
    decodeLoop (fuel + 1) s = s.endDecode := by
  have hreturned := returned_of_noFrame (h.depth hu)
  have hlen : s.streamLen = u.streamLen := h.frame .streamLen (by decide)
  have hcycle : decodeCycle s = s.returned.endDecode :=
    decodeCycle_of_finished (by rw [hreturned, hlen]; exact hend)
  rw [decodeLoop, if_pos (h.running hu), hcycle, hreturned, decodeLoop_of_stopped rfl]

end

/-! ### The commands -/

/-- A decode command whose immediates lead from its entry to its exit test ends normally with their bytes and counts (45_glz_decode.md R117, R118). -/
theorem endsNormally_of_wroteFlat {i : Instr} {s u t : State} {bs : List Byte} {n : Nat} (hu : u.AtEntry)
    (hexec : exec i s = .next (decodeLoop (2 * u.dec.limit + 1) u)) (henter : s.changesOnly [.report, .dec] u)
    (hstarted : u.report = Report.started) (hreach : u.Reaches n t) (hn : n ≤ 2 * u.dec.limit)
    (ht : u.WroteFlat bs t) (hend : t.dec.finished u.streamLen.toNat = true) :
    endsNormally i s [.bytemem, .res0, .cycles, .pushes, .dec] fun v =>
      (∀ a, v.bytemem.read a = (s.bytemem.writeList u.dec.out bs).read a) ∧ v.res.r0 = BitVec.ofNat 32 bs.length ∧
        v.pushes = saturate u.dec.pushes ∧ v.cycles = saturate (u.dec.cycles + n) := by
  obtain ⟨hcount, hloop⟩ := hreach
  have hrun : exec i s = .next t.endDecode := by
    rw [hexec, ← ht.decodeLoop_eq hu hend (2 * u.dec.limit - n), ← hloop]
    congr 2
    omega
  obtain ⟨-, hreport, hcycles, hpushes, hr0, hframe⟩ := endDecode_spec t
  have hstarted' : t.report = Report.started := (ht.frame .report (by decide)).trans hstarted
  have hbytemem : t.endDecode.bytemem = t.bytemem := hframe .bytemem (by decide)
  have hentered : u.bytemem = s.bytemem := henter .bytemem (by decide)
  refine ⟨_, hrun, ?_, ?_, fun a => ?_, ?_, ?_, ?_⟩
  · rw [hreport, hstarted']
    rfl
  · exact ((henter.mono (by decide)).trans (ht.frame.mono (by decide))).trans (hframe.mono (by decide))
  · rw [hbytemem, ht.bytes, hentered]
  · rw [hr0, ht.decoder]
  · rw [hpushes, ht.decoder]
  · rw [hcycles, hcount]

theorem chunk_of_opsOk {s : State} (hok : s.opsOk = true) : 1 ≤ s.coder.m := by
  simp only [State.opsOk, State.lmOk, Bool.and_eq_true, decide_eq_true_eq] at hok
  exact hok.2.1.2

/-- What a list written from a on leaves outside its range (45_glz_decode.md R121). -/
theorem bytesKeptOutside_of_writeList {s t : State} {a : Nat} {bs : List Byte}
    (h : ∀ p, t.bytemem.read p = (s.bytemem.writeList a bs).read p) : s.bytesKeptOutside a (a + bs.length) t := by
  intro p hp
  rw [h, Memory.read_writeList, dif_neg (by omega)]

/-- Settles O33: each immediate is a cycle, and the last one is clipped to the bytes still owed. -/
theorem decodeAtWritesImmediates : Obligations.DecodeAtWritesImmediates := by
  intro s ims hok hremap hrange hlegal hcode henough
  have hu : s.enterDecodeAt.AtEntry := ⟨⟨hremap, chunk_of_opsOk hok, hrange⟩, rfl, rfl, rfl⟩
  obtain ⟨t, n, hreach, hn, ht⟩ := hu.wroteFlat.decodeAt hu rfl rfl hlegal hcode (Nat.zero_le _)
    (henough.trans (Nat.le_add_left _ _)) le_rfl
  have hlength : ((immediatesBytes ims).take s.arg1).length = s.arg1 := List.length_take_of_le henough
  have hend : t.dec.finished s.enterDecodeAt.streamLen.toNat = true := by
    rw [ht.decoder]
    change decide (s.arg1 - ((immediatesBytes ims).take s.arg1).length = 0) = true
    rw [hlength]
    simp
  have hn' : n ≤ s.arg1 := hn
  refine (endsNormally_of_wroteFlat hu (exec_glzDecodeAt hok hrange) (enterDecodeAt_frame s) rfl hreach
    (hn'.trans (Nat.le_mul_of_pos_left _ (by decide))) ht hend).mono ?_
  rintro v ⟨hread, hr0, hpushes, hcycles⟩
  change ∀ a, _ = (s.bytemem.writeList s.arg2 ((immediatesBytes ims).take s.arg1)).read a at hread
  change _ = BitVec.ofNat 32 ((immediatesBytes ims).take s.arg1).length at hr0
  have hkept := bytesKeptOutside_of_writeList hread
  have hbytes := Memory.readList_of_writeList hread
  rw [hlength] at hkept hbytes hr0
  refine ⟨hbytes, hkept, hr0.trans (BitVec.ofNat_toNat _ _), hpushes, ?_⟩
  rw [hcycles]
  exact (saturate_le _).trans ((Nat.zero_add n).trans_le hn')

/-- Settles O34: each immediate is a cycle, and after the last one p is STREAM_LEN. -/
theorem decodeStreamWritesImmediates : Obligations.DecodeStreamWritesImmediates := by
  intro s ims hok hremap hrange hlegal hcode hend hroom
  have hu : s.enterDecodeStream.AtEntry := ⟨⟨hremap, chunk_of_opsOk hok, hrange⟩, rfl, rfl, rfl⟩
  obtain ⟨t, hreach, ht, hp⟩ := hu.wroteFlat.decodeStream hu rfl rfl hlegal hcode hend
    ((Nat.zero_add _).trans_le hroom) le_rfl
  have hfinished : t.dec.finished s.enterDecodeStream.streamLen.toNat = true := by
    have hcmd : t.dec.cmd = .decodeStream := by rw [ht.decoder]; rfl
    simp [Decoder.finished, hcmd, ht.depth hu, hp]
  have hcount := length_le_length_immediatesBytes hlegal
  have hlimit : s.arg2 < 2 ^ 32 := s.args.a2.isLt
  refine (endsNormally_of_wroteFlat hu (exec_glzDecodeStream hok hrange) (enterDecodeStream_frame s) rfl hreach
    ((hcount.trans hroom).trans (Nat.le_mul_of_pos_left _ (by decide))) ht hfinished).mono ?_
  rintro v ⟨hread, hr0, hpushes, hcycles⟩
  refine ⟨Memory.readList_of_writeList hread, bytesKeptOutside_of_writeList hread, ?_, hpushes, ?_⟩
  · rw [hr0, BitVec.toNat_ofNat]
    exact Nat.mod_eq_of_lt (hroom.trans_lt hlimit)
  · rw [hcycles, toNat_saturate]
    change min (0 + ims.length) _ = ims.length
    omega

end Sys2Proof.Machine
end

section
/-! A command written to CMD: that it runs, that it ends, and what NOP and RESET leave (46_host.md R127, R128, R130, R131). -/

namespace Sys2Proof.Machine

/-! ### The end of a command -/

/-- Whatever its pseudocode does, a command's end clears BUSY (46_host.md R127). -/
theorem Ending.close_idle (e : Ending) : e.close.report.busy = false := by
  cases e with
  | done s => rfl
  | raised s why => rfl

/-- Settles O45: a decode command ends by its cycle cap, RESET by its report, any other command by its end; LIT, RUN and REF have no command word. -/
theorem everyCommandEnds : Obligations.EveryCommandEnds := by
  intro s i hi
  cases i with
  | lit b | run n b | ref n o => exact absurd rfl hi
  | reset => exact ⟨_, rfl, rfl⟩
  | glzDecodeAt => exact ⟨_, rfl, (glzDecodeAt_decodesTo s).idle⟩
  | glzDecodeStream => exact ⟨_, rfl, (glzDecodeStream_decodesTo s).idle⟩
  | _ => exact ⟨_, rfl, Ending.close_idle _⟩

/-! ### NOP and RESET -/

/-- Settles O1: the pseudocode of NOP is empty. -/
theorem nopOnlyReportsDone : Obligations.NopOnlyReportsDone :=
  ⟨rfl, fun s => endsNormally_of_done (e := .done s.start) rfl rfl (s.start.changesOnly_refl []) (by decide) trivial⟩

/-- The parts that RESET keeps are the memories, the parameters and what is the host's or the model's own (46_host.md R131). -/
theorem resetKeepingMemory_frame (s : State) :
    s.changesOnly [.report, .cfgK, .cfgL, .cfgM, .remap, .hist, .streamLen, .args, .res0, .res1, .res2, .res3,
      .cycles, .pushes, .dec, .enc] s.resetKeepingMemory := by
  intro p hp
  cases p with
  | cap | bitmem | bytemem | wordmem | inputs | portData | free => rfl
  | _ => exact absurd (by decide) hp

/-- Settles O2: RESET takes each field but the memories from the reset state. -/
theorem resetRestoresAndKeepsMemories : Obligations.ResetRestoresAndKeepsMemories := by
  refine ⟨rfl, fun s => ⟨s.start.resetKeepingMemory, rfl, rfl, rfl, rfl, rfl, rfl, rfl, fun n => rfl, rfl, rfl, rfl, rfl,
    rfl, rfl, rfl, ?_⟩⟩
  exact ((start_frame s).mono (by decide)).trans (resetKeepingMemory_frame s.start)

/-! ### The CMD write -/

/-- Settles O46: a CMD write to an idle block fetches the command that its word decodes to. -/
theorem stepRunsTheCommandWritten : Obligations.StepRunsTheCommandWritten := by
  intro s w i rest hin hidle hdecode
  have hfetch : s.fetch = .instr i { s with inputs := rest } := by
    simp [State.fetch, State.fetchInput, hin, hidle, hdecode]
  rw [step, hfetch]

end Sys2Proof.Machine
end

section
/-! Host accesses: the step that takes one, what each does to an idle block, and the register map (46_host.md R125, R126, 10_state.md R20). -/

namespace Sys2Proof.Machine

/-! ### The step of a host access -/

section

variable {s : State} {a : Input} {rest : List Input} (hin : s.inputs = a :: rest)
  (hcmd : ∀ w, a ≠ .writeReg 0x00 w)

include hin hcmd

/-- An input other than a CMD write has the effect of its access, and a step takes no other. -/
theorem step_of_access : step s = .next (State.access { s with inputs := rest } a) := by
  rcases step_cases s with ⟨b, rest', heq, hstep⟩ | ⟨w, rest', heq, -⟩ | ⟨hnil, -⟩ | ⟨hnil, -⟩
  · obtain ⟨rfl, rfl⟩ := List.cons.inj (hin.symm.trans heq)
    exact hstep
  · exact absurd (List.cons.inj (hin.symm.trans heq)).1 (hcmd w)
  · exact absurd (hin.symm.trans hnil) (by simp)
  · exact absurd (hin.symm.trans hnil) (by simp)

/-- The step of an access takes its input and changes what the access changes. -/
theorem step_of_access_frame {t : State} {ps : List Part} (haccess : State.access { s with inputs := rest } a = t)
    (hframe : State.changesOnly { s with inputs := rest } ps t) (hps : .inputs ∉ ps) :
    step s = .next t ∧ s.changesOnly (.inputs :: ps) t ∧ t.inputs = rest := by
  refine ⟨haccess ▸ step_of_access hin hcmd, ?_, hframe .inputs hps⟩
  exact ((changesOnly_inputs s rest).mono (by simp)).trans (hframe.mono fun _ => List.mem_cons_of_mem _)

end

/-! ### Accesses to an idle block (46_host.md R125, R126) -/

/-- A read changes the port alone (20_memory.md R46). -/
theorem hostRead_frame (s : State) (v : Word) : s.changesOnly [.portData] (s.hostRead v) := by
  intro p hp
  cases p with
  | portData => exact absurd (by decide) hp
  | _ => rfl

section

variable {s : State} (hidle : s.report.busy = false)

include hidle

theorem access_writeReg_idle (r : BitVec 8) (v : Word) : s.access (.writeReg r v) = s.writeRegister r v :=
  hostWrite_idle hidle fun t => t.writeRegister r v

/-- A register read of an idle block returns the register, STATUS like every other (46_host.md R126). -/
theorem access_readReg_idle (r : BitVec 8) : s.access (.readReg r) = s.hostRead (s.readRegister r) := by
  by_cases hr : r = 0x01
  · subst hr; rfl
  · rw [State.access, if_neg hr, hostReadIdle_idle hidle]

theorem access_writeBytemem_idle (j : Word) (v : Byte) :
    s.access (.writeBytemem j v) = s.portWriteBytemem j.toNat v :=
  hostWrite_idle hidle fun t => t.portWriteBytemem j.toNat v

theorem access_writeWordmem_idle (j : Word) (v : Word) :
    s.access (.writeWordmem j v) = s.portWriteWordmem j.toNat v :=
  hostWrite_idle hidle fun t => t.portWriteWordmem j.toNat v

theorem access_writeBitmem_idle (j : Word) (v : Byte) :
    s.access (.writeBitmem j v) = s.portWriteBitmem j.toNat v :=
  hostWrite_idle hidle fun t => t.portWriteBitmem j.toNat v

theorem access_readBytemem_idle (j : Word) :
    s.access (.readBytemem j) = s.hostRead ((s.portReadBytemem j.toNat).setWidth 32) := hostReadIdle_idle hidle _

theorem access_readWordmem_idle (j : Word) :
    s.access (.readWordmem j) = s.hostRead (s.portReadWordmem j.toNat) := hostReadIdle_idle hidle _

theorem access_readBitmem_idle (j : Word) :
    s.access (.readBitmem j) = s.hostRead ((s.portReadBitmem j.toNat).setWidth 32) := hostReadIdle_idle hidle _

end

/-! ### The register map (10_state.md R20) -/

/-- STATUS holds BUSY, DONE and ERR in its bits 0, 1 and 2. -/
theorem toNat_statusWord (r : Report) :
    r.statusWord.toNat = r.busy.toNat + 2 * r.done.toNat + 4 * r.err.toNat := by
  have hbusy := r.busy.toNat_le
  have hdone := r.done.toNat_le
  have herr := r.err.toNat_le
  rw [Report.statusWord, BitVec.toNat_ofNat, Nat.mod_eq_of_lt (by omega)]

/-- CMD and the reserved indices read 0. -/
theorem readRegister_of_reserved (s : State) {r : BitVec 8} (h : r = 0x00 ∨ 0x1A < r.toNat) : s.readRegister r = 0 := by
  have hn : r.toNat = 0 ∨ 0x1A < r.toNat := h.imp_left (congrArg BitVec.toNat)
  unfold State.readRegister
  split <;> first | rfl | omega

/-- REMAP.EN reads as 0 or 1. -/
theorem toNat_enableWord (s : State) : (s.readRegister 0x07).toNat = s.remap.en.toNat := by
  change (BitVec.ofNat 32 s.remap.en.toNat).toNat = _
  cases s.remap.en <;> rfl

/-! ### Register writes -/

/-- The RW registers and their fields (10_state.md R20). -/
theorem writableFields_eq_some_iff {n : Nat} {mask : Word} : writableFields n = some mask ↔
    (n = 0x04 ∨ n = 0x06) ∧ mask = 0x3F ∨ n = 0x05 ∧ mask = 0x1F ∨
      (0x0B ≤ n ∧ n ≤ 0x0F) ∧ mask = 0xFFFFFFFF := by
  unfold writableFields
  split_ifs <;> grind

/-- A field of k bits stores the low k bits of the word written (46_host.md R126). -/
theorem setWidth_setWidth_eq_and (v : Word) (k : Nat) :
    (v.setWidth k).setWidth 32 = v &&& BitVec.ofNat 32 (2 ^ k - 1) := by
  ext i hi
  simp [← BitVec.getLsbD_eq_getElem, BitVec.getLsbD_ofNat, Nat.testBit_two_pow_sub_one, hi, Bool.and_comm]

theorem readRegister_writeRegister_self {s : State} {r : BitVec 8} {v mask : Word}
    (h : writableFields r.toNat = some mask) : (s.writeRegister r v).readRegister r = v &&& mask := by
  rcases writableFields_eq_some_iff.1 h with ⟨hr | hr, rfl⟩ | ⟨hr, rfl⟩ | ⟨hr, rfl⟩
  · simpa [State.writeRegister, State.readRegister, hr] using setWidth_setWidth_eq_and v 6
  · simpa [State.writeRegister, State.readRegister, hr] using setWidth_setWidth_eq_and v 6
  · simpa [State.writeRegister, State.readRegister, hr] using setWidth_setWidth_eq_and v 5
  · have hall : v &&& 0xFFFFFFFF = v := BitVec.and_allOnes
    obtain hr | hr | hr | hr | hr : r.toNat = 0x0B ∨ r.toNat = 0x0C ∨ r.toNat = 0x0D ∨ r.toNat = 0x0E ∨
      r.toNat = 0x0F := by omega
    all_goals simp only [State.writeRegister, State.readRegister, hr, hall]

/-- A write at a read-only register or at a reserved index does nothing (46_host.md R126). -/
theorem writeRegister_of_readOnly {s : State} {r : BitVec 8} {v : Word} (h : writableFields r.toNat = none) :
    s.writeRegister r v = s := by
  unfold State.writeRegister
  split
  case h_9 => rfl
  all_goals simp_all [writableFields]

/-- The registers have no field in common (10_state.md R20). -/
theorem readRegister_writeRegister_of_ne {s : State} {r j : BitVec 8} {v : Word} (h : j ≠ r) :
    (s.writeRegister r v).readRegister j = s.readRegister j := by
  have hn : j.toNat ≠ r.toNat := fun he => h (BitVec.eq_of_toNat_eq he)
  unfold State.writeRegister
  split
  case h_9 => rfl
  -- Each write is to one index, and j reads the same at every other.
  all_goals
    unfold State.readRegister
    split <;> first | rfl | omega

/-- Settles O50: the step is the register write, which the register map reads back. -/
theorem registerWritesStoreTheirFields : Obligations.RegisterWritesStoreTheirFields := by
  intro s r v rest hin hidle hr
  obtain ⟨hstep, hframe, hinputs⟩ := step_of_access_frame hin (fun w he => hr (Input.writeReg.inj he).1)
    (access_writeReg_idle (s := { s with inputs := rest }) hidle r v) (writeRegister_frame _ r v) (by decide)
  refine ⟨_, hstep, hframe.mono (by decide), hinputs, fun j hj => readRegister_writeRegister_of_ne hj, ?_⟩
  split
  · next mask hmask => exact readRegister_writeRegister_self hmask
  · next hnone => exact writeRegister_of_readOnly hnone

end Sys2Proof.Machine
end

section
/-! The memory port and the host's reads: one unit at its address, BITMEM packed into bytes with bit 8j first (46_host.md R125, 20_memory.md R41, R46). -/

namespace Sys2Proof.Machine

/-! ### Host bytes of BITMEM (20_memory.md R41) -/

/-- Bit i of a field is bit w-1-i of its value (20_memory.md R39). -/
theorem testBit_fieldValue (bit : Nat → Bool) (p : Nat) {w i : Nat} (hi : i < w) :
    (fieldValue bit p w).testBit (w - 1 - i) = bit (p + i) := by
  induction w generalizing p i with
  | zero => omega
  | succ w ih =>
    rw [fieldValue, Nat.mul_comm, Nat.testBit_two_pow_mul_add _ (fieldValue_lt bit (p + 1) w)]
    cases i with
    | zero => cases bit p <;> simp
    | succ i =>
      have hrest := ih (p + 1) (i := i) (by omega)
      rw [if_pos (by omega), show w + 1 - 1 - (i + 1) = w - 1 - i by omega, hrest,
        show p + 1 + i = p + (i + 1) by omega]

/-- A port read of BITMEM returns bit 8j + i as bit 7 - i, and 0 for a bit outside (20_memory.md R41, 46_host.md R125). -/
theorem portReadBitmem_getLsbD (s : State) (j : Nat) {i : Nat} (hi : i < 8) :
    (s.portReadBitmem j).getLsbD (7 - i) = (decide (8 * j + i < s.cap.bitmemBits.toNat) && s.bit (8 * j + i)) := by
  unfold State.portReadBitmem
  split
  · rw [State.hostByte, BitVec.getLsbD_ofNat, testBit_fieldValue _ _ hi]
    simp [show 7 - i < 8 by omega]
  · next hout =>
    have hbits : s.cap.bitmemBits.toNat ≤ j * 8 := Nat.not_lt.1 fun h => hout ((lt_ceilDiv_iff (by decide)).2 h)
    simp [show ¬ 8 * j + i < s.cap.bitmemBits.toNat by omega]

/-- A port write of BITMEM stores bit 7 - i of the byte as bit 8j + i, if that bit is in the memory (20_memory.md R41). -/
theorem portWriteBitmem_read (s : State) (j : Nat) (v : Byte) {i : Nat} (hi : i < 8) :
    (s.portWriteBitmem j v).bitmem.read (8 * j + i) =
      if 8 * j + i < s.cap.bitmemBits.toNat then BitVec.ofBool (v.getLsbD (7 - i))
      else s.bitmem.read (8 * j + i) := by
  rw [State.portWriteBitmem, writeBits_read]
  split_ifs with hin hcap hcap
  · simp [byteBits, getElem_fieldBits, BitVec.getLsbD]
  · exact absurd hin.2.2 hcap
  · exact absurd ⟨Nat.le_add_right _ _, by simpa [byteBits] using hi, hcap⟩ hin
  · rfl

/-- A port write of BITMEM leaves every bit outside its byte alone. -/
theorem portWriteBitmem_kept (s : State) (j : Nat) (v : Byte) :
    s.bitsKeptOutside (8 * j) (8 * j + 8) (s.portWriteBitmem j v) := by
  intro p hp
  rw [State.portWriteBitmem, writeBits_read, dif_neg (by simp [byteBits]; omega)]

/-! ### Writes through the memory port -/

/-- Settles O52: each write is the write of its unit, by what the memory reads afterwards. -/
theorem portWritesOneUnit : Obligations.PortWritesOneUnit := by
  intro s a rest hin hidle
  refine ⟨?_, ?_, ?_⟩
  · rintro j v rfl
    obtain ⟨hstep, hframe, hinputs⟩ := step_of_access_frame hin (by simp)
      (access_writeBytemem_idle (s := { s with inputs := rest }) hidle j v)
      (portWriteBytemem_frame _ j.toNat v) (by decide)
    refine ⟨_, hstep, hframe, hinputs, fun b hb => ?_, ?_⟩
    · rw [State.portWriteBytemem, writeByte_read, if_neg (by omega)]
    · split
      · next hj => rw [State.portWriteBytemem, writeByte_read, if_pos ⟨rfl, hj⟩]
      · next hj => rw [State.portWriteBytemem, State.writeByte, if_neg hj]
  · rintro j v rfl
    obtain ⟨hstep, hframe, hinputs⟩ := step_of_access_frame hin (by simp)
      (access_writeWordmem_idle (s := { s with inputs := rest }) hidle j v)
      (portWriteWordmem_frame _ j.toNat v) (by decide)
    refine ⟨_, hstep, hframe, hinputs, fun b hb => ?_, ?_⟩
    · rw [State.portWriteWordmem, writeWord_read, if_neg (by omega)]
    · split
      · next hj => rw [State.portWriteWordmem, writeWord_read, if_pos ⟨rfl, hj⟩]
      · next hj => rw [State.portWriteWordmem, State.writeWord, if_neg hj]
  · rintro j v rfl
    obtain ⟨hstep, hframe, hinputs⟩ := step_of_access_frame hin (by simp)
      (access_writeBitmem_idle (s := { s with inputs := rest }) hidle j v)
      (portWriteBitmem_frame _ j.toNat v) (by decide)
    refine ⟨_, hstep, hframe, hinputs, portWriteBitmem_kept { s with inputs := rest } _ v, fun i hi => ?_⟩
    have hread := portWriteBitmem_read { s with inputs := rest } j.toNat v hi
    split
    · next hcap => rw [State.bit, hread, if_pos hcap, bit_ofBool]
    · next hcap => rw [hread, if_neg hcap]

/-! ### Reads -/

/-- Settles O51: the map by its definition, each read by the value that it puts on the port. -/
theorem portReadsHaveNoSideEffect : Obligations.PortReadsHaveNoSideEffect := by
  refine ⟨by decide, fun s => ?_, fun s a rest hin hidle => ⟨?_, ?_, ?_, ?_⟩⟩
  · have hcode : (s.readRegister 0x02).toNat = s.report.code.number.toNat := BitVec.toNat_setWidth_of_le (by decide)
    have hk : (s.readRegister 0x04).toNat = s.cfg.k.toNat := BitVec.toNat_setWidth_of_le (by decide)
    have hl : (s.readRegister 0x05).toNat = s.cfg.l.toNat := BitVec.toNat_setWidth_of_le (by decide)
    have hm : (s.readRegister 0x06).toNat = s.cfg.m.toNat := BitVec.toNat_setWidth_of_le (by decide)
    have hlMax : (s.readRegister 0x1A).toNat = s.cap.lMax.toNat := BitVec.toNat_setWidth_of_le (by decide)
    exact ⟨toNat_statusWord s.report, hcode, rfl, hk, hl, hm, toNat_enableWord s, rfl, rfl, rfl, rfl, rfl, rfl, rfl, rfl,
      rfl, rfl, rfl, rfl, rfl, rfl, rfl, rfl, rfl, rfl, hlMax, fun _ => readRegister_of_reserved s⟩
  · rintro r rfl
    exact (step_of_access hin (by simp)).trans
      (congrArg Host.Outcome.next (access_readReg_idle (s := { s with inputs := rest }) hidle r))
  · rintro j rfl
    obtain ⟨hstep, hframe, hinputs⟩ := step_of_access_frame hin (by simp)
      (access_readBytemem_idle (s := { s with inputs := rest }) hidle j) (hostRead_frame _ _) (by decide)
    refine ⟨_, hstep, hframe, hinputs, ?_⟩
    rw [State.hostRead, BitVec.toNat_setWidth_of_le (by decide), State.portReadBytemem, apply_ite BitVec.toNat]
    rfl
  · rintro j rfl
    obtain ⟨hstep, hframe, hinputs⟩ := step_of_access_frame hin (by simp)
      (access_readWordmem_idle (s := { s with inputs := rest }) hidle j) (hostRead_frame _ _) (by decide)
    exact ⟨_, hstep, hframe, hinputs, rfl⟩
  · rintro j rfl
    obtain ⟨hstep, hframe, hinputs⟩ := step_of_access_frame hin (by simp)
      (access_readBitmem_idle (s := { s with inputs := rest }) hidle j) (hostRead_frame _ _) (by decide)
    refine ⟨_, hstep, hframe, hinputs, ?_, fun i hi => ?_⟩
    · rw [State.hostRead, BitVec.toNat_setWidth_of_le (by decide)]
      exact BitVec.isLt _
    · have hlow : 7 - i < 32 := by omega
      rw [State.hostRead, BitVec.getLsbD_setWidth, portReadBitmem_getLsbD _ _ hi, decide_eq_true hlow]
      rfl

end Sys2Proof.Machine
end

section
/-! The start checks of 60_exceptions.md R139: which commands make each of them, and the error that a failing one ends the command in. -/

namespace Sys2Proof.Machine

/-! ### A start check that fails -/

theorem State.streamOk_eq_false_iff {s : State} :
    s.streamOk = false ↔ s.cap.bitmemBits.toNat < s.streamLen.toNat := by
  simp [State.streamOk]

theorem State.kOk_eq_false_iff {s : State} : s.kOk = false ↔ 32 < s.cfg.k.toNat := by
  simp [State.kOk]

theorem State.lmOk_eq_false_iff {s : State} :
    s.lmOk = false ↔ s.cap.lMax.toNat < s.cfg.l.toNat ∨ s.cfg.m.toNat = 0 ∨ 32 < s.cfg.m.toNat := by
  simp only [State.lmOk, Bool.and_eq_false_iff, decide_eq_false_iff_not]
  omega

theorem State.riceOk_eq_false_iff {s : State} : s.riceOk = false ↔ s.streamOk = false ∨ s.kOk = false :=
  Bool.and_eq_false_iff

theorem State.opsOk_eq_false_iff {s : State} :
    s.opsOk = false ↔ s.streamOk = false ∨ s.kOk = false ∨ s.lmOk = false := by
  rw [State.opsOk, Bool.and_eq_false_iff, Bool.and_eq_false_iff, or_assoc]

/-! ### The commands, when a start check fails -/

theorem forall_mem_pair {p : Instr → Prop} {i j : Instr} : (∀ x ∈ [i, j], p x) ↔ p i ∧ p j := by
  rw [List.forall_mem_cons, List.forall_mem_singleton]

/-- A decode command checks before its loop, and fails as a decode does (45_glz_decode.md R122, R123). -/
theorem decodeCommandFrom_of_badStart {s : State} (hok : s.opsOk = false) :
    decodeCommandFrom s = s.failDecode .config 0 := by
  rw [decodeCommandFrom, hok]
  rfl

section

variable {s : State}

theorem bitsCommands_of_badStream (hok : s.streamOk = false) :
    ∀ i ∈ [Instr.bitsPut, .bitsGet, .bitsPutStream, .bitsGetStream], endsInError i s .config 0 [] := by
  simp only [List.forall_mem_cons, List.not_mem_nil, false_imp_iff, implies_true, and_true]
  exact ⟨endsInError_of_guarded rfl hok, endsInError_of_guarded rfl hok, endsInError_of_guarded rfl hok,
    endsInError_of_guarded rfl hok⟩

theorem riceCommands_of_badStart (hok : s.riceOk = false) :
    ∀ i ∈ [Instr.ricePut, .riceGet], endsInError i s .config 0 [] := by
  exact forall_mem_pair.2 ⟨endsInError_of_guarded rfl hok, endsInError_of_guarded rfl hok⟩

theorem operationCommands_of_badStart (hok : s.opsOk = false) :
    ∀ i ∈ [Instr.glzOpPut, .glzOpGet], endsInError i s .config 0 [] := by
  exact forall_mem_pair.2 ⟨endsInError_of_guarded rfl hok, endsInError_of_guarded rfl hok⟩

theorem glzEncodeAll_of_badStart (hok : s.opsOk = false) :
    endsInError .glzEncodeAll s .config 0 [.bitmem, .wordmem] :=
  endsInError_glzEncodeAll (guarded_of_not (s := s.start) hok)

theorem decodeCommands_of_badStart (hok : s.opsOk = false) :
    ∀ i ∈ [Instr.glzDecodeAt, .glzDecodeStream], endsInError i s .config 0 [.bytemem, .cycles, .pushes, .dec] := by
  have hat := decodeCommandFrom_of_badStart (s := s.enterDecodeAt) hok
  have hstream := decodeCommandFrom_of_badStart (s := s.enterDecodeStream) hok
  exact forall_mem_pair.2 ⟨endsInError_of_failDecode (congrArg Host.Outcome.next hat) (enterDecodeAt_frame s),
    endsInError_of_failDecode (congrArg Host.Outcome.next hstream) (enterDecodeStream_frame s)⟩

/-- GLZ_SEED checks L and M alone (60_exceptions.md R139). -/
theorem glzSeed_of_badStart (hok : s.lmOk = false) : endsInError .glzSeed s .config 0 [.hist] :=
  endsInError_of_raised exec_glzSeed (by rw [guarded_of_not (s := s.start) hok, Ending.onError]) (looseHist_frame _)

end

/-! ### The statement -/

/-- Settles O43: each condition makes one start check fail, and with it the conjunctions of checks that hold it. -/
theorem startChecksFailWithConfig : Obligations.StartChecksFailWithConfig := by
  intro s
  refine ⟨fun hstream => ?_, fun hk => ?_, fun hlm => ?_⟩
  · have hstream := State.streamOk_eq_false_iff.2 hstream
    have hrice := State.riceOk_eq_false_iff.2 (.inl hstream)
    have hops := State.opsOk_eq_false_iff.2 (.inl hstream)
    exact ⟨List.forall_mem_append.2 ⟨bitsCommands_of_badStream hstream,
        List.forall_mem_append.2 ⟨riceCommands_of_badStart hrice, operationCommands_of_badStart hops⟩⟩,
      glzEncodeAll_of_badStart hops, decodeCommands_of_badStart hops⟩
  · have hk := State.kOk_eq_false_iff.2 hk
    have hrice := State.riceOk_eq_false_iff.2 (.inr hk)
    have hops := State.opsOk_eq_false_iff.2 (.inr (.inl hk))
    exact ⟨List.forall_mem_append.2 ⟨riceCommands_of_badStart hrice, operationCommands_of_badStart hops⟩,
      glzEncodeAll_of_badStart hops, decodeCommands_of_badStart hops⟩
  · have hlm := State.lmOk_eq_false_iff.2 hlm
    have hops := State.opsOk_eq_false_iff.2 (.inr (.inr hlm))
    exact ⟨operationCommands_of_badStart hops, glzEncodeAll_of_badStart hops, decodeCommands_of_badStart hops,
      glzSeed_of_badStart hlm⟩

end Sys2Proof.Machine
end

section
/-! What a busy block does with the host's accesses, and power-on reset (70_reset_and_hazards.md R142, R143, R145). -/

namespace Sys2Proof.Machine

/-! ### Steps of a busy block -/

/-- While BUSY = 1 a step takes its input as an access, a CMD write too: no command starts (70_reset_and_hazards.md R145). -/
theorem step_of_access_busy {s : State} {a : Input} {rest : List Input} (hin : s.inputs = a :: rest)
    (hbusy : s.report.busy = true) : step s = .next (State.access { s with inputs := rest } a) := by
  rcases step_cases s with ⟨b, rest', heq, hstep⟩ | ⟨w, rest', -, hidle, -⟩ | ⟨hnil, -⟩ | ⟨hnil, -⟩
  · obtain ⟨rfl, rfl⟩ := List.cons.inj (hin.symm.trans heq)
    exact hstep
  · exact absurd (hbusy.symm.trans hidle) (by decide)
  · exact absurd (hin.symm.trans hnil) (by simp)
  · exact absurd (hin.symm.trans hnil) (by simp)

/-- The step of an access that a busy block ignores takes its input and does nothing else. -/
theorem step_of_ignored_access {s : State} {a : Input} {rest : List Input} (hin : s.inputs = a :: rest)
    (hbusy : s.report.busy = true)
    (hignored : State.access { s with inputs := rest } a = { s with inputs := rest }) :
    step s = .next { s with inputs := rest } :=
  (step_of_access_busy hin hbusy).trans (congrArg Host.Outcome.next hignored)

/-- Settles O49: a busy block takes each access as one, a write without effect, and a read of STATUS is let through. -/
theorem busyBlockIgnoresHostWrites : Obligations.BusyBlockIgnoresHostWrites := by
  intro s a rest hin hbusy
  refine ⟨fun hwrite => step_of_ignored_access hin hbusy ?_, ?_⟩
  · have hlost := hostWrite_busy (s := { s with inputs := rest }) hbusy
    obtain ⟨r, v, rfl⟩ | ⟨j, v, rfl⟩ | ⟨j, v, rfl⟩ | ⟨j, v, rfl⟩ := hwrite
    · exact hlost fun t => t.writeRegister r v
    · exact hlost fun t => t.portWriteBitmem j.toNat v
    · exact hlost fun t => t.portWriteBytemem j.toNat v
    · exact hlost fun t => t.portWriteWordmem j.toNat v
  · rintro rfl
    exact step_of_access_busy hin hbusy

/-! ### Power-on reset -/

/-- A power-on input to an idle block resets it (70_reset_and_hazards.md R142). -/
theorem step_of_powerOn_idle {s : State} {rest : List Input} (hin : s.inputs = .powerOn :: rest)
    (hidle : s.report.busy = false) : step s = .next (State.powerOn { s with inputs := rest }) :=
  (step_of_access hin (by simp)).trans
    (congrArg Host.Outcome.next (externalReset_idle (s := { s with inputs := rest }) hidle))

/-- Settles O54: an idle block takes each field but the memories, the inputs and the port from the reset state, and a busy one loses the reset. -/
theorem powerOnResetsEveryRegister : Obligations.PowerOnResetsEveryRegister := by
  intro s rest hin
  refine ⟨fun hidle => ⟨_, step_of_powerOn_idle hin hidle, ?_⟩, fun hbusy => ?_⟩
  · exact ⟨rfl, rfl, rfl, rfl, rfl, rfl, rfl, fun n => rfl, rfl, rfl, rfl, rfl, rfl, rfl, rfl, rfl⟩
  · exact step_of_ignored_access hin hbusy (externalReset_busy (s := { s with inputs := rest }) hbusy)

end Sys2Proof.Machine
end
